-- ==== Sys2Proof/Word.lean ====
section
/-! DEFINITION. The word types of the module (R5, R7) and the two names every chapter uses: a port and an MRAM array. -/

namespace Sys2Proof

/-- A byte. -/
abbrev Byte := BitVec 8

/-- A register, 32 bits unless its table says otherwise (R7). -/
abbrev Word32 := BitVec 32

/-- Half of a native word: evaluator registers, codes, addresses of 64 bits. -/
abbrev Word64 := BitVec 64

/-- The native word, 128 bits (R7). -/
abbrev Word128 := BitVec 128

/-- The stored MRAM word: 128 data, 2 state and 17 check bits (Table MEM-2). -/
abbrev Raw147 := BitVec 147

/-- The two host ports (R91). -/
inductive Port where
  | a
  | b
  deriving DecidableEq, Repr

/-- The two MRAM arrays (R188). -/
inductive Arr where
  | A
  | B
  deriving DecidableEq, Repr

end Sys2Proof
end

