-- ==== Sys2Proof/Syntax.lean ====
section
/-! DEFINITION. The commands: one constructor for every row of spec/opcode_table.json, with the operands the row's text gives it.
An operand is what the outside world supplies at that step (a value written, a level, a measurement, the outcome of a physical act
such as a verify read; the clock edges a port B transaction was given); everything else the step reads is in the state. -/

namespace Sys2Proof

/-- The units of the peak governor, in the bit order of `PEAK_STAT.WAITING` (Table CON-8, Table CON-9). -/
inductive GovUnit where
  | rftx | rfrx | mema | memb | eng | bb | tally
  deriving DecidableEq, Repr

/-- Why a transaction is `BAD_CMD` of the table: the select rose within command, address or latency phase, or the opcode was unknown
or its 8D inverse byte wrong (Table PRT-10, kinds 0x0 and 0x1). -/
inductive CmdFlaw where
  | cut | unknown
  deriving DecidableEq, Repr

/-- A failing swatch pattern: unit, group and index (Table INT-8). -/
structure SwatchFail where
  unit  : BitVec 2
  group : BitVec 3
  index : BitVec 8
  deriving DecidableEq, Repr

/-- What cast-on meets in the world outside the module (Table LIF-2): supply and temperature, whether the TCXO passes R87, a domain that
reports no power-good (R68), the LEGACY level, a swatch pattern that fails (R229), whether the field sensor passes (R380), the
microseconds it took. -/
structure CastOnEnv where
  vbat       : Nat
  temp       : BitVec 8
  tcxoOk     : Bool
  domainFail : Option (Fin 8)
  strap      : Bool
  swatch     : Option SwatchFail
  fieldOk    : Bool
  us         : Nat
  deriving DecidableEq, Repr

/-- A frame as the receiver's front end delivers it: for each data subcarrier the in-phase and quadrature values of the four gauge symbols
(R266); the soft value of each data subcarrier's header bit (R253); for each data symbol and data subcarrier the soft values of its bits, b0
first (R261 to R263); which of two equally good decisions the decoder takes, a bit for each (log entry 189); level and offset (Table PHY-8); and
the microseconds from the module's own last frame end to this frame's gauge symbols (R297).  A soft value is a two's complement number of 3
bits, positive for a 1 and zero for nothing received.  A legacy frame is its bytes (R273). -/
structure RxFrame where
  gauge  : List (List (Int × Int))
  header : List (BitVec 3)
  soft   : List (List (List (BitVec 3)))
  ties   : Nat
  legacy : List Byte
  rssi   : BitVec 8
  cfo   : BitVec 16
  afterTxUs : Nat
  deriving DecidableEq, Repr

/-- The commands.  Engine operations name the in-flight operation they run by its number; evaluator instructions take their fields from the
instruction word at the evaluator's index; register actions name the port that writes. -/
inductive Instr where
  | registerWrite (p : Port) (off : BitVec 16) (val : Word32)
  | powerOnReset (vbat : Nat)
  | storeCharged
  | storeFail
  | earlyBreak (asserted : Bool) (ge4us : Bool)
  | castOn (env : CastOnEnv)
  | domainPowerGood
  | domainFail
  | tcxoCheck (ok : Bool)
  | bindOff (vbat : Nat)
  | supplyLoss (vbat : Nat)
  | storeBleedDone
  | vioLoss
  | vioReturn
  | calWindowEnd (period : BitVec 20)
  | wakeTimer (sleepUs : Nat)
  | admissionRequest (u : GovUnit) (power : BitVec 6)
  | chargeRelease (u : GovUnit)
  | selectWake (p : Port)
  | hostReset (p : Port) (widthNs : Nat)
  | paRead (addr : Word32) (len : Nat) (late : Bool)
  | paWrite (addr : Word32) (data : List Byte) (extraBits : Nat)
  | paReadStatus
  | paWriteEnable
  | paReadSfdp (addr : Word32) (len : Nat)
  | paReset
  | pbStatus (edges : Nat)
  | pbRegRead (addr : Word32) (len : BitVec 16) (edges : Nat)
  | pbRegWrite (addr : Word32) (len : BitVec 16) (data : List Byte) (edges : Nat)
  | pbMemRead (addr : Word32) (len : BitVec 16) (edges : Nat)
  | pbMemWrite (addr : Word32) (len : BitVec 16) (data : List Byte) (edges : Nat)
  | pbDoorbell (addr : Word32) (len : BitVec 16) (data : List Byte) (edges : Nat)
  | pbSkeinPush (addr : Word32) (len : BitVec 16) (data : List Byte) (edges : Nat)
  | pbSkeinPop (addr : Word32) (len : BitVec 16) (edges : Nat)
  | portOpen (p : Port) (slot : Fin 8)
  | portClose (p : Port)
  | openLockExpire (p : Port)
  | malClr (p : Port)
  | acquire (p : Port) (k : Fin 32) (lease : BitVec 16)
  | acquireWait (p : Port) (k : Fin 32) (lease : BitVec 16)
  | renew (p : Port) (k : Fin 32) (lease : BitVec 16)
  | release (p : Port) (k : Fin 32)
  | clearOrphan (p : Port) (k : Fin 32)
  | leaseExpire (k : Fin 32)
  | suspend (p : Port) (slot : Fin 8) (val : Bool)
  | tenIsoClr (p : Port) (slot : Fin 8)
  | lcGo (p : Port)
  | tallyBurn (low : Bool) (high : Bool)
  | doorbellPost (p : Port) (ring : Fin 512) (index : BitVec 16)
  | doorbellResume (p : Port) (ring : Fin 512) (index : BitVec 16)
  | doorbellDiscard (p : Port) (ring : Fin 512)
  | doorbellHalt (p : Port) (ring : Fin 512)
  | ringCfgWrite (p : Port) (j : Fin 64) (val : Word32)
  | descriptorFetch
  | nop (id : Nat)
  | writeImm (id : Nat)
  | copy (id : Nat)
  | fill (id : Nat)
  | compare (id : Nat)
  | cas (id : Nat)
  | add (id : Nat)
  | cmacCheck (id : Nat)
  | ccmOpen (id : Nat)
  | ccmSeal (id : Nat)
  | evaluate (id : Nat)
  | skeinPush (id : Nat)
  | skeinPop (id : Nat)
  | keyLoad (id : Nat)
  | keyActivate (id : Nat)
  | keyRetire (id : Nat)
  | keyDestroy (id : Nat)
  | lcChange (id : Nat)
  | engFrogClr (p : Port)
  | sknAlloc (p : Port) (block : Byte) (slot : Fin 8)
  | sknQuotaWrite (p : Port) (slot : Fin 8) (quota : BitVec 12)
  | configure (p : Port) (skein : BitVec 16)
  | unconfigure (p : Port) (skein : BitVec 16)
  | flush (p : Port) (skein : BitVec 16)
  | drop (p : Port) (skein : BitVec 16)
  | query (p : Port) (skein : BitVec 16)
  | sync (p : Port) (skein : BitVec 16)
  | allocate (p : Port) (granule : Fin 64) (owner : BitVec 4) (zeroFill : Bool)
  | setType (p : Port) (granule : Fin 64) (owner : BitVec 4) (zeroFill : Bool)
  | writeAttempt (arr : Arr) (ok : Bool)
  | remap (arr : Arr) (ok : Bool)
  | memHotClr (p : Port)
  | fieldSample (x y z : Int)
  | deferralEnd
  | patrolRow
  | scrubWake
  | repair
  | scanGo (p : Port) (val : Word32)
  | scanStop (p : Port)
  | scanDone
  | swatchGo (p : Port) (arr : Arr)
  | swatchDone (result : Option SwatchFail)
  | purgeSuspend (p : Port) (val : Bool)
  | purgeRound
  | superframeBoundary (receiving : Bool)
  | phyHopmaskWrite (p : Port) (i : Fin 7) (val : Word32)
  | phyChanWrite (p : Port) (fixed : Byte)
  | compatW2PhyWrite (p : Port) (val : Bool)
  | lbtListenEnd (windows : List (BitVec 8)) (gauge : Bool)
  | dutyBucketRoll
  | frameTxStart
  | frameTxEnd
  | beacon (f : RxFrame)
  | dataFrame (f : RxFrame)
  | ackFrame (f : RxFrame)
  | wakeFrame (f : RxFrame)
  | assocRsp (f : RxFrame)
  | slotAssign (f : RxFrame)
  | tonemap (f : RxFrame)
  | tonemapReq (f : RxFrame)
  | leave (f : RxFrame)
  | nbAdd (f : RxFrame)
  | nbDel (f : RxFrame)
  | assoc (p : Port)
  | macLeave (p : Port)
  | beaconWake
  | beaconWindowEnd
  | backoffExpire (dbm : Int)
  | ackSend
  | ackTimeout
  | pendWaitExpire
  | sniffWake (dbm : Int)
  | sniffListenEnd
  | rdvExpire
  | nbctlRead (p : Port) (entry : Fin 64)
  | nbctlWrite (p : Port) (entry : Fin 64)
  | nbctlDelete (p : Port) (entry : Fin 64)
  | sendOpportunity
  | refill
  | shpCfgWrite (p : Port) (slot : Fin 8) (val : Word32)
  | flowEnable (p : Port) (f : Fin 8)
  | tonemapPrevExpire (entry : Fin 64)
  | ldi
  | mov
  | ldw
  | stw
  | addw
  | evaAdd
  | sub
  | and
  | or
  | xor
  | shl
  | shr
  | addi
  | beq
  | bne
  | bltu
  | bgeu
  | bbs
  | jmp
  | find
  | sense
  | snap
  | hint
  | endProg
  | grantGroupAccept
  | markWaitExpire
  | pairDrive
  | pulseEnd (slot : Fin 8)
  | holdEnd
  | releaseFault (pins : BitVec 2)
  | relStatFaultClear (p : Port) (readbackOk : Bool)
  | unlockOrder (sender : Fin 8) (w0 w1 : Word128)
  | cancelOrder (sender : Fin 8) (w0 w1 : Word128)
  | emergMarkRetry
  | batterySample (mv : BitVec 16)
  | tempSample (t : BitVec 10)
  | doorChange (level : Bool)
  | boltChange (level : Bool)
  | snsClrChg (p : Port)
  | stSet (p : Port) (val : Word32)
  | trustExpire
  | boundaryCrossing
  | ledgerWriteback
  | periodWordWrite
  | stitchOffer
  | chainTagDone (ch : Fin 8)
  | recClassToC (p : Port) (bits : Byte)
  | bindLoad (p : Port) (code : BitVec 12)
  | bindWrite (p : Port) (code : BitVec 12) (cls : BitVec 4)
  | recClr (p : Port) (ch : Fin 8)
  | recPost (p : Port) (code : BitVec 12)
  | seek (p : Port) (ch : Fin 8) (mode : BitVec 2)
  | next (p : Port) (mode : BitVec 2)
  | auditGo (p : Port)
  | recast (p : Port)
  | haltRetry (env : CastOnEnv)
  | badCmd (p : Port) (flaw : CmdFlaw) (addr : Word32) (edges : Nat)
  | hdrBad (f : RxFrame)
  | lenBad (f : RxFrame)
  | formatFail (f : RxFrame)
  | slotEnd
  | sleepEntry
  | assocNoReply
  | storeExhausted (step : Fin 12)
  | badInsn
  | sknSelBadOp (p : Port) (skein : BitVec 16) (op : BitVec 4)
  | partCtlBadOp (p : Port) (op : BitVec 2)
  | recRdBadReq (p : Port) (op : BitVec 2) (mode : BitVec 2)
  deriving DecidableEq, Repr

end Sys2Proof
end

