-- ==== Sys2Proof/Config.lean ====
section
/-! DEFINITION. What the manual leaves free: constants without a body, so that no proof can see a value of them. -/

namespace Sys2Proof.Config

/-- A fresh random or open value of 128 bits, drawn with `State.freeCtr`: nonces (R97, R99, R407), seals (R36), backoff and listen
times (R270, R291), the holding drop D (R61).  DESIGN CHOICE, log entry 1. -/
opaque freeBits : Nat → BitVec 128

/-- The stored bits that the last failed attempt of a write leaves (R202), drawn with `State.freeCtr`.  Log entry 2. -/
opaque failedWord : Nat → BitVec 147

/-- What the decoder delivers for a word more than three errors away from every code word (R192, Table MEM-3): nothing, or the 130 bits of
data and state it delivers, as corrected or as clean.  Log entry 3. -/
opaque decodeBeyond : BitVec 147 → Option (Bool × BitVec 130)

/-- Whether a host reset pulse of 0.5 us to 1 us resets the port in full or is ignored in full (R115).  Log entry 4. -/
opaque shortResetTaken : Nat → Bool

/-- The byte of the SFDP image at an offset past the header (R101 names the image's tables and gives no byte of them).  Log entry 5. -/
opaque sfdpByte : Nat → BitVec 8

/-- Whether the code of a field magnitude that lies between two codes is the upper one, by the sum of the squares (R366 gives no rounding).
Log entry 16. -/
opaque roundMagUp : Nat → Bool

/-- The code of the cause in a NEEDLE_ORPHAN stitch (R119 gives the codes no number): lease, close, transfer.  Log entry 34. -/
opaque orphanCause : Nat → BitVec 32

/-- Whether a temperature of quarter degrees that is no whole degree is given as the upper whole degree (Tables EVA-5, EVA-7 and REC-4 give no
rounding).  Log entry 35. -/
opaque roundTempUp : BitVec 10 → Bool

/-- Whether the quotient of a measurement that lies between two codes is given as the upper one: the mean SNR code of R295 by its sum and its
number of subcarriers, and a tie of R266 by the sum.  Log entry 46. -/
opaque roundUp : Nat → Nat → Bool

/-- The code by which a LOOP_STARVED stitch names the limit that clamped (R332 gives the limits no number): regulatory, governor, software,
full pool.  Log entry 47. -/
opaque limitCode : Nat → BitVec 32

end Sys2Proof.Config
end

