-- ==== Sys2Proof/Machine/Bits.lean ====
section
/-! DEFINITION. Fields, bytes and byte order (R5, R6, R449, R450), saturating counts, and lookups in sparse tables. -/

namespace Sys2Proof.Machine

/-! ## Fields -/

/-- Bits [hi:lo] of a word (R5), as a number. -/
def field {w : Nat} (x : BitVec w) (hi lo : Nat) : Nat := (x.toNat >>> lo) % 2 ^ (hi - lo + 1)

/-- Bit i of a word. -/
def flag {w : Nat} (x : BitVec w) (i : Nat) : Bool := x.getLsbD i

/-- A number placed at bit lo of a word. -/
def at_ {w : Nat} (lo n : Nat) : BitVec w := BitVec.ofNat w n <<< lo

/-- A bit placed at bit i of a word. -/
def bitAt {w : Nat} (i : Nat) (b : Bool) : BitVec w := if b then BitVec.ofNat w 1 <<< i else 0

/-- The OR of fields placed in one word. -/
def orAll {w : Nat} (l : List (BitVec w)) : BitVec w := l.foldl (· ||| ·) 0

/-- `new` in the bits of `mask`, `old` elsewhere: how a write reaches only the writable fields of a register (R13). -/
def merge {w : Nat} (mask old new : BitVec w) : BitVec w := (old &&& ~~~mask) ||| (new &&& mask)

/-- `x` with bits [hi:lo] replaced by those of `n`. -/
def setField {w : Nat} (x : BitVec w) (hi lo : Nat) (n : Nat) : BitVec w :=
  merge (BitVec.ofNat w (2 ^ (hi + 1) - 2 ^ lo)) x (BitVec.ofNat w n <<< lo)

/-! ## Saturating counts -/

/-- A count of w bits plus n, saturating at all ones. -/
def satAdd {w : Nat} (x : BitVec w) (n : Nat) : BitVec w :=
  if x.toNat + n < 2 ^ w then BitVec.ofNat w (x.toNat + n) else BitVec.allOnes w

/-- A saturating count incremented. -/
def satInc {w : Nat} (x : BitVec w) : BitVec w := satAdd x 1

/-- A number limited to the largest of w bits. -/
def satNat (w n : Nat) : Nat := min n (2 ^ w - 1)

/-! ## Bytes -/

/-- The first n bytes of a word in the byte order of R6: byte 0 is bits [7:0]. -/
def bytesLE {w : Nat} : Nat → BitVec w → List Byte
  | 0, _ => []
  | n + 1, x => x.setWidth 8 :: bytesLE n (x >>> 8)

/-- A word of w bits from bytes in the byte order of R6. -/
def ofBytesLE (w : Nat) : List Byte → BitVec w
  | [] => 0
  | b :: bs => (ofBytesLE w bs <<< 8) ||| b.setWidth w

/-- The first n bytes of a number, most significant byte first (the two places R450 names). -/
def bytesBE (n : Nat) {w : Nat} (x : BitVec w) : List Byte := (bytesLE n x).reverse

/-- The four registers of a line, register 0 in bits [31:0] (R7). -/
def regOfWord (x : Word128) (k : Nat) : Word32 := (x >>> (32 * k)).setWidth 32

/-- `x` with its register k replaced. -/
def setRegOfWord (x : Word128) (k : Nat) (v : Word32) : Word128 := setField x (32 * k + 31) (32 * k) v.toNat

/-- The 16 bytes of a word (R6). -/
def bytesOf (x : Word128) : List Byte := bytesLE 16 x

/-- The words of a byte string, the last padded with zero bytes. -/
def wordsOf : Nat → List Byte → List Word128
  | 0, _ => []
  | n + 1, bs => ofBytesLE 128 (bs.take 16) :: wordsOf n (bs.drop 16)

/-- `old` with bytes from index i replaced by `new`. -/
def overlay (old : List Byte) (i : Nat) (new : List Byte) : List Byte := old.take i ++ new ++ old.drop (i + new.length)

/-! ## Sparse tables (keys strictly rising) -/

/-- The entry of a key. -/
def lookup {α : Type} (k : Nat) : List (Nat × α) → Option α
  | [] => none
  | (j, a) :: t => if j = k then some a else lookup k t

/-- The table with the entry of a key set, or removed on none, the keys still rising. -/
def store {α : Type} (k : Nat) (v : Option α) : List (Nat × α) → List (Nat × α)
  | [] => v.toList.map (k, ·)
  | (j, a) :: t =>
    if j < k then (j, a) :: store k v t
    else if j = k then v.toList.map (k, ·) ++ t
    else v.toList.map (k, ·) ++ (j, a) :: t

/-- Keys strictly rising. -/
def sorted {α : Type} : List (Nat × α) → Bool
  | [] => true
  | [_] => true
  | (j, _) :: (k, b) :: t => j < k && sorted ((k, b) :: t)

/-! ## Vectors -/

/-- A vector with one element changed. -/
def upd {α : Type} {n : Nat} (v : Vector α n) (i : Fin n) (f : α → α) : Vector α n := v.set i.val (f v[i]) i.isLt

/-- Element i of n, taken modulo n for a number read from a field of that width. -/
def finOf (n : Nat) [NeZero n] (i : Nat) : Fin n := Fin.ofNat n i

/-! ## Lists -/

/-- The first element that satisfies p, with its index from k. -/
def findFrom {α : Type} (p : α → Bool) : Nat → List α → Option (Nat × α)
  | _, [] => none
  | k, a :: t => if p a then some (k, a) else findFrom p (k + 1) t

/-- Apply f to the first element that satisfies p. -/
def mapFirst {α : Type} (p : α → Bool) (f : α → α) : List α → List α
  | [] => []
  | a :: t => if p a then f a :: t else a :: mapFirst p f t

end Sys2Proof.Machine
end

