-- ==== Sys2Proof/Machine/Bch.lean ====
section
/-! DEFINITION. The stored MRAM word: its BCH code, and what a read of it delivers (R191 to R194, Tables MEM-2 and MEM-3). -/

namespace Sys2Proof.Machine

/-- One step of the division by g(x) of R191: the remainder of 16 bits after one more message bit, highest power first. -/
def bchStep (c : BitVec 16) (b : Bool) : BitVec 16 := if c.msb != b then (c <<< 1) ^^^ 0x6F63 else c <<< 1

/-- Remainder of x^16 times the bits n−1 to 0 of m, from remainder c. -/
def bchGo (m : BitVec 130) : Nat → BitVec 16 → BitVec 16
  | 0, c => c
  | n + 1, c => bchGo m n (bchStep c (m.getLsbD n))

/-- The check bits of 130 message bits (R191). -/
def bchCheck (m : BitVec 130) : BitVec 16 := bchGo m 130 0

/-- The parity of the low n bits. -/
def parity {w : Nat} (x : BitVec w) : Nat → Bool
  | 0 => false
  | n + 1 => x.getLsbD n != parity x n

/-- The stored word of 130 bits of data and state: check bits from bit 130, parity in bit 146 (Table MEM-2). -/
def encode130 (m : BitVec 130) : Raw147 :=
  let x : Raw147 := m.setWidth 147 ||| ((bchCheck m).setWidth 147 <<< 130)
  x ||| bitAt 146 (parity x 146)

/-- A WRITTEN word of this data. -/
def encodeData (d : Word128) : Raw147 := encode130 (d.setWidth 130 ||| at_ 128 1)

/-- The blank word: data zero, state BLANK and the matching check bits (R193). -/
def blankRaw : Raw147 := encode130 (at_ 128 2)

/-- Syndrome of a stored word: its check bits against those of its message. -/
def bchSyndrome (r : Raw147) : BitVec 16 := bchCheck (r.setWidth 130) ^^^ (r >>> 130).setWidth 16

/-- Syndrome of an error in bit i alone. -/
def errSyndrome (i : Nat) : BitVec 16 := bchSyndrome (bitAt i true)

/-- The bit whose single error has this syndrome. -/
def oneError (s : BitVec 16) : Option Nat := (List.range 147).find? fun i => errSyndrome i = s

/-- Two bits whose errors together have this syndrome. -/
def twoErrors (s : BitVec 16) : Option (Nat × Nat) :=
  (List.range 147).findSome? fun i => (oneError (s ^^^ errSyndrome i)).bind fun j => if i = j then none else some (i, j)

/-- Three bits whose errors together have this syndrome exist. -/
def threeErrors (s : BitVec 16) : Bool := (List.range 147).any fun i => (twoErrors (s ^^^ errSyndrome i)).isSome

/-- Decoder result (Table MEM-3). -/
inductive Decoded where
  | clean (m : BitVec 130)
  | corrected (m : BitVec 130)
  | detected
  deriving DecidableEq, Repr

/-- Decode a stored word (R192): no error, one or two corrected, three detected; further from every code word the result is free. -/
def decodeRaw (r : Raw147) : Decoded :=
  let s := bchSyndrome r
  let beyond := match Config.decodeBeyond r with
    | none => Decoded.detected
    | some (c, m) => if c then .corrected m else .clean m
  if parity r 147 then
    match oneError s with
    | some i => .corrected ((r ^^^ bitAt i true).setWidth 130)
    | none => if threeErrors s then .detected else beyond
  else if s = 0 then .clean (r.setWidth 130)
  else match twoErrors s with
    | some (i, j) => .corrected ((r ^^^ bitAt i true ^^^ bitAt j true).setWidth 130)
    | none => beyond

/-- Cause of an uncorrectable word, (R219). -/
inductive UncCause where
  | check | indeterminate | blank | purged
  deriving DecidableEq, Repr

/-- What a read of a word finds after the decode and the state bits (R192, R194), before the region rules for a blank word. -/
inductive WordRead where
  | data (d : Word128) (corrected : Bool)
  | blank (corrected : Bool)
  | unc (c : UncCause)
  deriving DecidableEq, Repr

/-- The state bits after a clean or corrected decode (R192). -/
def readStateBits (m : BitVec 130) (corrected : Bool) : WordRead :=
  if field m 129 128 = 1 then .data (m.setWidth 128) corrected
  else if field m 129 128 = 2 then .blank corrected
  else .unc .indeterminate

/-- What a read of a stored word finds. -/
def readRaw (r : Raw147) : WordRead :=
  match decodeRaw r with
  | .clean m => readStateBits m false
  | .corrected m => readStateBits m true
  | .detected => .unc .check

end Sys2Proof.Machine
end

