-- ==== Sys2Proof/Machine/Crypto.lean ====
section
/-! DEFINITION. The ciphers and checks the manual takes from standards: AES-128 (FIPS 197), AES-CMAC (SP 800-38B), CCM* (R298), AES key
unwrap (RFC 3394), and the CRCs of R282, R253 and R273. -/

namespace Sys2Proof.Machine

/-! ## AES-128, on byte strings of 16, first byte first -/

/-- The S-box, entry x in byte x. -/
def sboxTable : BitVec 2048 :=
  0x16bb54b00f2d99416842e6bf0d89a18cdf2855cee9871e9b948ed9691198f8e19e1dc186b95735610ef6034866b53e708a8bbd4b1f74dde8c6b4a61c2e2578ba08ae7a65eaf4566ca94ed58d6d37c8e779e4959162acd3c25c2406490a3a32e0db0b5ede14b8ee4688902a22dc4f816073195d643d7ea7c41744975fec130ccdd2f3ff1021dab6bcf5389d928f40a351a89f3c507f02f94585334d43fbaaefd0cf584c4a39becb6a5bb1fc20ed00d153842fe329b3d63b52a05a6e1b1a2c830975b227ebe28012079a059618c323c7041531d871f1e5a534ccf73f362693fdb7c072a49cafa2d4adf04759fa7dc982ca76abd7fe2b670130c56f6bf27b777c63

/-- The inverse S-box, entry x in byte x. -/
def invSboxTable : BitVec 2048 :=
  0x7d0c2155631469e126d677ba7e042b17619953833cbbebc8b0f52aae4d3be0a0ef9cc9939f7ae52d0d4ab519a97f51605fec8027591012b131c7078833a8dd1ff45acd78fec0db9a2079d2c64b3e56fc1bbe18aa0e62b76f89c5291d711af1476edf751ce837f9e28535ade72274ac9673e6b4f0cecff297eadc674f4111913a6b8a130103bdafc1020f3fca8f1e2cd00645b3b80558e4f70ad3bc8c00abd890849d8da75746155edab9edfd5048706c92b6655dcc5ca4d41698688664f6f87225d18b6d49a25b76b224d92866a12e084ec3fa420b954cee3d23c2a632947b54cbe9dec444438e3487ff2f9b8239e37cfbd7f3819ea340bf38a53630d56a0952

def sbox (x : Byte) : Byte := (sboxTable >>> (8 * x.toNat)).setWidth 8

def invSbox (x : Byte) : Byte := (invSboxTable >>> (8 * x.toNat)).setWidth 8

/-- Multiplication by x in the field of AES. -/
def xtime (a : Byte) : Byte := if a.msb then (a <<< 1) ^^^ 0x1B else a <<< 1

/-- Multiplication by a small constant in the field of AES. -/
def gmul (c : Nat) (a : Byte) : Byte :=
  (if c.testBit 0 then a else 0) ^^^ (if c.testBit 1 then xtime a else 0) ^^^ (if c.testBit 2 then xtime (xtime a) else 0) ^^^
    (if c.testBit 3 then xtime (xtime (xtime a)) else 0)

def xorBytes (a b : List Byte) : List Byte := List.zipWith (· ^^^ ·) a b

/-- One round key from the one before it. -/
def nextRoundKey (rcon : Byte) (k : List Byte) : List Byte :=
  let t := [sbox (k.getD 13 0) ^^^ rcon, sbox (k.getD 14 0), sbox (k.getD 15 0), sbox (k.getD 12 0)]
  let w0 := xorBytes (k.take 4) t
  let w1 := xorBytes ((k.drop 4).take 4) w0
  let w2 := xorBytes ((k.drop 8).take 4) w1
  let w3 := xorBytes (k.drop 12) w2
  w0 ++ w1 ++ w2 ++ w3

/-- Round keys 1 to n after k. -/
def roundKeys : Nat → Byte → List Byte → List (List Byte)
  | 0, _, _ => []
  | n + 1, rcon, k => let k' := nextRoundKey rcon k; k' :: roundKeys n (xtime rcon) k'

/-- Byte i of ShiftRows comes from this byte. -/
def shiftIdx : List Nat := [0, 5, 10, 15, 4, 9, 14, 3, 8, 13, 2, 7, 12, 1, 6, 11]

def invShiftIdx : List Nat := [0, 13, 10, 7, 4, 1, 14, 11, 8, 5, 2, 15, 12, 9, 6, 3]

def permute (idx : List Nat) (st : List Byte) : List Byte := idx.map fun i => st.getD i 0

def mixColumn (c0 c1 c2 c3 : Nat) : List Byte → List Byte
  | [a, b, c, d] =>
    [gmul c0 a ^^^ gmul c1 b ^^^ gmul c2 c ^^^ gmul c3 d, gmul c3 a ^^^ gmul c0 b ^^^ gmul c1 c ^^^ gmul c2 d,
     gmul c2 a ^^^ gmul c3 b ^^^ gmul c0 c ^^^ gmul c1 d, gmul c1 a ^^^ gmul c2 b ^^^ gmul c3 c ^^^ gmul c0 d]
  | l => l

def mixColumns (c0 c1 c2 c3 : Nat) (st : List Byte) : List Byte :=
  mixColumn c0 c1 c2 c3 (st.take 4) ++ mixColumn c0 c1 c2 c3 ((st.drop 4).take 4) ++
    mixColumn c0 c1 c2 c3 ((st.drop 8).take 4) ++ mixColumn c0 c1 c2 c3 (st.drop 12)

/-- AES-128 encryption of one block. -/
def aesEnc (key block : List Byte) : List Byte :=
  let rk := roundKeys 10 1 key
  let st := (rk.take 9).foldl (fun st k => xorBytes (mixColumns 2 3 1 1 (permute shiftIdx (st.map sbox))) k) (xorBytes block key)
  xorBytes (permute shiftIdx (st.map sbox)) (rk.getD 9 [])

/-- AES-128 decryption of one block. -/
def aesDec (key block : List Byte) : List Byte :=
  let rk := roundKeys 10 1 key
  let st := ((rk.take 9).reverse).foldl
    (fun st k => mixColumns 14 11 13 9 (xorBytes ((permute invShiftIdx st).map invSbox) k)) (xorBytes block (rk.getD 9 []))
  xorBytes ((permute invShiftIdx st).map invSbox) key

/-- AES-128 of a block under a key held as R38 holds it: byte 0 in bits [7:0]. -/
def aes (key : Word128) (block : List Byte) : List Byte := aesEnc (bytesOf key) block

def zeros (n : Nat) : List Byte := List.replicate n 0

/-! ## AES-CMAC -/

/-- A byte string as one number, first byte most significant. -/
def beNat (bs : List Byte) : Nat := bs.foldl (fun n b => 256 * n + b.toNat) 0

/-- The doubling of SP 800-38B. -/
def dbl (bs : List Byte) : List Byte :=
  let x : BitVec 128 := BitVec.ofNat 128 (beNat bs)
  bytesBE 16 (if x.msb then (x <<< 1) ^^^ 0x87 else x <<< 1)

/-- Chaining over n whole blocks: the state and what is left. -/
def cbc (key : Word128) : Nat → List Byte → List Byte → List Byte
  | 0, st, _ => st
  | n + 1, st, m => cbc key n (aes key (xorBytes st (m.take 16))) (m.drop 16)

/-- AES-CMAC of a byte string. -/
def cmac (key : Word128) (m : List Byte) : List Byte :=
  let k1 := dbl (aes key (zeros 16))
  let n := (m.length + 15) / 16
  let full := n ≠ 0 && m.length % 16 = 0
  let n := if n = 0 then 1 else n
  let last := m.drop (16 * (n - 1))
  let last := if full then xorBytes last k1
    else xorBytes (last ++ 0x80 :: zeros (15 - last.length)) (dbl k1)
  aes key (xorBytes (cbc key (n - 1) (zeros 16) m) last)

/-- The leftmost 64 bits of an AES-CMAC as R449 places them in a field. -/
def cmac64 (key : Word128) (m : List Byte) : Word64 := ofBytesLE 64 ((cmac key m).take 8)

/-! ## CCM* with a 2-byte length field (R298): nonce of 13 bytes -/

def pad16 (bs : List Byte) : List Byte := bs ++ zeros ((16 - bs.length % 16) % 16)

/-- The key stream block A_i. -/
def ccmA (key : Word128) (nonce : List Byte) (i : Nat) : List Byte :=
  aes key (0x01 :: nonce ++ bytesBE 2 (BitVec.ofNat 16 i))

/-- Counter mode over n blocks from A_i. -/
def ctr (key : Word128) (nonce : List Byte) : Nat → Nat → List Byte → List Byte
  | 0, _, _ => []
  | n + 1, i, m => xorBytes (m.take 16) (ccmA key nonce i) ++ ctr key nonce n (i + 1) (m.drop 16)

def ccmCrypt (key : Word128) (nonce m : List Byte) : List Byte := ctr key nonce ((m.length + 15) / 16) 1 m

/-- The authentication tag of CCM*, m bytes long; 0 gives none. -/
def ccmTag (key : Word128) (nonce aad pt : List Byte) (m : Nat) : List Byte :=
  let b0 : List Byte := BitVec.ofNat 8 ((if aad.isEmpty then 0 else 64) + 8 * ((m - 2) / 2) + 1) :: nonce ++ bytesBE 2 (BitVec.ofNat 16 pt.length)
  let a := if aad.isEmpty then [] else pad16 (bytesBE 2 (BitVec.ofNat 16 aad.length) ++ aad)
  let msg := b0 ++ a ++ pad16 pt
  (xorBytes (cbc key (msg.length / 16) (zeros 16) msg) (ccmA key nonce 0)).take m

/-! ## RFC 3394 key unwrap -/

/-- One step of the unwrapping: B = AES-1((A xor t) | R). -/
def unwrapStep (key a r : List Byte) (t : Nat) : List Byte :=
  aesDec key (xorBytes a (bytesBE 8 (BitVec.ofNat 64 t)) ++ r)

/-- Steps t down to 1 on n registers of 8 bytes: register ((t - 1) mod n) is stepped at t. -/
def unwrapGo (key : List Byte) (n : Nat) : Nat → List Byte → List (List Byte) → List Byte × List (List Byte)
  | 0, a, rs => (a, rs)
  | t + 1, a, rs =>
    let b := unwrapStep key a (rs.getD (t % n) []) (t + 1)
    unwrapGo key n t (b.take 8) (rs.set (t % n) (b.drop 8))

/-- Chunks of 8 bytes. -/
def chunks8 : Nat → List Byte → List (List Byte)
  | 0, _ => []
  | n + 1, bs => bs.take 8 :: chunks8 n (bs.drop 8)

/-- RFC 3394 unwrap of a blob of 8 (n + 1) bytes: the 8 n bytes wrapped, or none when the integrity check fails. -/
def keyUnwrap (key : Word128) (blob : List Byte) : Option (List Byte) :=
  let n := blob.length / 8 - 1
  let r := unwrapGo (bytesOf key) n (6 * n) (blob.take 8) (chunks8 n (blob.drop 8))
  if r.1 = List.replicate 8 0xA6 then some r.2.flatten else none

/-! ## CRCs -/

/-- One bit of a reflected CRC of w bits. -/
def crcBitR {w : Nat} (poly : BitVec w) (c : BitVec w) : BitVec w := if c.getLsbD 0 then (c >>> 1) ^^^ poly else c >>> 1

def iter {α : Type} (f : α → α) : Nat → α → α
  | 0, a => a
  | n + 1, a => iter f n (f a)

/-- CRC-32 as in R282, over a byte string. -/
def crc32 (bs : List Byte) : Word32 :=
  ~~~(bs.foldl (fun c b => iter (crcBitR 0xEDB88320) 8 (c ^^^ b.setWidth 32)) (BitVec.allOnes 32))

end Sys2Proof.Machine
end

