-- ==== Sys2Proof/Machine/State.lean ====
section
/-! DEFINITION. The state of the module as plain data, block by block, and `State.reset`.
Every field's comment ends with the rule that names it, the file of spec/, and its reset value in brackets.
"volatile" fields are lost with their domain, "ret" fields with AON retention (R10, R81), "sys" fields live in the system area. -/

namespace Sys2Proof.Machine

/-- What stops the model. -/
inductive Fault where
  /-- Raised by CAST_ON and HALT_RETRY when `MODULE_ID.REV` is not AC: R16 puts such a module outside the manual.  Safe. -/
  | outsideManual
  deriving DecidableEq, Repr

/-- A command without a meaning. -/
inductive Refusal where
  /-- Raised by the arms of exec that have no meaning yet.  Safe. -/
  | notModelled (mnemonic : String)
  deriving DecidableEq, Repr

/-- A sparse table: keys strictly rising, no entry equal to what an unlisted key reads as. -/
abbrev Sparse (α : Type) := List (Nat × α)

/-! ## Supply, clocks, domains, governor, module state -/

/-- How far the supply has come before cast-on (R61, R74, R81, R86). -/
inductive Supply where
  /-- VBAT below 1.9 V -/
  | por
  | charging
  /-- store charged, charger holding -/
  | holding
  /-- store bleed running (R81, R456) -/
  | bleeding
  deriving DecidableEq, Repr

/-- `LIF_STAT.STATE` (R422). -/
inductive LifState where
  | castOn | run | limp | halt | bindOff
  deriving DecidableEq, Repr

/-- What triggers a bind-off: `BIND_OFF` snapshot 0 (Table REC-4). -/
inductive Trigger where
  | earlyBreak | supplyLoss | recast
  deriving DecidableEq, Repr

/-- One request to the governor: unit and charge in 0.1 mA (R69, Table CON-8). -/
structure GovReq where
  u      : GovUnit
  charge : Nat
  deriving DecidableEq, Repr

/-- Power, clock and governor registers and the state behind them. -/
structure Power where
  /-- supply phase before and around cast-on [R74, 03; por] -/
  supply    : Supply
  /-- cast-on has begun (R76) and no stop has ended it [R76, 03; false] -/
  begun     : Bool
  /-- `PWR_STAT.EB`, EARLY_BREAK asserted, 1 bit [R59, Table CON-7, 03; 0] -/
  eb        : Bool
  /-- the 4 us filter runs after cast-on [R76, 03; false] -/
  ebFilter  : Bool
  /-- a bind-off trigger has passed its filter [R76, R88, 03; none] -/
  trigger   : Option Trigger
  /-- RECAST steps 1 to 3 are done and cast-on follows [R428, 15; false] -/
  recasting : Bool
  /-- cast-on waits at PORT for VIO (R82): what it met at its start [R82, 03; none] -/
  waitVio   : Option CastOnEnv
  /-- VBAT in mV at the last event that measured it [R61, 03; DESIGN CHOICE 0 (log 6)] -/
  vbat      : Nat
  /-- `PWR_STAT.STORE_MV`, 12 bits [Table CON-7, 03; 0] -/
  storeMv   : Nat
  /-- `PWR_STAT.STORE_OK` [R61, 03; 0] -/
  storeOk   : Bool
  /-- charger switch closed [R61, R76, 03; true] -/
  charger   : Bool
  /-- `PWR_STAT.VIO_OK` [R62, 03; 0] -/
  vioOk     : Bool
  /-- `PWR_STAT.DOM_ON`, 8 bits: AON PORT ENG MEMA MEMB BB RFRX RFTX [R67, 03; 0x01] -/
  domOn     : BitVec 8
  /-- domains wanted by the task at hand, 8 bits [R67, 03; 0] -/
  domWant   : BitVec 8
  /-- the domain started and not yet power-good [R67, 03; none] -/
  domStart  : Option (Fin 8)
  /-- us after the previous power-good at which `domStart` starts [R67, 03; 0] -/
  domStepUs : Nat
  /-- `PWR_CTL`, raw, STAGGER [3:0] [Table CON-7, 03; 0x1] -/
  pwrCtl    : Word32
  /-- `PWR_STAT.LAST_STOP`, 2 bits, sys [R419, 15; 0b00] -/
  lastStop  : BitVec 2
  /-- `CLK_CTL`, raw, CAL_WIN [1:0], GUARD_PPM [15:4] [Table CON-6, 03; 0x3E81] -/
  clkCtl    : Word32
  /-- `CLK_STAT.RC_PERIOD`, 20 bits [R65, 03; 0x7_7359] -/
  rcPeriod  : BitVec 20
  /-- `CLK_STAT.CAL_AGE`, 4 bits [R65, 03; 0] -/
  calAge    : BitVec 4
  /-- a calibration window is open [R65, 03; false] -/
  calOpen   : Bool
  /-- `CLK_STAT.TCXO_OK` [R87, 03; 0] -/
  tcxoOk    : Bool
  /-- the TCXO check of a wake is under way [R87, 03; false] -/
  tcxoCheck : Bool
  /-- the module sleeps [R424, 15; false] -/
  asleep    : Bool
  /-- guard G of the last wake in ns [R66, 03; 0] -/
  guardNs   : Nat
  /-- us before the target at which the wake timer fires [R66, 03; 0] -/
  wakeLeadUs : Nat
  /-- `PEAK_CEIL`, raw, LIMIT [5:0], BURST_MAX [10:8] [Table CON-9, 03; 0x610] -/
  peakCeil  : Word32
  /-- admitted units with their charges, in order of admission [R69, 03; none] -/
  admitted  : List GovReq
  /-- waiting requests in arrival order [R70, 03; none] -/
  waiting   : List GovReq
  /-- `PEAK_STAT.NOFIT` [R71, 03; 0] -/
  nofit     : Bool
  /-- `PEAK_STAT.NOFIT_UNIT`, 3 bits [Table CON-9, 03; 0] -/
  nofitUnit : BitVec 3
  /-- words written by array A and B since their admission [R70, 03; 0] -/
  burstA    : Nat
  /-- as `burstA` for array B [R70, 03; 0] -/
  burstB    : Nat
  deriving DecidableEq, Repr

/-- Module state and faults (Table LIF-7). -/
structure Life where
  /-- `LIF_STAT.STATE`, 3 bits [R422, 15; CAST_ON] -/
  state     : LifState
  /-- `LIF_STAT.STEP`, 4 bits [Table LIF-7, 15; 0] -/
  step      : BitVec 4
  /-- `LIF_STAT.WAKE_FAILS`, 8 bits, ret [R429, 15; 0] -/
  wakeFails : BitVec 8
  /-- `LIF_STAT.CASTON`, 16 bits, sys [R387, 14; 0] -/
  caston    : BitVec 16
  /-- `LIF_FAULT.MASK`, 16 bits, ret [R426, 15; 0] -/
  mask      : BitVec 16
  /-- `LIF_FAULT.FIRST`, 8 bits, ret [R426, 15; 0] -/
  first     : BitVec 8
  /-- `LIF_FAULT.VALID`, ret [R426, 15; 0] -/
  valid     : Bool
  /-- `LIF_DETAIL`, 32 bits, ret [R426, 15; 0] -/
  detail    : Word32
  /-- `LIF_CASTON_US`, 16 bits [Table LIF-7, 15; 0] -/
  castonUs  : BitVec 16
  /-- a repeat of cast-on after 60 s is due [R426, 15; false] -/
  retry     : Bool
  /-- DOMAIN_FAIL has happened once [R426, 15; false] -/
  domFailed : Bool
  /-- AON retention is intact [R419, 15; false] -/
  aonIntact : Bool
  /-- the live values in AON retention are those of this module's run: a cast-on has passed step 9 since power-up [R10, 00; false] -/
  restored  : Bool
  /-- a rule keyed on LAST_STOP 0b10 applies (R420) [R420, 15; false] -/
  unclean   : Bool
  /-- ms of TICK_CLK counted, the base of the recorder clock and the leases, ret [R392, 14; 0] -/
  ms        : Nat
  deriving DecidableEq, Repr

/-- Fuses (R43, Table PRT-4). -/
structure Fuses where
  /-- `MODULE_ID.VARIANT`, 4 bits [R1, 04; DESIGN CHOICE 0x1 (log 7)] -/
  variant   : BitVec 4
  /-- `MODULE_ID.REV`, 16 bits [R1, 04; 0x4341] -/
  rev       : BitVec 16
  /-- `LONG_ADDR_HI` and `_LO`, 64 bits [Table PRT-4, 04; DESIGN CHOICE 0x0014_6E00_0B27_91C5 (log 7)] -/
  longAddr  : Word64
  /-- transport key, AES-128 byte string, byte 0 first in bits [7:0] [R38, 02; DESIGN CHOICE 0 (log 7)] -/
  transport : Word128
  /-- tally array, 512 antifuses, 1 conducts [R43, 02; 0 in bits 269 to 0] -/
  antifuses : BitVec 512
  deriving DecidableEq, Repr

/-! ## Ports and needles -/

/-- One host port: open state, configuration, captures, interrupts, and the recorder's read registers of the port. -/
structure PortSt where
  /-- `xx_CODE_HI` and `_LO`, 64 bits [Table PRT-5, 04; 0] -/
  code      : Word64
  /-- `xx_OPEN.SLOT`, 3 bits [Table PRT-5, 04; 0] -/
  sel       : Fin 8
  /-- `xx_NONCE`, 32 bits [R99, 04; random: free value] -/
  nonce     : Word32
  /-- `PA_CFG.MODE`, 1 is 8D-8D-8D [Table PRT-5, 04; 0] -/
  mode8d    : Bool
  /-- `PA_CFG.LAT`, 5 bits [Table PRT-5, 04; 0x14] -/
  lat       : BitVec 5
  /-- `xx_STAT.OPEN` and SLOT: the open slot [R96, 04; none] -/
  open?     : Option (Fin 8)
  /-- `xx_STAT.SLOT`, 3 bits, as last opened [Table PRT-5, 04; 0] -/
  lastSlot  : Fin 8
  /-- `xx_STAT.KEYLESS` [R98, 04; 0] -/
  keyless   : Bool
  /-- `xx_STAT.RESULT`, 3 bits [Table PRT-6, 04; 0] -/
  result    : BitVec 3
  /-- `xx_STAT.FAIL_RUN`, 4 bits [R99, 04; 0] -/
  failRun   : BitVec 4
  /-- the 1 s lockout runs [R99, 04; false] -/
  locked    : Bool
  /-- an open written before READY waits (R421) [R421, 15; none] -/
  openWait  : Option (Fin 8)
  /-- `xx_STAT.POISON` [R114, 04; 0] -/
  poison    : Bool
  /-- `xx_POISON`, 32 bits [Table PRT-5, 04; 0] -/
  poisonAt  : Word32
  /-- `xx_MAL.COUNT`, 16 bits [R113, 04; 0] -/
  malCount  : BitVec 16
  /-- `xx_MAL.FIRST_VALID`, 16 bits [R113, 04; 0] -/
  malValid  : BitVec 16
  /-- `xx_FIRST_k`, 16 registers of 32 bits [R113, 04; 0] -/
  malFirst  : Vector Word32 16
  /-- `IRQ_STAT_x`, 9 bits [Table PRT-11, 04; 0] -/
  irqStat   : BitVec 9
  /-- `IRQ_EN_x`, 9 bits [Table PRT-11, 04; 0] -/
  irqEn     : BitVec 9
  /-- PB_RDY as the port drives it; port A has none [R107, R62, 04, 03; false: not driven before PORT starts] -/
  rdy       : Bool
  /-- words that the port's last MEM_WRITE has issued [R108, 04; 0] -/
  staged    : Nat
  /-- the bytes the port drove out in its last read transaction (XA_DQ, PB_MISO) [R101, R107, 04; none] -/
  out       : List Byte
  /-- result of the port's last operation on each needle, 3 bits [Table PRT-12, 04; 0] -/
  ndlResult : Vector (BitVec 3) 32
  /-- the NEEDLE interrupt is armed for each needle (R118) [R118, 04; false] -/
  ndlWait   : Vector Bool 32
  /-- `REC_RD_START`, 32 bits [Table REC-7, 14; 0] -/
  rdStart   : Word32
  /-- `REC_RD_CTL.CH`, 3 bits [Table REC-7, 14; 0] -/
  rdCh      : Fin 8
  /-- `REC_RD_CTL.MODE`, 2 bits [Table REC-7, 14; 0] -/
  rdMode    : BitVec 2
  /-- `REC_RD_CTL.OP`, 2 bits [Table REC-7, 14; 0] -/
  rdOp      : BitVec 2
  /-- `REC_RD_LIMIT`, 32 bits [R406, 14; 0] -/
  rdLimit   : Word32
  /-- `REC_RD_STAT.RESULT`, 4 bits [Table REC-6, 14; 0] -/
  rdResult  : BitVec 4
  /-- cursor: channel and position, when placed [R406, 14; none] -/
  cursor    : Option (Fin 8 × Nat)
  /-- the last load by a live cursor read END, so a new stitch sets LOG (R411) [R411, 14; false] -/
  liveEnd   : Bool
  /-- `REC_WIN_0` to `_15`: four words [R406, 14; 0] -/
  win       : Vector Word128 4
  /-- `REC_AUDIT.ON` [R407, 14; 0] -/
  auditOn   : Bool
  deriving DecidableEq, Repr

/-- One needle (Table PRT-12). -/
structure Needle where
  /-- `NDL_STAT_k.HELD`, with the holder: port and slot, ret [R117, 04; free] -/
  holder    : Option (Port × Fin 8)
  /-- `NDL_STAT_k.PORT`: port of the last holder, ret [Table PRT-12, 04; 0] -/
  port      : Port
  /-- `NDL_STAT_k.ORPHANED`, ret [R119, 04; 1] -/
  orphaned  : Bool
  /-- `NDL_STAT_k.GEN`, 8 bits, ret [R118, 04; 0] -/
  gen       : BitVec 8
  /-- `NDL_STAT_k.REMAIN`, 16 bits, ret [R121, 04; 0] -/
  remain    : BitVec 16
  /-- the holder that the last tick has released for its lease, until the next tick [R121, 04; none] -/
  lapsed    : Option (Port × Fin 8)
  deriving DecidableEq, Repr

/-! ## Tenants, keys, limited change -/

/-- `TEN_CTL.STATE` (Table TEN-2). -/
inductive TenState where
  | free | owned | suspended | purging
  deriving DecidableEq, Repr

/-- `TEN_CTL.ROLE` (Table TEN-2). -/
inductive Role where
  | none | site | operator | safety | utility
  deriving DecidableEq, Repr

/-- Key slot state (Table TEN-6). -/
inductive KeyState where
  | blank | loaded | active | retired
  deriving DecidableEq, Repr

/-- One key slot or site slot. -/
structure Key where
  /-- state, 2 bits, sys [Table TEN-6, 02; BLANK] -/
  st      : KeyState
  /-- key use of the load blob, 8 bits [Table RNG-7, 05; 0] -/
  use     : Byte
  /-- the key, byte 0 in [7:0] [R38, 02; 0 (blank)] -/
  key     : Word128
  /-- last accepted load counter, 32 bits [R38, 02; 0] -/
  ctr     : Word32
  deriving DecidableEq, Repr

/-- One tenant slot's registers (Tables TEN-2, RNG-10, SKN-2, INT-5, EVA-9, REC-7, REC-10, MAC-11, SCH-3, SNS-7). -/
structure Tenant where
  /-- `TEN_CTL.STATE`, 3 bits, sys [Table TEN-2, 02; FREE] -/
  st        : TenState
  /-- `TEN_CTL.ROLE`, 3 bits, sys [Table TEN-2, 02; NONE] -/
  role      : Role
  /-- `TEN_CTL.SUSPEND`, sys [R32, 02; 0] -/
  susp      : Bool
  /-- `OWNER_HI` and `OWNER_LO`, 64 bits, sys [Table TEN-2, 02; 0] -/
  owner     : Word64
  /-- `TEN_ISO.COUNT`, 16 bits, ret [R37, 02; 0] -/
  iso       : BitVec 16
  /-- `PART_SIZE.COUNT` and the seal word's granule count, 7 bits, sys [R196, 07; 0] -/
  granules  : Nat
  /-- seal check of the seal word, 64 bits, sys [R196, 07; 0] -/
  sealCheck : Word64
  /-- `ENG_FROG.OPS`, 16 bits, ret [R153, 05; 0] -/
  frogOps   : BitVec 16
  /-- `ENG_FROG.LINES`, 16 bits, ret [R153, 05; 0] -/
  frogLines : BitVec 16
  /-- `ENG_UNC`: local ring and kind while VALID, ret [R156, 05; 0] -/
  unc       : Option (Fin 64 × BitVec 2)
  /-- `ENG_UNC.RING` and KIND as last captured, ret [Table RNG-10, 05; 0] -/
  uncLast   : Fin 64 × BitVec 2
  /-- `ENG_UNC_ADDR`, 32 bits, ret [R156, 05; 0] -/
  uncAddr   : Word32
  /-- `SKN_SEL.SKEIN`, 16 bits [Table SKN-2, 06; 0] -/
  sknSel    : BitVec 16
  /-- `SKN_SEL.OP`, 4 bits [R167, 06; 0] -/
  sknOp     : BitVec 4
  /-- `SKN_CFG0`, raw [Table SKN-2, 06; 0] -/
  sknCfg0   : Word32
  /-- `SKN_CFG1`, raw [Table SKN-2, 06; 0] -/
  sknCfg1   : Word32
  /-- `SKN_RES.RESULT`, 4 bits [Table SKN-5, 06; 0] -/
  sknRes    : BitVec 4
  /-- `SKN_OCC_l`, 8 registers, raw [Table SKN-2, 06; 0] -/
  sknOcc    : Vector Word32 8
  /-- `SKN_PKT_l`, 8 registers, raw [Table SKN-2, 06; 0] -/
  sknPkt    : Vector Word32 8
  /-- `SKN_NOTIFY.SKEIN`, 16 bits, sys [R179, 06; 0] -/
  notSkein  : BitVec 16
  /-- `SKN_NOTIFY.EN`, sys [R179, 06; 0] -/
  notEn     : Bool
  /-- `SKN_NOTIFY.LOST`, 8 bits, ret [R179, 06; 0] -/
  notLost   : BitVec 8
  /-- `SKN_PB_RES`: RESULT 4 bits, COUNT 5 bits [R175, R176, 06; 0] -/
  pbRes     : BitVec 4 × BitVec 5
  /-- `SKN_DROP.COUNT`, 16 bits, ret [R175, 06; 0] -/
  dropCount : BitVec 16
  /-- `SKN_DROP.SKEIN`, 16 bits, ret [Table SKN-2, 06; 0] -/
  dropSkein : BitVec 16
  /-- `SKN_ERR`: SKEIN, CAUSE, ret [R181, 06; 0] -/
  sknErr    : BitVec 16 × BitVec 4
  /-- `SKN_ERR.VALID`, ret [R181, 06; 0] -/
  sknErrV   : Bool
  /-- `SKN_QUOTA_n.QUOTA`, 12 bits, sys [R166, 06; 480] -/
  quota     : Nat
  /-- `SKN_QUOTA_n.USED`, 12 bits, sys [R166, 06; 0] -/
  used      : Nat
  /-- `SCAN_CTL`, raw: START, MODE [Table INT-5, 08; 0] -/
  scanCtl   : Word32
  /-- `SCAN_CNT.COUNT`, 19 bits [Table INT-5, 08; 0] -/
  scanCnt   : Nat
  /-- `SCAN_STAT.RESULT`, 2 bits [R227, 08; 0] -/
  scanRes   : BitVec 2
  /-- `SCAN_SUM0` to `SCAN_SUM3`, 128 bits [Table INT-6, 08; 0] -/
  scanSum   : Word128
  /-- `EVA_CNT0.GRANT`, 16 bits, ret [Table EVA-9, 12; 0] -/
  cGrant    : BitVec 16
  /-- `EVA_CNT0.DENY`, 16 bits, ret [Table EVA-9, 12; 0] -/
  cDeny     : BitVec 16
  /-- `EVA_CNT1.DEFER`, 16 bits, ret [Table EVA-9, 12; 0] -/
  cDefer    : BitVec 16
  /-- `EVA_CNT1.TRAP`, 16 bits, ret [Table EVA-9, 12; 0] -/
  cTrap     : BitVec 16
  /-- `EVA_TRAP`: CODE, PC, ret [R347, 12; 0] -/
  trap      : BitVec 12 × BitVec 12
  /-- `EVA_TRAP.VALID`, ret [R347, 12; 0] -/
  trapV     : Bool
  /-- `REL_PULSE.LEN`, 8 bits, sys [R353, 12; 25] -/
  pulseLen  : Byte
  /-- `REC_OWN`, 32 bits, sys [R405, 14; 0] -/
  recOwn    : Word32
  /-- `REC_FEED`, raw, sys [R410, 14; 0] -/
  feed      : Word32
  /-- `REC_FEED_LOST`, 16 bits, ret [R410, 14; 0] -/
  feedLost  : BitVec 16
  /-- `REC_POST_CODE.CODE`, 12 bits [Table REC-7, 14; 0] -/
  postCode  : BitVec 12
  /-- `REC_POST_CODE.RESULT`, 4 bits [R414, 14; 0] -/
  postRes   : BitVec 4
  /-- `REC_POST_V0` to `V7` [Table REC-7, 14; 0] -/
  postV     : Vector Word32 8
  /-- `SCH_SW_n.SW`, 8 bits, sys [R318, 11; 16] -/
  sw        : Byte
  /-- `SCH_FW`, raw, sys [R319, 11; 0x1111_1111] -/
  fw        : Word32
  /-- `SCH_GATE`, raw, sys [R326, 11; 0xFFFF] -/
  gate      : BitVec 16
  /-- `SCH_STAT.FITWAIT`, 16 bits, ret [R327, 11; 0] -/
  fitWait   : BitVec 16
  /-- `SCH_STAT.ABANDONED`, 16 bits, ret [R334, 11; 0] -/
  abandoned : BitVec 16
  /-- `SHP_CFG_n`: RATE in force, 12 bits, sys [R324, 11; 174] -/
  shpRate   : Nat
  /-- `SHP_CFG_n`: BURST in force, 16 bits, sys [R324, 11; 2048] -/
  shpBurst  : Nat
  /-- a write of `SHP_CFG_n` awaiting the refill (`SHP_STAT_n.PEND`) [R324, 11; none] -/
  shpPend   : Option (Nat × Nat)
  /-- `SHP_STAT_n.LEVEL`, signed 17 bits, ret [R322, 11; 0] -/
  level     : Int
  /-- `SHP_STAT_n.CLAMPS`, 8 bits, ret [R324, 11; 0] -/
  clamps    : BitVec 8
  /-- `POL_CFG_n`, raw, sys [R328, 11; 0x8000_3C1E] -/
  polCfg    : Word32
  /-- `POL_STAT_n.LEVEL`, 8 bits, ret [R328, 11; 60] -/
  polLevel  : Nat
  /-- `POL_STAT_n.DROPS`, 16 bits, ret [R328, 11; 0] -/
  polDrops  : BitVec 16
  deriving DecidableEq, Repr

/-- Value record of a limited-change setting (R46, R51). -/
structure LcRecord where
  /-- new value, 128 bits; for audit 1 once the channel is class M [R46, 02; factory value 0] -/
  value    : Word128
  /-- value before the change, for the late stitch [R51, 02; 0] -/
  old      : Word128
  /-- tally count, sys [R46, 02; 0] -/
  count    : Nat
  /-- stitched flag, sys [R46, 02; 1] -/
  stitched : Bool
  deriving DecidableEq, Repr

/-- A limited-change request that has passed its checks and awaits its burn (R46, R53). -/
structure LcRun where
  setting : BitVec 4
  target  : Fin 8
  value   : Word128
  /-- tallies burnt before this change -/
  burnt   : Nat
  /-- a claim under R50: key and load counter -/
  claim   : Option (Word128 × Word32)
  /-- the request came from this engine operation, else from `LC_GO` -/
  op      : Option Nat
  /-- TALLY admission has been asked for -/
  asked   : Bool
  /-- the burn has begun: TALLY was admitted and the second checks of R46 passed before the event at hand -/
  begun   : Bool
  /-- the pair is burnt and the change stitch is not written yet -/
  burnt?  : Bool
  deriving DecidableEq, Repr

/-- Limited-change registers and records (Tables TEN-7 to TEN-12). -/
structure Lc where
  /-- `LC_REQ.SETTING`, 4 bits [Table TEN-8, 02; 0] -/
  setting : BitVec 4
  /-- `LC_REQ.TARGET`, 3 bits [Table TEN-8, 02; 0] -/
  target  : Fin 8
  /-- `LC_REQ.LAST_ACK` [Table TEN-8, 02; 0] -/
  lastAck : Bool
  /-- `LC_VAL0` to `LC_VAL3`, 128 bits [Table TEN-8, 02; 0] -/
  val     : Word128
  /-- `LC_CODE_HI` and `_LO`, 64 bits [Table TEN-8, 02; 0] -/
  code    : Word64
  /-- `CLAIM_0` to `CLAIM_7`, 256 bits [Table TEN-12, 02; 0] -/
  claim   : BitVec 256
  /-- `LC_STATUS.REASON`, 4 bits [Table TEN-9, 02; 0] -/
  reason  : BitVec 4
  /-- `LC_STATUS.LEFT`, 4 bits [Table TEN-8, 02; 0] -/
  left    : BitVec 4
  /-- the running change, of whatever origin; `LC_GO.START` reads 1 while this is some [R46, R53, 02; none] -/
  run     : Option LcRun
  /-- value record of region, site and compatibility, of the audit class of each channel (value 1 for class M) and of each slot's ownership,
  sys [R46, Table INT-9a, 02; factory values] -/
  region  : LcRecord
  site    : LcRecord
  audit   : Vector LcRecord 8
  compat  : LcRecord
  owner   : Vector LcRecord 8
  /-- `ISO_FIRST.SLOT`, 3 bits, ret [Table TEN-5, 02; 0] -/
  isoSlot : Fin 8
  /-- `ISO_FIRST.PATH`, 4 bits, ret [Table TEN-5, 02; 0] -/
  isoPath : BitVec 4
  /-- `ISO_FIRST.INDEX`, 16 bits, ret [R451, 02; 0] -/
  isoIdx  : BitVec 16
  /-- `ISO_FIRST.VALID`, ret [R37, 02; 0] -/
  isoV    : Bool
  deriving DecidableEq, Repr

/-! ## MRAM -/

/-- `PART_ENT_g.STATE` (Table MEM-4). -/
inductive GranState where
  | free | inUse | purging | closed
  deriving DecidableEq, Repr

/-- Partition entry (Table MEM-4). -/
structure PartEntry where
  /-- OWNER, 4 bits, sys [Table MEM-4, 07; 0xF] -/
  owner    : BitVec 4
  /-- POS, 6 bits, sys [Table MEM-4, 07; 0] -/
  pos      : Nat
  /-- TYPE, 1 ZERO_FILL, sys [Table MEM-4, 07; 0] -/
  zeroFill : Bool
  /-- STATE, 2 bits, sys [Table MEM-4, 07; FREE] -/
  st       : GranState
  deriving DecidableEq, Repr

/-- Ring context word (R131): what the system area holds of a ring. -/
structure RingCtx where
  /-- BASE, 18 bits [Table RNG-2, 05; 0] -/
  base : Nat
  /-- SIZE, 4 bits [Table RNG-2, 05; 0] -/
  size : Nat
  /-- KIND, 1 completion [Table RNG-2, 05; 0] -/
  cpl? : Bool
  /-- CPL, 6 bits [Table RNG-2, 05; 0] -/
  cpl  : Fin 64
  /-- EN [Table RNG-2, 05; 0] -/
  en   : Bool
  /-- PROD, 16 bits [Table RNG-3, 05; 0] -/
  prod : BitVec 16
  /-- CONS, 16 bits [Table RNG-3, 05; 0] -/
  cons : BitVec 16
  /-- LL_OK [Table RNG-3, 05; 0] -/
  llOk : Bool
  /-- HALT_AT, 16 bits [Table RNG-3, 05; 0] -/
  haltAt : BitVec 16
  /-- completed mask, bit i for the i-th descriptor from CONS, 32 bits [R131, 05; 0] -/
  mask : BitVec 32
  deriving DecidableEq, Repr

/-- A ring: its live context and the parts that are not kept. -/
structure Ring where
  ctx    : RingCtx
  /-- the context word is dirty [R131, 05; false] -/
  dirty  : Bool
  /-- STATE reads HALTED [Table RNG-3, 05; false] -/
  halted : Bool
  /-- CAUSE, 4 bits [Table RNG-3, 05; 0] -/
  cause  : BitVec 4
  /-- index of the next descriptor to fetch [R145, 05; 0] -/
  fetch  : BitVec 16
  /-- descriptors fetched from CONS on, in ring order: index, length in words, completed [R131, 05; none] -/
  fetched : List (BitVec 16 × Nat × Bool)
  /-- cast-on found CONS unequal to PROD, and neither RESUME nor DISCARD has come since [R158, 05; false] -/
  held    : Bool
  deriving DecidableEq, Repr

/-- Lane context word (Table SKN-4). -/
structure LaneCtx where
  /-- HEAD, modulo 2^17 [Table SKN-4, 06; 0] -/
  head  : Nat
  /-- TAIL, modulo 2^17 [Table SKN-4, 06; 0] -/
  tail  : Nat
  /-- PKTS, 17 bits [Table SKN-4, 06; 0] -/
  pkts  : Nat
  /-- RLOCK [Table SKN-4, 06; 0] -/
  rlock : Bool
  /-- WOPEN and WPROD [R172, 06; none] -/
  wopen : Option (BitVec 7)
  /-- GEN, 8 bits [Table SKN-4, 06; 0] -/
  gen   : BitVec 8
  /-- LANE, 3 bits [Table SKN-4, 06; 0] -/
  lane  : Nat
  /-- ARMED [R179, 06; 1 once configured] -/
  armed : Bool
  /-- DRAIN: items of this producer are discarded [R180, 06; none] -/
  drain : Bool
  /-- SKN_CFG0 part: BASE, CAP, LANES, EMPTY, IDLE_CODE as configured [Table SKN-4, 06; 0] -/
  cfg0  : Word32
  /-- SKN_CFG1 part: THR, THR_UNIT, THR_EN, CUT as configured [Table SKN-4, 06; 0] -/
  cfg1  : Word32
  deriving DecidableEq, Repr

/-- One stored copy of a word that is duplicated or paired: what a read of it finds (R181, R232). -/
inductive Copy (α : Type) where
  | blank
  | good (v : α)
  /-- v with errors that a read corrects -/
  | corr (v : α)
  | bad
  deriving DecidableEq, Repr

/-- Ledger running word (Table SNS-4). -/
structure LedgerWord where
  /-- TX_SYM, 32 bits, saturating [Table SNS-4, 13; 0] -/
  txSym  : Nat
  /-- TX_FR, 24 bits, saturating [Table SNS-4, 13; 0] -/
  txFr   : Nat
  /-- RX_FR, 24 bits, saturating [Table SNS-4, 13; 0] -/
  rxFr   : Nat
  /-- WRITES, 24 bits, saturating [Table SNS-4, 13; 0] -/
  writes : Nat
  /-- ENERGY, 24 bits, 10 uC, saturating [Table SNS-4, 13; 0] -/
  energy : Nat
  deriving DecidableEq, Repr

/-- Ledger period word (R377). -/
structure PeriodWord where
  /-- `LG_PERIOD`, 32 bits [R375, 13; 0] -/
  period : Nat
  /-- `LG_NEXT`, 32 bits [R375, 13; 86400] -/
  next   : Nat
  /-- `ST_HWM`, 32 bits [R372, 13; 0] -/
  hwm    : Nat
  /-- charge counter, 32 bits, 10 uC [R367, 13; 0] -/
  chg    : Nat
  deriving DecidableEq, Repr

/-- Channel head word (R396). -/
structure HeadWord where
  /-- next position [R396, 14; 0] -/
  pos     : Nat
  /-- CHIDX, 24 bits [R383, 14; 0] -/
  chidx   : BitVec 24
  /-- EPOCH, 8 bits [R397, 14; 0] -/
  epoch   : BitVec 8
  /-- DROPS, 16 bits [R395, 14; 0] -/
  drops   : BitVec 16
  /-- the last chain tag, when one is known [R408, 14; none: T_start] -/
  tag     : Option Word64
  /-- position of the stitch that tag belongs to [R396, 14; 0] -/
  tagPos  : Nat
  deriving DecidableEq, Repr

/-- What a clean-stop word holds (R419). -/
inductive StopWord where
  | clean (caston : BitVec 16)
  | running (caston : BitVec 16)
  deriving DecidableEq, Repr

/-- A replay mark: one sender under one receiving key (R301). -/
structure Mark where
  /-- receiving key slot, 0 to 35 -/
  key    : Fin 36
  /-- high mark H [R301, 10; none] -/
  h      : Word32
  /-- window of H − 1 to H − 24 [R301, 10; none] -/
  win    : BitVec 24
  /-- stored H, class 0x8 [R301, 10; none] -/
  stored : Word32
  deriving DecidableEq, Repr

/-- What a complement pair that does not read clean shows (R232). -/
inductive Damage where
  /-- one half written, the other uncorrectable or blank -/
  | oneHalf
  /-- both written and disagreeing; the value the array B half names -/
  | differ (b : Nat)
  /-- no half written, the halves not both blank -/
  | lost
  deriving DecidableEq, Repr

/-- A pair with damage: class and index of Table INT-9a. -/
structure PairDamage where
  cls  : Nat
  idx  : Nat
  kind : Damage
  /-- the half that does not read as it should; the other one does, unless both are lost -/
  half : Arr
  /-- a read has met it and its action has been taken -/
  seen : Bool
  deriving DecidableEq, Repr

/-- What a table of the system area held before a write of one of its words: what it holds again when that write is never stored. -/
inductive TableVal where
  /-- a word of a table that the manual's rules name no value of -/
  | none
  | part (e : PartEntry)
  | seal (granules : Nat) (check : Word64)
  | key (k : Key)
  /-- key slots that one write changes together (R39, R40, R48) -/
  | keys (l : List (Fin 36 × Key))
  | ctr (v : Word32)
  | record (r : LcRecord)
  | fc (v : Word32)
  | mark (m : Option Mark)
  | seq (v : Word32)
  | purge (m : BitVec 64)
  deriving DecidableEq, Repr

/-- A system-area word that goes through the write path, with the value to store. -/
inductive SysItem where
  /-- a half of a complement pair, by class and index of Table INT-9a: the tables hold the new value, the item the one before and its damage -/
  | pair (cls idx : Nat) (old : TableVal) (dmg : List PairDamage)
  /-- a word of the system area that is neither paired nor a context, at an array word index: the tables hold its content -/
  | plain (idx : Nat)
  | ring (r : Fin 512) (v : RingCtx)
  | lane (key : Nat) (v : LaneCtx)
  | ledger (n : Fin 8) (v : LedgerWord)
  | period (v : PeriodWord)
  | head (n : Fin 8) (v : HeadWord)
  | stopWords (v : StopWord)
  /-- the last accepted emergency order number -/
  | emerg (no : Word32)
  /-- a sender-cache entry, with the stored H of its mark -/
  | sender (no : Nat) (h : Word32)
  deriving DecidableEq, Repr

/-- Where an accepted write goes: a word of an array by its key, or a system-area item. -/
inductive Target where
  | word (key : Nat) (data : Word128) (blank : Bool)
  | sys (i : SysItem)
  deriving DecidableEq, Repr

/-- Who issued a write (Table MEM-9). -/
inductive Writer where
  | port (p : Port)
  | engine | evaluator | mac | recorder | ledger | integrity
  deriving DecidableEq, Repr

/-- One write: target, array, who is charged, who wrote it, the twin it belongs to (R453; 0 none), and the engine operation that is complete
once this write, its completion record, is accepted (R144). -/
structure WEntry where
  tgt    : Target
  arr    : Arr
  slot   : Fin 8
  writer : Writer
  twin   : Nat
  opDone : Option Nat
  /-- its storing is charged to `slot`; a staged stitch's words are charged at the mark instead (R399) -/
  charge : Bool
  deriving DecidableEq, Repr

/-- A row remapped to a spare row (R201). -/
structure RemapEntry where
  arr   : Arr
  row   : Nat
  spare : Nat
  deriving DecidableEq, Repr

/-- A remap under way: row, the spare rows tried so far, the word to store (R201). -/
structure Remapping where
  row   : Nat
  tried : Nat
  deriving DecidableEq, Repr

/-- One row of the hot-row tracker (R205). -/
structure HotRow where
  arr     : Arr
  row     : Nat
  samples : BitVec 16
  deriving DecidableEq, Repr

/-- One array's write side. -/
structure ArrSt where
  /-- write queue, 16 words, head first [R199, 07; empty] -/
  queue    : List WEntry
  /-- attempts made on the word at the head of the array's sequence [R200, 07; 0] -/
  attempts : Nat
  /-- remap under way [R201, 07; none] -/
  remap    : Option Remapping
  /-- spare rows free, lowest first: rows 0 to 47 [R201, Table MEM-7, 07; 48] -/
  spares   : List Nat
  /-- words stored since the last sample of R205 [R205, 07; 0] -/
  stored   : Nat
  /-- words stored, of which a stop counts those of its own steps, the model's own [R79, 03; DESIGN CHOICE 0 (log 163)] -/
  total    : Nat
  /-- a magnitude has been delivered since the array started [R206, 07; false] -/
  sampled  : Bool
  /-- a twin half of this id has been stored while its partner has not [R453, 07; none] -/
  twinDone : Option Nat
  deriving DecidableEq, Repr

/-- The MRAM, its write path, its partition table and its field rules (Tables MEM-4 to MEM-10). -/
structure Mram where
  /-- stored words by key, array A 0 to 147,455, array B from 147,456, and from 294,912 the 33 words (its tag word last) of each spare row
  out of service, or of the row it serves for while it is in service; unlisted: blank [R188, R193, R201, 07; empty] -/
  words    : Sparse Raw147
  /-- arrays A and B [R199, 07; empty queues] -/
  arrA     : ArrSt
  arrB     : ArrSt
  /-- field hold buffer, 256 entries, oldest first [R207, 07; empty] -/
  fhb      : List WEntry
  /-- writes issued and not yet accepted, oldest first [R208, 07; empty] -/
  waitq    : List WEntry
  /-- remap table, sys [R201, 07; empty] -/
  remaps   : List RemapEntry
  /-- next twin number [R453, 07; DESIGN CHOICE 1 (log 8), the model's own] -/
  nextTwin : Nat
  /-- `MEM_STAT.WFAIL`, ret [R202, 07; 0] -/
  wfail    : Bool
  /-- `MEM_STAT.MERGE_BAD`, ret [R212, 07; 0] -/
  mergeBad : Bool
  /-- `MEM_STAT.PORT_DROP`, ret [R208, 07; 0] -/
  portDrop : Bool
  /-- `MEM_STAT.WFAIL_COUNT`, 8 bits, ret [R202, 07; 0] -/
  wfailCount : BitVec 8
  /-- `MEM_WFAIL`: WORD, ARRAY, CAUSE, ret [Table MEM-7, 07; 0] -/
  wfailWord : Nat
  wfailArr : Arr
  wfailCause : BitVec 3
  /-- `MEM_WFAIL.VALID`, ret [Table MEM-7, 07; 0] -/
  wfailV   : Bool
  /-- hot-row tracker, 16 rows an array, ret [R205, 07; empty] -/
  hot      : List HotRow
  /-- partition table, 64 entries, sys [R196, 07; OWNER 0xF, FREE] -/
  part     : Vector PartEntry 64
  /-- `PART_CTL`, raw: GRANULE, OWNER, TYPE, OP [Table MEM-5, 07; 0] -/
  partCtl  : Word32
  /-- `PART_RES.RESULT`, 4 bits [Table MEM-5, 07; 0] -/
  partRes  : BitVec 4
  /-- `FIELD_WRITE_LIMIT`, raw [Table MEM-10, 07; 0x110A] -/
  limit    : Word32
  /-- `FIELD_STAT.DEFER` [R206, 07; 0] -/
  defer    : Bool
  /-- `FIELD_STAT.DISTURB`, ret [R211, 07; 0] -/
  disturb  : Bool
  /-- the episode under way has set DISTURB (R225) [R211, R225, 07; false] -/
  epDisturb : Bool
  /-- `FIELD_STAT.PEAK`, 8 bits, mT, ret [Table MEM-10, 07; 0] -/
  peak     : BitVec 8
  /-- the last magnitude was below MT - HYST (the hold of R206 runs) [R206, 07; false] -/
  below    : Bool
  /-- `FIELD_CNT.EPISODES`, 16 bits, ret [R210, 07; 0] -/
  episodes : BitVec 16
  /-- `FIELD_CNT.DROPS`, 16 bits, ret [R217, 07; 0] -/
  drops    : BitVec 16
  /-- `FIELD_WORDS`, 32 bits, ret [R210, 07; 0] -/
  fwords   : Word32
  /-- `FIELD_STALL`, 32 bits, us, ret [R208, 07; 0] -/
  stall    : Word32
  /-- the episode's start in ms, its `FIELD_WORDS` and `FIELD_STALL` at its start [R210, 07; 0] -/
  epMs     : Nat
  epWords  : Word32
  epStall  : Word32
  /-- twin number of the entry write that `PART_CTL.GO` waits for [R197, Table MEM-5, 07; none] -/
  partRun  : Option Nat
  deriving DecidableEq, Repr

/-! ## Engine and skeins -/

/-- An engine operation in flight (R145). -/
structure Op where
  /-- the model's number of the operation, in fetch order -/
  id      : Nat
  ring    : Fin 512
  /-- ring index of word 0 -/
  index   : BitVec 16
  /-- descriptor words 0 to 3, word 0 first -/
  desc    : List Word128
  /-- lifelines (slots 0 to 3) the operation is behind (R150) -/
  behind  : List (Fin 4)
  /-- its own lifeline, when LL is set and it has started (R149) -/
  own     : Option (Fin 4)
  /-- it has run: its outcome is held, or its completion record waits for acceptance -/
  ran     : Bool
  /-- a word it needs was uncorrectable while behind a lifeline (R157) -/
  stuck   : Bool
  /-- operations whose held words it has read (R147, R150) -/
  readOf  : List Nat
  /-- LL_OK as a DEP operation reads it, once a later lifeline descriptor of its ring has had its outcome (R154) -/
  pin     : Option Bool
  deriving DecidableEq, Repr

/-- Who opened a lifeline (R149). -/
inductive LlSource where
  | desc (op : Nat)
  | eva (op : Nat)
  deriving DecidableEq, Repr

/-- An open lifeline (R149). -/
structure Lifeline where
  src    : LlSource
  ring   : Fin 512
  /-- lifelines it is nested in -/
  parents : List (Fin 4)
  deriving DecidableEq, Repr

/-- What waits in the engine's hold buffer (R151), and the isolation violation of an operation behind a lifeline (R56). -/
inductive Held where
  | write (addr : Nat) (data : Word128)
  | push (skein : BitVec 16) (items : List Word128)
  | record (r : Word128)
  | violation (path : BitVec 4) (idx : BitVec 16)
  /-- the outcome of a lifeline descriptor that is behind a lifeline itself, for LL_OK of its ring; it takes no entry -/
  | llOk (ok : Bool)
  deriving DecidableEq, Repr

/-- One entry of the hold buffer: the operation and what it holds. -/
structure HoldEntry where
  op   : Nat
  what : Held
  deriving DecidableEq, Repr

/-- A skein that is configured: its lanes' live contexts. -/
structure Skein where
  lanes : List LaneCtx
  deriving DecidableEq, Repr

/-- One cached lane context: key skein × 8 + lane, dirty, updates since written (R173). -/
structure CacheLine where
  key     : Nat
  dirty   : Bool
  updates : Nat
  deriving DecidableEq, Repr

/-- A released lifeline descriptor whose LL_OK follows once its record and the records released with it are accepted (R152): its ring, its
operation, and the operations whose records are still to be accepted. -/
structure LlDue where
  ring  : Fin 512
  op    : Nat
  ops   : List Nat
  deriving DecidableEq, Repr

/-- The engine (Table RNG-10). -/
structure Engine where
  /-- `ENG_CTL`, raw [Table RNG-10, 05; 0x2001] -/
  ctl      : Word32
  /-- rings 0 to 511, live [R128, 05; disabled] -/
  rings    : Vector Ring 512
  /-- stored ring context words, sys [R131, 05; blank] -/
  stored   : Vector (Copy RingCtx) 512
  /-- next ring of the round-robin [R145, 05; 0] -/
  rr       : Fin 512
  /-- operations in flight, in fetch order [R145, 05; none] -/
  ops      : List Op
  /-- next operation number [R145, 05; DESIGN CHOICE 0 (log 8), the model's own] -/
  nextOp   : Nat
  /-- four lifeline slots [R149, 05; none open] -/
  lls      : Vector (Option Lifeline) 4
  /-- hold buffer [R151, 05; empty] -/
  hold     : List HoldEntry
  /-- lifelines released whose LL_OK is still to be set, oldest first [R152, 05; none] -/
  llDue    : List LlDue
  /-- rings with a DISCARD or a RESUME that waits for completion slots, and the index it goes to [R134, R143, 05; none] -/
  discards : List (Fin 512 × BitVec 16)
  deriving DecidableEq, Repr

/-- The skein block (Table SKN-2, module-wide part). -/
structure SkeinSt where
  /-- owner of each granted block, by block number, sys [R164, 06; none] -/
  blocks   : Sparse (Fin 8)
  /-- configured skeins, live contexts, by skein number [R165, 06; none] -/
  skeins   : Sparse Skein
  /-- stored lane context pairs by skein × 8 + lane, sys [R165, 06; none] -/
  stored   : Sparse (Copy LaneCtx × Copy LaneCtx)
  /-- context cache, least recently used first, 128 entries [R173, 06; empty] -/
  cache    : List CacheLine
  /-- `SKN_ALLOC`: BLOCK, SLOT [Table SKN-2, 06; 0] -/
  alBlock  : Byte
  alSlot   : Fin 8
  /-- `SKN_ALLOC.RESULT`, 3 bits [Table SKN-2, 06; 0] -/
  alRes    : BitVec 3
  /-- `SKN_CTL.WB_EVERY`, 4 bits, sys [R173, 06; 8] -/
  wbEvery  : BitVec 4
  /-- `SKN_CTL.UNCLEAN` [R182, 06; 0] -/
  unclean  : Bool
  deriving DecidableEq, Repr

/-! ## Integrity -/

/-- A range pass queued or running (R227). -/
structure Scan where
  slot  : Fin 8
  start : Nat
  count : Nat
  mode  : BitVec 2
  /-- OUTCOME that ended it early (R228) -/
  stop  : BitVec 2
  deriving DecidableEq, Repr

/-- The scrubber, the swatch, the pairs and the purge (Tables INT-3, INT-8, INT-10, INT-11). -/
structure Integ where
  /-- `SCRUB_CTL`, raw [Table INT-3, 08; 0x421] -/
  ctl      : Word32
  /-- `SCRUB_STAT.POS`, 13 bits, ret [R226, 08; 0] -/
  pos      : Nat
  /-- `SCRUB_STAT.PRIO` [R225, 08; 0] -/
  prio     : Bool
  /-- `SCRUB_STAT.REASON`, 2 bits [Table INT-3, 08; 0] -/
  reason   : BitVec 2
  /-- `SCRUB_LAPS`, 32 bits, ret [R226, 08; 0] -/
  laps     : Word32
  /-- the stored lap count, sys [R226, 08; 0] -/
  lapsStored : Word32
  /-- rows read, corrected, uncorrectable and pair repairs of the lap under way [R225, 08; 0] -/
  lapRows  : Nat
  lapCe    : Nat
  lapUe    : Nat
  lapPairs : Nat
  /-- `INT_CE.SCRUB` and DEMAND, 16 bits each, ret [R220, R223, 08; 0] -/
  ceScrub  : BitVec 16
  ceDemand : BitVec 16
  /-- `INT_UE.COUNT`, 16 bits, ret [R220, 08; 0] -/
  ue       : BitVec 16
  /-- `INT_UE.PAIR_REPAIR`, 8 bits, ret [R232, 08; 0] -/
  pairRep  : BitVec 8
  /-- `INT_UE.PAIR_FAIL`, 8 bits, ret [R232, 08; 0] -/
  pairFail : BitVec 8
  /-- `INT_UE_FIRST`: key of the word, cause, ret [R220, 08; 0] -/
  ueWord   : Nat
  ueCause  : BitVec 3
  /-- `INT_UE_FIRST.VALID`, ret [R220, 08; 0] -/
  ueV      : Bool
  /-- repair queue, 8 words, by key [R221, 08; empty] -/
  repairs  : List Nat
  /-- range passes, the running one first [R227, 08; none] -/
  scans    : List Scan
  /-- `SWATCH_CTL.ARRAY` [Table INT-8, 08; 0] -/
  swArr    : Arr
  /-- the array that the rerun under way tests [R231, 08; A] -/
  swTest   : Arr
  /-- a swatch rerun runs [R231, 08; false] -/
  swRun    : Bool
  /-- `SWATCH_STAT.RESULT`, 2 bits, ret [R230, 08; 0b10] -/
  swRes    : BitVec 2
  /-- `SWATCH_STAT`: UNIT, GROUP, INDEX, ret [R230, 08; 0] -/
  swFail   : SwatchFail
  /-- `INT_RST_CAUSE`: CAUSE, CLASS, INDEX, ret [R233, 08; 0] -/
  rstCause : BitVec 4
  rstClass : Byte
  rstIdx   : BitVec 16
  /-- `INT_RST_CAUSE.VALID`, ret [R233, 08; 0] -/
  rstV     : Bool
  /-- complement pairs that do not read clean, sys [R232, 08; none] -/
  damage   : List PairDamage
  /-- `PURGE_CTL.SUSPEND` [R237, 08; 0] -/
  pSusp    : Bool
  /-- `PURGE_MAP_HI` and `_LO`: purge record, 64 bits, sys [R234, 08; 0] -/
  pMap     : BitVec 64
  /-- rows of the purge round's granules that a SUSPEND found overwritten [R237, 08; 0] -/
  pRows    : Nat
  /-- row at which the ordinary patrol goes on after the priority lap, ret [R226, 08; 0] -/
  resume   : Nat
  /-- rows left of the batch of a scrub wake [R224, 08; 0] -/
  batch    : Nat
  deriving DecidableEq, Repr

/-! ## Radio, MAC and scheduler -/

/-- Tone-map slot (Table PHY-4). -/
structure ToneMap where
  /-- MAP, 72 bits, sys [R256, 09; 0] -/
  map   : BitVec 72
  /-- RATE, 2 bits, sys [R253, 09; 0] -/
  rate  : BitVec 2
  /-- DIR, 1 TX, sys [R257, 09; 0] -/
  tx    : Bool
  /-- INDEX, 4 bits, sys [R257, 09; 0] -/
  index : BitVec 4
  /-- VALID, sys [R256, 09; 0] -/
  valid : Bool
  deriving DecidableEq, Repr

/-- What a subcarrier carries in a symbol (R249, R250): nothing, or a constellation point named by its loading and its bits b0 first. -/
inductive Point where
  | null
  | gauge (neg : Bool)
  | pilot (neg : Bool)
  | data (bits : List Bool)
  deriving DecidableEq, Repr

/-- The frame on air: header fields, PSDU, and the symbols as they leave (R252), with what its end will need: airtime in symbols and us, power
code, the slot its airtime is charged to, whether it is an acknowledgement, and where in the superframe it started. -/
structure AirFrame where
  rate    : BitVec 2
  tmap    : BitVec 4
  psdu    : List Byte
  sym     : Nat
  us      : Nat
  power   : Nat
  shape   : Word128
  slot    : Fin 8
  ack     : Bool
  startUs : Nat
  /-- the frame's symbols, each 32 points for k = −16 to +15; empty for a legacy frame -/
  symbols : List (List Point)
  /-- a legacy frame's bits, most significant first (R273); empty otherwise -/
  legacy  : List Byte
  deriving DecidableEq, Repr

/-- A frame being sent or waiting to be sent. -/
structure TxFrame where
  /-- tenant flow (slot, flow), or none for the module flow -/
  flow    : Option (Fin 8 × Fin 8)
  /-- MAC header fields: frame control, SEQ, destination, source -/
  fc      : BitVec 16
  seq     : Byte
  dst     : List Byte
  src     : List Byte
  /-- SECCTL and KEYID -/
  secctl  : Byte
  keyid   : Byte
  /-- key index 0 to 31, site slots 32 to 35 -/
  key     : Fin 36
  /-- dispatch or command id, sent as additional data -/
  hdr     : List Byte
  payload : List Byte
  /-- neighbour entry the frame goes to -/
  nb      : Option (Fin 64)
  /-- attempts made -/
  tries   : Nat
  /-- skein, lane and number of items taken from it -/
  skein   : BitVec 16
  lane    : Nat
  items   : Nat
  /-- its packet was flushed away while in service (R334) -/
  gone    : Bool
  deriving DecidableEq, Repr

/-- Where the frame in service stands. -/
inductive TxPhase where
  /-- no frame on air, and none in service or one that waits for its backoff -/
  | idle
  /-- the listen of R270 runs -/
  | listening
  /-- the channel is the module's; the frame starts once RFTX is admitted -/
  | ready
  | onAir | awaitAck
  deriving DecidableEq, Repr

/-- Radio (Table PHY-8). -/
structure Phy where
  /-- `COMPAT.W2_PHY`, sys [R272, 09; 0] -/
  w2       : Bool
  /-- `COMPAT.STRAP` [R272, 09; 0] -/
  strap    : Bool
  /-- `COMPAT.ACTIVE` [R272, 09; 0] -/
  active   : Bool
  /-- `PHY_CTL` raw: ANT_SEL, ACCESS, ANT_GAIN, sys [Table PHY-8, 09; 0] -/
  ctl      : Word32
  /-- `PHY_CHAN.FIXED`, 8 bits, sys [R244, 09; 0x28] -/
  fixed    : Byte
  /-- `PHY_CHAN.CUR`, 8 bits [Table PHY-8, 09; 0] -/
  cur      : Byte
  /-- `PHY_CHAN.MASK_REFUSED` [R247, 09; 0] -/
  maskRef  : Bool
  /-- `PHY_LBT`, raw [Table PHY-8, 09; 0x0064_55AB] -/
  lbt      : Word32
  /-- `PHY_TXPWR.DEFAULT`, 6 bits, sys [R267, 09; 0x30] -/
  txpwr    : BitVec 6
  /-- hour buckets of the sub-bands 0 to 4, newest first, us, ret [R271, 09; empty] -/
  duty     : Vector (List Nat) 5
  /-- `PHY_SHAPE0` to `PHY_SHAPE3`, 128 bits, sys [R268, 09; 0] -/
  shape    : Word128
  /-- `PHY_LOAD`, raw, sys [Table PHY-8, 09; 0x23] -/
  load     : Word32
  /-- `PHY_GSEL.ENTRY`, 6 bits [Table PHY-8, 09; 0] -/
  gsel     : Fin 64
  /-- `PHY_HOPMASK_0` to `_6`, sys [R247, 09; 0] -/
  hopmask  : Vector Word32 7
  /-- hopping list in use [R246, 09; empty] -/
  hopList  : List Nat
  /-- the list is to be rebuilt at the next boundary [R247, 09; true] -/
  rebuild  : Bool
  /-- `PHY_STAT.RSSI`, 8 bits [Table PHY-8, 09; 0] -/
  rssi     : Byte
  /-- `PHY_STAT.CFO`, 16 bits [Table PHY-8, 09; 0] -/
  cfo      : BitVec 16
  /-- `PHY_STAT.TX_APPLIED`, 6 bits [R267, 09; 0] -/
  applied  : BitVec 6
  /-- `PHY_RXCNT.HDR_BAD` and LEN_BAD, 16 bits each, ret [R258, R265, 09; 0] -/
  hdrBad   : BitVec 16
  lenBad   : BitVec 16
  /-- `PHY_RXCNT2.TENT_DIS`, 16 bits, ret [R264, 09; 0] -/
  tentDis  : BitVec 16
  /-- `PHY_TXCNT.FALLBACK` and REG_DROP, 16 bits each, ret [R269, R271, 09; 0] -/
  fallback : BitVec 16
  regDrop  : BitVec 16
  /-- `TMAP_k`, 16 slots, sys [Table PHY-4, 09; 0] -/
  tmaps    : Vector ToneMap 16
  /-- gauge table: 24 SNR codes of 5 bits and COUNT of each neighbour entry, 128 bits [Table PHY-7, 09; 0] -/
  gauge    : Vector Word128 64
  /-- frame in service [R321, 11; none] -/
  tx       : Option TxFrame
  /-- where it stands [R321, 11; idle] -/
  txPhase  : TxPhase
  /-- frame on air as last started [R252, 09; none] -/
  air      : Option AirFrame
  /-- last listen found the channel clear, so a transmission may start [R270, 09; false] -/
  clear    : Bool
  /-- length of the listen under way, us [R270, 09; 0] -/
  lbtUs    : Nat
  /-- gauge symbols have been found during it [R281, 09; false] -/
  lbtHeard : Bool
  /-- a frame in reception across a boundary keeps its channel [R276, 09; false] -/
  rxHeld   : Bool
  deriving DecidableEq, Repr

/-- Neighbour entry (Table MAC-8) with its replay marks (R301). -/
structure Neighbour where
  /-- LONG, 64 bits, sys [Table MAC-8, 10; 0] -/
  long  : Word64
  /-- SHORT, 16 bits, sys [Table MAC-8, 10; 0] -/
  short : BitVec 16
  /-- VALID, sys [Table MAC-8, 10; 0] -/
  valid : Bool
  /-- COORD, sys [Table MAC-8, 10; 0] -/
  coord : Bool
  /-- TXMAP, 4 bits, sys [Table MAC-8, 10; 0] -/
  txmap : BitVec 4
  /-- PWR, 6 bits, sys [R330, 11; 0] -/
  pwr   : BitVec 6
  /-- TXSEQ, 8 bits, sys [Table MAC-8, 10; 0] -/
  txseq : Byte
  /-- RXSEQ, 8 bits, sys [Table MAC-8, 10; 0] -/
  rxseq : Byte
  /-- eight replay marks, live in AON [R301, 10; none] -/
  marks : List Mark
  /-- frames accepted since the last derivation of the loading loop [Table SCH-2, 11; 0] -/
  since : Nat
  /-- the loop's current and previous pool slots (`LOOP_LSEL`), with the superframe at which the previous one was left [R331, 11; none] -/
  curSlot  : Option (Fin 16)
  prevSlot : Option (Fin 16)
  prevSfn  : Nat
  deriving DecidableEq, Repr

/-- Sender cache entry (R293), with its number in the cache and what its word of the system area reads as: the stored H of its mark (R219, R301). -/
structure Sender where
  no   : Nat
  long : Word64
  mark : Option Mark
  cell : Copy Word32
  deriving DecidableEq, Repr

/-- Endpoint registers of one slot and number (Table MAC-11). -/
structure Endpoint where
  /-- `MAC_EP_e`, raw, sys [R303, 10; 0x0200_0000] -/
  ep      : Word32
  /-- `MAC_EPB_e.CPL`, 6 bits, sys [R303, 10; 0] -/
  cpl     : Fin 64
  /-- `MAC_EPS_e.DELIVERED` and REFUSED, 16 bits each, ret [Table MAC-11, 10; 0] -/
  deliv   : BitVec 16
  refused : BitVec 16
  deriving DecidableEq, Repr

/-- Transmit flow registers and its scheduler state (Table MAC-11, R319). -/
structure Flow where
  /-- `MAC_FLOW_f`, raw: SKEIN, DST, sys [R304, 10; 0] -/
  flow    : Word32
  /-- `MAC_FLOWB_f`, raw, sys [R304, 10; 0] -/
  flowb   : Word32
  /-- `MAC_FLOWS_f.SENT` and FAIL, 16 bits each, ret [Table MAC-11, 10; 0] -/
  sent    : BitVec 16
  fail    : BitVec 16
  /-- head finish time F while backlogged [R319, 11; none] -/
  fin     : Option Word32
  /-- F_last [R319, 11; 0] -/
  last    : Word32
  /-- the packet's frame, given up between two attempts, to go on with its retries [R321, R327, 11; none] -/
  part    : Option TxFrame
  /-- its packet waits for the next gate after CHANNEL_BUSY [R327, 11; false] -/
  wait    : Bool
  deriving DecidableEq, Repr

/-- `MAC_MODE.STATE` (R290). -/
inductive MacState where
  | unsync | search | track
  deriving DecidableEq, Repr

/-- An acknowledgement to send (R295). -/
structure AckDue where
  /-- acknowledged frame's SEQ and SRC -/
  seq  : Byte
  dst  : List Byte
  fb   : BitVec 5
  nb   : Option (Fin 64)
  slot : Fin 8
  deriving DecidableEq, Repr

/-- What keeps the receiver on (R289, R297, R305). -/
inductive RxHold where
  | pendBeacon
  | pendFrom (nb : Fin 64) (contention : Bool)
  | alert
  /-- until so many us from the superframe's beacon -/
  | rendezvous (untilUs : Nat)
  deriving DecidableEq, Repr

/-- MAC (Table MAC-11). -/
structure Mac where
  /-- `MAC_ADDR.SHORT`, 16 bits, sys [R285, 10; 0xFFFE] -/
  short    : BitVec 16
  /-- `MAC_MODE.TRACK`, sys [R290, 10; 0] -/
  trackEn  : Bool
  /-- `MAC_MODE.SNIFF`, sys [R305, 10; 0] -/
  sniffEn  : Bool
  /-- `MAC_MODE.STATE` [R290, 10; UNSYNC] -/
  state    : MacState
  /-- `MAC_MODE.ASSOC` pending [R292, 10; 0] -/
  assoc    : Bool
  /-- `MAC_MODE.ASSOC_RES`, 4 bits [R292, 10; 0] -/
  assocRes : BitVec 4
  /-- `MAC_SF.SO`, CAP_LAST, BSLOTS [R289, 10; 0] -/
  so       : BitVec 3
  capLast  : BitVec 5
  bslots   : BitVec 2
  /-- `MAC_SF.SKIP`, 8 bits, sys [R290, 10; 0] -/
  skip     : Byte
  /-- `MAC_SF.LOST_MAX`, 4 bits, sys [R290, 10; 4] -/
  lostMax  : BitVec 4
  /-- `MAC_SF.SEARCH`, 4 bits, sys [R290, 10; 4] -/
  search   : BitVec 4
  /-- `MAC_SFN`, 32 bits [R289, 10; 0] -/
  sfn      : Word32
  /-- `MAC_SLOTMASK`, 32 bits, sys [R292, 10; 0] -/
  slotmask : Word32
  /-- a slot mask applying from the next superframe (SLOT_ASSIGN) [Table MAC-7, 10; none] -/
  maskNext : Option Word32
  /-- MISS count [R290, 10; 0] -/
  miss     : Nat
  /-- superframe number from which tracked beacons, and the listens of UNSYNC, are counted [R290, 10; 1 (log 188)] -/
  trackRef : Word32
  /-- superframes spent in SEARCH [R290, 10; 0] -/
  searched : Nat
  /-- the receiver is open for an expected beacon [R290, 10; false] -/
  window   : Bool
  /-- source of the last beacon (short address) [R292, 10; 0] -/
  beaconSrc : BitVec 16
  /-- ASSOC_OPEN seen in the last beacon [R292, 10; false] -/
  assocOpen : Bool
  /-- ALERT seen in the last beacon [R289, 10; false] -/
  alert    : Bool
  /-- channel move announced: CHAN, AT [R289, 10; none] -/
  chsw     : Option (Byte × Byte)
  /-- `MAC_CSMA`, raw [R291, 10; 0x0008_3453] -/
  csma     : Word32
  /-- backoff under way: NB, BE and units to wait [R291, 10; none] -/
  backoff  : Option (Nat × Nat × Nat)
  /-- `MAC_WOR`, raw, sys [R305, 10; 0x3C40_0064] -/
  wor      : Word32
  /-- wakes without an accepted frame in the sliding hour: their times in ms [R305, 10; none] -/
  worWakes : List Nat
  /-- the WOR_CAP stitch of this hour is written [R305, 10; false] -/
  worCap   : Bool
  /-- the module listens after a sniff hit [R305, 10; false] -/
  listen   : Bool
  /-- RDV ms of the wake frame that holds the module asleep [R305, 10; none] -/
  rdv      : Option Nat
  /-- a frame has been accepted since the wake [R305, 10; false] -/
  wakeHit  : Bool
  /-- `MAC_GROUP_i`, 16 registers, raw, sys [R287, 10; 0] -/
  groups   : Vector Word32 16
  /-- `MAC_NBCTL.ENTRY` [Table MAC-11, 10; 0] -/
  nbEntry  : Fin 64
  /-- `MAC_NBCTL.OP`, 2 bits [Table MAC-11, 10; 0] -/
  nbOp     : BitVec 2
  /-- `MAC_NB0` to `MAC_NB3`, 128 bits [Table MAC-11, 10; 0] -/
  nbWord   : Word128
  /-- neighbour table, 64 entries [Table MAC-8, 10; invalid] -/
  nbs      : Vector Neighbour 64
  /-- sender cache, least recently used first, 256 entries (`MAC_SC.USED`) [R293, 10; empty] -/
  senders  : List Sender
  /-- `MAC_SC.EVICT`, 16 bits, ret [R293, 10; 0] -/
  evict    : BitVec 16
  /-- `MAC_DROP_1` to `_11`, 16 bits each, ret [R286, 10; 0] -/
  dropk    : Vector (BitVec 16) 11
  /-- `MAC_RA.LINES` and FROGS, 16 bits each, ret [R306, 10; 0] -/
  raLines  : BitVec 16
  raFrogs  : BitVec 16
  /-- endpoints 8 × slot + e [R303, 10; off] -/
  eps      : Vector Endpoint 64
  /-- flows 8 × slot + f [R304, 10; off] -/
  flows    : Vector Flow 64
  /-- live outgoing counters by key index (`MAC_TXFC_k`), ret [R300, 10; 0] -/
  fc       : Vector Word32 36
  /-- stored outgoing counters, class 0x7, sys [R300, 10; 0] -/
  fcStored : Vector Word32 36
  /-- FC_LOW written, FC_EXHAUSTED stopped [R300, 10; false] -/
  fcLow    : Vector Bool 36
  fcStop   : Vector Bool 36
  /-- acknowledgement due [R296, 10; none] -/
  ackDue   : Option AckDue
  /-- what keeps the receiver on, the latest last [R289, R297, R305, 10; empty] -/
  rxHold   : List RxHold
  /-- module flow: commands waiting, oldest first [R317, 11; empty] -/
  modq     : List TxFrame
  /-- the module flow's head waits for the next gate after CHANNEL_BUSY [R327, 11; false] -/
  modWait  : Bool
  /-- TXSEQ for frames without a neighbour [R282, 10; DESIGN CHOICE 0 (log 9)] -/
  ownSeq   : Byte
  /-- `SCH_VT.V`, 32 bits [R318, 11; 0] -/
  v        : Word32
  /-- us sent on the channel of this visit [R248, 09; 0] -/
  dwell    : Nat
  /-- us since the first gauge symbol of the superframe's beacon [R288, 10; 0] -/
  sfUs     : Nat
  /-- `LOOP_CTL`, raw, sys [Table SCH-3, 11; 0x1007] -/
  loopCtl  : Word32
  /-- `LOOP_PWR`, raw, sys [Table SCH-3, 11; 0x0010_3400] -/
  loopPwr  : Word32
  /-- `LOOP_LOAD`, raw, sys [Table SCH-3, 11; 0x0008_0624] -/
  loopLoad : Word32
  /-- `LOOP_POOL`, 16 bits, sys [R331, 11; 0] -/
  pool     : BitVec 16
  /-- `LOOP_THR`, raw, sys [Table SCH-3, 11; 0x20A1_B092] -/
  loopThr  : Word32
  /-- `LOOP_STAT.CONFLICT`, 3 bits, ret [R329, 11; 0] -/
  conflict : BitVec 3
  /-- `LOOP_STAT.STARVE_PWR`, LOAD, THR, 8 bits each, ret [R332, 11; 0] -/
  starve   : Vector (BitVec 8) 3
  /-- sniffs without a false wake [Table SCH-2, 11; 0] -/
  cleanRun : Nat
  /-- `LOOP_LSEL.ENTRY` [Table SCH-3, 11; 0] -/
  lsel     : Fin 64
  deriving DecidableEq, Repr

/-! ## Evaluator and release pair -/

/-- A word on the write list (R346). -/
structure Listed where
  addr : Nat
  data : Word128
  cond : BitVec 2
  deriving DecidableEq, Repr

/-- Where an evaluation stands. -/
inductive EvaPhase where
  | running
  /-- GRANT reached; the group awaits acceptance (R349 step 2) -/
  | grantWait (reason : BitVec 16)
  /-- group accepted; the drive follows (R349 step 4) -/
  | driveWait
  /-- the verdict stitch, its code and snapshots, waits for room in the recorder's queue (R402) -/
  | stitchWait (code : BitVec 12) (slots : List Word32)
  /-- the verdict stitch is queued; the completion carries its number (R340) -/
  | recording
  deriving DecidableEq, Repr

/-- The evaluation under way (R340, R342). -/
structure Eval where
  op      : Nat
  ring    : Fin 512
  index   : BitVec 16
  prog    : Nat
  /-- WR0 to WR15 [R342, 12; Table EVA-2] -/
  wr      : Vector Word64 16
  pc      : Nat
  steps   : Nat
  list    : List Listed
  snap    : Vector Word32 3
  keySel  : BitVec 2
  tag     : BitVec 16
  irq     : Bool
  /-- pre-arm lifeline slot (R348) -/
  ll      : Option (Fin 4)
  /-- a HINT has run (R348) -/
  hinted  : Bool
  /-- a GRANT stitch is staged -/
  staged  : Bool
  /-- sequence number of the verdict stitch -/
  seq     : Word32
  /-- verdict code and trap code once they are known -/
  verdict : BitVec 2
  trap    : BitVec 12
  phase   : EvaPhase
  /-- ms since the GRANT verdict (R351) -/
  waitMs  : Nat
  deriving DecidableEq, Repr

/-- A GRANT pulse under way: its slot, and the ms left of it (R353). -/
structure Pulse where
  slot : Fin 8
  left : Nat
  deriving DecidableEq, Repr

/-- An accepted emergency order whose mark waits (R356): its slot, word 0, the ms until its hold would have ended, and whether its stitch is
staged. -/
structure EmergWait where
  slot   : Fin 8
  w0     : Word128
  hold   : Nat
  staged : Bool
  deriving DecidableEq, Repr

/-- Evaluator and release pair (Table EVA-9). -/
structure Eva where
  /-- `EVA_CTL`, raw, sys [Table EVA-9, 12; 0x0032_1401] -/
  ctl      : Word32
  /-- the evaluation under way [R340, 12; none] -/
  cur      : Option Eval
  /-- GRANT pulses running, oldest first (`REL_STAT.PULSE`) [R353, 12; none] -/
  pulses   : List Pulse
  /-- the emergency hold drives the pair (`REL_STAT.HOLD`) [R356, 12; 0] -/
  hold     : Bool
  /-- ms of the hold remaining, ret (`REL_STAT.HOLD_LEFT`) [R364, 12; 0] -/
  holdMs   : Nat
  /-- order word 0 of the running hold, ret [R364, 12; 0] -/
  holdOrder : Word128
  /-- owner of the SAFETY slot when the hold started, ret [R364, 12; 0] -/
  holdOwner : Word64
  /-- `REL_STAT.ARMED` [R348, 12; 0] -/
  armed    : Bool
  /-- `REL_STAT.FAULT` [R354, 12; 0] -/
  fault    : Bool
  /-- `REL_STAT.FAULT_PIN`, 2 bits [R354, 12; 0] -/
  faultPin : BitVec 2
  /-- ms of the last end of a pulse or hold [R368, 13; none] -/
  lastEnd  : Option Nat
  /-- ms of the last end of a pulse [R349, 12; none] -/
  lastPulse : Option Nat
  /-- `EVA_EMERG`, raw, sys [Table EVA-9, 12; 0x0708_0A00] -/
  emerg    : Word32
  /-- `EVA_EMERG_NO`, 32 bits, sys [R356, 12; 0] -/
  emergNo  : Word32
  /-- `EVA_EMERG_RES.RESULT`, 4 bits, ret [R356, 12; 0] -/
  emergRes : BitVec 4
  /-- the stored order number, as a read of its word finds it [R356, R361, 12; blank] -/
  emergStored : Copy Word32
  /-- an accepted order whose mark waits [R356, 12; none] -/
  emergQ   : Option EmergWait
  /-- an order held until the recorder's queue has room (R402): sending slot, words 0 and 1 [R402, 14; none] -/
  emergHeld : Option (Fin 8 × Word128 × Word128)
  deriving DecidableEq, Repr

/-! ## Sensing, site time, ledger -/

/-- Sensing, site time and ledger (Table SNS-7). -/
structure Sense where
  /-- `SNS_BAT.MV`, 16 bits [R365, 13; 0] -/
  batMv    : BitVec 16
  /-- `SNS_BAT.MIN_TX`, 16 bits [R365, 13; 0] -/
  minTx    : BitVec 16
  /-- lowest sample of the frame on air so far [Table SNS-2, 13; none] -/
  txMin    : Option (BitVec 16)
  /-- BAT_LOW is armed [R369, 13; true] -/
  batArm   : Bool
  /-- charge below one 10 uC unit, in nC, ret [R367, 13; 0] -/
  chgSub   : Nat
  /-- `SNS_TEMP.T`, 10 bits [R365, 13; 0] -/
  temp     : BitVec 10
  /-- `SNS_FLD_XY` and Z: axes in 0.1 mT, signed 16 bits [R366, 13; 0] -/
  fx       : BitVec 16
  fy       : BitVec 16
  fz       : BitVec 16
  /-- `SNS_FLD_Z.MAG`, 16 bits [R366, 13; 0] -/
  mag      : BitVec 16
  /-- a sleep-sample episode (FIELD_TAMPER) is under way [R366, 13; false] -/
  tamper   : Bool
  /-- `SNS_IO.DOOR`, ret [R368, 13; 0] -/
  door     : Bool
  /-- `SNS_IO.BOLT`, ret [R368, 13; 0] -/
  bolt     : Bool
  /-- `SNS_IO.DOOR_PIN` and BOLT_PIN [Table SNS-7, 13; 0] -/
  doorPin  : Bool
  boltPin  : Bool
  /-- `SNS_CTL`, raw, sys [Table SNS-7, 13; 0x6E5C_3614] -/
  ctl      : Word32
  /-- `ST_TIME`, 32 bits, ret [R370, 13; 0] -/
  time     : Nat
  /-- sub-second fraction, ms [R370, 13; 0] -/
  frac     : Nat
  /-- site time holds until the local count reaches the source value: seconds still to hold [R371, 13; 0] -/
  holdSec  : Nat
  /-- `ST_STAT.TRUSTED`, ret [R372, 13; 0] -/
  trusted  : Bool
  /-- `ST_STAT.SOURCE`, 2 bits, ret [Table SNS-7, 13; 0] -/
  source   : BitVec 2
  /-- ms since the last source value, ret (`ST_STAT.AGE` in hours) [R372, 13; 0] -/
  ageMs    : Nat
  /-- `ST_STAT.STEPS`, 16 bits, ret [R371, 13; 0] -/
  steps    : BitVec 16
  /-- `ST_CTL`, raw, sys [Table SNS-7, 13; 0xA802] -/
  stCtl    : Word32
  /-- `LG_CTL.LEN` in force, hours, sys [R375, 13; 24] -/
  len      : Nat
  /-- `LG_CTL.WB`, minutes, sys [R377, 13; 15] -/
  wb       : Byte
  /-- `LG_ORIGIN` in force, sys [R375, 13; 0] -/
  origin   : Nat
  /-- pending LEN and ORIGIN [R375, 13; none] -/
  lenPend  : Option Nat
  originPend : Option Nat
  /-- period word, live [R377, 13; 0, 86400, 0, 0] -/
  pw       : PeriodWord
  /-- period word, stored copies, class 0x9, sys [R377, 13; the live factory word] -/
  pwStored : PeriodWord
  /-- running words, live (`LG_RUN0` to `LG_RUN3`), ret [R373, 13; 0] -/
  run      : Vector LedgerWord 8
  /-- running words, stored, class 0x9, sys [R377, 13; 0] -/
  runStored : Vector LedgerWord 8
  /-- sub-unit energy of each slot in 10 pC, ret [R374, 13; 0] -/
  sub      : Vector Nat 8
  /-- BACKSTEP, FWDSTEP, UNCLEAN of the open period [Table SNS-6, 13; false] -/
  backstep : Bool
  fwdstep  : Bool
  unclean  : Bool
  /-- periods merged into each slot's running word beyond the open one [R376, 13; 0] -/
  covered  : Vector Nat 8
  /-- periods skipped that the next record of each slot names [R378, 13; 0] -/
  skipped  : Vector Nat 8
  deriving DecidableEq, Repr

/-! ## Recorder -/

/-- A stitch in the wait queue, or staged (R402, Table REC-2). -/
structure Stitch where
  code  : BitVec 12
  ch    : Fin 8
  supp  : BitVec 16
  slots : List Word32
  /-- FLAGS [87:80] set so far -/
  flags : Byte
  /-- class M when built (R385) -/
  clsM  : Bool
  /-- class of the rate limiter is 0 (R410) -/
  cls0  : Bool
  /-- the post of this slot awaits its outcome (R414) -/
  post  : Option (Fin 8)
  /-- engine operation whose completion carries this stitch's sequence number (R340) -/
  forOp : Option Nat
  /-- bit mask of the value record to mark stitched once this is offered (R46), as class 0x6 index -/
  lc    : Option Nat
  deriving DecidableEq, Repr

/-- A stitch whose position is assigned: staged, or marked and awaiting its chain tag. -/
structure Placed where
  pos   : Nat
  seq   : Word32
  chidx : BitVec 24
  words : List Word128
  st    : Stitch
  deriving DecidableEq, Repr

/-- One log channel. -/
structure Chan where
  /-- next position, CHIDX, EPOCH, DROPS, last tag and its position, live [R396, 14; 0] -/
  head   : HeadWord
  /-- stored head word, class 0xA, sys [R396, 14; 0] -/
  stored : HeadWord
  /-- stitches since the head was written [R396, 14; 0] -/
  since  : Nat
  /-- `REC_CH_n.FULL` [R395, 14; 0] -/
  full   : Bool
  /-- `REC_CH_n.LOST`, 16 bits, ret [R402, 14; 0] -/
  lost   : BitVec 16
  /-- stitches lost since the last REC_LOST [Table REC-4, 14; 0] -/
  lostNew : Nat
  /-- granules of the channel in POS order (`REC_CH_n.GRAN`) [R394, 14; none] -/
  grans  : List (Fin 64)
  /-- the live staged stitch [R398, 14; none] -/
  staged : Option Placed
  /-- a frogged or lapsed staging whose place its producer's next stitch takes (R399) [R399, 14; none] -/
  reuse  : Option (Nat × Word32 × BitVec 24)
  /-- a marked class C stitch whose chain tag is being computed [R408, 14; none] -/
  tagging : Option Placed
  /-- UNCLEAN is set in the next stitch [R384, 14; false] -/
  uncleanNext : Bool
  /-- WARN has been signalled [R411, 14; false] -/
  warned : Bool
  deriving DecidableEq, Repr

/-- Limiter entry (R392). -/
structure LimEntry where
  code   : BitVec 12
  ch     : Fin 8
  tokens : Nat
  supp   : BitVec 16
  stamp  : Nat
  deriving DecidableEq, Repr

/-- The recorder (Table REC-7). -/
structure Rec where
  /-- `REC_CTL`, raw, sys [Table REC-7, 14; 0xC06] -/
  ctl     : Word32
  /-- wait queue, 8 stitches (`REC_STAT.QUEUE`) [R402, 14; empty] -/
  queue   : List Stitch
  /-- `REC_STAT.SEQ_END`, sys [R388, 14; 0] -/
  seqEnd  : Bool
  /-- `REC_STAT.LOST`, 16 bits, ret [R402, 14; 0] -/
  lost    : BitVec 16
  /-- `REC_SEQ`: next sequence number, ret [R386, 14; 0] -/
  seq     : Word32
  /-- stored sequence number, class 0xA, sys [R387, 14; 0] -/
  seqStored : Word32
  /-- eight channels [R394, 14; empty] -/
  chans   : Vector Chan 8
  /-- limiter table, least recently used first, 64 entries, ret [R392, 14; empty] -/
  lim     : List LimEntry
  /-- `REC_RL_c`: BURST and INTERVAL of classes 0 to 15, sys [Table REC-5, 14; Table REC-5] -/
  rl      : Vector (Byte × BitVec 16) 16
  /-- codes bound away from their factory class, sys [R391, 14; none] -/
  bind    : Sparse (BitVec 4)
  /-- `REC_BIND.CODE` and CLASS, OP [Table REC-7, 14; 0] -/
  bindCode : BitVec 12
  bindCls  : BitVec 4
  bindOp   : Bool
  /-- `REC_ALLOC.CH` [R394, 14; 0] -/
  allocCh : Fin 8
  /-- `REC_CLR.CH` [R397, 14; 0] -/
  clrCh   : Fin 8
  /-- `REC_CLR.RESULT`, 2 bits [R397, 14; 0] -/
  clrRes  : BitVec 2
  /-- a clear that waits (`REC_CLR.GO` reads 1) [R397, 14; none] -/
  clrWait : Option (Fin 8)
  /-- `REC_CLR_CODE_HI` and `_LO` [R397, 14; 0] -/
  clrCode : Word64
  /-- `REC_AUDIT_CODE_HI` and `_LO` [R407, 14; 0] -/
  audCode : Word64
  /-- `REC_AUDIT_NONCE`, 32 bits [R407, 14; random: free value] -/
  audNonce : Word32
  deriving DecidableEq, Repr

/-- The module. -/
structure State where
  pending : List Instr
  power   : Power
  life    : Life
  fuses   : Fuses
  portA   : PortSt
  portB   : PortSt
  needles : Vector Needle 32
  tenants : Vector Tenant 8
  keys    : Vector Key 36
  lc      : Lc
  mram    : Mram
  eng     : Engine
  skn     : SkeinSt
  int     : Integ
  phy     : Phy
  mac     : Mac
  eva     : Eva
  sns     : Sense
  log     : Rec
  /-- clean-stop words of arrays A and B, sys [R419, 15; blank] -/
  stopA   : Copy StopWord
  stopB   : Copy StopWord
  /-- the model's count of free values drawn [the model's own; DESIGN CHOICE 0 (log 1)] -/
  freeCtr : Nat
  deriving DecidableEq, Repr

/-! ## Reset -/

/-- Reset values of `LedgerWord`, as its fields say. -/
def LedgerWord.reset : LedgerWord :=
  { txSym := 0, txFr := 0, rxFr := 0, writes := 0, energy := 0 }

/-- Reset values of `PeriodWord`, as its fields say. -/
def PeriodWord.reset : PeriodWord :=
  { period := 0, next := 86400, hwm := 0, chg := 0 }

/-- Reset values of `HeadWord`, as its fields say. -/
def HeadWord.reset : HeadWord :=
  { pos := 0, chidx := 0, epoch := 0, drops := 0, tag := none, tagPos := 0 }

/-- Reset values of `RingCtx`, as its fields say. -/
def RingCtx.reset : RingCtx :=
  { base := 0, size := 0, cpl? := false, cpl := 0, en := false, prod := 0, cons := 0, llOk := false, haltAt := 0, mask := 0 }

/-- Reset values of `Ring`, as its fields say. -/
def Ring.reset : Ring :=
  { ctx := RingCtx.reset, dirty := false, halted := false, cause := 0, fetch := 0, fetched := [], held := false }

/-- Reset values of `Power`, as its fields say. -/
def Power.reset : Power :=
  { supply := .por, begun := false, eb := false, ebFilter := false, trigger := none, recasting := false, waitVio := none,
    vbat := 0, storeMv := 0, storeOk := false, charger := true, vioOk := false, domOn := 0x01, domWant := 0,
    domStart := none, domStepUs := 0, pwrCtl := 0x1, lastStop := 0, clkCtl := 0x3E81, rcPeriod := 0x77359, calAge := 0,
    calOpen := false, tcxoOk := false, tcxoCheck := false, asleep := false, guardNs := 0, wakeLeadUs := 0, peakCeil := 0x610,
    admitted := [], waiting := [], nofit := false, nofitUnit := 0, burstA := 0, burstB := 0 }

/-- Reset values of `Life`, as its fields say. -/
def Life.reset : Life :=
  { state := .castOn, step := 0, wakeFails := 0, caston := 0, mask := 0, first := 0, valid := false, detail := 0,
    castonUs := 0, retry := false, domFailed := false, aonIntact := false, restored := false, unclean := false, ms := 0 }

/-- Reset values of `Fuses`, as its fields say; the factory-data bits [511:270] of the antifuse block, which the manual gives no value, are 0
(DESIGN CHOICE, log entry 7). -/
def Fuses.reset : Fuses :=
  { variant := 0x1, rev := 0x4341, longAddr := 0x00146E000B2791C5, transport := 0, antifuses := 0 }

/-- Reset values of `PortSt`, as its fields say. -/
def PortSt.reset (nonce : Word32) : PortSt :=
  { code := 0, sel := 0, nonce := nonce, mode8d := false, lat := 0x14, open? := none, lastSlot := 0, keyless := false,
    result := 0, failRun := 0, locked := false, openWait := none, poison := false, poisonAt := 0, malCount := 0,
    malValid := 0, malFirst := Vector.replicate 16 0, irqStat := 0, irqEn := 0, rdy := false, staged := 0, out := [],
    ndlResult := Vector.replicate 32 0, ndlWait := Vector.replicate 32 false, rdStart := 0, rdCh := 0, rdMode := 0,
    rdOp := 0, rdLimit := 0, rdResult := 0, cursor := none, liveEnd := false, win := Vector.replicate 4 0, auditOn := false }

/-- Reset values of `Needle`, as its fields say. -/
def Needle.reset : Needle :=
  { holder := none, port := .a, orphaned := true, gen := 0, remain := 0, lapsed := none }

/-- Reset values of `Tenant`, as its fields say. -/
def Tenant.reset : Tenant :=
  { st := .free, role := .none, susp := false, owner := 0, iso := 0, granules := 0, sealCheck := 0, frogOps := 0,
    frogLines := 0, unc := none, uncLast := (0, 0), uncAddr := 0, sknSel := 0, sknOp := 0, sknCfg0 := 0, sknCfg1 := 0,
    sknRes := 0, sknOcc := Vector.replicate 8 0, sknPkt := Vector.replicate 8 0, notSkein := 0, notEn := false, notLost := 0,
    pbRes := (0, 0), dropCount := 0, dropSkein := 0, sknErr := (0, 0), sknErrV := false, quota := 480, used := 0,
    scanCtl := 0, scanCnt := 0, scanRes := 0, scanSum := 0, cGrant := 0, cDeny := 0, cDefer := 0, cTrap := 0, trap := (0, 0),
    trapV := false, pulseLen := 25, recOwn := 0, feed := 0, feedLost := 0, postCode := 0, postRes := 0,
    postV := Vector.replicate 8 0, sw := 16, fw := 0x11111111, gate := 0xFFFF, fitWait := 0, abandoned := 0, shpRate := 174,
    shpBurst := 2048, shpPend := none, level := 0, clamps := 0, polCfg := 0x80003C1E, polLevel := 60, polDrops := 0 }

/-- Reset values of `Key`, as its fields say; the last accepted load counter of a slot never loaded is 0, so a first blob needs a counter of at
least 1 (DESIGN CHOICE, log entry 198). -/
def Key.reset : Key :=
  { st := .blank, use := 0, key := 0, ctr := 0 }

/-- Reset values of `LcRecord`, as its fields say. -/
def LcRecord.reset : LcRecord :=
  { value := 0, old := 0, count := 0, stitched := true }

/-- Reset values of `Lc`, as its fields say. -/
def Lc.reset : Lc :=
  { setting := 0, target := 0, lastAck := false, val := 0, code := 0, claim := 0, reason := 0, left := 0, run := none,
    region := LcRecord.reset, site := LcRecord.reset, audit := Vector.replicate 8 LcRecord.reset, compat := LcRecord.reset,
    owner := Vector.replicate 8 LcRecord.reset, isoSlot := 0, isoPath := 0, isoIdx := 0, isoV := false }

/-- Reset values of `PartEntry`, as its fields say. -/
def PartEntry.reset : PartEntry :=
  { owner := 0xF, pos := 0, zeroFill := false, st := .free }

/-- Reset values of `ArrSt`, as its fields say. -/
def ArrSt.reset : ArrSt :=
  { queue := [], attempts := 0, remap := none, spares := List.range 48, stored := 0, total := 0, sampled := false, twinDone := none }

/-- Reset values of `Mram`, as its fields say. -/
def Mram.reset : Mram :=
  { words := [], arrA := ArrSt.reset, arrB := ArrSt.reset, fhb := [], waitq := [], remaps := [], nextTwin := 1,
    wfail := false, mergeBad := false, portDrop := false, wfailCount := 0, wfailWord := 0, wfailArr := .A, wfailCause := 0,
    wfailV := false, hot := [], part := Vector.replicate 64 PartEntry.reset, partCtl := 0, partRes := 0, limit := 0x110A,
    defer := false, disturb := false, epDisturb := false, peak := 0, below := false, episodes := 0, drops := 0, fwords := 0,
    stall := 0, epMs := 0, epWords := 0, epStall := 0, partRun := none }

/-- Reset values of `Engine`, as its fields say. -/
def Engine.reset : Engine :=
  { ctl := 0x2001, rings := Vector.replicate 512 Ring.reset, stored := Vector.replicate 512 .blank, rr := 0, ops := [],
    nextOp := 0, lls := Vector.replicate 4 none, hold := [], llDue := [], discards := [] }

/-- Reset values of `SkeinSt`, as its fields say. -/
def SkeinSt.reset : SkeinSt :=
  { blocks := [], skeins := [], stored := [], cache := [], alBlock := 0, alSlot := 0, alRes := 0, wbEvery := 8,
    unclean := false }

/-- Reset values of `Integ`, as its fields say. -/
def Integ.reset : Integ :=
  { ctl := 0x421, pos := 0, prio := false, reason := 0, laps := 0, lapsStored := 0, lapRows := 0, lapCe := 0, lapUe := 0,
    lapPairs := 0, ceScrub := 0, ceDemand := 0, ue := 0, pairRep := 0, pairFail := 0, ueWord := 0, ueCause := 0,
    ueV := false, repairs := [], scans := [], swArr := .A, swTest := .A, swRun := false, swRes := 0b10,
    swFail := { unit := 0, group := 0, index := 0 }, rstCause := 0, rstClass := 0, rstIdx := 0, rstV := false, damage := [],
    pSusp := false, pMap := 0, pRows := 0, resume := 0, batch := 0 }

/-- Reset values of `ToneMap`, as its fields say. -/
def ToneMap.reset : ToneMap :=
  { map := 0, rate := 0, tx := false, index := 0, valid := false }

/-- Reset values of `Phy`, as its fields say. -/
def Phy.reset : Phy :=
  { w2 := false, strap := false, active := false, ctl := 0, fixed := 0x28, cur := 0, maskRef := false, lbt := 0x006455AB,
    txpwr := 0x30, duty := Vector.replicate 5 [], shape := 0, load := 0x23, gsel := 0, hopmask := Vector.replicate 7 0,
    hopList := [], rebuild := true, rssi := 0, cfo := 0, applied := 0, hdrBad := 0, lenBad := 0, tentDis := 0, fallback := 0,
    regDrop := 0, tmaps := Vector.replicate 16 ToneMap.reset, gauge := Vector.replicate 64 0, tx := none, txPhase := .idle, lbtUs := 0, lbtHeard := false, rxHeld := false,
    air := none, clear := false }

/-- Reset values of `Neighbour`, as its fields say. -/
def Neighbour.reset : Neighbour :=
  { long := 0, short := 0, valid := false, coord := false, txmap := 0, pwr := 0, txseq := 0, rxseq := 0,
    marks := [], since := 0, curSlot := none, prevSlot := none, prevSfn := 0 }

/-- Reset values of `Endpoint`, as its fields say. -/
def Endpoint.reset : Endpoint :=
  { ep := 0x02000000, cpl := 0, deliv := 0, refused := 0 }

/-- Reset values of `Flow`, as its fields say. -/
def Flow.reset : Flow :=
  { flow := 0, flowb := 0, sent := 0, fail := 0, fin := none, last := 0, part := none, wait := false }

/-- Reset values of `Mac`, as its fields say. -/
def Mac.reset : Mac :=
  { short := 0xFFFE, trackEn := false, sniffEn := false, state := .unsync, assoc := false, assocRes := 0, so := 0,
    capLast := 0, bslots := 0, skip := 0, lostMax := 4, search := 4, sfn := 0, slotmask := 0, maskNext := none, miss := 0, trackRef := 1,
    searched := 0, window := false, beaconSrc := 0, assocOpen := false, alert := false, chsw := none, csma := 0x00083453,
    backoff := none, wor := 0x3C400064, worWakes := [], worCap := false, listen := false, rdv := none, wakeHit := false,
    groups := Vector.replicate 16 0, nbEntry := 0, nbOp := 0, nbWord := 0, nbs := Vector.replicate 64 Neighbour.reset,
    senders := [], evict := 0, dropk := Vector.replicate 11 0, raLines := 0, raFrogs := 0,
    eps := Vector.replicate 64 Endpoint.reset, flows := Vector.replicate 64 Flow.reset, fc := Vector.replicate 36 0,
    fcStored := Vector.replicate 36 0, fcLow := Vector.replicate 36 false, fcStop := Vector.replicate 36 false,
    ackDue := none, rxHold := [], modq := [], modWait := false, ownSeq := 0, v := 0, dwell := 0, sfUs := 0,
    loopCtl := 0x1007, loopPwr := 0x00103400, loopLoad := 0x00080624, pool := 0, loopThr := 0x20A1B092, conflict := 0,
    starve := Vector.replicate 3 0, cleanRun := 0, lsel := 0 }

/-- Reset values of `Eva`, as its fields say. -/
def Eva.reset : Eva :=
  { ctl := 0x00321401, cur := none, pulses := [], hold := false, holdMs := 0, holdOrder := 0, holdOwner := 0, armed := false,
    fault := false, faultPin := 0, lastEnd := none, lastPulse := none, emerg := 0x07080A00, emergNo := 0, emergRes := 0,
    emergStored := .blank, emergQ := none, emergHeld := none }

/-- Reset values of `Sense`, as its fields say. -/
def Sense.reset : Sense :=
  { batMv := 0, minTx := 0, txMin := none, batArm := true, chgSub := 0, temp := 0, fx := 0, fy := 0, fz := 0, mag := 0,
    tamper := false, door := false, bolt := false, doorPin := false, boltPin := false, ctl := 0x6E5C3614, time := 0,
    frac := 0, holdSec := 0, trusted := false, source := 0, ageMs := 0, steps := 0, stCtl := 0xA802, len := 24, wb := 15,
    origin := 0, lenPend := none, originPend := none, pw := PeriodWord.reset, pwStored := PeriodWord.reset,
    run := Vector.replicate 8 LedgerWord.reset, runStored := Vector.replicate 8 LedgerWord.reset,
    sub := Vector.replicate 8 0, backstep := false, fwdstep := false, unclean := false, covered := Vector.replicate 8 0,
    skipped := Vector.replicate 8 0 }

/-- Reset values of `Chan`, as its fields say. -/
def Chan.reset : Chan :=
  { head := HeadWord.reset, stored := HeadWord.reset, since := 0, full := false, lost := 0, lostNew := 0, grans := [],
    staged := none, reuse := none, tagging := none, uncleanNext := false, warned := false }

/-- Reset values of `Rec`, as its fields say. -/
def Rec.reset (nonce : Word32) : Rec :=
  { ctl := 0xC06, queue := [], seqEnd := false, lost := 0, seq := 0, seqStored := 0, chans := Vector.replicate 8 Chan.reset,
    lim := [],
    rl := #v[(0, 0), (16, 10), (8, 100), (4, 600), (32, 1), (4, 6000), (8, 100), (8, 100), (8, 100), (8, 100), (8, 100), (8, 100), (8, 100), (8, 100), (8, 100), (8, 100)],
    bind := [], bindCode := 0, bindCls := 0, bindOp := false, allocCh := 0, clrCh := 0, clrRes := 0, clrWait := none,
    clrCode := 0, audCode := 0, audNonce := nonce }

/-- The module as AON power-on reset leaves a factory-fresh part, before cast-on (R74): every field at the reset value of its
register table, and every value the manual gives none for at the value its log entry names (entries 1, 6, 7, 8, 9). -/
def State.reset : State :=
  { pending := [], power := Power.reset, life := Life.reset, fuses := Fuses.reset,
    portA := PortSt.reset ((Config.freeBits 0).setWidth 32), portB := PortSt.reset ((Config.freeBits 1).setWidth 32),
    needles := Vector.replicate 32 Needle.reset, tenants := Vector.replicate 8 Tenant.reset,
    keys := Vector.replicate 36 Key.reset, lc := Lc.reset, mram := Mram.reset, eng := Engine.reset, skn := SkeinSt.reset,
    int := Integ.reset, phy := Phy.reset, mac := Mac.reset, eva := Eva.reset, sns := Sense.reset,
    log := Rec.reset ((Config.freeBits 2).setWidth 32), stopA := .blank, stopB := .blank, freeCtr := 3 }

end Sys2Proof.Machine
end

