-- ==== Sys2Proof/Machine/Ops.lean ====
section
/-! DEFINITION. The named operations over the state: changing one part of it, drawing a free value, who owns and who has opened what,
interrupt bits (R116), isolation of resources (R34), pages of the setup map, and the ledger's charges (R374). -/

namespace Sys2Proof.Machine

/-! ## Changing one part of the state -/

def State.modPower (s : State) (f : Power → Power) : State := { s with power := f s.power }
def State.modLife (s : State) (f : Life → Life) : State := { s with life := f s.life }
def State.modFuses (s : State) (f : Fuses → Fuses) : State := { s with fuses := f s.fuses }
def State.modLc (s : State) (f : Lc → Lc) : State := { s with lc := f s.lc }
def State.modMram (s : State) (f : Mram → Mram) : State := { s with mram := f s.mram }
def State.modEng (s : State) (f : Engine → Engine) : State := { s with eng := f s.eng }
def State.modSkn (s : State) (f : SkeinSt → SkeinSt) : State := { s with skn := f s.skn }
def State.modInt (s : State) (f : Integ → Integ) : State := { s with int := f s.int }
def State.modPhy (s : State) (f : Phy → Phy) : State := { s with phy := f s.phy }
def State.modMac (s : State) (f : Mac → Mac) : State := { s with mac := f s.mac }
def State.modEva (s : State) (f : Eva → Eva) : State := { s with eva := f s.eva }
def State.modSns (s : State) (f : Sense → Sense) : State := { s with sns := f s.sns }
def State.modLog (s : State) (f : Rec → Rec) : State := { s with log := f s.log }

/-- The port's registers. -/
def State.port (s : State) : Port → PortSt
  | .a => s.portA
  | .b => s.portB

def State.modPort (s : State) (p : Port) (f : PortSt → PortSt) : State :=
  match p with
  | .a => { s with portA := f s.portA }
  | .b => { s with portB := f s.portB }

def State.modTen (s : State) (n : Fin 8) (f : Tenant → Tenant) : State := { s with tenants := upd s.tenants n f }
def State.modKey (s : State) (k : Fin 36) (f : Key → Key) : State := { s with keys := upd s.keys k f }
def State.modNeedle (s : State) (k : Fin 32) (f : Needle → Needle) : State := { s with needles := upd s.needles k f }
def State.modRing (s : State) (r : Fin 512) (f : Ring → Ring) : State := s.modEng fun e => { e with rings := upd e.rings r f }
def State.modPart (s : State) (g : Fin 64) (f : PartEntry → PartEntry) : State := s.modMram fun m => { m with part := upd m.part g f }
def State.modChan (s : State) (n : Fin 8) (f : Chan → Chan) : State := s.modLog fun l => { l with chans := upd l.chans n f }
def State.modNb (s : State) (i : Fin 64) (f : Neighbour → Neighbour) : State := s.modMac fun m => { m with nbs := upd m.nbs i f }
def State.modEp (s : State) (i : Fin 64) (f : Endpoint → Endpoint) : State := s.modMac fun m => { m with eps := upd m.eps i f }
def State.modFlow (s : State) (i : Fin 64) (f : Flow → Flow) : State := s.modMac fun m => { m with flows := upd m.flows i f }

/-- The write side of an array. -/
def Mram.arr (m : Mram) : Arr → ArrSt
  | .A => m.arrA
  | .B => m.arrB

def State.modArr (s : State) (a : Arr) (f : ArrSt → ArrSt) : State :=
  s.modMram fun m => match a with
    | .A => { m with arrA := f m.arrA }
    | .B => { m with arrB := f m.arrB }

/-- What a read of a copy delivers. -/
def Copy.val? {α : Type} : Copy α → Option α
  | .good v => some v
  | .corr v => some v
  | .blank => none
  | .bad => none

/-- Apply f to each element of a list in turn. -/
def State.each {α : Type} (l : List α) (f : α → State → State) (s : State) : State := l.foldl (fun s a => f a s) s

/-- The eight slots. -/
def slots : List (Fin 8) := List.finRange 8

/-! ## Free values (log entry 1) -/

/-- Draw a free value of 128 bits. -/
def State.draw (s : State) (f : Word128 → State → State) : State :=
  f (Config.freeBits s.freeCtr) { s with freeCtr := s.freeCtr + 1 }

/-! ## Ownership -/

/-- Slot k / 4 of a tenant key slot, ring / 64 of a ring, needle / 4 of a needle (Table TEN-3). -/
def slotOfRing (r : Fin 512) : Fin 8 := finOf 8 (r.val / 64)
def slotOfNeedle (k : Fin 32) : Fin 8 := finOf 8 (k.val / 4)
def localRing (r : Fin 512) : Fin 64 := finOf 64 r.val
/-- Global ring number of slot n's ring j. -/
def ringNo (n : Fin 8) (j : Fin 64) : Fin 512 := finOf 512 (64 * n.val + j.val)
/-- Key slot 4n + k. -/
def keyNo (n : Fin 8) (k : Nat) : Fin 36 := finOf 36 (4 * n.val + k % 4)
/-- Site slot k. -/
def siteKey (k : Nat) : Fin 36 := finOf 36 (32 + k % 4)

/-- The slot is owned: OWNED or SUSPENDED. -/
def Tenant.owned (t : Tenant) : Bool := t.st = .owned || t.st = .suspended

/-- The slot's state is neither FREE nor PURGING and it is not suspended. -/
def Tenant.active (t : Tenant) : Bool := t.st = .owned

/-- The slot of role SAFETY (R33). -/
def State.safetySlot (s : State) : Option (Fin 8) := slots.find? fun n => s.tenants[n].role = .safety

/-- The key in site slot 0 when it is ACTIVE: what verifies a code (R45). -/
def State.siteAuth (s : State) : Option Word128 :=
  if s.keys[siteKey 0].st = .active then some s.keys[siteKey 0].key else none

/-- The module long address as bytes of a message (R450). -/
def State.longBytes (s : State) : List Byte := bytesLE 8 s.fuses.longAddr

/-! ## Which windows are open, and interrupt bits (R96, R116) -/

/-- The port is open on this slot. -/
def State.openOn (s : State) (p : Port) (n : Fin 8) : Bool := (s.port p).open? = some n

/-- Set interrupt bits of a port (Table PRT-11). -/
def State.irq (s : State) (p : Port) (i : Nat) : State := s.modPort p fun q => { q with irqStat := q.irqStat ||| bitAt i true }

/-- Set interrupt bit i of each port open on slot n: the tenant bits. -/
def State.irqSlot (s : State) (n : Fin 8) (i : Nat) : State :=
  State.each [Port.a, Port.b] (fun p s => if s.openOn p n then s.irq p i else s) s

/-- Set interrupt bit i of each open port. -/
def State.irqOpen (s : State) (i : Nat) : State :=
  State.each [Port.a, Port.b] (fun p s => if (s.port p).open?.isSome then s.irq p i else s) s

def irqCmpl : Nat := 0
def irqSkein : Nat := 1
def irqLog : Nat := 2
def irqRadio : Nat := 3
def irqNeedle : Nat := 4
def irqPoison : Nat := 5
def irqMal : Nat := 6
def irqField : Nat := 7
def irqSite : Nat := 8

/-! ## Module state (R422) -/

/-- Past cast-on and not in bind-off: RUN or LIMP. -/
def State.running (s : State) : Bool := s.life.state = .run || s.life.state = .limp

/-- Domain i of `PWR_STAT.DOM_ON` is on: AON PORT ENG MEMA MEMB BB RFRX RFTX. -/
def State.domOn (s : State) (i : Nat) : Bool := s.power.domOn.getLsbD i

/-- Port transactions are served: PORT is on and VIO valid (R62, R83). -/
def State.portsUp (s : State) : Bool := s.domOn 1 && s.power.vioOk

/-- `LIF_FAULT.MASK` holds bit c (R426). -/
def State.faulted (s : State) (c : Nat) : Bool := s.life.mask.getLsbD c

/-- Channel n is class M (R385); while LC_AUDIT is active every channel is treated as class C (R51). -/
def State.classM (s : State) (n : Fin 8) : Bool := s.lc.audit[n].value.getLsbD 0 && !s.faulted 0xA

/-! ## The ledger (R373, R374) -/

/-- Energy in units of 10 pC charged to slot n, whole units of 10 uC carried into ENERGY.  A FREE slot accrues nothing (R379). -/
def State.chargeEnergy (n : Fin 8) (e : Nat) (s : State) : State :=
  if s.tenants[n].st = .free then s
  else
    let t := s.sns.sub[n] + e
    s.modSns fun q => { q with
      sub := upd q.sub n fun _ => t % 1000000
      run := upd q.run n fun w => { w with energy := satNat 24 (w.energy + t / 1000000) } }

/-- Count one stored word against slot n: WRITES and 0.84 nC. -/
def State.chargeWord (n : Fin 8) (s : State) : State :=
  (if s.tenants[n].st = .free then s
    else s.modSns fun q => { q with run := upd q.run n fun w => { w with writes := satNat 24 (w.writes + 1) } }).chargeEnergy n 84

/-- One engine operation completed: 24 nC to the ring's owner. -/
def State.chargeOp (n : Fin 8) (s : State) : State := s.chargeEnergy n 2400

/-- Airtime of a frame sent, in symbols and microseconds at a charge in 0.1 mA (Table SNS-5: the charge of the applied power + 4.0 mA). -/
def State.chargeTx (n : Fin 8) (symbols frames us charge : Nat) (s : State) : State :=
  (if s.tenants[n].st = .free then s
    else s.modSns fun q => { q with run := upd q.run n fun w =>
      { w with txSym := satNat 32 (w.txSym + symbols), txFr := satNat 24 (w.txFr + frames) } }).chargeEnergy n ((charge + 40) * us * 10)

/-- Receiver time at 9.8 mA. -/
def State.chargeRx (n : Fin 8) (us : Nat) (s : State) : State := s.chargeEnergy n (98 * us * 10)

/-- A frame delivered to an endpoint of slot n. -/
def State.chargeRxFrame (n : Fin 8) (us : Nat) (s : State) : State :=
  (if s.tenants[n].st = .free then s
    else s.modSns fun q => { q with run := upd q.run n fun w => { w with rxFr := satNat 24 (w.rxFr + 1) } }).chargeRx n us

end Sys2Proof.Machine
end

