-- ==== Sys2Proof/Machine/Raise.lean ====
section
/-! DEFINITION. Raising a stitch: the module's event codes, the limiter, the capacity check and the wait queue (R388 to R395, R402). -/

namespace Sys2Proof.Machine

/-- The module's events (Table REC-4, Table LIF-6). -/
inductive Ev where
  | bindOff | peakNofit | lcChange | lcRefused | tallyOrphan | isolation | portOpenFail | portMalformed | needleOrphan
  | ringLost | skeinRepair | skeinReset | skeinItemUnc | memRemap | memWriteFail | fieldDefer | fieldRelease | fieldDisturb
  | scrubUnc | scrubLap | scanDone | pairRepair | pairMismatch | keyLost | purgeDone | beaconLost | fcLow | fcExhausted
  | worCap | shaperClamp | loopConflict | loopStarved | evaGrant | evaDeny | evaDefer | tamperMark | releaseFault
  | releaseVio | emergUnlock | emergCancel | emergRefused | emergMarkLost | emergLapsed | emergResumed | fieldTamper | door
  | bolt | doorForced | batLow | siteTimeStep | ledgerPeriod | logFull | suppSummary | classChange | logCleared | chainRekey
  | recLost | auditOpen | castOn | fault | faultClear | wakeFail | recast
  deriving DecidableEq, Repr

/-- Event code (Table REC-4, Table LIF-6). -/
def Ev.code : Ev → BitVec 12
  | .bindOff => 0x010
  | .peakNofit => 0x011
  | .lcChange => 0x012
  | .lcRefused => 0x013
  | .tallyOrphan => 0x014
  | .isolation => 0x015
  | .portOpenFail => 0x020
  | .portMalformed => 0x021
  | .needleOrphan => 0x022
  | .ringLost => 0x030
  | .skeinRepair => 0x031
  | .skeinReset => 0x032
  | .skeinItemUnc => 0x033
  | .memRemap => 0x040
  | .memWriteFail => 0x041
  | .fieldDefer => 0x042
  | .fieldRelease => 0x043
  | .fieldDisturb => 0x044
  | .scrubUnc => 0x045
  | .scrubLap => 0x046
  | .scanDone => 0x047
  | .pairRepair => 0x048
  | .pairMismatch => 0x049
  | .keyLost => 0x04A
  | .purgeDone => 0x04B
  | .beaconLost => 0x050
  | .fcLow => 0x051
  | .fcExhausted => 0x052
  | .worCap => 0x053
  | .shaperClamp => 0x054
  | .loopConflict => 0x055
  | .loopStarved => 0x056
  | .evaGrant => 0x060
  | .evaDeny => 0x061
  | .evaDefer => 0x062
  | .tamperMark => 0x063
  | .releaseFault => 0x064
  | .releaseVio => 0x065
  | .emergUnlock => 0x066
  | .emergCancel => 0x067
  | .emergRefused => 0x068
  | .emergMarkLost => 0x069
  | .emergLapsed => 0x06A
  | .emergResumed => 0x06B
  | .fieldTamper => 0x070
  | .door => 0x071
  | .bolt => 0x072
  | .doorForced => 0x073
  | .batLow => 0x074
  | .siteTimeStep => 0x075
  | .ledgerPeriod => 0x076
  | .logFull => 0x080
  | .suppSummary => 0x081
  | .classChange => 0x082
  | .logCleared => 0x083
  | .chainRekey => 0x084
  | .recLost => 0x085
  | .auditOpen => 0x086
  | .castOn => 0x0F0
  | .fault => 0x0F1
  | .faultClear => 0x0F2
  | .wakeFail => 0x0F3
  | .recast => 0x0F4

/-- The events, in ascending code order. -/
def Ev.all : List Ev :=
  [.bindOff, .peakNofit, .lcChange, .lcRefused, .tallyOrphan, .isolation, .portOpenFail, .portMalformed, .needleOrphan, 
   .ringLost, .skeinRepair, .skeinReset, .skeinItemUnc, .memRemap, .memWriteFail, .fieldDefer, .fieldRelease, .fieldDisturb, 
   .scrubUnc, .scrubLap, .scanDone, .pairRepair, .pairMismatch, .keyLost, .purgeDone, .beaconLost, .fcLow, .fcExhausted, 
   .worCap, .shaperClamp, .loopConflict, .loopStarved, .evaGrant, .evaDeny, .evaDefer, .tamperMark, .releaseFault, 
   .releaseVio, .emergUnlock, .emergCancel, .emergRefused, .emergMarkLost, .emergLapsed, .emergResumed, .fieldTamper, .door, 
   .bolt, .doorForced, .batLow, .siteTimeStep, .ledgerPeriod, .logFull, .suppSummary, .classChange, .logCleared, 
   .chainRekey, .recLost, .auditOpen, .castOn, .fault, .faultClear, .wakeFail, .recast]

/-- Class the tables give the event. -/
def Ev.cls : Ev → BitVec 4
  | .lcRefused | .isolation | .portOpenFail | .ringLost | .skeinRepair | .skeinReset | .skeinItemUnc | .memRemap
  | .memWriteFail | .fieldDefer | .fieldRelease | .scrubUnc | .scanDone | .pairRepair | .fieldTamper | .siteTimeStep => 1
  | .peakNofit | .portMalformed | .needleOrphan => 2
  | .shaperClamp | .loopConflict | .loopStarved => 3
  | .door | .bolt => 4
  | .beaconLost | .worCap | .batLow | .wakeFail => 5
  | .bindOff | .lcChange | .tallyOrphan | .fieldDisturb | .scrubLap | .pairMismatch | .keyLost | .purgeDone | .fcLow
  | .fcExhausted | .evaGrant | .evaDeny | .evaDefer | .tamperMark | .releaseFault | .releaseVio | .emergUnlock
  | .emergCancel | .emergRefused | .emergMarkLost | .emergLapsed | .emergResumed | .doorForced | .ledgerPeriod | .logFull
  | .suppSummary | .classChange | .logCleared | .chainRekey | .recLost | .auditOpen | .castOn | .fault | .faultClear
  | .recast => 0

/-- The module event of a code, when one has it. -/
def evOf (c : BitVec 12) : Option Ev := Ev.all.find? fun e => e.code = c

/-- Class the factory binds a code to (R391): 6 from 0x800, the table's for a listed code; a reserved code loads 0. -/
def factoryClass (c : BitVec 12) : BitVec 4 :=
  if c.msb then 6 else match evOf c with
    | some e => e.cls
    | none => 0

/-- Class a code is bound to now. -/
def State.classOf (s : State) (c : BitVec 12) : BitVec 4 := (lookup c.toNat s.log.bind).getD (factoryClass c)

/-- What became of a raised stitch. -/
inductive Raised where
  | queued | suppressed | dropped | lost
  deriving DecidableEq, Repr

/-! ## Capacity and the wait queue -/

/-- Positions of channel n: a base segment of 256 for channel 0, and 1,024 for each granule (R394). -/
def State.capacity (s : State) (n : Fin 8) : Nat := (if n = 0 then 256 else 0) + 1024 * s.log.chans[n].grans.length

/-- Positions neither used nor promised to a waiting stitch. -/
def State.freePos (s : State) (n : Fin 8) : Nat :=
  s.capacity n - (s.log.chans[n].head.pos + (s.log.queue.filter fun q => q.ch = n).length)

/-- Room in the wait queue of 8 (R402). -/
def State.queueRoom (s : State) : Bool := s.log.queue.length < 8

/-- A stitch dropped for want of a position (R395, R411). -/
def dropStitch (n : Fin 8) (s : State) : State :=
  (s.modChan n fun c => { c with head := { c.head with drops := satInc c.head.drops } }).irqSlot n irqLog

/-- A stitch lost because the queue was full, or abandoned at a stop (R402, R404, R411). -/
def loseStitch (n : Fin 8) (s : State) : State :=
  ((s.modChan n fun c => { c with lost := satInc c.lost, lostNew := c.lostNew + 1 }).modLog fun l =>
    { l with lost := satInc l.lost }).irqSlot n irqLog

def pushStitch (st : Stitch) (s : State) : State := s.modLog fun l => { l with queue := l.queue ++ [st] }

/-- The stitch enters the wait queue, or is lost. -/
def queueStitch (st : Stitch) (s : State) : State × Raised :=
  if s.queueRoom then (pushStitch st s, .queued) else (loseStitch st.ch s, .lost)

/-- The LOG_FULL stitch that names a dropped stitch (R395). -/
def logFullFor (st : Stitch) : Stitch :=
  { st with
    code := Ev.logFull.code, supp := 0, slots := [st.code.setWidth 32, BitVec.ofNat 32 st.ch.val], flags := 0,
    cls0 := true, post := none, forOp := none, lc := none }

/-- Capacity, then the queue (R395, R402).  The last position takes a LOG_FULL stitch. -/
def admitStitch (st : Stitch) (s : State) : State × Raised :=
  let free := s.freePos st.ch
  if s.log.chans[st.ch].full || free = 0 || s.log.seqEnd then (dropStitch st.ch s, .dropped)
  else if free = 1 then
    if s.queueRoom then
      (dropStitch st.ch ((pushStitch (logFullFor st) s).modChan st.ch fun c => { c with full := true }), .dropped)
    else (loseStitch st.ch s, .lost)
  else queueStitch st s

/-- During cast-on before step 8 a stitch waits without its capacity check (R455). -/
def State.earlyCastOn (s : State) : Bool := s.life.state = .castOn && s.life.step.toNat < 8

def enterStitch (st : Stitch) (s : State) : State × Raised :=
  if s.earlyCastOn then queueStitch st s else admitStitch st s

/-- FLAGS bit of a stitch raised in bind-off (Table REC-3). -/
def flagBindOff : Byte := 0x02

/-- A stitch of this code, channel, count and snapshots, of the class its channel has now (R385). -/
def mkStitch (s : State) (code : BitVec 12) (ch : Fin 8) (supp : BitVec 16) (slots : List Word32) : Stitch :=
  { code := code, ch := ch, supp := supp, slots := slots, flags := if s.life.state = .bindOff then flagBindOff else 0,
    clsM := s.classM ch, cls0 := s.classOf code = 0, post := none, forOp := none, lc := none }

/-! ## The limiter (R392) -/

/-- The recorder clock: 100 ms ticks. -/
def State.recClock (s : State) : Nat := s.life.ms / 100

/-- Write the SUPP_SUMMARY of an entry that is replaced. -/
def suppSummary (v : LimEntry) (s : State) : State :=
  (enterStitch (mkStitch s Ev.suppSummary.code v.ch 0 [v.code.setWidth 32, v.supp.setWidth 32, BitVec.ofNat 32 v.tokens]) s).1

/-- The entry of (code, channel), made if need be by freeing the least recently used of 64, and removed from the list. -/
def takeEntry (code : BitVec 12) (ch : Fin 8) (burst : Nat) (s : State) : State × LimEntry :=
  match s.log.lim.find? fun e => e.code = code && e.ch = ch with
  | some e => (s.modLog fun l => { l with lim := l.lim.filter fun e => !(e.code = code && e.ch = ch) }, e)
  | none =>
    let new : LimEntry := { code := code, ch := ch, tokens := burst, supp := 0, stamp := s.recClock }
    if s.log.lim.length < 64 then (s, new)
    else match s.log.lim with
      | [] => (s, new)
      | v :: rest =>
        let s := if v.supp = 0 then s else suppSummary v s
        (s.modLog fun l => { l with lim := rest }, new)

/-- Tokens accrued to the entry by now. -/
def refillEntry (e : LimEntry) (burst interval now : Nat) : LimEntry :=
  let n := if interval = 0 then 0 else (now - e.stamp) / interval
  { e with tokens := min burst (e.tokens + n), stamp := e.stamp + n * interval }

/-- Whether a stitch of this code and channel is built, with the count it carries. -/
def limiter (code : BitVec 12) (ch : Fin 8) (s : State) : State × Option (BitVec 16) :=
  let cls := s.classOf code
  if cls = 0 then (s, some 0)
  else
    let rl := s.log.rl[cls.toNat]
    let (s, e) := takeEntry code ch rl.1.toNat s
    let e := refillEntry e rl.1.toNat rl.2.toNat s.recClock
    let put (e : LimEntry) (s : State) : State := s.modLog fun l => { l with lim := l.lim ++ [e] }
    if 1 ≤ e.tokens then (put { e with tokens := e.tokens - 1, supp := 0 } s, some e.supp)
    else (put { e with supp := satInc e.supp } s, none)

/-- Raise a stitch of a code on a channel; `f` completes it.  In HALT no stitch is written (R230, Table LIF-5). -/
def raiseWith (code : BitVec 12) (ch : Fin 8) (slots : List Word32) (f : Stitch → Stitch) (s : State) : State × Raised :=
  if s.life.state = .halt then (s, .dropped)
  else match limiter code ch s with
  | (s, none) => (s, .suppressed)
  | (s, some supp) => enterStitch (f (mkStitch s code ch supp slots)) s

/-- Raise a module event. -/
def raise (e : Ev) (ch : Fin 8) (slots : List Word32) (s : State) : State := (raiseWith e.code ch slots id s).1

/-- A number as a snapshot slot. -/
def snap32 (n : Nat) : Word32 := BitVec.ofNat 32 n

/-- A 64-bit value as two snapshot slots, low half first (R390). -/
def snap64 (x : Word64) : List Word32 := [x.setWidth 32, (x >>> 32).setWidth 32]

/-- `REC_SUPP`: the sum of S over the limiter table. -/
def State.suppSum (s : State) : Nat := (s.log.lim.map fun e => e.supp.toNat).sum

/-! ## Isolation violations (R37) -/

/-- `ISO_FIRST` as a register (Table TEN-5). -/
def isoWord (slot : Fin 8) (path : BitVec 4) (idx : BitVec 16) : Word32 :=
  orAll [at_ 0 slot.val, at_ 4 path.toNat, at_ 8 idx.toNat, bitAt 31 true]

/-- Count, capture and stitch a failed isolation check, and tell slot 0's ports. -/
def violate (slot : Fin 8) (path : BitVec 4) (idx : Nat) (s : State) : State :=
  let i : BitVec 16 := BitVec.ofNat 16 idx
  let s := s.modTen slot fun t => { t with iso := satInc t.iso }
  let s := if s.lc.isoV then s else s.modLc fun l => { l with isoSlot := slot, isoPath := path, isoIdx := i, isoV := true }
  (raise .isolation 0 [isoWord slot path i] s).irqSlot 0 irqSite

end Sys2Proof.Machine
end

