-- ==== Sys2Proof/Machine/Gov.lean ====
section
/-! DEFINITION. The peak governor: charges, ceiling, admission in arrival order, refusal (R69 to R72, R78, R90). -/

namespace Sys2Proof.Machine

/-- Bit of `PEAK_STAT.WAITING`, and number of the unit (Table CON-9). -/
def govBit : GovUnit → Nat
  | .rftx => 0
  | .rfrx => 1
  | .mema => 2
  | .memb => 3
  | .eng => 4
  | .bb => 5
  | .tally => 6

/-- Charge of RFTX in 0.1 mA at a power code of 0.5 dB steps from −10 dBm: the next higher row of Table CON-8. -/
def txCharge (code : Nat) : Nat :=
  if code = 0 then 90 else if code ≤ 20 then 120 else if code ≤ 32 then 160 else if code ≤ 40 then 210
  else if code ≤ 48 then 280 else 340

/-- Charge of a unit in 0.1 mA (Table CON-8); `power` is the power code of RFTX. -/
def unitCharge (u : GovUnit) (power : Nat) : Nat :=
  match u with
  | .rftx => txCharge power
  | .rfrx => 58
  | .mema => 70
  | .memb => 70
  | .eng => 24
  | .bb => 16
  | .tally => 90

/-- The ceiling in 0.1 mA: `PEAK_CEIL.LIMIT`, and 30 mA in a bind-off that the supply did not leave to the cell (R78, R428). -/
def State.ceiling (s : State) : Nat :=
  if s.life.state = .bindOff && s.power.trigger ≠ some .recast then 300 else 80 + 20 * field s.power.peakCeil 5 0

/-- Sum of admitted charges (`PEAK_STAT.ADMITTED`). -/
def Power.admittedSum (p : Power) : Nat := (p.admitted.map (·.charge)).sum

def Power.isAdmitted (p : Power) (u : GovUnit) : Bool := p.admitted.any fun r => r.u = u

def Power.isWaiting (p : Power) (u : GovUnit) : Bool := p.waiting.any fun r => r.u = u

/-- `PEAK_STAT.TX_MAX`: the highest row that fits with ENG and BB, 7 when none does (R71). -/
def State.txMax (s : State) : Nat :=
  ((findFrom (fun c => decide (c + 40 ≤ s.ceiling)) 0 [340, 280, 210, 160, 120, 90]).map (·.1)).getD 7

/-- Highest power code that TX_MAX allows (R71, R278). -/
def State.txMaxCode (s : State) : Option Nat := [52, 48, 40, 32, 20, 0][s.txMax]?

/-- Admit waiting requests from the front while they fit (R69, R70). -/
def serveList (ceil : Nat) : List GovReq → List GovReq → List GovReq × List GovReq
  | adm, [] => (adm, [])
  | adm, r :: rest => if (adm.map (·.charge)).sum + r.charge ≤ ceil then serveList ceil (adm ++ [r]) rest else (adm, r :: rest)

def burstReset (adm : List GovReq) (new : List GovReq) (u : GovUnit) (n : Nat) : Nat :=
  if new.any (·.u = u) && !adm.any (·.u = u) then 0 else n

/-- A charge that cannot fit even with only ENG admitted is refused (R71). -/
def State.noFit (s : State) (u : GovUnit) (charge : Nat) : Bool :=
  decide (s.ceiling < charge + (if u = .eng then 0 else 24))

/-- The refusal of R71: NOFIT with the unit, a PEAK_NOFIT stitch, slot 0's ports told. -/
def refuseUnit (u : GovUnit) (charge : Nat) (s : State) : State :=
  let s := s.modPower fun p => { p with
    nofit := true, nofitUnit := if p.nofit then p.nofitUnit else BitVec.ofNat 3 (govBit u) }
  (raise .peakNofit 0 [snap32 (govBit u), snap32 s.ceiling, snap32 charge] s).irqSlot 0 irqSite

/-- Waiting requests that a lowered ceiling has made impossible are refused, not held (R71). -/
def refuseWaiting (s : State) : State :=
  let bad := s.power.waiting.filter fun r => s.noFit r.u r.charge
  if bad.isEmpty then s
  else bad.foldl (fun s r => refuseUnit r.u r.charge s)
    (s.modPower fun p => { p with waiting := p.waiting.filter fun r => !s.noFit r.u r.charge })

/-- The governor's admission decision (R69 to R72): a freshly admitted array starts its burst count, which the model counts from the admission
on and not only while another request waits (R70; DESIGN CHOICE, log entry 171). -/
def serveGov (s : State) : State :=
  let s := refuseWaiting s
  let r := serveList s.ceiling s.power.admitted s.power.waiting
  s.modPower fun p => { p with
    admitted := r.1, waiting := r.2
    burstA := burstReset p.admitted r.1 .mema p.burstA, burstB := burstReset p.admitted r.1 .memb p.burstB }

/-- Request admission of a unit (R69 to R71).  ENG goes ahead of any other request. -/
def requestUnit (u : GovUnit) (charge : Nat) (s : State) : State :=
  if s.power.isAdmitted u || s.power.isWaiting u then s
  else if s.noFit u charge then refuseUnit u charge s
  else
    let r : GovReq := { u := u, charge := charge }
    serveGov (s.modPower fun p => { p with waiting := if u = .eng then r :: p.waiting else p.waiting ++ [r] })

/-- Release a unit's charge, or withdraw its request (R69). -/
def releaseUnit (u : GovUnit) (s : State) : State :=
  serveGov (s.modPower fun p => { p with
    admitted := p.admitted.filter fun r => !decide (r.u = u), waiting := p.waiting.filter fun r => !decide (r.u = u) })

/-- The governor's unit of an array. -/
def arrUnit : Arr → GovUnit
  | .A => .mema
  | .B => .memb

/-- The next wanted domain starts, in the fixed order, when the root runs and none is starting: one stagger step after the last power-good,
80 us in a cast-on (R64, R67).  PORT starts only while VIO is valid (R62). -/
def startDomain (s : State) : State :=
  if s.power.domStart.isSome || !s.power.tcxoOk then s
  else match (List.finRange 8).find? fun i => s.power.domWant.getLsbD i.val && !s.domOn i.val && (i.val ≠ 1 || s.power.vioOk) with
    | none => s
    | some i => s.modPower fun p => { p with
        domStart := some i, domStepUs := if s.life.state = .castOn then 80 else 40 * (field p.pwrCtl 3 0 + 1) }

/-- A task needs these domains. -/
def wantDoms (mask : BitVec 8) (s : State) : State := startDomain (s.modPower fun p => { p with domWant := p.domWant ||| mask })

/-- The store follows a change of VBAT while the charger holds it at VBAT − D: D stays as it was drawn (R61). -/
def Power.follow (p : Power) (mv : Nat) : Power :=
  { p with vbat := mv, storeMv := if p.supply = .holding then p.storeMv + mv - p.vbat else p.storeMv }

/-- The sleeping module wakes: its TCXO is checked, and then the domains of this mask start in their order (R64, R67, R87). -/
def wakeFor (mask : BitVec 8) (s : State) : State :=
  if s.power.asleep then s.modPower fun p => { p with asleep := false, tcxoCheck := true, domWant := p.domWant ||| mask } else s

/-- A wake for work of its own: ENG and both arrays, which the stitches and the sampling of a wake need. -/
def wakeUp (s : State) : State := wakeFor 0x1C s

/-- The domain bit of an array in `PWR_STAT.DOM_ON`. -/
def arrDom : Arr → Nat
  | .A => 3
  | .B => 4

end Sys2Proof.Machine
end

