-- ==== Sys2Proof/Machine/Path.lean ====
section
/-! DEFINITION. The MRAM: placement of words, windows, reads with their counts, and the write path from acceptance to storing
(R188 to R208, R212 to R221, R453). -/

namespace Sys2Proof.Machine

/-! ## Placement (R188, R189) -/

/-- Words of one array. -/
def arrWords : Nat := 147456

/-- Key of array word index w. -/
def wordKey (a : Arr) (w : Nat) : Nat :=
  match a with
  | .A => w
  | .B => arrWords + w

def otherArr : Arr → Arr
  | .A => .B
  | .B => .A

def keyArr (k : Nat) : Arr := if k < arrWords then .A else .B
def keyIdx (k : Nat) : Nat := if k < arrWords then k else k - arrWords

/-- Key of word i of granule g (R189). -/
def granKey (g : Fin 64) (i : Nat) : Nat := wordKey (if g.val < 32 then .A else .B) (g.val % 32 * 4096 + i)

/-- The array of a granule. -/
def granArr (g : Fin 64) : Arr := if g.val < 32 then .A else .B

/-- The granule a user word lies in. -/
def keyGran (k : Nat) : Option (Fin 64) :=
  if keyIdx k < 131072 then some (finOf 64 ((match keyArr k with | .A => 0 | .B => 32) + keyIdx k / 4096)) else none

/-- Array word index of a pair's halves (Table INT-9a; log entry 11). -/
def pairIdx (cls idx : Nat) : Nat :=
  match cls with
  | 1 => 145640 + idx
  | 2 => 145704 + idx
  | 3 => 145712 + idx
  | 4 => 145808 + idx
  | 5 => 145848 + idx
  | 6 => 145888 + idx
  | 7 => 145944 + idx
  | 8 => 145984 + idx
  | 9 => 132608 + idx
  | 0xA => if idx = 0 then 146496 else 132616 + idx
  | _ => 146497

/-- Array word index of the emergency order number (log entry 11). -/
def emergIdx : Nat := 146586

/-- Array word index of a neighbour entry and of a sender-cache entry (log entry 11). -/
def nbIdx (i : Nat) : Nat := 146500 + i
def senderIdx (n : Nat) : Nat := 146612 + n

/-- Array word index at which the model places a system item (log entry 11). -/
def sysIdx : SysItem → Nat
  | .pair c x _ _ => pairIdx c x
  | .plain i => i
  | .ring r _ => 132096 + r.val
  | .ledger n _ => 132608 + n.val
  | .period _ => 132616
  | .head n _ => 132617 + n.val
  | .stopWords _ => 132625
  | .lane k _ => 132640 + k % 13000
  | .emerg _ => emergIdx
  | .sender n _ => senderIdx n

/-- Key of word i of spare row j, its tag word at 32: what the spare row holds while it is out of service, and what the row it replaces holds
while it serves (R188, R201). -/
def spareKey (a : Arr) (j i : Nat) : Nat :=
  294912 + (match a with
    | .A => 0
    | .B => 1584) + 33 * j + i

/-- Words of the system area that are neither paired nor contexts, by array word index (log entry 11). -/
def tmapIdx (k : Nat) : Nat := 146564 + k
def channelIdx : Nat := 146580
def castonIdx : Nat := 146581
def lapsIdx : Nat := 146582
def macIdx : Nat := 146583
def bindIdx : Nat := 146584
def suspIdx (n : Nat) : Nat := 146594 + n
def quotaIdx (n : Nat) : Nat := 146602 + n
def blockIdx (b : Nat) : Nat := 146868 + b

/-- Array word index of a write's target, and its row. -/
def targetIdx : Target → Nat
  | .word k _ _ => keyIdx k
  | .sys i => sysIdx i

/-! ## Windows (R36, R92, R196, R215) -/

/-- A pair of this class and index has no reading: its halves disagree, or neither is written (R232). -/
def State.damaged (s : State) (cls idx : Nat) : Bool := s.int.damage.any fun d => d.cls = cls && d.idx = idx && decide (d.kind ≠ .oneHalf)

/-- Both halves of the pair are lost. -/
def State.lostPair (s : State) (cls idx : Nat) : Bool := s.int.damage.any fun d => d.cls = cls && d.idx = idx && decide (d.kind = .lost)

/-- The damage of a pair. -/
def State.pairDamage (s : State) (cls idx : Nat) : List PairDamage := s.int.damage.filter fun d => d.cls = cls && d.idx = idx

/-- Forget the damage of a pair whose halves are rewritten. -/
def clearDamage (cls idx : Nat) (s : State) : State :=
  s.modInt fun i => { i with damage := i.damage.filter fun d => !(d.cls = cls && d.idx = idx) }

/-- The seal check of a seal: leftmost 64 bits of AES-128 under it of 16 zero bytes (R196). -/
def sealOf (k : Word128) : Word64 := ofBytesLE 64 ((aes k (zeros 16)).take 8)

/-- The slot's seal verifies: its windows may be open (R36, R196). -/
def State.sealOk (s : State) (n : Fin 8) : Bool :=
  s.keys[keyNo n 3].st = .active && sealOf s.keys[keyNo n 3].key = s.tenants[n].sealCheck && !s.damaged 2 n.val

/-- The granule at position p of slot n's window; a CLOSED granule is in no window (Table INT-9). -/
def State.granAt (s : State) (n : Fin 8) (p : Nat) : Option (Fin 64) :=
  (List.finRange 64).find? fun g =>
    let e := s.mram.part[g]
    e.owner.toNat = n.val && e.pos = p && (e.st = .inUse || e.st = .purging) && p < s.tenants[n].granules

/-- Key of window word index w of slot n: none outside the slot's partition or while its windows are closed. -/
def State.windowKey (s : State) (n : Fin 8) (w : Nat) : Option Nat :=
  if s.sealOk n then (s.granAt n (w / 4096)).map fun g => granKey g (w % 4096) else none

/-- Slot n's partition holds each granule that `count` words from window word w touch, its windows open or closed. -/
def State.partHolds (s : State) (n : Fin 8) (w count : Nat) : Bool :=
  count = 0 || (List.range ((w + count - 1) / 4096 - w / 4096 + 1)).all fun i => (s.granAt n (w / 4096 + i)).isSome

/-- Every one of `count` words from window word w lies in slot n's partition, whose windows are open. -/
def State.inPartition (s : State) (n : Fin 8) (w count : Nat) : Bool := count = 0 || (s.sealOk n && s.partHolds n w count)

/-! ## Reads -/

/-- The stored word of a key: an unlisted key holds the blank word (R193). -/
def State.stored (s : State) (k : Nat) : Raw147 := (lookup k s.mram.words).getD blankRaw

/-- The word a write target puts at key k. -/
def targetAt (k : Nat) : Target → Option WordRead
  | .word j d blank => if j = k then some (if blank then .blank false else .data d false) else none
  | .sys _ => none

/-- The newest accepted value of a key not yet stored (R198, R207). -/
def State.pendingAt (s : State) (k : Nat) : Option WordRead :=
  match s.mram.fhb.reverse.findSome? fun e => targetAt k e.tgt with
  | some r => some r
  | none => ((s.mram.arr (keyArr k)).queue.reverse).findSome? fun e => targetAt k e.tgt

/-- The newest value of a key that has been issued and still waits to be accepted: the item of a push whose pointers have moved (R174). -/
def State.issuedAt (s : State) (k : Nat) : Option Word128 :=
  s.mram.waitq.reverse.findSome? fun e => match e.tgt with
    | .word j d false => if j = k then some d else none
    | _ => none

/-- What a read of a key finds, before the region rules (R192, R198). -/
def State.readKey (s : State) (k : Nat) : WordRead := (s.pendingAt k).getD (readRaw (s.stored k))

/-- What a consumer is delivered: data, as read or corrected, or nothing with the cause (R194, R219, R235). -/
inductive Delivered where
  | ok (d : Word128) (corrected : Bool)
  | bad (c : UncCause)
  deriving DecidableEq, Repr

/-- The region rules of a granule for a blank word (R194) and for a PURGING granule (R235); the system area is STRICT. -/
def State.deliver (s : State) (k : Nat) : Delivered :=
  let purging : Bool := match keyGran k with
    | some g => decide (s.mram.part[g].st = .purging)
    | none => false
  let zf : Bool := match keyGran k with
    | some g => s.mram.part[g].zeroFill
    | none => false
  if purging then .bad .purged
  else match s.readKey k with
    | .data d c => .ok d c
    | .blank c => if zf then .ok 0 c else .bad .blank
    | .unc c => .bad c

/-- `INT_UE_FIRST.CAUSE` (Table INT-3). -/
def UncCause.code : UncCause → BitVec 3
  | .check => 1
  | .indeterminate => 2
  | .blank => 3
  | .purged => 4

/-- Count and capture an uncorrectable delivery (R220). -/
def noteUnc (k : Nat) (c : UncCause) (s : State) : State :=
  s.modInt fun i =>
    let i := { i with ue := satInc i.ue }
    if i.ueV then i else { i with ueV := true, ueWord := k, ueCause := c.code }

/-- Queue a repair of a corrected word: 8 words, each once (R221). -/
def queueRepair (k : Nat) (s : State) : State :=
  s.modInt fun i => if i.repairs.length < 8 && !i.repairs.contains k then { i with repairs := i.repairs ++ [k] } else i

/-- Count a demand correction and queue its repair (R220, R221). -/
def noteCorrected (k : Nat) (s : State) : State :=
  queueRepair k (s.modInt fun i => { i with ceDemand := satInc i.ceDemand })

/-- A consumer's read of a word, with its counts and its repair. -/
def demandRead (k : Nat) (s : State) : State × Delivered :=
  match s.deliver k with
  | .ok d true => (noteCorrected k s, .ok d true)
  | .ok d false => (s, .ok d false)
  | .bad c => (noteUnc k c s, .bad c)

/-! ## Acceptance (R198, R199, R207, R208, R453) -/

/-- The field hold buffer holds an entry for this array. -/
def Mram.fhbFor (m : Mram) (a : Arr) : Bool := m.fhb.any fun e => e.arr = a

/-- The write enters the array's queue: no deferral, room, and no entry of the array in the field hold buffer (R199, R206). -/
def Mram.toQueue (m : Mram) (a : Arr) : Bool := !m.defer && decide ((m.arr a).queue.length < 16) && !m.fhbFor a

/-- How many entries of the field hold buffer these writes would take. -/
def Mram.fhbNeed (m : Mram) (a : Arr) (n : Nat) : Nat :=
  if m.defer || m.fhbFor a then n else n - (16 - (m.arr a).queue.length)

/-- n words for array A and b for array B can all be accepted at once. -/
def Mram.canAccept (m : Mram) (na nb : Nat) : Bool := decide (m.fhb.length + m.fhbNeed .A na + m.fhbNeed .B nb ≤ 256)

/-- Mark the descriptor at an index of a ring completed. -/
def markDone (i : BitVec 16) (l : List (BitVec 16 × Nat × Bool)) : List (BitVec 16 × Nat × Bool) :=
  l.map fun d => if d.1 = i then (d.1, d.2.1, true) else d

/-- Words of the completed descriptors at the front, and the descriptors after them: how far CONS moves (Table RNG-3). -/
def consume : List (BitVec 16 × Nat × Bool) → Nat × List (BitVec 16 × Nat × Bool)
  | [] => (0, [])
  | (i, n, done) :: t => if done then let r := consume t; (n + r.1, r.2) else (0, (i, n, done) :: t)

/-- The completed mask of the descriptors from CONS: the manual does not say what becomes of one past the 32 that the mask has bits for; the
model lets it complete and leaves it out of the mask (R131; DESIGN CHOICE, log entry 174). -/
def doneMask (l : List (BitVec 16 × Nat × Bool)) : BitVec 32 := BitVec.ofBoolListLE (l.map (·.2.2)) |>.setWidth 32

/-- Move CONS past completed descriptors; the context word becomes dirty (R131). -/
def settleRing (r : Ring) : Ring :=
  let c := consume r.fetched
  { r with
    ctx := { r.ctx with cons := r.ctx.cons + BitVec.ofNat 16 c.1, mask := doneMask c.2 }, fetched := c.2, dirty := true }

def State.ring (s : State) (r : Fin 512) : Ring := s.eng.rings[r]

/-- The ring's context word changes: it is dirty (R131). -/
def modCtx (r : Fin 512) (f : RingCtx → RingCtx) (s : State) : State :=
  s.modRing r fun q => { q with ctx := f q.ctx, dirty := true }

/-- The outcome of a lifeline descriptor of a ring, operation `id`.  A DEP operation before it in the ring that has not started reads the bit as it
was, for that is the outcome of the most recent lifeline descriptor before it (R152 to R154; log entry 103). -/
def setLlOk (r : Fin 512) (id : Nat) (ok : Bool) (s : State) : State :=
  let was := (s.ring r).ctx.llOk
  let pinned (o : Op) : Op := if o.ring = r && !o.ran && o.pin.isNone && decide (o.id < id) then { o with pin := some was } else o
  modCtx r (fun c => { c with llOk := ok }) (s.modEng fun e => { e with ops := e.ops.map pinned })

/-- A record has been accepted: LL_OK follows for the lifelines that waited for it alone (R152). -/
def settleLl (id : Nat) (s : State) : State :=
  let due := s.eng.llDue.map fun d => { d with ops := d.ops.filter (· ≠ id) }
  (due.filter fun d => d.ops.isEmpty).foldl (fun s d => setLlOk d.ring d.op true s)
    (s.modEng fun e => { e with llDue := due.filter fun d => !d.ops.isEmpty })

/-- An idle submit ring: nothing in flight and CONS equal to PROD (R131). -/
def State.ringIdle (s : State) (r : Fin 512) : Bool :=
  s.eng.rings[r].ctx.cons = s.eng.rings[r].ctx.prod && !s.eng.ops.any fun o => o.ring = r

/-- The write of a ring's context word (R131), to array A (log entry 21), charged to the ring's slot. -/
def ctxWrite (s : State) (r : Fin 512) : WEntry :=
  { tgt := .sys (.ring r s.eng.rings[r].ctx), arr := .A, slot := slotOfRing r, writer := .engine, twin := 0, opDone := none, charge := true }

/-- Queue the write of a dirty context word behind the waiting writes. -/
def queueCtx (r : Fin 512) (s : State) : State :=
  if s.eng.rings[r].dirty then
    (s.modMram fun m => { m with waitq := m.waitq ++ [ctxWrite s r] }).modRing r fun q => { q with dirty := false }
  else s

/-- A completion record has been accepted: its operation leaves flight, is charged unless it was discarded, CONS moves, CMPL is set when the
descriptor asks for it, LL_OK follows a released lifeline, and an idle ring's context word is written (R116, R131, R144, R145, R152, R374). -/
def opAccepted (id : Nat) (rec : Word128) (s : State) : State :=
  match s.eng.ops.find? fun o => o.id = id with
  | none => s
  | some o =>
    let n := slotOfRing o.ring
    let s := s.modEng fun e => { e with ops := e.ops.filter fun o => !decide (o.id = id) }
    let s := s.modRing o.ring fun r => settleRing { r with fetched := markDone o.index r.fetched }
    let s := if field rec 47 40 = 0x0C then s else s.chargeOp n
    let s := settleLl id (if flag (o.desc.getD 0 0) 14 then s.irqSlot n irqCmpl else s)
    if s.ringIdle o.ring then queueCtx o.ring s else s

/-- What follows the acceptance of a write: an engine operation may be complete with it. -/
def afterAccept (e : WEntry) (s : State) : State :=
  match e.opDone, e.tgt with
  | some id, .word _ d _ => opAccepted id d s
  | _, _ => s

/-- The write is a repair of the word at key k. -/
def WEntry.repairs (e : WEntry) (k : Nat) : Bool :=
  e.writer = .integrity && match e.tgt with
    | .word j _ _ => j = k
    | .sys _ => false

/-- Repairs of a word are cancelled, queued or waiting, when any write of it is accepted (R221). -/
def cancelRepairs (k : Nat) (s : State) : State :=
  (s.modInt fun i => { i with repairs := i.repairs.filter fun j => !decide (j = k) }).modMram fun m =>
    { m with waitq := m.waitq.filter fun e => !e.repairs k }

/-- Put an accepted write in its place; a repair of the same word is cancelled (R199, R207, R221). -/
def place (e : WEntry) (s : State) : State :=
  afterAccept e <|
  let s := match e.tgt with
    | .word k _ _ => cancelRepairs k s
    | .sys _ => s
  if s.mram.toQueue e.arr then s.modArr e.arr fun a => { a with queue := a.queue ++ [e] }
  else s.modMram fun m => { m with fhb := m.fhb ++ [e], fwords := satInc m.fwords }

/-- Accept the writes of a group at once, or none of them. -/
def acceptAll (es : List WEntry) (s : State) : Option State :=
  let na := (es.filter fun e => e.arr = .A).length
  if s.mram.canAccept na (es.length - na) then some (es.foldl (fun s e => place e s) s) else none

/-- Accept waiting writes, oldest first, a twin's halves together, until one does not fit (log entry 12). -/
def drainList : List WEntry → State → State × List WEntry
  | [], s => (s, [])
  | [e], s => match acceptAll [e] s with
    | some s => (s, [])
    | none => (s, [e])
  | e :: e' :: rest, s =>
    if e.twin ≠ 0 && e.twin = e'.twin then
      match acceptAll [e, e'] s with
      | some s => drainList rest s
      | none => (s, e :: e' :: rest)
    else match acceptAll [e] s with
      | some s => drainList (e' :: rest) s
      | none => (s, e :: e' :: rest)

/-- The waiting writes without the repairs of words that a write ahead of or behind them in the same pass rewrites (R221). -/
def withoutStale (l : List WEntry) : List WEntry :=
  l.filter fun e => !(e.writer = .integrity && l.any fun f => f.writer ≠ .integrity && match f.tgt with
    | .word k _ _ => e.repairs k
    | .sys _ => false)

/-- One pass over the waiting writes; what acceptance itself adds waits behind the rest. -/
def drainOnce (s : State) : State :=
  let r := drainList (withoutStale s.mram.waitq) (s.modMram fun m => { m with waitq := [] })
  r.1.modMram fun m => { m with waitq := r.2 ++ m.waitq }

/-- Two passes: the second takes the context words that completions of the first have added. -/
def drainWait (s : State) : State := drainOnce (drainOnce s)

/-- Issue writes: they wait behind the writes that already wait, and are accepted as far as there is room. -/
def issue (es : List WEntry) (s : State) : State := drainWait (s.modMram fun m => { m with waitq := m.waitq ++ es })

/-- A write of a full word, WRITTEN. -/
def mkWrite (k : Nat) (d : Word128) (slot : Fin 8) (w : Writer) : WEntry :=
  { tgt := .word k d false, arr := keyArr k, slot := slot, writer := w, twin := 0, opDone := none, charge := true }

/-- Issue words of the system area that only report a change already made: behind the writes that wait, or accepted at once when none does and
there is room. -/
def sysIssue (es : List WEntry) (s : State) : State :=
  let wait (s : State) : State := s.modMram fun m => { m with waitq := m.waitq ++ es }
  if s.mram.waitq.isEmpty then (acceptAll es s).getD (wait s) else wait s

/-- A half of a twin of the system area. -/
def sysHalf (i : SysItem) (a : Arr) (slot : Fin 8) (twin : Nat) : WEntry :=
  { tgt := .sys i, arr := a, slot := slot, writer := .integrity, twin := twin, opDone := none, charge := true }

/-- Write a word of the system area that is neither paired nor a context (R190, R198). -/
def sysPlain (idx : Nat) (slot : Fin 8) (s : State) : State := sysIssue [sysHalf (.plain idx) .A slot 0] s

/-- Offset of the k-th register of a block of n registers, `step` apart. -/
def blockIdxOf (base n step off : Nat) : Option Nat :=
  if base ≤ off && off < base + n * step && (off - base) % step = 0 then some ((off - base) / step) else none

/-- Module-wide setting registers marked sys that have a word of the system area each. -/
def settingRegs : List Nat :=
  [0x830, 0x1000, 0x1010, 0x101C, 0x1050, 0x1404, 0x1408, 0x1418, 0x1900, 0x1904, 0x1908, 0x190C, 0x1910, 0x1C00, 0x1C30, 0x2020, 0x2050, 0x2080,
   0x2084, 0x2200]

/-- The same for the registers that come in blocks: their first offset, number, distance, and the words before them.  The four shape registers
share a word. -/
def settingBlocks : List (Nat × Nat × Nat × Nat) :=
  [(0x1080, 7, 4, 21), (0x1440, 16, 4, 28), (0x1800, 8, 4, 44), (0x1840, 8, 16, 52), (0x18C0, 8, 8, 60), (0x22A4, 15, 4, 68)]

/-- Word of a setting register of slot n marked sys: an endpoint's two registers share a word, and so do a flow's, and the other five. -/
def tenantSetting (off : Nat) : Option Nat :=
  if 0x1500 ≤ off && off < 0x1580 && off % 16 < 8 then some ((off - 0x1500) / 16)
  else if 0x1600 ≤ off && off < 0x1680 && off % 16 < 8 then some (8 + (off - 0x1600) / 16)
  else if off = 0x890 || off = 0x1820 || off = 0x1824 || off = 0x1C14 || off = 0x2360 then some 16
  else none

/-- Array word index of a setting register marked sys, and the slot charged for its word (R31, R190; log entries 11 and 92). -/
def settingWord (n : Fin 8) (off : Nat) : Option (Nat × Fin 8) :=
  match tenantSetting off with
  | some i => some (147124 + 83 + 17 * n.val + i, n)
  | none =>
    let k := if 0x1040 ≤ off && off < 0x1050 then some 20
      else match settingRegs.findIdx? (· = off) with
        | some i => some i
        | none => settingBlocks.findSome? fun b => (blockIdxOf b.1 b.2.1 b.2.2.1 off).map (· + b.2.2.2)
    k.map fun i => (147124 + i, 0)

/-- The word of a setting register is written, once the register holds its new value. -/
def sysSetting (n : Fin 8) (off : Nat) (s : State) : State :=
  match settingWord n off with
  | some (i, m) => sysPlain i m s
  | none => s

/-- The value record of a setting and target by its index of Table INT-9a. -/
def State.recordAt (s : State) (x : Nat) : LcRecord :=
  match x / 8 with
  | 1 => s.lc.region
  | 2 => s.lc.site
  | 3 => s.lc.owner[finOf 8 x]
  | 4 => s.lc.audit[finOf 8 x]
  | _ => s.lc.compat

/-- What the tables hold of a complement pair (Table INT-9). -/
def State.tableVal (s : State) (cls x : Nat) : TableVal :=
  match cls with
  | 1 => .part s.mram.part[finOf 64 x]
  | 2 => .seal s.tenants[finOf 8 x].granules s.tenants[finOf 8 x].sealCheck
  | 4 => .key s.keys[finOf 36 x]
  | 5 => .ctr s.keys[finOf 36 x].ctr
  | 6 => .record (s.recordAt x)
  | 7 => .fc s.mac.fcStored[finOf 36 x]
  | 8 => .mark s.mac.nbs[finOf 64 (x / 8)].marks[x % 8]?
  | 0xA => if x = 0 then .seq s.log.seqStored else .none
  | 0xB => .purge s.int.pMap
  | _ => .none

/-- Change the value record at an index of Table INT-9a. -/
def modRecordAt (x : Nat) (f : LcRecord → LcRecord) (s : State) : State :=
  s.modLc fun l => match x / 8 with
    | 1 => { l with region := f l.region }
    | 2 => { l with site := f l.site }
    | 3 => { l with owner := upd l.owner (finOf 8 x) f }
    | 4 => { l with audit := upd l.audit (finOf 8 x) f }
    | _ => { l with compat := f l.compat }

/-- The tables hold this value of a complement pair again. -/
def putTable (cls x : Nat) (v : TableVal) (s : State) : State :=
  match v with
  | .none => s
  | .part e => s.modPart (finOf 64 x) fun _ => e
  | .seal g c => s.modTen (finOf 8 x) fun t => { t with granules := g, sealCheck := c }
  | .key k => s.modKey (finOf 36 x) fun q => { k with ctr := q.ctr }
  | .keys l => l.foldl (fun s k => s.modKey k.1 fun q => { k.2 with ctr := q.ctr }) s
  | .ctr v => s.modKey (finOf 36 x) fun q => { q with ctr := v }
  | .record r => modRecordAt x (fun _ => r) s
  | .fc v => s.modMac fun m => { m with fcStored := upd m.fcStored (finOf 36 x) fun _ => v }
  | .mark m => match m with
    | none => s
    | some m => s.modNb (finOf 64 (x / 8)) fun n => { n with marks := n.marks.modify (x % 8) fun _ => m }
  | .seq v => if cls = 0xA then s.modLog fun l => { l with seqStored := v } else s
  | .purge m => s.modInt fun i => { i with pMap := m }

/-- Both halves of an item of the system area, as a twin charged to a slot (R453). -/
def sysTwin (i : SysItem) (slot : Fin 8) (s : State) : State :=
  let n := s.mram.nextTwin
  sysIssue [sysHalf i .A slot n, sysHalf i .B slot n] (s.modMram fun m => { m with nextTwin := n + 1 })

/-- Change a complement-paired value and write both its halves as a twin, charged to a slot; from then on reads find the new value
(R198, R232, R453). -/
def pairWrite (cls x : Nat) (slot : Fin 8) (f : State → State) (s : State) : State :=
  sysTwin (.pair cls x (s.tableVal cls x) (s.pairDamage cls x)) slot (clearDamage cls x (f s))

/-- Change key slots in one write, whose pair is that of the first of them (R39, R40, R48; log entry 175). -/
def keysWrite (ks : List (Fin 36)) (slot : Fin 8) (f : State → State) (s : State) : State :=
  sysTwin (.pair 4 (ks.headD 0).val (.keys (ks.map fun k => (k, s.keys[k]))) (ks.flatMap fun k => s.pairDamage 4 k.val)) slot
    (ks.foldl (fun s k => clearDamage 4 k.val s) (f s))

/-- A write that is never stored: the tables hold what they held before it, and the damage that was there is there. -/
def loseWrite (s : State) (e : WEntry) : State :=
  match e.tgt with
  | .sys (.pair c x old dmg) => (putTable c x old s).modInt fun i => { i with damage := i.damage ++ dmg }
  | _ => s

/-- Writes that are never stored, newest first. -/
def loseWrites (es : List WEntry) (s : State) : State := es.reverse.foldl loseWrite s

/-- Issue a system-area value to both arrays as a twin write (R232, R453). -/
def issueTwin (i : SysItem) (slot : Fin 8) (w : Writer) (s : State) : State :=
  let n := s.mram.nextTwin
  let e : WEntry := { tgt := .sys i, arr := .A, slot := slot, writer := w, twin := n, opDone := none, charge := true }
  issue [e, { e with arr := .B }] (s.modMram fun m => { m with nextTwin := n + 1 })

/-! ## The head of an array's sequence (R199, R206, R453) -/

/-- The oldest write of an array not yet stored: its queue comes before its entries in the field hold buffer. -/
def Mram.headOf (m : Mram) (a : Arr) : Option WEntry :=
  match (m.arr a).queue with
  | e :: _ => some e
  | [] => m.fhb.find? fun e => e.arr = a

/-- Nothing is left to store in the array. -/
def Mram.seqEmpty (m : Mram) (a : Arr) : Bool := (m.headOf a).isNone

/-- A magnitude has been delivered to both arrays since they started (R206). -/
def Mram.sampled (m : Mram) : Bool := m.arrA.sampled && m.arrB.sampled

/-- A twin's half may start: its partner stands at the head of its own sequence, or has been stored (R453). -/
def Mram.twinReady (m : Mram) (a : Arr) (e : WEntry) : Bool :=
  e.twin = 0 || (m.arr (otherArr a)).twinDone = some e.twin ||
    match m.headOf (otherArr a) with
    | some e' => e'.twin = e.twin
    | none => false

/-- Remove the first element that satisfies p. -/
def eraseFirst {α : Type} (p : α → Bool) : List α → List α
  | [] => []
  | a :: t => if p a then t else a :: eraseFirst p t

/-- Remove the head of an array's sequence, attempts back to zero, and mark a twin's half done. -/
def popHead (a : Arr) (s : State) : State :=
  match s.mram.headOf a with
  | none => s
  | some e =>
    let s := match (s.mram.arr a).queue with
      | _ :: _ => s.modArr a fun q => { q with queue := q.queue.drop 1 }
      | [] => s.modMram fun m => { m with fhb := eraseFirst (fun e => decide (e.arr = a)) m.fhb }
    let partnerDone := (s.mram.arr (otherArr a)).twinDone = some e.twin
    let s := if partnerDone && decide (s.mram.partRun = some e.twin) then s.modMram fun m => { m with partRun := none } else s
    let s := s.modArr a fun q => { q with
      attempts := 0, remap := none, twinDone := if e.twin = 0 || partnerDone then none else some e.twin }
    if partnerDone then s.modArr (otherArr a) fun q => { q with twinDone := none } else s

/-! ## Storing -/

/-- Store raw bits at a key, keeping the canonical form: a blank word is unlisted. -/
def setStored (k : Nat) (r : Raw147) (s : State) : State :=
  s.modMram fun m => { m with words := store k (if r = blankRaw then none else some r) m.words }

/-- The raw word of a write. -/
def rawOf (d : Word128) (blank : Bool) : Raw147 := if blank then blankRaw else encodeData d

/-- A pair whose half does not read as it should. -/
def addDamage (cls idx : Nat) (k : Damage) (half : Arr) (s : State) : State :=
  (clearDamage cls idx s).modInt fun i =>
    { i with damage := i.damage ++ [{ cls := cls, idx := idx, kind := k, half := half, seen := false }] }

def State.damageOf (s : State) (cls idx : Nat) : Option PairDamage := s.int.damage.find? fun d => d.cls = cls && d.idx = idx

/-- A half of a pair is stored with the value of the tables: its own damage is gone, and of two lost halves the other is left (R232). -/
def halfStored (cls idx : Nat) (a : Arr) (s : State) : State :=
  match s.damageOf cls idx with
  | none => s
  | some d =>
    if d.kind = .lost then addDamage cls idx .oneHalf (otherArr a) s
    else if d.half = a then clearDamage cls idx s
    else s

/-- A half of a pair reads uncorrectable after its failed write: lost beside another such half; beside a half that has kept its old content
that one is the value (R202, R232). -/
def halfUnc (cls idx : Nat) (a : Arr) (old : State → State) (s : State) : State :=
  match s.damageOf cls idx with
  | none => addDamage cls idx .oneHalf a s
  | some d =>
    if d.half = a then addDamage cls idx .oneHalf a s
    else match d.kind with
      | .differ _ => addDamage cls idx .oneHalf a (old s)
      | _ => addDamage cls idx .lost a s

/-- A half of a pair reads with other content, b, after its failed write: alone it disagrees, beside a lost half it is the value, and two
halves that have both kept their old content agree (R202, R232). -/
def halfStale (cls idx : Nat) (a : Arr) (b : Nat) (old : State → State) (s : State) : State :=
  match s.damageOf cls idx with
  | none => addDamage cls idx (.differ b) a s
  | some d =>
    if d.half = a then addDamage cls idx (.differ b) a s
    else match d.kind with
      | .differ _ => clearDamage cls idx (old s)
      | _ => addDamage cls idx .oneHalf (otherArr a) (old s)

/-- Class and index of a paired item (Table INT-9a). -/
def pairOf : SysItem → Option (Nat × Nat)
  | .pair c x _ _ => some (c, x)
  | .ledger n _ => some (9, n.val)
  | .period _ => some (9, 8)
  | .head n _ => some (0xA, 1 + n.val)
  | _ => none

/-- Update the copies of a lane context pair. -/
def setLaneCopy (key : Nat) (a : Arr) (c : Copy LaneCtx) (s : State) : State :=
  s.modSkn fun k =>
    let old := (lookup key k.stored).getD (.blank, .blank)
    let new := match a with
      | .A => (c, old.2)
      | .B => (old.1, c)
    { k with stored := store key (if new = (.blank, .blank) then none else some new) k.stored }

/-- What the word of a sender-cache entry reads as. -/
def setSenderCell (no : Nat) (c : Copy Word32) (s : State) : State :=
  s.modMac fun m => { m with senders := m.senders.map fun e => if e.no = no then { e with cell := c } else e }

/-- The value of a system item, stored in one array: both halves of a pair carry the same value. -/
def storeSys (i : SysItem) (a : Arr) (s : State) : State :=
  let s := match pairOf i with
    | some (c, x) => halfStored c x a s
    | none => s
  match i with
  | .pair .. => s
  | .plain _ => s
  | .ring r v => s.modEng fun e => { e with stored := e.stored.set r.val (.good v) r.isLt }
  | .lane k v => setLaneCopy k a (.good v) s
  | .ledger n v => s.modSns fun q => { q with runStored := upd q.runStored n fun _ => v }
  | .period v => s.modSns fun q => { q with pwStored := v }
  | .head n v => s.modChan n fun c => { c with stored := v }
  | .stopWords v =>
    match a with
    | .A => { s with stopA := .good v }
    | .B => { s with stopB := .good v }
  | .emerg v => s.modEva fun e => { e with emergStored := .good v }
  | .sender n h => setSenderCell n (.good h) s

/-- A system item whose write failed: its half reads as the open bits of R202 let it, old, new or uncorrectable. -/
def failSys (i : SysItem) (a : Arr) (s : State) : State :=
  let r := (Config.failedWord s.freeCtr).toNat % 4
  let s := { s with freeCtr := s.freeCtr + 1 }
  if r = 0 then storeSys i a s
  else match i with
    | .ring x v =>
      if r = 2 then s else s.modEng fun e => { e with stored := e.stored.set x.val (if r = 1 then .bad else .corr v) x.isLt }
    | .lane k v => if r = 2 then s else setLaneCopy k a (if r = 1 then .bad else .corr v) s
    | .emerg v => if r = 2 then s else s.modEva fun e => { e with emergStored := if r = 1 then .bad else .corr v }
    | .sender n h => if r = 2 then s else setSenderCell n (if r = 1 then .bad else .corr h) s
    | .stopWords v =>
      let c : Copy StopWord := if r = 1 then .bad else .corr v
      if r = 2 then s
      else match a with
        | .A => { s with stopA := c }
        | .B => { s with stopB := c }
    | _ => match pairOf i with
      | some (c, x) =>
        let old (s : State) : State := match i with
          | .pair c x v _ => putTable c x v s
          | _ => s
        if r = 1 then halfUnc c x a old s else halfStale c x a (Config.failedWord (s.freeCtr - 1)).toNat old s
      | none => s

/-- Sample every 4,096th stored word of an array into the tracker of 16 rows (R205; log entry 13 for a full tracker). -/
def sampleRow (a : Arr) (row : Nat) (s : State) : State :=
  let s := s.modArr a fun q => { q with total := q.total + 1 }
  if (s.mram.arr a).stored + 1 < 4096 then s.modArr a fun q => { q with stored := q.stored + 1 }
  else
    (s.modArr a fun q => { q with stored := 0 }).modMram fun m =>
      if m.hot.any fun h => h.arr = a && h.row = row then
        { m with hot := m.hot.map fun h => if h.arr = a && h.row = row then { h with samples := satInc h.samples } else h }
      else
        let mine := m.hot.filter fun h => h.arr = a
        if mine.length < 16 then { m with hot := m.hot ++ [{ arr := a, row := row, samples := 1 }] }
        else
          let least := (mine.map fun h => h.samples.toNat).foldl min 0xFFFF
          let i := (findFrom (fun h : HotRow => h.arr = a && h.samples.toNat = least) 0 m.hot).map (·.1)
          { m with hot := m.hot.set (i.getD 0) { arr := a, row := row, samples := 1 } }

/-- The twin at the head of an array has been started: its partner has been stored or is being attempted, so that this half is attempted too,
whatever happens meanwhile (R453). -/
def Mram.twinBegun (m : Mram) (a : Arr) : Bool :=
  match m.headOf a with
  | none => false
  | some e => e.twin ≠ 0 && ((m.arr (otherArr a)).twinDone = some e.twin ||
      ((m.arr (otherArr a)).attempts ≠ 0 && ((m.headOf (otherArr a)).map (·.twin)) = some e.twin))

/-- The array has a granule to overwrite, and the purge is not suspended (R234, R237). -/
def State.purges (s : State) (a : Arr) : Bool :=
  !s.int.pSusp && (List.finRange 64).any fun g => granArr g = a && s.int.pMap.getLsbD g.val && decide (s.mram.part[g].st = .purging)

/-- The array gives up its charge when it has nothing left to store, when it has written BURST_MAX words while another request waits, and
during deferral (R70, R206); then it asks again while words are left.  Half of a twin that has been started is stored first (R453). -/
def burstEnd (a : Arr) (s : State) : State :=
  let n := match a with
    | .A => s.power.burstA
    | .B => s.power.burstB
  let max := 64 * 2 ^ field s.power.peakCeil 10 8
  if s.mram.twinBegun a then s
  else if (s.mram.seqEmpty a && !s.purges a) || s.mram.defer then releaseUnit (arrUnit a) s
  else if max ≤ n && !s.power.waiting.isEmpty then requestUnit (arrUnit a) 70 (releaseUnit (arrUnit a) s)
  else s

/-- The word at the head of an array's sequence is stored: its value, its charge, its samples, and the burst count. -/
def storeHead (a : Arr) (s : State) : State :=
  match s.mram.headOf a with
  | none => s
  | some e =>
    let s := popHead a s
    let s := match e.tgt with
      | .word k d b => setStored k (rawOf d b) s
      | .sys i => storeSys i a s
    let s := if e.charge then s.chargeWord e.slot else s
    let s := sampleRow a (targetIdx e.tgt / 32) s
    s.modPower fun p => match a with
      | .A => { p with burstA := p.burstA + 1 }
      | .B => { p with burstB := p.burstB + 1 }

/-- Capture the first failure (Table MEM-7). -/
def captureWfail (a : Arr) (w cause : Nat) (s : State) : State :=
  s.modMram fun m => if m.wfailV then m else { m with
    wfailV := true, wfailArr := a, wfailWord := w, wfailCause := BitVec.ofNat 3 cause }

/-- `MEM_WFAIL` as a register. -/
def wfailReg (m : Mram) : Word32 :=
  orAll [at_ 0 m.wfailWord, bitAt 20 (m.wfailArr = .B), at_ 24 m.wfailCause.toNat, bitAt 31 m.wfailV]

def wfailNoSpare : Nat := 1
def wfailSpareFail : Nat := 2
def wfailBindOff : Nat := 3
def wfailMergeBad : Nat := 4
def wfailPortDrop : Nat := 5

/-- A word of an array cannot be stored: captured, counted, left as `left` leaves it, stitched (R202). -/
def wordFails (a : Arr) (w cause : Nat) (stitch : Bool) (left : State → State) (s : State) : State :=
  let s := left ((captureWfail a w cause s).modMram fun m => { m with wfail := true, wfailCount := satInc m.wfailCount })
  if stitch then raise .memWriteFail 0 [wfailReg s.mram] s else s

/-- The word at a key as its failed attempts left it: the bits are free (R202). -/
def leaveFailed (k : Nat) (s : State) : State := setStored k (Config.failedWord s.freeCtr) { s with freeCtr := s.freeCtr + 1 }

/-- The word at the head cannot be stored: counted, captured and stitched, and left as its last attempt left it (R202). -/
def failHead (a : Arr) (cause : Nat) (stitch : Bool) (s : State) : State :=
  match s.mram.headOf a with
  | none => s
  | some e =>
    wordFails a (targetIdx e.tgt) cause stitch (fun s => match e.tgt with
      | .word k _ _ => leaveFailed k s
      | .sys i => failSys i a s) (popHead a s)

/-- The head of an array's sequence at a stop: stored, or failed with cause BIND_OFF once its five attempts have failed, for a stop begins no
remap (R202, R214).  Whether the attempts still left all fail is a free value (log entry 14). -/
def stopHead (a : Arr) (s : State) : State :=
  if (s.mram.arr a).attempts = 5 then failHead a wfailBindOff false s
  else s.draw fun v s => if v.getLsbD 0 then failHead a wfailBindOff false s else storeHead a s

/-- One array's turn in a stop: its head, unless that is half of a twin whose partner does not stand at its head yet (R453). -/
def stopTurn (a : Arr) (s : State) : State :=
  match s.mram.headOf a with
  | some e => if s.mram.twinReady a e then stopHead a s else s
  | none => s

/-- Store everything accepted, in acceptance order, the field ignored, as a stop does (R214, R452 step 3). -/
def storeAllGo : Nat → State → State
  | 0, s => s
  | n + 1, s => if s.mram.seqEmpty .A && s.mram.seqEmpty .B then s else storeAllGo n (stopTurn .B (stopTurn .A s))

def storeAll (s : State) : State := storeAllGo 544 s

/-- Drop what waits: it is never stored. -/
def dropWaiting (s : State) : State :=
  loseWrites (s.mram.waitq.filter fun e => e.arr = .A) (s.modMram fun m => { m with waitq := [] })

/-- Everything not stored is lost: what a stop leaves of the write path. -/
def loseUnstored (s : State) : State :=
  loseWrites ((s.mram.arrA.queue ++ s.mram.fhb ++ s.mram.waitq).filter fun e => e.arr = .A) s

end Sys2Proof.Machine
end

