-- ==== Sys2Proof/Machine/Gate.lean ====
section
/-! DEFINITION. What a port reaches (R17, R94, R96, R98, R230, R421, R425), malformed transactions (R113), and the gate of a register action. -/

namespace Sys2Proof.Machine

/-- The code that names a port in a message and in a stitch: 0x0A or 0x0B (R97, R407). -/
def portCode : Port → Nat
  | .a => 0x0A
  | .b => 0x0B

def otherPort : Port → Port
  | .a => .b
  | .b => .a

/-- Port address of a setup offset: port A adds the base of R9, port B names the offset. -/
def setupAddr (p : Port) (off : Nat) : Nat :=
  match p with
  | .a => 0x40000000 + off
  | .b => off

/-- The module is in HALT. -/
def State.halted (s : State) : Bool := s.life.state = .halt

/-- A port works at all: PORT on, VIO valid, and no HALT in which only FAULT_N reports (R425). -/
def State.portWorks (s : State) : Bool :=
  s.portsUp && !(s.halted && (s.faulted 1 || s.faulted 2 || s.faulted 3))

/-- HALT with SWATCH_FAIL, and with SYS_TABLE. -/
def State.haltSwatch (s : State) : Bool := s.halted && s.faulted 4
def State.haltTable (s : State) : Bool := s.halted && s.faulted 5

/-- READY: asserted in RUN and LIMP (R422). -/
def State.ready (s : State) : Bool := s.running

/-- FAULT_N asserted: in LIMP and in HALT (Table LIF-4). -/
def State.faultN (s : State) : Bool := s.life.state = .limp || s.halted

/-- IRQ_A_N or IRQ_B_N asserted (R116). -/
def PortSt.irqLine (q : PortSt) : Bool := q.irqStat &&& q.irqEn ≠ 0

/-- The lost class of SYS_TABLE as `LIF_DETAIL` names it. -/
def State.lostClass (s : State) : Nat := field s.life.detail 7 0
def State.lostIndex (s : State) : Nat := field s.life.detail 23 8

/-- The audit read may run in HALT with SYS_TABLE: the lost class is none of 0x2 for slot 0, 0x4 for site slot 0, and 0xA (R425). -/
def State.haltAudit (s : State) : Bool :=
  s.haltTable && !(s.lostClass = 2 && s.lostIndex = 0) && !(s.lostClass = 4 && s.lostIndex = 32) && !decide (s.lostClass = 0xA)

/-- Registers of the recorder that an audit read uses. -/
def auditRegs (off : Nat) : Bool := (0x2340 ≤ off && off < 0x2360) || (0x2380 ≤ off && off < 0x23C0) || (0x2420 ≤ off && off < 0x2428)

/-- What a port reaches at a setup offset. -/
inductive Reach where
  /-- an identity register -/
  | ident
  /-- through the window open on this slot -/
  | slot (n : Fin 8)
  /-- read-only, without a window, in HALT -/
  | readOnly
  /-- nothing: the read returns zero and the write has no effect -/
  | none
  /-- refused and counted as CLOSED -/
  | closed
  deriving DecidableEq, Repr

/-- What the port reaches at this offset. -/
def State.reach (s : State) (p : Port) (off : Nat) : Reach :=
  if off < 0x100 then .ident
  else if s.haltSwatch && 0xE00 ≤ off && off < 0x1000 then .readOnly
  else if s.haltTable && ((0x100 ≤ off && off < 0x200) || (0xE00 ≤ off && off < 0x1000) || (0x2400 ≤ off && off < 0x3000 && !auditRegs off)) then
    .readOnly
  else match (s.port p).open? with
    | Option.none => .closed
    | some n =>
      if s.haltTable then (if s.haltAudit && auditRegs off then .slot n else .none)
      else if n = 0 && s.tenants[(0 : Fin 8)].st = .free && !(0x280 ≤ off && off < 0x300 && !(0x2D0 ≤ off && off < 0x2E0)) then .none
      else .slot n

/-! ## Malformed transactions (R113, Table PRT-10) -/

def malCmdShort : Nat := 0
def malBadCmd : Nat := 1
def malPartReg : Nat := 2
def malPartByte : Nat := 3
def malAlign : Nat := 4
def malLong : Nat := 5
def malLate : Nat := 6
def malClosed : Nat := 7
def malFewEdges : Nat := 8
def malSurplus : Nat := 9
def malNotReady : Nat := 10
def malLength : Nat := 11

/-- The open slot that a PORT_MALFORMED stitch names; with no window open the manual gives no value (log entry 15). -/
def State.openSlotFree (s : State) (p : Port) (f : Word32 → State → State) : State :=
  match (s.port p).open? with
  | some n => f (snap32 n.val) s
  | none => s.draw fun v s => f (v.setWidth 32) s

/-- Capture and stitch the first malformed transaction of a kind. -/
def captureMal (p : Port) (addr clocks kind : Nat) (s : State) : State :=
  if (s.port p).malValid.getLsbD kind then s
  else
    (s.modPort p fun q => { q with
      malValid := q.malValid ||| bitAt kind true, malFirst := upd q.malFirst (finOf 16 kind) fun _ => snap32 addr }).openSlotFree p
      fun slot s => raise .portMalformed 0 [snap32 (portCode p), snap32 kind, snap32 addr, slot, snap32 clocks] s

/-- A transaction malformed in each of these ways: counted once, the first of each kind captured and stitched, MAL set. -/
def malformedAll (p : Port) (kinds : List Nat) (addr clocks : Nat) (s : State) : State :=
  if kinds.isEmpty then s
  else (State.each kinds (captureMal p addr clocks) (s.modPort p fun q => { q with malCount := satInc q.malCount })).irq p irqMal

/-- A transaction malformed in one way. -/
def malformed (p : Port) (kind addr clocks : Nat) (s : State) : State := malformedAll p [kind] addr clocks s

/-- Clock edges of a write of n bytes on a port: port A in 1S or 8D mode, port B with its 7 header bytes (R101, R106). -/
def State.clocksOf (s : State) (p : Port) (n : Nat) : Nat :=
  match p with
  | .a => if s.portA.mode8d then 3 + (n + 1) / 2 else 40 + 8 * n
  | .b => 56 + 8 * n

/-! ## Register actions: rows of the table that stand for one committed register write -/

/-- A write of the tenant or per-port register at `off` from port p, through the window open on the slot given to `act`. -/
def atWindow (p : Port) (off : Nat) (act : Fin 8 → State → State) (s : State) : State :=
  if s.portWorks then
    match s.reach p off with
    | .slot n => act n s
    | .closed => malformed p malClosed (setupAddr p off) (s.clocksOf p 4) s
    | _ => s
  else s

/-- A write of the module-wide register at `off`: effective only from a port open on slot 0, else path 0x7 of R37 (R94). -/
def atSlot0 (p : Port) (off : Nat) (act : State → State) (s : State) : State :=
  atWindow p off (fun n s => if n = 0 then act s else violate n 7 off s) s

/-- A write of an identity register at `off`. -/
def atIdent (_p : Port) (act : State → State) (s : State) : State := if s.portWorks then act s else s

end Sys2Proof.Machine
end

