-- ==== Sys2Proof/Machine/Mram.lean ====
section
/-! DEFINITION. Array commands: write attempts, remaps, the hot-row tracker, the partition table, the magnetic field rules
(R196 to R218, R366). -/

namespace Sys2Proof.Machine

/-! ## Write attempts and remaps -/

/-- An attempt or a remap may run in the array: it is on, admitted, has had a magnitude since it started, no swatch runs on it, and a write stands
at its head (R199, R206, R231). -/
def State.arrReady (s : State) (a : Arr) : Bool :=
  !(s.int.swRun && s.int.swTest = a) && s.domOn (arrDom a) && s.power.isAdmitted (arrUnit a) && (s.mram.arr a).sampled && !s.mram.seqEmpty a

/-- The head of the array's sequence may be attempted as far as its twin goes: it is no half of one, or its partner stands at the head of an array
that is ready too, so that both start in the same cycle, or the twin has been started (R453). -/
def State.twinOk (s : State) (a : Arr) (e : WEntry) : Bool :=
  e.twin = 0 || s.mram.twinBegun a || (s.mram.twinReady a e && s.arrReady (otherArr a))

/-- An attempt on the word at the head may run now: its twin is ready, it has attempts left, no remap runs, and the field is not deferring
unless its retries, or its twin, are under way (R200, R206, R453). -/
def State.attemptOk (s : State) (a : Arr) : Bool :=
  match s.mram.headOf a with
  | none => false
  | some e =>
    let q := s.mram.arr a
    s.arrReady a && s.twinOk a e && decide (q.attempts < 5) && q.remap.isNone && (!s.mram.defer || q.attempts ≠ 0 || s.mram.twinBegun a)

/-- After a word has left an array: its burst, and the writes that waited for room (R70, R208). -/
def afterHead (a : Arr) (s : State) : State := drainWait (burstEnd a s)

/-- The fifth attempt has failed: a remap starts, unless no spare row is left (R202) or deferral holds it off (R213). -/
def exhaust (a : Arr) (s : State) : State :=
  if (s.mram.arr a).spares.isEmpty then afterHead a (failHead a wfailNoSpare true s)
  else if s.mram.defer then burstEnd a s
  else match s.mram.headOf a with
    | some e => s.modArr a fun q => { q with remap := some { row := targetIdx e.tgt / 32, tried := 0 } }
    | none => s

/-- One write attempt on the word at the head of the array's sequence; `ok` is its verify read (R200). -/
def writeAttempt (a : Arr) (ok : Bool) (s : State) : State :=
  if s.attemptOk a then
    if ok then afterHead a (storeHead a s)
    else
      let s := s.modArr a fun q => { q with attempts := q.attempts + 1 }
      if (s.mram.arr a).attempts = 5 then exhaust a s else s
  else s

def execWriteAttempt (a : Arr) (ok : Bool) (s : State) : Host.Outcome State Fault Refusal := .next (writeAttempt a ok s)

/-- What a remap copies of a word: corrected when it is correctable, else raw (R201). -/
def copyRaw (r : Raw147) : Raw147 :=
  match decodeRaw r with
  | .corrected m => encode130 m
  | _ => r

/-- The tag word of a spare row that replaces a row (R201). -/
def tagWord (row : Nat) : Raw147 := encodeData (at_ 0 row)

/-- The spare row of an array that serves a row, when it is remapped. -/
def State.spareOf (s : State) (a : Arr) (row : Nat) : Option Nat := (s.mram.remaps.find? fun e => e.arr = a && e.row = row).map (·.spare)

/-- Write what keys hold. -/
def setAll (l : List (Nat × Raw147)) (s : State) : State := l.foldl (fun s x => setStored x.1 x.2 s) s

/-- Words 0 to 31 of a row and of a spare row's place, by key: what takes whose place when the spare row comes into service.  The words of the
row now served go to the place of what served it: its own row, kept under the new spare row's key, or the superseded spare row (R188, R201). -/
def swapRow (a : Arr) (row spare : Nat) (s : State) : State :=
  let here (i : Nat) : Nat × Raw147 := (spareKey a spare i, match s.spareOf a row with
    | some p => s.stored (spareKey a p i)
    | none => s.stored (wordKey a (32 * row + i)))
  let old (i : Nat) : List (Nat × Raw147) := match s.spareOf a row with
    | some p => [(spareKey a p i, s.stored (wordKey a (32 * row + i)))]
    | none => []
  setAll ((List.range 32).flatMap fun i => here i :: old i) s

/-- Both halves of a pair stored within a remap: two words, charged and sampled as any (R201, R205). -/
def storeEntry (spareIdx : Nat) (s : State) : State :=
  let row := pairIdx 3 spareIdx / 32
  sampleRow .B row (sampleRow .A row (clearDamage 3 spareIdx (State.chargeWord 0 (State.chargeWord 0 s))))

/-- Index of a spare row in class 0x3 (Table INT-9a). -/
def remapIdx (a : Arr) (spare : Nat) : Nat :=
  spare + match a with
    | .A => 0
    | .B => 48

/-- The remap table names this spare row for a row, and no other. -/
def setRemap (a : Arr) (row spare : Nat) (s : State) : State :=
  s.modMram fun m => { m with
    remaps := (m.remaps.filter fun e => !(e.arr = a && (e.row = row || e.spare = spare))) ++ [{ arr := a, row := row, spare := spare }] }

/-- Steps 1 to 4 of R201 but for the new word: tag word, copies of the row's words, the remap entry pair.  From then on the spare row serves the
row. -/
def remapTo (a : Arr) (row spare : Nat) (s : State) : State :=
  let copies := (List.range 32).map fun i => (wordKey a (32 * row + i), copyRaw (s.stored (wordKey a (32 * row + i))))
  let s := setRemap a row spare (setAll copies (setStored (spareKey a spare 32) (tagWord row) (swapRow a row spare s)))
  storeEntry (remapIdx a spare) (s.modArr a fun q => { q with spares := q.spares.filter fun x => !decide (x = spare) })

/-- The MEM_REMAP stitch (R201). -/
def remapStitch (a : Arr) (row spare : Nat) (s : State) : State :=
  raise .memRemap 0 [snap32 (match a with | .A => 0 | .B => 1), snap32 row, snap32 spare] s

/-- The remap completes (R201): the word at the head is stored in the spare row, and a MEM_REMAP stitch is written. -/
def remapDone (a : Arr) (r : Remapping) (spare : Nat) (s : State) : State :=
  remapStitch a r.row spare (storeHead a (remapTo a r.row spare s))

/-- A spare row that is written, but out of service, comes into service for a row with the words it holds. -/
def serveRow (a : Arr) (row spare : Nat) (s : State) : State :=
  let image := (List.range 32).map fun i => (wordKey a (32 * row + i), s.stored (spareKey a spare i))
  setRemap a row spare (setAll image (swapRow a row spare s))

/-- A row is served from its own words again: the spare row keeps what it holds. -/
def unserveRow (a : Arr) (row spare : Nat) (s : State) : State :=
  let swap := (List.range 32).flatMap fun i =>
    [(wordKey a (32 * row + i), s.stored (spareKey a spare i)), (spareKey a spare i, s.stored (wordKey a (32 * row + i)))]
  (setAll swap s).modMram fun m => { m with remaps := m.remaps.filter fun e => !(e.arr = a && e.spare = spare) }

/-- The row that the tag word of a spare row names. -/
def State.tagRow (s : State) (a : Arr) (spare : Nat) : Option Nat :=
  match readRaw (s.stored (spareKey a spare 32)) with
  | .data d _ => some (field d 127 0)
  | _ => none

/-- The row that a spare row serves. -/
def State.servedBy (s : State) (a : Arr) (spare : Nat) : Option Nat :=
  (s.mram.remaps.find? fun e => e.arr = a && e.spare = spare).map (·.row)

/-- What a remap leaves in a spare row when one of its steps fails its verify: the steps before it have been written, the word of the failed one
holds what its attempts left.  Which step of the 34 it is, is free (R201, R202; log entry 172). -/
def remapLeaves (a : Arr) (r : Remapping) (spare : Nat) (s : State) : State :=
  s.draw fun v s =>
    let word : Nat := match s.mram.headOf a with
      | some e => targetIdx e.tgt % 32
      | none => 0
    let order := (List.range 32).filter (fun i => i ≠ word)
    let new : Raw147 := match s.mram.headOf a with
      | some e => match e.tgt with
        | .word _ d b => rawOf d b
        | .sys _ => Config.failedWord s.freeCtr
      | none => blankRaw
    let image := (spareKey a spare 32, tagWord r.row) ::
      (order.map fun i => (spareKey a spare i, copyRaw (s.stored (wordKey a (32 * r.row + i))))) ++ [(spareKey a spare word, new)]
    let step := v.toNat % 34
    let fail := fun (s : State) => match image[step]? with
      | some x => setStored x.1 (Config.failedWord (s.freeCtr + 1)) { s with freeCtr := s.freeCtr + 2 }
      | none => if v.getLsbD 64 then addDamage 3 (remapIdx a spare) (.differ r.row) (if v.getLsbD 65 then .A else .B) s else s
    fail (setAll (image.take step) s)

/-- The remap under way of the word at the head; one that deferral held off starts now (R213). -/
def State.remapNow (s : State) (a : Arr) : Option Remapping :=
  let q := s.mram.arr a
  match q.remap with
  | some r => some r
  | none => if q.attempts = 5 && !s.mram.defer then (s.mram.headOf a).map fun e => { row := targetIdx e.tgt / 32, tried := 0 } else none

/-- A remap on one spare row completes, or one of its steps fails its verify (R201, R202). -/
def remapStep (a : Arr) (ok : Bool) (s : State) : State :=
  match s.remapNow a with
  | none => s
  | some r =>
    if !s.arrReady a then s
    else match (s.mram.arr a).spares[r.tried]? with
      | none => afterHead a (failHead a wfailNoSpare true s)
      | some spare =>
        if ok then afterHead a (remapDone a r spare s)
        else
          let s := remapLeaves a r spare s
          if r.tried = 1 then afterHead a (failHead a wfailSpareFail true s)
          else if (s.mram.arr a).spares[r.tried + 1]?.isNone then afterHead a (failHead a wfailNoSpare true s)
          else s.modArr a fun q => { q with remap := some { r with tried := r.tried + 1 } }

def execRemap (a : Arr) (ok : Bool) (s : State) : Host.Outcome State Fault Refusal := .next (remapStep a ok s)

/-- `MEM_HOT_CLR.GO` zeroes the tracker (Table MEM-7). -/
def memHotClr (s : State) : State := s.modMram fun m => { m with hot := [] }

def execMemHotClr (p : Port) (s : State) : Host.Outcome State Fault Refusal := .next (atSlot0 p 0xC20 memHotClr s)

/-! ## Partition table (R196, R197) -/

/-- Generate the seal of a slot's first granule: random, ACTIVE in key slot 4n + 3, its key slot written (R36, R196). -/
def genSeal (n : Fin 8) (s : State) : State :=
  s.draw fun v s => pairWrite 4 (4 * n.val + 3) 0 (fun s => s.modKey (keyNo n 3) fun k => { k with st := .active, key := v }) s

def partNotFree : Nat := 1
def partOwnerState : Nat := 2
def partNotOwner : Nat := 3
def partBadOwner : Nat := 4
def partBadOp : Nat := 5

def setPartRes (r : Nat) (s : State) : State := s.modMram fun m => { m with partRes := BitVec.ofNat 4 r }

/-- Write a partition entry: `PART_CTL.GO` reads 1 until both its halves are stored (R197, Table MEM-5). -/
def writeEntry (g : Fin 64) (f : PartEntry → PartEntry) (s : State) : State :=
  let n := s.mram.nextTwin
  pairWrite 1 g.val 0 (fun s => s.modPart g f) (s.modMram fun m => { m with partRun := some n })

/-- Granules of owner 0x8 in all. -/
def State.logGranules (s : State) : Nat := (s.log.chans.toList.map fun c => c.grans.length).sum

/-- Owner 0x8 is beyond a limit of R394. -/
def State.logLimit (s : State) : Bool :=
  decide (8 ≤ s.log.chans[s.log.allocCh].grans.length) || decide (16 ≤ s.logGranules)

/-- An owner code that an operation cannot name: reserved, or none (log entry 17). -/
def badOwner (o : Nat) : Bool := decide (8 < o)

/-- A code that Table MEM-4 reserves. -/
def reservedOwner (o : Nat) : Bool := decide (8 < o && o < 15)

/-- Assign a granule to a slot: IN_USE at the next position, with a seal for the first (R36, R197). -/
def assignGranule (g : Fin 64) (n : Fin 8) (zf : Bool) (s : State) : State :=
  let c := s.tenants[n].granules
  let s := if c = 0 then genSeal n s else s
  let s := pairWrite 2 n.val 0 (fun s => s.modTen n fun t => { t with
    granules := c + 1, sealCheck := if c = 0 then sealOf s.keys[keyNo n 3].key else t.sealCheck }) s
  writeEntry g (fun _ => { owner := BitVec.ofNat 4 n.val, pos := c, zeroFill := zf, st := .inUse }) s

/-- Assign a granule to the channel `REC_ALLOC.CH`, which may write again (R394, R395). -/
def assignLog (g : Fin 64) (zf : Bool) (s : State) : State :=
  let ch := s.log.allocCh
  let c := s.log.chans[ch].grans.length
  writeEntry g (fun _ => { owner := 8, pos := 8 * ch.val + c, zeroFill := zf, st := .inUse })
    (s.modChan ch fun q => { q with grans := q.grans ++ [g], full := false, warned := false })

/-- Run `PART_CTL.OP` as the register holds it, with the owner code o of the write: the checks of R197 in order, then the operation. -/
def partGo (o : Nat) (s : State) : State :=
  let r := s.mram.partCtl
  let g := finOf 64 (field r 5 0)
  let zf := flag r 12
  let op := field r 17 16
  let e := s.mram.part[g]
  if op ≠ 1 && op ≠ 2 then setPartRes partBadOp s
  else if badOwner o || (o = 8 && op = 1 && s.logLimit) then setPartRes partBadOwner s
  else if op = 1 && o ≠ 8 && !s.tenants[finOf 8 o].owned then setPartRes partOwnerState s
  else if op = 1 && e.st ≠ .free then setPartRes partNotFree s
  else if op = 2 && !(e.st = .inUse && e.owner.toNat = o) then setPartRes partNotOwner s
  else if op = 1 then setPartRes 0 (if o = 8 then assignLog g zf s else assignGranule g (finOf 8 o) zf s)
  else setPartRes 0 (writeEntry g (fun e => { e with zeroFill := zf }) s)

/-- The fields of `PART_CTL` as a write leaves them: an owner code that Table MEM-4 reserves leaves OWNER as it was (R13), OP is held as written. -/
def partCtlOf (g o : Nat) (zf : Bool) (op : Nat) (old : Word32) : Word32 :=
  orAll [at_ 0 g, at_ 8 (if reservedOwner o then field old 11 8 else o), bitAt 12 zf, at_ 16 op]

/-- A GO of `PART_CTL` whose write carries the owner code o, which the check of R197 sees though OWNER does not take it (log entry 17): nothing
while the entry of the last one waits to be stored (R12). -/
def partRunGo (o : Nat) (s : State) : State := if s.mram.partRun.isSome then s else partGo o s

/-- `PART_CTL` written with GO. -/
def partCtlGo (g : Nat) (o : Nat) (zf : Bool) (op : Nat) (s : State) : State :=
  partRunGo o (s.modMram fun m => { m with partCtl := partCtlOf g o zf op m.partCtl })

def execAllocate (p : Port) (granule : Fin 64) (owner : BitVec 4) (zeroFill : Bool) (s : State) : Host.Outcome State Fault Refusal :=
  .next (atSlot0 p 0xC30 (partCtlGo granule.val owner.toNat zeroFill 1) s)

def execSetType (p : Port) (granule : Fin 64) (owner : BitVec 4) (zeroFill : Bool) (s : State) : Host.Outcome State Fault Refusal :=
  .next (atSlot0 p 0xC30 (partCtlGo granule.val owner.toNat zeroFill 2) s)

/-- A reserved OP is held as written and the GO gives BAD_OP (R13, R197); the other fields keep their values.  A valid OP is no such step. -/
def partBadOpGo (op : BitVec 2) (s : State) : State :=
  if op = 1 || op = 2 then s
  else partRunGo (field s.mram.partCtl 11 8) (s.modMram fun m => { m with partCtl := setField m.partCtl 17 16 op.toNat })

def execPartCtlBadOp (p : Port) (op : BitVec 2) (s : State) : Host.Outcome State Fault Refusal :=
  .next (atSlot0 p 0xC30 (partBadOpGo op) s)

/-! ## Field rules (R206, R210, R211, R366) -/

/-- Integer square root by binary digits, from digit n − 1 down. -/
def sqrtGo (x : Nat) : Nat → Nat → Nat
  | 0, r => r
  | n + 1, r => if (r + 2 ^ n) * (r + 2 ^ n) ≤ x then sqrtGo x n (r + 2 ^ n) else sqrtGo x n r

def isqrt (x : Nat) : Nat := sqrtGo x 18 0

/-- Magnitude code of three axes: an axis at ±127.0 mT, or a code past 0xFFFF, reads as saturated (R366). -/
def magnitude (x y z : Int) : Nat :=
  if 1270 ≤ x.natAbs || 1270 ≤ y.natAbs || 1270 ≤ z.natAbs then 0xFFFF
  else
    let n := x.natAbs * x.natAbs + y.natAbs * y.natAbs + z.natAbs * z.natAbs
    let r := isqrt n
    min 0xFFFF (if r * r = n then r else if Config.roundMagUp n then r + 1 else r)

/-- `FIELD_WRITE_LIMIT.MT`, and MT − HYST, in 0.1 mT. -/
def Mram.mt (m : Mram) : Nat := 10 * field m.limit 5 0
def Mram.mtHyst (m : Mram) : Nat := m.mt - 10 * (field m.limit 9 8 + 1)

def snapInt (x : Int) : Word32 := (BitVec.ofInt 16 x).setWidth 32

/-- A priority scrub lap from row 0; one already running starts again (R225).  After it the ordinary patrol goes on where it stood (R226; log entry
195). -/
def startLap (reason : Nat) (s : State) : State :=
  s.modInt fun i => { i with
    resume := if i.prio then i.resume else i.pos
    prio := true, reason := BitVec.ofNat 2 reason, pos := 0, lapRows := 0, lapCe := 0, lapUe := 0, lapPairs := 0 }

/-- The array gives up its charge when deferral starts, unless an attempt or a remap runs in it (R70, R206). -/
def giveUp (a : Arr) (s : State) : State :=
  let q := s.mram.arr a
  if q.remap.isSome || (q.attempts ≠ 0 && q.attempts ≠ 5) || s.mram.twinBegun a then s else releaseUnit (arrUnit a) s

/-- Deferral starts (R206, R210). -/
def deferStart (mag : Nat) (x y z : Int) (s : State) : State :=
  let s := s.modMram fun m => { m with
    defer := true, episodes := satInc m.episodes, peak := 0, epDisturb := false, epMs := s.life.ms, epWords := m.fwords, epStall := m.stall }
  giveUp .B (giveUp .A (raise .fieldDefer 0 [snap32 mag, snapInt x, snapInt y, snapInt z] (s.irqOpen irqField)))

/-- A magnitude reaches the write path while an array is on (R206, R210, R211). -/
def pathSample (mag : Nat) (x y z : Int) (s : State) : State :=
  let heard (a : Arr) (s : State) : State := if s.domOn (arrDom a) then s.modArr a fun q => { q with sampled := true } else s
  let s := heard .B (heard .A s)
  let s := if !s.mram.defer && s.mram.mt ≤ mag then deferStart mag x y z s else s
  let s := if s.mram.defer then
      s.modMram fun m => { m with below := decide (mag < m.mtHyst), peak := BitVec.ofNat 8 (max m.peak.toNat (satNat 8 (mag / 10))) }
    else s
  if 1000 ≤ mag then
    let first := !s.mram.epDisturb
    let s := s.modMram fun m => { m with disturb := true, epDisturb := true }
    if first then raise .fieldDisturb 0 [snap32 mag, snapInt x, snapInt y, snapInt z] s else s
  else s

/-- A sleep sample (R366): at or above the limit it wakes the module and, once per episode, writes FIELD_TAMPER. -/
def sleepSample (mag : Nat) (x y z : Int) (s : State) : State :=
  if s.mram.mt ≤ mag then
    let first := !s.sns.tamper
    let s := wakeUp (s.modSns fun q => { q with tamper := true })
    if first then raise .fieldTamper 0 [snapInt x, snapInt y, snapInt z, snap32 mag] s else s
  else if mag < s.mram.mtHyst then s.modSns fun q => { q with tamper := false }
  else s

/-- A field sample (R365, R366): the sensing registers, then the write path, or the sleep rules.  With FIELD_FAIL the magnitude reads as
saturated (R380). -/
def fieldSample (x y z : Int) (s : State) : State :=
  let mag := if s.faulted 0xC then 0xFFFF else magnitude x y z
  let s := s.modSns fun q => { q with
    fx := BitVec.ofInt 16 x, fy := BitVec.ofInt 16 y, fz := BitVec.ofInt 16 z, mag := BitVec.ofNat 16 mag }
  if s.power.asleep then sleepSample mag x y z s
  else if s.domOn 3 || s.domOn 4 then pathSample mag x y z s
  else s

/-- An array with words left asks for admission again (R70). -/
def askAgain (a : Arr) (s : State) : State :=
  if s.mram.seqEmpty a then s else requestUnit (arrUnit a) 70 s

/-- Deferral ends: DEFER clears, the ports are told, FIELD_RELEASE carries the episode, the arrays ask again, a disturbance starts a
priority lap (R206, R210, R211, R225). -/
def deferralEnd (s : State) : State :=
  if s.mram.defer && s.mram.below then
    let m := s.mram
    let s := (s.modMram fun m => { m with defer := false, below := false }).irqOpen irqField
    let s := raise .fieldRelease 0
      [m.peak.setWidth 32, snap32 (s.life.ms - m.epMs), m.fwords - m.epWords, m.stall - m.epStall] s
    let s := askAgain .B (askAgain .A (drainWait s))
    if m.epDisturb then startLap 2 s else s
  else s

def execDeferralEnd (s : State) : Host.Outcome State Fault Refusal := .next (deferralEnd s)

end Sys2Proof.Machine
end

