-- ==== Sys2Proof/Machine/SkeinOps.lean ====
section
/-! DEFINITION. Skeins: lane contexts and their cache, pointer checks, push, pop, thresholds, flush and drop (R164 to R187). -/

namespace Sys2Proof.Machine

/-! ## Configuration of a lane -/

def LaneCtx.base (c : LaneCtx) : Nat := field c.cfg0 17 0
def LaneCtx.cap (c : LaneCtx) : Nat := field c.cfg0 22 18
/-- log2 of the number of lanes. -/
def LaneCtx.lanesLog (c : LaneCtx) : Nat := field c.cfg0 25 24
def LaneCtx.emptyIdle (c : LaneCtx) : Bool := flag c.cfg0 26
def LaneCtx.idleCode (c : LaneCtx) : Nat := field c.cfg0 30 28
def LaneCtx.thr (c : LaneCtx) : Nat := field c.cfg1 16 0
def LaneCtx.thrPackets (c : LaneCtx) : Bool := flag c.cfg1 17
def LaneCtx.thrEn (c : LaneCtx) : Bool := flag c.cfg1 18
def LaneCtx.cut (c : LaneCtx) : Nat := field c.cfg1 30 24
/-- Words of one lane: S = 2^CAP / L (R168). -/
def LaneCtx.size (c : LaneCtx) : Nat := 2 ^ c.cap / 2 ^ c.lanesLog
/-- Items in the lane: (TAIL − HEAD) mod 2^17. -/
def LaneCtx.count (c : LaneCtx) : Nat := (c.tail + 131072 - c.head) % 131072
/-- Window word of item index i (R168). -/
def LaneCtx.word (c : LaneCtx) (i : Nat) : Nat := c.base + c.lane * c.size + i % c.size

/-- Block of a skein, and its owner: block 0x00 belongs to the module (R164). -/
def blockOf (sk : BitVec 16) : Nat := sk.toNat / 256
def State.skeinOwner (s : State) (sk : BitVec 16) : Option (Fin 8) :=
  if blockOf sk = 0 then none else lookup (blockOf sk) s.skn.blocks

def State.skein (s : State) (sk : BitVec 16) : Option Skein := lookup sk.toNat s.skn.skeins

/-- Key of a lane context: skein × 8 + lane. -/
def laneKey (sk : BitVec 16) (l : Nat) : Nat := 8 * sk.toNat + l

def State.lane (s : State) (sk : BitVec 16) (l : Nat) : Option LaneCtx := (s.skein sk).bind fun k => k.lanes[l]?

/-- Replace a lane's live context. -/
def setLane (sk : BitVec 16) (l : Nat) (c : LaneCtx) (s : State) : State :=
  match s.skein sk with
  | none => s
  | some k => s.modSkn fun q => { q with skeins := store sk.toNat (some { lanes := k.lanes.set l c }) q.skeins }

/-! ## The context cache and the stored pairs (R173, R181) -/

/-- Write both copies of a lane context, GEN incremented, charged to the skein's owner (R173). -/
def writePair (sk : BitVec 16) (l : Nat) (s : State) : State :=
  match s.lane sk l with
  | none => s
  | some c =>
    let c := { c with gen := c.gen + 1 }
    let s := setLane sk l c s
    let s := s.modSkn fun q => { q with
      cache := q.cache.map fun x => if x.key = laneKey sk l then { x with dirty := false, updates := 0 } else x }
    issueTwin (.lane (laneKey sk l) c) ((s.skeinOwner sk).getD 0) .engine s

/-- Make room in a cache of 128: the least recently used context goes, written first if dirty (R173). -/
def evictOne (s : State) : State :=
  match s.skn.cache with
  | [] => s
  | x :: _ =>
    let s := if x.dirty then writePair (BitVec.ofNat 16 (x.key / 8)) (x.key % 8) s else s
    s.modSkn fun q => { q with cache := q.cache.drop 1 }

/-- Put a line at the most recently used end. -/
def touchLine (x : CacheLine) (s : State) : State :=
  s.modSkn fun q => { q with cache := (q.cache.filter fun y => !decide (y.key = x.key)) ++ [x] }

/-- The lane value a write of this target carries. -/
def laneAt (key : Nat) : Target → Option LaneCtx
  | .sys (.lane k v) => if k = key then some v else none
  | _ => none

/-- The newest lane value among these writes to an array, oldest first. -/
def newestLane (key : Nat) (a : Arr) (es : List WEntry) : Option LaneCtx :=
  (es.filter fun e => e.arr = a).reverse.findSome? fun e => laneAt key e.tgt

/-- What a read of one copy of a lane context finds: the newest value written, whether stored, accepted, or still waiting to be accepted, for a
load waits until an evicted context is written back (R185, R198). -/
def State.copyAt (s : State) (key : Nat) (a : Arr) : Copy LaneCtx :=
  match newestLane key a ((s.mram.arr a).queue ++ s.mram.fhb ++ s.mram.waitq) with
  | some v => .good v
  | none =>
    let p := (lookup key s.skn.stored).getD (.blank, .blank)
    match a with
    | .A => p.1
    | .B => p.2

/-- The fields of a loaded context are consistent: count within S, PKTS within the count, the right lane, the store inside the owner's
partition, whether or not its windows are open (R181). -/
def State.laneConsistent (s : State) (sk : BitVec 16) (l : Nat) (c : LaneCtx) : Bool :=
  decide (c.count ≤ c.size) && decide (c.pkts ≤ c.count) && c.lane = l &&
    match s.skeinOwner sk with
    | some n => s.partHolds n c.base (2 ^ c.cap)
    | none => false

/-- What a load of a lane context finds (R181). -/
inductive Load where
  | use (c : LaneCtx)
  | repair (c : LaneCtx) (copy : Arr)
  | reset (cause : Nat)
  deriving DecidableEq, Repr

def State.loadPair (s : State) (sk : BitVec 16) (l : Nat) : Load :=
  match (s.copyAt (laneKey sk l) .A).val?, (s.copyAt (laneKey sk l) .B).val? with
  | some a, some b =>
    if a = b then (if s.laneConsistent sk l a then .use a else .reset 3) else .reset 1
  | some a, none => if s.laneConsistent sk l a then .repair a .A else .reset 3
  | none, some b => if s.laneConsistent sk l b then .repair b .B else .reset 3
  | none, none => .reset 2

/-- Count a copy that reads corrected at a load, and queue its repair; count and capture one that reads uncorrectable, where it is free whether its
check or its indeterminate bits make it so (R181, R220, R221). -/
def noteCopy (sk : BitVec 16) (l : Nat) (a : Arr) (s : State) : State :=
  let k := wordKey a (132640 + laneKey sk l % 13000)
  match s.copyAt (laneKey sk l) a with
  | .good _ => s
  | .corr _ => noteCorrected k s
  | .blank => noteUnc k .blank s
  | .bad => s.draw fun v s => noteUnc k (if v.getLsbD 0 then .check else .indeterminate) s

/-- Capture the first pointer failure (`SKN_ERR`). -/
def captureErr (sk : BitVec 16) (cause : Nat) (s : State) : State :=
  match s.skeinOwner sk with
  | none => s
  | some n => s.modTen n fun t => if t.sknErrV then t else { t with sknErr := (sk, BitVec.ofNat 4 cause), sknErrV := true }

/-- HEAD, TAIL and PKTS of a copy as a SKEIN_RESET stitch shows them; those of an unreadable copy are free (log entry 18). -/
def copySnaps (c : Copy LaneCtx) (v : Word128) : List Word32 :=
  match c.val? with
  | some c => [snap32 c.head, snap32 c.tail, snap32 c.pkts]
  | none => [regOfWord v 0, regOfWord v 1, regOfWord v 2]

/-- The configuration that every copy of every lane agrees on. -/
def State.agreedCfg (s : State) (sk : BitVec 16) (lanes : Nat) : Option (Word32 × Word32) :=
  let copies := (List.range lanes).flatMap fun l => [s.copyAt (laneKey sk l) .A, s.copyAt (laneKey sk l) .B]
  let cfgs := copies.map fun c => c.val?.map fun c => (c.cfg0, c.cfg1)
  match cfgs with
  | [] => none
  | c :: rest => if rest.all fun d => d = c then c else none

/-- Take a skein out of the configured ones: its lane contexts return to the quota (R165, R167). -/
def removeSkein (sk : BitVec 16) (s : State) : State :=
  match s.skein sk with
  | none => s
  | some k =>
    let keys := (List.range k.lanes.length).map fun l => laneKey sk l
    let s := s.modSkn fun q => { q with
      skeins := store sk.toNat none q.skeins
      stored := keys.foldl (fun t k => store k none t) q.stored
      cache := q.cache.filter fun x => !keys.contains x.key }
    match s.skeinOwner sk with
    | some n => s.modTen n fun t => { t with used := t.used - k.lanes.length }
    | none => s

/-- A lane emptied by a reset of its skein (R181). -/
def resetLane (cfg : Word32 × Word32) (l : Nat) (c : LaneCtx) : LaneCtx :=
  { c with head := 0, tail := 0, pkts := 0, rlock := false, wopen := none, drain := false, armed := true, lane := l,
           cfg0 := cfg.1, cfg1 := cfg.2 }

/-- Reset a skein whose pointers failed, with its stitch and its capture (R181). -/
def resetSkein (sk : BitVec 16) (l cause : Nat) (s : State) : State :=
  let a := s.copyAt (laneKey sk l) .A
  let b := s.copyAt (laneKey sk l) .B
  let s := captureErr sk cause s
  let ch := (s.skeinOwner sk).getD 0
  let s := s.draw fun v s => s.draw fun w s =>
    raise .skeinReset ch ([orAll [at_ 0 sk.toNat, at_ 16 l]] ++ copySnaps a v ++ copySnaps b w ++ [snap32 cause]) s
  match s.skein sk with
  | none => s
  | some k =>
    let n := k.lanes.length
    match s.agreedCfg sk n with
    | none => removeSkein sk s
    | some cfg =>
      State.each (List.range n) (fun l s =>
        match s.lane sk l with
        | none => s
        | some c => writePair sk l (setLane sk l (resetLane cfg l c) s)) s

/-- Load one lane context: from the cache, or from its pair with the checks of R181; false when the skein was reset. -/
def loadLane (sk : BitVec 16) (l : Nat) (s : State) : State × Bool :=
  match s.skn.cache.find? fun x => x.key = laneKey sk l with
  | some x => (touchLine x s, true)
  | none =>
    let s := if 128 ≤ s.skn.cache.length then evictOne s else s
    let s := noteCopy sk l .B (noteCopy sk l .A s)
    match s.loadPair sk l with
    | .use c => (touchLine { key := laneKey sk l, dirty := false, updates := 0 } (setLane sk l c s), true)
    | .repair c copy =>
      let s := touchLine { key := laneKey sk l, dirty := false, updates := 0 } (setLane sk l c s)
      let s := captureErr sk 4 (writePair sk l s)
      (raise .skeinRepair ((s.skeinOwner sk).getD 0)
        [orAll [at_ 0 sk.toNat, at_ 16 l], snap32 (match copy with | .A => 0 | .B => 1)] s, true)
    | .reset cause => (resetSkein sk l cause s, false)

/-- Load lane contexts in turn; the first failure ends it. -/
def loadLanes (sk : BitVec 16) : List Nat → State → State × Bool
  | [], s => (s, true)
  | l :: ls, s =>
    let r := loadLane sk l s
    if r.2 then loadLanes sk ls r.1 else r

def loadSkein (sk : BitVec 16) (s : State) : State × Bool :=
  match s.skein sk with
  | none => (s, true)
  | some k => loadLanes sk (List.range k.lanes.length) s

/-- One update of a cached lane context: dirty, and written back after 2^WB_EVERY updates (R173). -/
def noteUpdate (sk : BitVec 16) (l : Nat) (s : State) : State :=
  match s.skn.cache.find? fun x => x.key = laneKey sk l with
  | none => s
  | some x =>
    let s := touchLine { x with dirty := true, updates := x.updates + 1 } s
    if s.skn.wbEvery ≠ 0 && 2 ^ s.skn.wbEvery.toNat ≤ x.updates + 1 then writePair sk l s else s

/-! ## Items (Table SKN-3) -/

def itemValid (w : Word128) : Bool := flag w 127
def itemEnd (w : Word128) : Bool := flag w 126
def itemPrio (w : Word128) : Nat := field w 125 123
def itemIdle (w : Word128) : Nat := field w 122 120

/-- An item with this payload. -/
def mkItem (last : Bool) (prio : Nat) (payload : Word128) : Word128 :=
  orAll [bitAt 127 true, bitAt 126 last, at_ 123 prio, payload &&& BitVec.ofNat 128 (2 ^ 120 - 1)]

def notValidItem : Word128 := 0

/-- An empty read of a skein (R177). -/
def emptyItem (sk : BitVec 16) (c : LaneCtx) : Word128 :=
  if c.emptyIdle then orAll [at_ 120 c.idleCode, sk.setWidth 128] else notValidItem

/-- Lane of a priority among 2^log lanes (R168). -/
def prioLane (log prio : Nat) : Nat := prio >>> (3 - log)

/-! ## Result codes (Table SKN-5) -/

def sknOk : Nat := 0x0
def sknIsolation : Nat := 0x1
def sknBadCfg : Nat := 0x2
def sknQuota : Nat := 0x3
def sknState : Nat := 0x4
def sknNotEmpty : Nat := 0x5
def sknMismatch : Nat := 0x6
def sknSuspended : Nat := 0x7
def sknFull : Nat := 0x8
def sknPktBusy : Nat := 0x9
def sknBadItem : Nat := 0xA
def sknDrained : Nat := 0xB
def sknBadOp : Nat := 0xC

/-! ## Push (R168, R172, R175, R180) -/

/-- Items of a push that go to lane l. -/
def itemsOf (log l : Nat) (items : List Word128) : List Word128 := items.filter fun w => prioLane log (itemPrio w) = l

/-- What is left of a drained producer's items: everything after its next END 1 item (R180), and whether the drain ends. -/
def afterDrain : List Word128 → List Word128 × Bool
  | [] => ([], false)
  | w :: ws => if itemEnd w then (ws, true) else afterDrain ws

/-- A lane's part in a push: what it takes after a drain, or why the push is refused. -/
structure LanePush where
  items   : List Word128
  drained : Bool
  ended   : Bool
  deriving DecidableEq, Repr

def lanePush (c : LaneCtx) (prod : BitVec 7) (items : List Word128) : Except Nat LanePush :=
  match c.wopen with
  | some w =>
    if w ≠ prod then .error sknPktBusy
    else if c.drain then
      let r := afterDrain items
      if c.size < c.count + r.1.length then .error sknFull else .ok { items := r.1, drained := true, ended := r.2 }
    else if c.size < c.count + items.length then .error sknFull else .ok { items := items, drained := false, ended := false }
  | none => if c.size < c.count + items.length then .error sknFull else .ok { items := items, drained := false, ended := false }

/-- The lane's context after it has taken items. -/
def advanceTail (c : LaneCtx) (prod : BitVec 7) (p : LanePush) : LaneCtx :=
  let wopen := match p.items.getLast? with
    | some w => if itemEnd w then none else some prod
    | none => if p.drained then (if p.ended then none else c.wopen) else c.wopen
  { c with
    tail := (c.tail + p.items.length) % 131072
    pkts := c.pkts + (p.items.filter itemEnd).length
    wopen := wopen
    drain := c.drain && !p.ended }

/-- Write the items of a lane to the store, from item index i (R173, R174). -/
def storeItems (n : Fin 8) (c : LaneCtx) (w : Writer) : Nat → List Word128 → State → State
  | _, [], s => s
  | i, d :: ds, s =>
    match s.windowKey n (c.word i) with
    | some k => storeItems n c w (i + 1) ds (issue [mkWrite k d n w] s)
    | none => storeItems n c w (i + 1) ds s

/-- The engine's or a port's name as writer of a producer's items. -/
def prodWriter (prod : BitVec 7) : Writer :=
  if prod.toNat < 0x40 then .engine else if prod = 0x40 then .port .b else if prod = 0x41 then .mac else .recorder

/-- The count a threshold looks at. -/
def LaneCtx.thrCount (c : LaneCtx) : Nat := if c.thrPackets then c.pkts else c.count

/-- A lane of this skein may fire: it is not the notify skein itself (R179). -/
def State.mayFire (s : State) (n : Fin 8) (sk : BitVec 16) : Bool := !(s.tenants[n].notEn && s.tenants[n].notSkein = sk)

/-- The lane fires: its count has reached THR while ARMED is set (R179). -/
def LaneCtx.fires (c : LaneCtx) (may : Bool) : Bool := c.thrEn && c.armed && may && decide (c.thr ≤ c.thrCount)

/-- ARMED after an update: set below THR, cleared by firing (R179). -/
def LaneCtx.rearm (c : LaneCtx) (may : Bool) : LaneCtx :=
  if c.thrEn && decide (c.thrCount < c.thr) then { c with armed := true }
  else if c.fires may then { c with armed := false }
  else c

/-- One update of a lane: its context with ARMED, in the cache, written back when it is due (R173, R179). -/
def updateLane (n : Fin 8) (sk : BitVec 16) (l : Nat) (c : LaneCtx) (s : State) : State :=
  noteUpdate sk l (setLane sk l (c.rearm (s.mayFire n sk)) s)

/-- Commit a lane's part of a push. -/
def commitLane (n : Fin 8) (sk : BitVec 16) (l : Nat) (prod : BitVec 7) (p : LanePush) (s : State) : State :=
  match s.lane sk l with
  | none => s
  | some c => updateLane n sk l (advanceTail c prod p) (storeItems n c (prodWriter prod) c.tail p.items s)

/-- The lane fires once its part of a push is committed. -/
def State.pushFires (s : State) (n : Fin 8) (sk : BitVec 16) (prod : BitVec 7) (q : Nat × LanePush) : Bool :=
  ((s.lane sk q.1).map fun c => (advanceTail c prod q.2).fires (s.mayFire n sk)).getD false

/-- Lanes a push names, in ascending order. -/
def lanesNamed (log : Nat) (items : List Word128) : List Nat :=
  (List.range 8).filter fun l => items.any fun w => prioLane log (itemPrio w) = l

/-- Each named lane's part, or the first refusal. -/
def planPush (s : State) (sk : BitVec 16) (prod : BitVec 7) (items : List Word128) (log : Nat) :
    List Nat → Except Nat (List (Nat × LanePush))
  | [] => .ok []
  | l :: ls =>
    match s.lane sk l with
    | none => .error sknState
    | some c =>
      match lanePush c prod (itemsOf log l items) with
      | .error e => .error e
      | .ok p => match planPush s sk prod items log ls with
        | .error e => .error e
        | .ok ps => .ok ((l, p) :: ps)

/-- The checks that come before a push looks at its lanes: owner, suspension, items, configuration (R164, R168, R184). -/
def State.pushRefusal (s : State) (n : Fin 8) (sk : BitVec 16) (items : List Word128) : Option Nat :=
  if s.skeinOwner sk ≠ some n then some sknIsolation
  else if s.tenants[n].st = .suspended then some sknSuspended
  else if items.any fun w => !itemValid w || itemIdle w ≠ 0 then some sknBadItem
  else if (s.skein sk).isNone then some sknState
  else none

/-- A push of slot n, all or nothing: its result and the lanes that fire with it, which are yet to be signalled. -/
def pushCore (n : Fin 8) (sk : BitVec 16) (prod : BitVec 7) (items : List Word128) (s : State) : State × Nat × List Nat :=
  match s.pushRefusal n sk items with
  | some e => (s, e, [])
  | none =>
    let log := ((s.lane sk 0).map LaneCtx.lanesLog).getD 0
    let ls := lanesNamed log items
    let r := loadLanes sk ls s
    if !r.2 then (r.1, sknMismatch, [])
    else match planPush r.1 sk prod items log ls with
      | .error e => (r.1, e, [])
      | .ok ps =>
        (ps.foldl (fun s q => commitLane n sk q.1 prod q.2 s) r.1, if ps.any fun q => q.2.drained then sknDrained else sknOk,
          (ps.filter fun q => r.1.pushFires n sk prod q).map (·.1))

/-! ## Thresholds (R179) -/

/-- A notification that finds the notify skein full: LOST counts it. -/
def notifyLost (n : Fin 8) (s : State) : State := s.modTen n fun t => { t with notLost := satInc t.notLost }

/-- Push a notification item onto the slot's notify skein: a full one counts in LOST, one outside the slot's blocks fails path 0x4 (R37, R179). -/
def notify (n : Fin 8) (sk : BitVec 16) (l : Nat) (c : LaneCtx) (s : State) : State :=
  if s.tenants[n].notEn then
    let item := mkItem true l (orAll [at_ 0 sk.toNat, at_ 16 l, at_ 19 c.count, at_ 36 c.pkts])
    let r := pushCore n s.tenants[n].notSkein 0x43 [item] s
    if r.2.1 = sknFull then notifyLost n r.1
    else if r.2.1 = sknIsolation then violate n 4 (blockOf s.tenants[n].notSkein) r.1
    else r.1
  else s

/-- Signal a lane that has fired: its notification item, and the interrupt bit of each port open on the slot (R179). -/
def signalLane (n : Fin 8) (sk : BitVec 16) (l : Nat) (s : State) : State :=
  match s.lane sk l with
  | none => s
  | some c => (notify n sk l c s).irqSlot n irqSkein

/-- A push, with the signals of the lanes that fire. -/
def push (n : Fin 8) (sk : BitVec 16) (prod : BitVec 7) (items : List Word128) (s : State) : State × Nat :=
  let r := pushCore n sk prod items s
  (r.2.2.foldl (fun s l => signalLane n sk l s) r.1, r.2.1)

/-- One update of a lane outside a push, signalled when it fires. -/
def changeLane (n : Fin 8) (sk : BitVec 16) (l : Nat) (c : LaneCtx) (s : State) : State :=
  let t := updateLane n sk l c s
  if c.fires (s.mayFire n sk) then signalLane n sk l t else t

/-- A refused push of the MAC or the recorder is counted (R175). -/
def countDrop (n : Fin 8) (sk : BitVec 16) (s : State) : State :=
  s.modTen n fun t => { t with dropCount := satInc t.dropCount, dropSkein := if t.dropCount = 0 then sk else t.dropSkein }

/-- A push by the MAC or the recorder for slot n: an isolation refusal counts under path 0x4 (R37), every refusal in `SKN_DROP`. -/
def pushInternal (n : Fin 8) (sk : BitVec 16) (prod : BitVec 7) (items : List Word128) (s : State) : State × Nat :=
  let r := push n sk prod items s
  if r.2 = sknOk || r.2 = sknDrained then r
  else (countDrop n sk (if r.2 = sknIsolation then violate n 4 (blockOf sk) r.1 else r.1), r.2)

/-! ## Pop (R169 to R171, R176, R177, R183) -/

/-- The lane's head item is available to a consumer; an internal one takes CUT as 0. -/
def LaneCtx.available (c : LaneCtx) (internal : Bool) : Bool :=
  if c.rlock then 0 < c.count
  else 1 ≤ c.pkts || (!internal && c.cut ≠ 0 && c.cut ≤ c.count)

/-- The lane the next pop takes from: the one with RLOCK, else the highest available. -/
def Skein.popLane (k : Skein) (internal : Bool) : Option Nat :=
  match findFrom (fun c : LaneCtx => c.rlock) 0 k.lanes with
  | some (l, c) => if c.available internal then some l else none
  | none => (List.range k.lanes.length).reverse.find? fun l => ((k.lanes[l]?).map fun c => c.available internal).getD false

/-- The lane after its head item has gone: an END 1 item clears RLOCK and takes one from PKTS; an empty lane has no packet (R169, R183). -/
def advanceHead (c : LaneCtx) (last : Bool) : LaneCtx :=
  let c := { c with head := (c.head + 1) % 131072, rlock := !last, pkts := if last then c.pkts - 1 else c.pkts }
  if c.count = 0 then { c with pkts := 0 } else c

/-- What one pop delivers. -/
inductive Popped where
  | item (w : Word128)
  | bad (key : Nat) (word : Nat) (lane : Nat) (c : UncCause)
  | empty
  deriving DecidableEq, Repr

/-- What a pop finds at a store word: an item of a push that still waits to be accepted counts as pushed (R174). -/
def State.itemAt (s : State) (k : Nat) : Delivered :=
  match s.issuedAt k with
  | some w => .ok w false
  | none => s.deliver k

/-- A pop's read of a store word, with its counts and its repair. -/
def readItem (k : Nat) (s : State) : State × Delivered :=
  match s.issuedAt k with
  | some w => (s, .ok w false)
  | none => demandRead k s

/-- Take one item from the lane, without noting the update. -/
def takeItem (n : Fin 8) (sk : BitVec 16) (l : Nat) (s : State) : State × Popped :=
  match s.lane sk l with
  | none => (s, .empty)
  | some c =>
    match s.windowKey n (c.word c.head) with
    | none => (s, .empty)
    | some k =>
      let r := readItem k s
      match r.2 with
      | .ok w _ => (setLane sk l (advanceHead c (itemEnd w)) r.1, .item w)
      | .bad cause => (setLane sk l (advanceHead c true) r.1, .bad k (c.word c.head) l cause)

/-- One pop of a configured skein of slot n: the item and the lane it came from. -/
def popOne (n : Fin 8) (sk : BitVec 16) (internal : Bool) (s : State) : State × Popped × Option Nat :=
  match (s.skein sk).bind fun k => k.popLane internal with
  | none => (s, .empty, none)
  | some l => let r := takeItem n sk l s; (r.1, r.2, some l)

/-- The lane as it stands is one update (R173, R179). -/
def settleLane (n : Fin 8) (sk : BitVec 16) (l : Nat) (s : State) : State :=
  match s.lane sk l with
  | none => s
  | some c => changeLane n sk l c s

/-- Update the lanes an operation popped from: one update each, and their thresholds (R173, R179). -/
def settlePops (n : Fin 8) (sk : BitVec 16) (ls : List Nat) (s : State) : State :=
  ls.eraseDups.foldl (fun s l => settleLane n sk l s) s

/-- The idle or not-valid item of a skein. -/
def State.emptyRead (s : State) (sk : BitVec 16) : Word128 :=
  match s.lane sk 0 with
  | some c => emptyItem sk c
  | none => notValidItem

/-! ## Internal consumers (R170, R183) -/

/-- The whole complete packet an internal consumer would take: its lane, and its items from the head on; none while a lane has RLOCK. -/
def State.packetAt (s : State) (n : Fin 8) (c : LaneCtx) : Nat → Nat → List (Option Word128)
  | 0, _ => []
  | f + 1, i =>
    match (s.windowKey n (c.word i)).map s.itemAt with
    | some (.ok w _) => if itemEnd w then [some w] else some w :: s.packetAt n c f (i + 1)
    | _ => [none]

def State.headPacket (s : State) (n : Fin 8) (sk : BitVec 16) : Option (Nat × List (Option Word128)) :=
  match s.skein sk with
  | none => none
  | some k =>
    if k.lanes.any fun c => c.rlock then none
    else (k.popLane true).bind fun l => (k.lanes[l]?).map fun c => (l, s.packetAt n c c.count c.head)

/-- Take m items from a lane in one act. -/
def takeMany (n : Fin 8) (sk : BitVec 16) (l : Nat) : Nat → State → State
  | 0, s => s
  | m + 1, s => takeMany n sk l m (takeItem n sk l s).1

/-- Take m items of a lane as one update, its context loaded; a pair that fails the checks of R181 gives up nothing. -/
def popMany (n : Fin 8) (sk : BitVec 16) (l m : Nat) (s : State) : State :=
  let r := loadLane sk l s
  if r.2 then settleLane n sk l (takeMany n sk l m r.1) else r.1

/-! ## Flush and drop (R180) -/

/-- END of the item at index i of a lane; an uncorrectable item counts as END 1 (R183). -/
def State.endAt (s : State) (n : Fin 8) (c : LaneCtx) (i : Nat) : Bool :=
  match (s.windowKey n (c.word i)).map s.itemAt with
  | some (.ok w _) => itemEnd w
  | _ => true

/-- Items of the packet being read: from the head to its END 1, or to the tail. -/
def State.readRest (s : State) (n : Fin 8) (c : LaneCtx) : Nat := 
  match (List.range c.count).find? fun i => s.endAt n c (c.head + i) with
  | some i => i + 1
  | none => c.count

/-- Items of the open packet: those after the last END 1 of the lane. -/
def State.openItems (s : State) (n : Fin 8) (c : LaneCtx) : Nat :=
  match (List.range c.count).find? fun i => s.endAt n c (c.tail + 131072 - 1 - i) with
  | some i => i
  | none => c.count

/-- Packets that end in the first m items. -/
def State.endsIn (s : State) (n : Fin 8) (c : LaneCtx) (i m : Nat) : Nat :=
  ((List.range m).filter fun j => s.endAt n c (i + j)).length

/-- Move m items of a lane from index i to index j (log entry 19). -/
def moveItems (n : Fin 8) (c : LaneCtx) (i j : Nat) : Nat → State → State
  | 0, s => s
  | m + 1, s =>
    let s := match s.windowKey n (c.word i), s.windowKey n (c.word j) with
      | some k, some k' => match s.itemAt k with
        | .ok w _ => issue [mkWrite k' w n .engine] s
        | .bad _ => s
      | _, _ => s
    moveItems n c (i + 1) (j + 1) m s

/-- FLUSH of one lane: the rest of the packet being read and the items of the open packet stay, and PKTS is counted anew.  Where both stay with
discarded items between them, they are written again behind the tail, so that the words of the discarded ones keep their content (log entry 19). -/
def flushLane (n : Fin 8) (sk : BitVec 16) (l : Nat) (s : State) : State :=
  match s.lane sk l with
  | none => s
  | some c =>
    let r := if c.rlock then s.readRest n c else 0
    let o := if c.wopen.isSome && !c.drain then s.openItems n c else 0
    if c.count ≤ r + o then changeLane n sk l { c with pkts := s.endsIn n c c.head c.count } s
    else if r = 0 then
      let h := (c.tail + 131072 - o) % 131072
      changeLane n sk l { c with head := h, pkts := s.endsIn n c h o } s
    else if o = 0 then
      changeLane n sk l { c with tail := (c.head + r) % 131072, pkts := s.endsIn n c c.head r } s
    else
      let s' := moveItems n c (c.tail + 131072 - o) (c.tail + r) o (moveItems n c c.head c.tail r s)
      changeLane n sk l { c with head := c.tail, tail := (c.tail + r + o) % 131072, pkts := s.endsIn n c c.head r } s'

/-- The cut item of a DROP; its priority is not given (log entry 20). -/
def cutItem (sk : BitVec 16) (prio : Nat) : Word128 :=
  orAll [bitAt 127 true, bitAt 126 true, at_ 123 prio, at_ 120 7, sk.setWidth 128]

/-- DROP of one lane: every item goes; a reader inside a packet gets a cut item, a producer inside one is drained. -/
def dropLane (n : Fin 8) (sk : BitVec 16) (l : Nat) (s : State) : State :=
  match s.lane sk l with
  | none => s
  | some c =>
    let c' := { c with head := c.tail, pkts := 0, drain := c.wopen.isSome }
    if c.rlock then
      s.draw fun v s =>
        let s := storeItems n c .engine c.tail [cutItem sk (v.toNat % 8)] s
        changeLane n sk l { c' with tail := (c.tail + 1) % 131072, pkts := 1 } s
    else changeLane n sk l c' s

/-- Step 5 of an ownership transfer: a lane emptied as by a DROP without cut items or DRAIN (R184). -/
def clearLane (sk : BitVec 16) (l : Nat) (s : State) : State :=
  match s.lane sk l with
  | none => s
  | some c =>
    noteUpdate sk l (setLane sk l
      { c with head := c.tail, pkts := 0, rlock := false, wopen := none, drain := false, armed := true } s)

end Sys2Proof.Machine
end

