-- ==== Sys2Proof/Machine/RecOps.lean ====
section
/-! DEFINITION. The recorder's own operations: positions, words of a stitch, chain tags, head words, offering, staging, marking, the report
feed (R383 to R388, R394 to R402, R408 to R411). -/

namespace Sys2Proof.Machine

/-! ## Positions (R383, R394) -/

/-- Key of word i of position p of channel n: the base segment of channel 0 in the system area (log entry 11), then the granules. -/
def State.posKey (s : State) (n : Fin 8) (p i : Nat) : Option Nat :=
  let base := if n = 0 then 256 else 0
  if p < base then some (wordKey .A (131072 + 4 * p + i))
  else s.log.chans[n].grans[(p - base) / 1024]?.map fun g => granKey g (4 * ((p - base) % 1024) + i)

/-! ## Words of a stitch (Tables REC-2, REC-3) -/

def flagLate : Byte := 0x01
def flagUnclean : Byte := 0x04
def flagStaged : Byte := 0x08
def flagKeyless : Byte := 0x10
def markDoneByte : Nat := 0xA5
def markStaged : Nat := 0x3C

/-- Word 0. -/
def headerWord (seq : Word32) (code : BitVec 12) (ch : Fin 8) (supp : BitVec 16) (prev : Word64) : Word128 :=
  orAll [at_ 0 seq.toNat, at_ 32 code.toNat, at_ 44 ch.val, at_ 48 supp.toNat, at_ 64 prev.toNat]

/-- Words 1 and 2: four snapshot slots from slot k. -/
def slotWord (slots : List Word32) (k : Nat) : Word128 :=
  orAll ((List.range 4).map fun i => at_ (32 * i) ((slots.getD (k + i) 0).toNat))

/-- The trailer without its CRC. -/
def trailerWord (chidx : BitVec 24) (epoch : BitVec 8) (caston : BitVec 16) (flags : Byte) (mark : Nat) (m : Bool) : Word128 :=
  orAll [at_ 32 chidx.toNat, at_ 56 epoch.toNat, at_ 64 caston.toNat, at_ 80 flags.toNat, at_ 88 mark, bitAt 96 m]

/-- The CRC of a class C stitch: words 0 to 2 and trailer bits [127:32]. -/
def stitchCrc (w0 w1 w2 t : Word128) : Word32 := crc32 (bytesOf w0 ++ bytesOf w1 ++ bytesOf w2 ++ (bytesOf t).drop 4)

/-- The trailer as marked: MARK 0xA5, and for class C the CRC (R384, R399). -/
def markedTrailer (w0 w1 w2 t : Word128) : Word128 :=
  let t := setField t 95 88 markDoneByte
  if flag t 96 then t else setField t 31 0 (stitchCrc w0 w1 w2 t).toNat

def trailerChidx (t : Word128) : BitVec 24 := (t >>> 32).setWidth 24
def trailerEpoch (t : Word128) : BitVec 8 := (t >>> 56).setWidth 8
def trailerMark (t : Word128) : Nat := field t 95 88
def trailerM (t : Word128) : Bool := flag t 96

/-! ## Chain tags (R408) -/

/-- K, and whether site slot 0 holds a key that is ACTIVE or RETIRED. -/
def State.chainKey (s : State) : Word128 × Bool :=
  let k := s.keys[siteKey 0]
  if k.st = .active || k.st = .retired then (k.key, true) else (0, false)

/-- T_start of a channel in an epoch. -/
def State.tStart (s : State) (n : Fin 8) (epoch : BitVec 8) : Word64 :=
  cmac64 s.chainKey.1 (s.longBytes ++ [BitVec.ofNat 8 n.val, epoch] ++ zeros 5)

/-- The tag of the last chained stitch of a channel, or T_start. -/
def State.lastTag (s : State) (n : Fin 8) : Word64 :=
  match s.log.chans[n].head.tag with
  | some t => t
  | none => s.tStart n s.log.chans[n].head.epoch

/-- T of a chained stitch: its four words as marked. -/
def State.tagOf (s : State) (words : List Word128) : Word64 := cmac64 s.chainKey.1 (words.flatMap bytesOf)

/-! ## Head words and sequence numbers (R387, R388, R396) -/

/-- Write the head of a channel, both halves (log entry 22: charged to slot 0). -/
def writeHead (n : Fin 8) (s : State) : State :=
  issueTwin (.head n s.log.chans[n].head) 0 .recorder (s.modChan n fun c => { c with since := 0 })

/-- Assign the live sequence number: it rises, the stored one is moved on when it is reached, and the last number ends the sequence. -/
def nextSeq (s : State) : State :=
  let q := s.log.seq + 1
  let s := s.modLog fun l => { l with seq := q, seqEnd := q = 0xFFFFFFFF }
  if q = s.log.seqStored then pairWrite 0xA 0 0 (fun s => s.modLog fun l => { l with seqStored := q + 256 }) s else s

/-! ## Placing a stitch (R386, R399, R402) -/

/-- Codes of the stitches that take a frogged staging's place: EVA_DENY, EVA_DEFER, EMERG_LAPSED (R399). -/
def replaces (c : BitVec 12) : Bool := c = 0x061 || c = 0x062 || c = 0x06A

/-- A stitch of the channel may take a position now: no staged stitch is in it, the tag of the last one is known, and a place that waits
for its producer's next stitch goes to that one. -/
def State.canPlace (s : State) (st : Stitch) : Bool :=
  let c := s.log.chans[st.ch]
  c.staged.isNone && c.tagging.isNone && (c.reuse.isNone || replaces st.code)

/-- The stitch with the position, sequence number and words it would get. -/
def State.placed (s : State) (st : Stitch) (mark : Nat) : Placed :=
  let c := s.log.chans[st.ch]
  let (pos, seq, chidx) := match c.reuse with
    | some r => if replaces st.code then r else (c.head.pos, s.log.seq, c.head.chidx)
    | none => (c.head.pos, s.log.seq, c.head.chidx)
  let flags := st.flags ||| (if !st.clsM && !s.chainKey.2 then flagKeyless else 0) ||| (if c.uncleanNext then flagUnclean else 0)
    ||| (if mark = markStaged then flagStaged else 0)
  let w0 := headerWord seq st.code st.ch st.supp (if st.clsM then 0 else s.lastTag st.ch)
  let w1 := slotWord st.slots 0
  let w2 := slotWord st.slots 4
  let t := trailerWord chidx c.head.epoch s.life.caston flags mark st.clsM
  { pos := pos, seq := seq, chidx := chidx, st := st
    words := [w0, w1, w2, if mark = markStaged then t else markedTrailer w0 w1 w2 t] }

/-- The writes of a placed stitch, the trailer last (R383). -/
def State.placedWrites (s : State) (p : Placed) (charge : Bool) : List WEntry :=
  (List.range 4).filterMap fun i =>
    (s.posKey p.st.ch p.pos i).map fun k => { mkWrite k (p.words.getD i 0) p.st.ch .recorder with charge := charge }

/-- The channel after a position has been taken. -/
def takePlace (p : Placed) (s : State) : State :=
  let c := s.log.chans[p.st.ch]
  if c.reuse.isSome && replaces p.st.code then s.modChan p.st.ch fun c => { c with reuse := none, uncleanNext := false }
  else
    nextSeq (s.modChan p.st.ch fun c => { c with
      head := { c.head with pos := c.head.pos + 1, chidx := c.head.chidx + 1 }, uncleanNext := false })

/-! ## The report feed (R410) -/

def feedEn (f : Word32) : Bool := flag f 16

/-- `REC_FEED.SEL` selects the stitch. -/
def feedSelects (f : Word32) (st : Stitch) : Bool :=
  match field f 18 17 with
  | 0 => 0x060 ≤ st.code.toNat && st.code.toNat ≤ 0x06B
  | 1 => st.cls0
  | _ => true

/-- The two summary items of a stitch (Table REC-9). -/
def feedItems (f : Word32) (p : Placed) : List Word128 :=
  let t := p.words.getD 3 0
  let slot (i : Nat) : Nat := (p.st.slots.getD i 0).toNat
  let prio := if p.st.cls0 then field f 26 24 else field f 22 20
  [mkItem false prio (orAll [at_ 0 p.seq.toNat, at_ 32 p.st.code.toNat, at_ 44 p.st.ch.val, bitAt 47 p.st.clsM, at_ 48 (field t 87 80),
      at_ 56 (field t 79 64), at_ 72 p.st.supp.toNat, at_ 88 (slot 0)]),
   mkItem true prio (orAll [at_ 0 (slot 1), at_ 32 (slot 2), at_ 64 (slot 3)])]

/-- Summarize a complete stitch on the report skein of its channel's slot; a refusal is counted and not retried. -/
def feedStitch (p : Placed) (s : State) : State :=
  let n := p.st.ch
  let f := s.tenants[n].feed
  if feedEn f && feedSelects f p.st then
    let r := pushInternal n (f.setWidth 16) 0x42 (feedItems f p) s
    if r.2 = sknOk || r.2 = sknDrained then r.1 else r.1.modTen n fun t => { t with feedLost := satInc t.feedLost }
  else s

/-! ## Completion of a stitch -/

/-- WARN is reached: LOG once for each port open on the slot (R411). -/
def warnLog (n : Fin 8) (s : State) : State :=
  let w := field s.log.ctl 11 8
  let c := s.log.chans[n]
  if w ≠ 0 && !c.warned && decide (s.capacity n * w ≤ 16 * c.head.pos) then
    (s.modChan n fun c => { c with warned := true }).irqSlot n irqLog
  else s

/-- A stitch is written on a channel whose live reader has met its end (R411). -/
def liveLog (n : Fin 8) (s : State) : State :=
  State.each [Port.a, Port.b] (fun p s =>
    let q := s.port p
    if q.liveEnd && (q.cursor.map fun c => decide (c.1 = n)).getD false && q.open?.isSome then
      (s.modPort p fun q => { q with liveEnd := false }).irq p irqLog
    else s) s

/-- Set the stitched flag of the value record a change stitch belongs to; the ownership start is its sequence number (R46, R415). -/
def settleRecord (i : Nat) (seq : Word32) (s : State) : State :=
  let s := pairWrite 6 i 0 (modRecordAt i fun r => { r with stitched := true }) s
  if i / 8 = 3 then s.modTen (finOf 8 i) fun q => { q with recOwn := seq } else s

/-- What follows the acceptance of a stitch's mark: the head every 2^WB stitches, the tag to compute, the feed, the interrupts, the post's
result, the record's stitched flag. -/
def completeStitch (p : Placed) (s : State) : State :=
  let n := p.st.ch
  let s := s.modChan n fun c => { c with since := c.since + 1, tagging := if p.st.clsM then none else some p }
  let s := match p.st.post with
    | some t => s.modTen t fun t => { t with postRes := 0 }
    | none => s
  let s := match p.st.lc with
    | some i => settleRecord i p.seq s
    | none => s
  let s := liveLog n (warnLog n s)
  let s := if 2 ^ field s.log.ctl 3 0 ≤ s.log.chans[n].since then writeHead n s else s
  feedStitch p s

/-- The chain tag of a marked class C stitch is known (R408). -/
def tagDone (n : Fin 8) (s : State) : State :=
  match s.log.chans[n].tagging with
  | none => s
  | some p =>
    let t := s.tagOf p.words
    s.modChan n fun c => { c with tagging := none, head := { c.head with tag := some t, tagPos := p.pos } }

/-! ## Offering (R402) -/

/-- Offer one stitch: its four words are accepted together, or nothing changes. -/
def offer (st : Stitch) (s : State) : Option (State × Placed) :=
  let p := s.placed st markDoneByte
  (acceptAll (s.placedWrites p true) s).map fun s => (completeStitch p (takePlace p s), p)

/-- The first waiting stitch that may take a position: a later stitch of a channel waits behind an earlier one. -/
def State.nextStitch (s : State) : List Stitch → List (Fin 8) → Option Stitch
  | [], _ => none
  | st :: rest, blocked =>
    if s.canPlace st && !(blocked.contains st.ch && !(s.log.chans[st.ch].reuse.isSome && replaces st.code)) then some st
    else s.nextStitch rest (st.ch :: blocked)

/-- A REC_LOST stitch once lost counts exist and the queue has room (R402). -/
def reportLost (s : State) : State :=
  let counts := s.log.chans.toList.map fun c => c.lostNew
  if s.queueRoom && counts.any (· ≠ 0) then
    raise .recLost 0 (counts.map snap32) (State.each slots (fun n s => s.modChan n fun c => { c with lostNew := 0 }) s)
  else s

/-- The recorder may offer stitches: past cast-on step 8 (R455), and for the stitches of bind-off steps 5 and 9. -/
def State.recorderUp (s : State) : Bool :=
  s.running || s.life.state = .bindOff || (s.life.state = .castOn && 8 ≤ s.life.step.toNat)

/-- Offer the stitch at the head of the wait queue. -/
def offerNext (s : State) : State × Option Placed :=
  if s.recorderUp then
    match s.nextStitch s.log.queue [] with
    | none => (s, none)
    | some st =>
      match offer st (s.modLog fun l => { l with queue := eraseFirst (fun q => decide (q = st)) l.queue }) with
      | none => (s, none)
      | some (s, p) => (reportLost s, some p)
  else (s, none)

/-! ## Staging, marking, frogging (R398, R399, R401) -/

/-- Why a stitch cannot be staged now. -/
inductive Staging where
  | done (s : State)
  /-- the channel has no position for it (R395) -/
  | full
  /-- it waits: for the queue, the tag, an earlier stitch, or the write path -/
  | wait

/-- The recorder is not ready to stage the stitch: its channel is tagging, or an earlier stitch has its place first. -/
def State.stageLater (s : State) (st : Stitch) : Bool :=
  !s.canPlace st || s.log.chans[st.ch].reuse.isSome || s.log.queue.any (fun q => q.ch = st.ch) || !s.queueRoom

/-- Stage a stitch of class 0: position and sequence number, and the four words with MARK 0x3C accepted at once or none. -/
def stage (st : Stitch) (s : State) : Staging :=
  if s.log.chans[st.ch].full || s.freePos st.ch ≤ 1 || s.log.seqEnd then .full
  else if s.stageLater st then .wait
  else
    let p := s.placed st markStaged
    match acceptAll (s.placedWrites p false) s with
    | none => .wait
    | some s => .done ((takePlace p s).modChan st.ch fun c => { c with staged := some p })

/-- The trailer write that is the mark of a staged stitch (R384, R399). -/
def State.markWrite (s : State) (p : Placed) : Placed × List WEntry :=
  let w (i : Nat) : Word128 := p.words.getD i 0
  let t := markedTrailer (w 0) (w 1) (w 2) (w 3)
  ({ p with words := [w 0, w 1, w 2, t] }, ((s.posKey p.st.ch p.pos 3).map fun k => mkWrite k t p.st.ch .recorder).toList)

/-- Charge the four words of a staging, once it is marked or left by a stop (R399). -/
def chargeStaged (n : Fin 8) (s : State) : State := State.each (List.range 4) (fun _ s => s.chargeWord n) s

/-- The channel after the mark of its staged stitch has been accepted. -/
def marked (p : Placed) (s : State) : State :=
  completeStitch p (chargeStaged p.st.ch (s.modChan p.st.ch fun c => { c with staged := none }))

/-- FLAGS.UNCLEAN of a placed stitch. -/
def Placed.unclean (p : Placed) : Bool := flag (p.words.getD 3 0) 82

/-- A staged stitch is frogged: its producer's next stitch takes its place (R399), and is the first of its channel after an unclean stop if the
frogged one was (R22, R384). -/
def frogStaged (n : Fin 8) (s : State) : State :=
  match s.log.chans[n].staged with
  | none => s
  | some p => s.modChan n fun c => { c with
      staged := none, reuse := some (p.pos, p.seq, p.chidx), uncleanNext := c.uncleanNext || p.unclean }

/-! ## Writers that the field hold buffer keeps waiting (R208, Table MEM-9) -/

/-- The path has no room for these writes now. -/
def State.noRoom (s : State) (es : List WEntry) : Bool := (acceptAll es s).isNone

/-- The next stitch in the recorder's queue waits for room alone. -/
def State.recorderStalls (s : State) : Bool :=
  s.recorderUp && match s.nextStitch s.log.queue [] with
    | some st => s.noRoom (s.placedWrites (s.placed st markDoneByte) true)
    | none => false

/-- A stitch that is to be staged, or the mark of a staged one with what must be accepted beside it, waits for room alone. -/
def State.stagingStalls (s : State) (isStaged : Bool) (st : Stitch) (beside : List WEntry) : Bool :=
  if isStaged then
    match s.log.chans[st.ch].staged with
    | some p => s.noRoom (beside ++ (s.markWrite p).2)
    | none => false
  else match stage st s with
    | .wait => !s.stageLater st
    | .done t => match t.log.chans[st.ch].staged with
      | some p => t.noRoom (beside ++ (t.markWrite p).2)
      | none => false
    | .full => false

/-! ## A change of K (R396, R409) -/

/-- The class C channels. -/
def State.classC (s : State) : List (Fin 8) := slots.filter fun n => !s.classM n

/-- The recorder has nothing pending, and the write path has room for n stitches and every head: a change of K need not wait (R396). -/
def State.rekeyReady (s : State) : Bool :=
  s.log.queue.isEmpty && (s.log.chans.toList.all fun c => c.staged.isNone && c.tagging.isNone && c.reuse.isNone) &&
    s.mram.waitq.isEmpty && s.mram.canAccept 40 40

/-- Write every stitch that waits, with its tag. -/
def offerAll : Nat → State → State
  | 0, s => s
  | n + 1, s =>
    match offerNext s with
    | (_, none) => s
    | (s, some p) => offerAll n (tagDone p.st.ch s)

/-- CHAIN_REKEY on every class C channel, written and tagged (R409). -/
def rekey (reason : Nat) (s : State) : State :=
  State.each s.classC (fun n s => offerAll 2 (raise .chainRekey n [snap32 reason] s)) s

/-- The heads of every channel are written before a change of K (R396). -/
def writeHeads (s : State) : State := State.each slots writeHead s

end Sys2Proof.Machine
end

