-- ==== Sys2Proof/Machine/Lc.lean ====
section
/-! DEFINITION. Limited-change requests up to the burn: tallies, codes, claims, the ordered checks and the refusals (R41 to R47, R50, R52, R53). -/

namespace Sys2Proof.Machine

/-! ## Settings and tallies (R41, R43, Table TEN-7) -/

def lcRegion : Nat := 1
def lcSite : Nat := 2
def lcOwner : Nat := 3
def lcAudit : Nat := 4
def lcCompat : Nat := 5

/-- Lowest tally bit of a setting and target, and its number of pairs. -/
def tallyRange (setting target : Nat) : Nat × Nat :=
  match setting with
  | 1 => (0, 4)
  | 2 => (8, 7)
  | 3 => (22 + 30 * target, 15)
  | 4 => (262, 3)
  | 5 => (268, 1)
  | _ => (0, 0)

/-- A pair is burnt when either antifuse conducts. -/
def pairBurnt (a : BitVec 512) (lo i : Nat) : Bool := a.getLsbD (lo + 2 * i) || a.getLsbD (lo + 2 * i + 1)

/-- Burnt pairs of a setting and target. -/
def State.tallies (s : State) (setting target : Nat) : Nat :=
  let r := tallyRange setting target
  ((List.range r.2).filter fun i => pairBurnt s.fuses.antifuses r.1 i).length

def State.tallyLeft (s : State) (setting target : Nat) : Nat := (tallyRange setting target).2 - s.tallies setting target

/-- The lowest-numbered unburnt pair. -/
def State.freePair (s : State) (setting target : Nat) : Option Nat :=
  let r := tallyRange setting target
  ((List.range r.2).find? fun i => !pairBurnt s.fuses.antifuses r.1 i).map fun i => r.1 + 2 * i

/-- A setting of Table TEN-7 with a target it has. -/
def settingOk (setting target : Nat) : Bool :=
  match setting with
  | 1 => target = 0
  | 2 => target = 0
  | 3 => target < 8
  | 4 => target < 8
  | 5 => target = 0
  | _ => false

/-! ## Reasons (Table TEN-9) -/

def lcDone : Nat := 0x0
def lcAuth : Nat := 0x1
def lcExhausted : Nat := 0x2
def lcLast : Nat := 0x3
def lcValue : Nat := 0x4
def lcSame : Nat := 0x5
def lcPower : Nat := 0x6
def lcField : Nat := 0x7
def lcBusy : Nat := 0x8
def lcBurnFail : Nat := 0x9
def lcPurging : Nat := 0xA

/-! ## A request -/

/-- What a request carries: from the LC registers, or from an LC_CHANGE descriptor. -/
structure LcReq where
  setting : BitVec 4
  target  : Fin 8
  lastAck : Bool
  value   : Word128
  code    : Word64
  /-- the engine operation it comes from, else `LC_GO` -/
  op      : Option Nat
  deriving DecidableEq, Repr

/-- Value record of a setting and target. -/
def State.lcRecord (s : State) (setting : Nat) (target : Fin 8) : LcRecord :=
  match setting with
  | 1 => s.lc.region
  | 2 => s.lc.site
  | 3 => s.lc.owner[target]
  | 4 => s.lc.audit[target]
  | _ => s.lc.compat

def roleCode : Role → Nat
  | .none => 0
  | .site => 1
  | .operator => 2
  | .safety => 3
  | .utility => 4

def roleOf : Nat → Option Role
  | 0 => some .none
  | 1 => some .site
  | 2 => some .operator
  | 3 => some .safety
  | 4 => some .utility
  | _ => none

/-- The owner identifier and role of an ownership value. -/
def ownerOf (v : Word128) : Word64 × Nat := (v.setWidth 64, field v 66 64)

/-- The message of an authorization code (R45, R450). -/
def lcMessage (s : State) (r : LcReq) : List Byte :=
  s.longBytes ++ [r.setting.setWidth 8, BitVec.ofNat 8 r.target.val, BitVec.ofNat 8 (s.tallies r.setting.toNat r.target.val),
    if r.lastAck then 1 else 0] ++ zeros 4 ++ bytesOf r.value

/-- The request carries a code that verifies. -/
def State.lcCodeOk (s : State) (r : LcReq) : Bool :=
  match s.siteAuth with
  | some k => cmac64 k (lcMessage s r) = r.code
  | none => false

/-- The first claim: slot 0 is FREE and the request is for its ownership (R46, R50). -/
def State.isClaim (s : State) (r : LcReq) : Bool := r.setting = 3 && r.target = 0 && s.tenants[(0 : Fin 8)].st = .free

/-- The claim blob: bytes 0 to 31 in the claim registers, 32 to 39 in the code (R50). -/
def State.claimBlob (s : State) (r : LcReq) : List Byte := bytesLE 32 s.lc.claim ++ bytesLE 8 r.code

/-- The checks of R50 in place of the code check: the value, and the key with its load counter, or a reason. -/
def claimCheck (s : State) (r : LcReq) : Except Nat (Word128 × Word128 × Word32) :=
  match keyUnwrap s.fuses.transport (s.claimBlob r) with
  | none => .error lcAuth
  | some b =>
    let owner : Word64 := ofBytesLE 64 ((b.drop 16).take 8)
    let ctr : Word32 := ofBytesLE 32 ((b.drop 24).take 4)
    if b.getD 28 0 ≠ 0xC0 || (b.drop 29).any (· ≠ 0) then .error lcValue
    else if owner = 0 then .error lcValue
    else if ctr ≤ s.keys[siteKey 0].ctr then .error lcValue
    else .ok (orAll [at_ 0 owner.toNat, at_ 64 1], ofBytesLE 128 (b.take 16), ctr)

/-- A value that its setting, the variant and the roles allow (R33, R42, R44). -/
def State.lcValueOk (s : State) (setting : Nat) (target : Fin 8) (v : Word128) : Bool :=
  match setting with
  | 1 => (s.fuses.variant = 1 && (v = 1 || v = 3)) || (s.fuses.variant = 2 && (v = 2 || v = 4))
  | 2 => field v 127 16 = 0 && v ≠ 0 && v ≠ 0xFFFF
  | 3 =>
    let o := ownerOf v
    field v 127 67 = 0 &&
      (if o.1 = 0 then o.2 = 0
       else if target = 0 then o.2 = 1
       else (o.2 = 2 || o.2 = 3 || o.2 = 4) && !(o.2 = 3 && slots.any fun m => m ≠ target && s.tenants[m].role = .safety))
  | 4 => v = 0 && !s.classM target
  | _ => v = 0

/-- The value is the one already held. -/
def State.lcSameValue (s : State) (setting : Nat) (target : Fin 8) (v : Word128) : Bool :=
  setting ≤ 3 && (s.lcRecord setting target).value = v

/-- The VBAT and EARLY_BREAK check. -/
def State.lcPowerOk (s : State) : Bool := 2400 ≤ s.power.vbat && !s.power.eb

/-- Index of a value record in class 0x6 (Table INT-9a). -/
def lcIndex (setting : Nat) (target : Fin 8) : Nat := 8 * setting + target.val

/-- Fault code of a setting (Table LIF-5): LC_REGION to LC_COMPAT. -/
def lcFault (setting : Nat) : Nat := 6 + setting

/-- The tally count that the value records hold of a setting and target: the channels' audit records share one count, which the latest change
holds (Table TEN-7; log entry 169). -/
def State.lcCount (s : State) (setting : Nat) (target : Fin 8) : Nat :=
  if setting = 4 then (s.lc.audit.map (·.count)).toList.foldl max 0 else (s.lcRecord setting target).count

/-- The value record of a setting and target agrees with the tally count (R51, R427). -/
def State.lcAgrees (s : State) (setting : Nat) (target : Fin 8) : Bool :=
  s.tallies setting target.val = s.lcCount setting target && !s.damaged 6 (lcIndex setting target)

/-- The ordered checks of R46 up to FIELD: the value with its claim, or the reason of the refusal. -/
def lcCheck (s : State) (r : LcReq) : Except Nat (Word128 × Option (Word128 × Word32)) :=
  let k := r.setting.toNat
  if !settingOk k r.target.val then .error lcValue
  else
    let auth : Except Nat (Word128 × Option (Word128 × Word32)) :=
      if s.isClaim r then
        match claimCheck s r with
        | .error e => .error e
        | .ok (v, key, ctr) => .ok (v, some (key, ctr))
      else if s.lcCodeOk r then .ok (r.value, none) else .error lcAuth
    match auth with
    | .error e => .error e
    | .ok (v, claim) =>
      let left := s.tallyLeft k r.target.val
      if left = 0 then .error lcExhausted
      else if !s.lcValueOk k r.target v then .error lcValue
      else if s.lcSameValue k r.target v then .error lcSame
      else if left = 1 && !r.lastAck then .error lcLast
      else if s.lc.run.isSome then .error lcBusy
      else if k = 3 && s.tenants[r.target].st = .purging then .error lcPurging
      else if !s.lcPowerOk then .error lcPower
      else if s.mram.defer then .error lcField
      else .ok (v, claim)

/-! ## Outcomes -/

/-- `LC_STATUS` after a request; a setting that is none has no changes left to state (log entry 23). -/
def setLcStatus (reason setting target : Nat) (s : State) : State :=
  let put (left : BitVec 4) (s : State) : State := s.modLc fun l => { l with reason := BitVec.ofNat 4 reason, left := left }
  if settingOk setting target then put (BitVec.ofNat 4 (s.tallyLeft setting target)) s
  else s.draw fun v s => put (v.setWidth 4) s

/-- The request is complete: a claim's registers are zeroed (R50). -/
def zeroClaim (claim : Bool) (s : State) : State := if claim then s.modLc fun l => { l with claim := 0 } else s

/-- A refusal: BUSY tells only its request, any other writes its status and its stitch (R47, R53). -/
def lcRefuse (reason : Nat) (r : LcReq) (s : State) : State :=
  if reason = lcBusy then s
  else
    let s := zeroClaim (s.isClaim r) s
    (raise .lcRefused 0 [snap32 r.setting.toNat, snap32 r.target.val, snap32 reason]
      (setLcStatus reason r.setting.toNat r.target.val s)).irqSlot 0 irqSite

/-- The slot's operations in flight, the request's own not counted (R141, R161). -/
def State.slotBusy (s : State) (n : Fin 8) (but : Option Nat) : Bool :=
  s.eng.ops.any fun o => slotOfRing o.ring = n && some o.id ≠ but

/-- The request that a running change came from. -/
def LcRun.req (c : LcRun) : LcReq :=
  { setting := c.setting, target := c.target, lastAck := false, value := c.value, code := 0, op := c.op }

/-- Drop the running change with a refusal: fetch of its target goes on. -/
def lcAbort (reason : Nat) (c : LcRun) (s : State) : State := lcRefuse reason c.req (s.modLc fun l => { l with run := none })

/-- A change of slot 0 waits until the recorder is ready for a change of K (R396; log entry 28). -/
def State.burnReady (s : State) (c : LcRun) : Bool := !(c.setting = 3 && c.target = 0) || s.rekeyReady

/-- The burn begins as soon as TALLY is admitted for the change, the second checks of R46 pass and the recorder is ready. -/
def State.burnStarts (s : State) (c : LcRun) : Bool :=
  c.asked && s.power.isAdmitted .tally && s.burnReady c && s.lcPowerOk && !s.mram.defer

/-- Before an event that may change VBAT, EARLY_BREAK or the field: a burn that has begun by then stays begun (R46, R51). -/
def noteBegun (s : State) : State :=
  match s.lc.run with
  | none => s
  | some c => if s.burnStarts c then s.modLc fun l => { l with run := some { c with begun := true } } else s

/-- The request for TALLY has been refused while it waited, the ceiling having been lowered under it (R71). -/
def State.tallyRefused (s : State) (c : LcRun) : Bool :=
  c.asked && !c.begun && !c.burnt? && !s.power.isAdmitted .tally && !s.power.isWaiting .tally

/-- Ask for the TALLY unit once the target's operations have finished; a refusal under R71 ends the change with POWER.  The second component
names the engine operation that the refusal completes. -/
def lcAsk (s : State) : State × Option Nat :=
  match s.lc.run with
  | none => (s, none)
  | some c =>
    if s.tallyRefused c then (lcAbort lcPower c s, c.op)
    else if c.asked || (c.setting = 3 && s.slotBusy c.target c.op) then (s, none)
    else if s.noFit .tally 90 then (lcAbort lcPower c (refuseUnit .tally 90 s), c.op)
    else (requestUnit .tally 90 (s.modLc fun l => { l with run := some { c with asked := true } }), none)

/-- Run a request up to the burn: the reason of a refusal, or none while the change runs. -/
def lcRequest (r : LcReq) (s : State) : State × Option Nat :=
  match lcCheck s r with
  | .error e => (lcRefuse e r s, some e)
  | .ok (v, claim) =>
    let run : LcRun :=
      { setting := r.setting, target := r.target, value := v, burnt := s.tallies r.setting.toNat r.target.val, claim := claim, op := r.op,
        asked := false, begun := false, burnt? := false }
    let a := lcAsk (s.modLc fun l => { l with run := some run })
    (a.1, if a.1.lc.run.isNone then some lcPower else none)

/-- `LC_GO.START`: a port finds the bit already 1 while a change of any origin runs, and has no further effect (R12, R53). -/
def lcGo (s : State) : State :=
  if s.lc.run.isSome then s
  else (lcRequest
    { setting := s.lc.setting, target := s.lc.target, lastAck := s.lc.lastAck, value := s.lc.val, code := s.lc.code, op := none } s).1

def execLcGo (p : Port) (s : State) : Host.Outcome State Fault Refusal := .next (atSlot0 p 0x2A8 lcGo s)

end Sys2Proof.Machine
end

