-- ==== Sys2Proof/Machine/Engine.lean ====
section
/-! DEFINITION. The engine: descriptors and their checks, reads and holds behind lifelines, commits, completion records, release and frog of
lifelines, and fetching (R129, R131, R135 to R137, R142 to R163). -/

namespace Sys2Proof.Machine

/-! ## Descriptors (Tables RNG-5, RNG-6) -/

def Op.w (o : Op) (i : Nat) : Word128 := o.desc.getD i 0
def Op.opcode (o : Op) : Nat := field (o.w 0) 7 0
def Op.len (o : Op) : Nat := field (o.w 0) 9 8 + 1
def Op.orderBits (o : Op) : Nat := field (o.w 0) 11 10
def Op.ll (o : Op) : Bool := flag (o.w 0) 12
def Op.dep (o : Op) : Bool := flag (o.w 0) 13
def Op.irq (o : Op) : Bool := flag (o.w 0) 14
def Op.tag (o : Op) : Nat := field (o.w 0) 31 16
def Op.slot (o : Op) : Fin 8 := slotOfRing o.ring

/-- Address at bits [49:32]: DST, SRC, ADDR or PROG of most operations. -/
def Op.addrA (o : Op) : Nat := field (o.w 0) 49 32
/-- Address at bits [81:64]. -/
def Op.addrB (o : Op) : Nat := field (o.w 0) 81 64
/-- Address at bits [113:96]: DST of CCM_*. -/
def Op.addrC (o : Op) : Nat := field (o.w 0) 113 96
def Op.count (o : Op) : Nat := field (o.w 0) 108 96
/-- KEY [33:32]. -/
def Op.keySel (o : Op) : Nat := field (o.w 0) 33 32
/-- SKEIN [47:32]. -/
def Op.skein (o : Op) : BitVec 16 := (o.w 0 >>> 32).setWidth 16

def opKeyLoad : Nat := 0x40
def opKeyDestroy : Nat := 0x43
def opLcChange : Nat := 0x50
def opEvaluate : Nat := 0x20
def opSkeinPop : Nat := 0x31

/-- KEY_* and LC_CHANGE: always as SLOT_FENCE (R146). -/
def slotFenceOp (opc : Nat) : Bool := (opKeyLoad ≤ opc && opc ≤ opKeyDestroy) || opc = opLcChange

/-- Operations that never run behind a lifeline, and for which LL gives BAD_DESC (R148). -/
def resolvedOnly (opc : Nat) : Bool := slotFenceOp opc || opc = opEvaluate || opc = opSkeinPop

/-- ORDER in force: 0 FREE, 1 AFTER, 2 FENCE, 3 SLOT_FENCE. -/
def Op.order (o : Op) : Nat := if slotFenceOp o.opcode then 3 else o.orderBits

/-- The length in words is one Table RNG-6 gives the opcode. -/
def lenOk (opc len : Nat) : Bool :=
  match opc with
  | 0x01 => len = 1
  | 0x02 => len = 2
  | 0x03 => len = 1
  | 0x04 => len = 2
  | 0x05 => len = 3
  | 0x06 => len = 3
  | 0x07 => len = 1
  | 0x10 => len = 2
  | 0x11 => len = 3
  | 0x12 => len = 3
  | 0x20 => len = 4
  | 0x30 => 2 ≤ len && len ≤ 4
  | 0x31 => len = 1
  | 0x40 => len = 1
  | 0x41 => len = 1
  | 0x42 => len = 1
  | 0x43 => len = 1
  | 0x50 => len = 3
  | _ => false

/-- A mask of bit fields. -/
def maskOf (l : List (Nat × Nat)) : Word128 := orAll (l.map fun f => BitVec.ofNat 128 (2 ^ (f.1 + 1) - 2 ^ f.2))

/-- Fields of word 0 beyond the header. -/
def fields0 (opc : Nat) : List (Nat × Nat) :=
  match opc with
  | 0x02 => [(49, 32)]
  | 0x03 => [(49, 32), (81, 64), (108, 96)]
  | 0x04 => [(49, 32), (108, 96)]
  | 0x05 => [(49, 32)]
  | 0x06 => [(49, 32)]
  | 0x07 => [(49, 32), (65, 64), (66, 66), (127, 96)]
  | 0x10 => [(33, 32), (81, 64), (108, 96)]
  | 0x11 => [(33, 32), (81, 64), (113, 96)]
  | 0x12 => [(33, 32), (81, 64), (113, 96)]
  | 0x20 => [(49, 32), (81, 64), (103, 96), (105, 104)]
  | 0x30 => [(47, 32)]
  | 0x31 => [(47, 32), (81, 64), (108, 96)]
  | 0x40 => [(34, 32), (35, 35), (81, 64)]
  | 0x41 => [(34, 32), (35, 35)]
  | 0x42 => [(34, 32), (35, 35)]
  | 0x43 => [(34, 32), (35, 35)]
  | 0x50 => [(35, 32), (42, 40), (48, 48)]
  | _ => []

/-- Fields of words 1 and 2. -/
def fields1 (opc : Nat) : List (Nat × Nat) :=
  match opc with
  | 0x10 => [(63, 0)]
  | 0x11 => [(105, 0)]
  | 0x12 => [(105, 0)]
  | 0x50 => [(66, 0)]
  | _ => [(127, 0)]

def fields2 (opc : Nat) : List (Nat × Nat) :=
  match opc with
  | 0x11 => [(31, 0)]
  | 0x12 => [(31, 0)]
  | 0x50 => [(63, 0)]
  | _ => [(127, 0)]

/-- A reserved field is nonzero (R136). -/
def Op.reservedSet (o : Op) : Bool :=
  o.w 0 &&& ~~~maskOf ((14, 0) :: (31, 16) :: fields0 o.opcode) ≠ 0 || o.w 1 &&& ~~~maskOf (fields1 o.opcode) ≠ 0 ||
    o.w 2 &&& ~~~maskOf (fields2 o.opcode) ≠ 0

/-! ## CCM* areas: additional data, then payload, then MIC, packed from byte 0 (log entry 24) -/

def Op.aadLen (o : Op) : Nat := field (o.w 2) 15 0
def Op.payLen (o : Op) : Nat := field (o.w 2) 31 16
/-- MIC length in bytes: 4, 8, 16 for 1, 2, 3. -/
def Op.micLen (o : Op) : Nat := 2 ^ (field (o.w 1) 105 104 + 1)
def Op.nonce (o : Op) : List Byte := bytesLE 13 (o.w 1)
def wordsFor (bytes : Nat) : Nat := (bytes + 15) / 16

/-- Word ranges an operation reads and writes, as start and count (R137). -/
def Op.reads (o : Op) : List (Nat × Nat) :=
  match o.opcode with
  | 0x03 => [(o.addrA, o.count)]
  | 0x05 => [(o.addrA, 1)]
  | 0x06 => [(o.addrA, 1)]
  | 0x07 => [(o.addrA, 1)]
  | 0x10 => [(o.addrB, o.count)]
  | 0x11 => [(o.addrB, wordsFor (o.aadLen + o.payLen + o.micLen)), (o.addrC, wordsFor o.payLen)]
  | 0x12 => [(o.addrB, wordsFor (o.aadLen + o.payLen)), (o.addrC, wordsFor (o.payLen + o.micLen))]
  | 0x40 => [(o.addrB, 3)]
  | _ => []

def Op.writes (o : Op) : List (Nat × Nat) :=
  match o.opcode with
  | 0x02 => [(o.addrA, 1)]
  | 0x03 => [(o.addrB, o.count)]
  | 0x04 => [(o.addrA, o.count)]
  | 0x06 => [(o.addrA, 1)]
  | 0x07 => [(o.addrA, 1)]
  | 0x11 => [(o.addrC, wordsFor o.payLen)]
  | 0x12 => [(o.addrC, wordsFor (o.payLen + o.micLen))]
  | 0x31 => [(o.addrB, o.count)]
  | _ => []

def rangesMeet (a b : Nat × Nat) : Bool := a.1 < b.1 + b.2 && b.1 < a.1 + a.2
def anyMeet (as bs : List (Nat × Nat)) : Bool := as.any fun a => bs.any fun b => rangesMeet a b

/-- SRC and DST ranges of the operations that have both (R137). -/
def Op.overlap (o : Op) : Bool :=
  match o.opcode with
  | 0x03 => rangesMeet (o.addrA, o.count) (o.addrB, o.count)
  | 0x11 => rangesMeet (o.addrB, wordsFor (o.aadLen + o.payLen + o.micLen)) (o.addrC, wordsFor o.payLen)
  | 0x12 => rangesMeet (o.addrB, wordsFor (o.aadLen + o.payLen)) (o.addrC, wordsFor (o.payLen + o.micLen))
  | _ => false

/-- A field value is outside its range (R136, R138, R340). -/
def Op.outOfRange (o : Op) : Bool :=
  match o.opcode with
  | 0x03 => o.count = 0 || 4096 < o.count
  | 0x04 => o.count = 0 || 4096 < o.count
  | 0x10 => o.count = 0 || 4096 < o.count || o.keySel = 3
  | 0x11 => o.keySel = 3 || field (o.w 1) 105 104 = 0 || o.payLen = 0 || 512 < o.payLen
  | 0x12 => o.keySel = 3 || field (o.w 1) 105 104 = 0 || o.payLen = 0 || 512 < o.payLen
  | 0x20 => field (o.w 0) 105 104 = 3 || field (o.w 0) 103 96 < 22 || 69 < field (o.w 0) 103 96
  | 0x31 => o.count = 0 || 4096 < o.count
  | 0x40 => 3 < field (o.w 0) 34 32 || (field (o.w 0) 34 32 = 3 && !flag (o.w 0) 35)
  | 0x41 => 3 < field (o.w 0) 34 32 || (field (o.w 0) 34 32 = 3 && !flag (o.w 0) 35)
  | 0x42 => 3 < field (o.w 0) 34 32 || (field (o.w 0) 34 32 = 3 && !flag (o.w 0) 35)
  | 0x43 => 3 < field (o.w 0) 34 32 || (field (o.w 0) 34 32 = 3 && !flag (o.w 0) 35)
  | _ => false

/-- The descriptor completes BAD_DESC (R136, R137, R148). -/
def Op.bad (o : Op) : Bool :=
  !lenOk o.opcode o.len || o.reservedSet || o.outOfRange || o.overlap || (o.ll && resolvedOnly o.opcode)

/-! ## Status codes (Table RNG-9) -/

def stOk : Nat := 0x00
def stMismatch : Nat := 0x01
def stAuthFail : Nat := 0x02
def stIsolation : Nat := 0x03
def stBadDesc : Nat := 0x04
def stKeyState : Nat := 0x05
def stCounter : Nat := 0x06
def stLifeline : Nat := 0x07
def stUnc : Nat := 0x08
def stRefused : Nat := 0x09
def stSkein : Nat := 0x0A
def stSuspended : Nat := 0x0B
def stDiscarded : Nat := 0x0C

/-- What an operation answers. -/
structure Answer where
  status : Nat
  extra  : Nat
  a      : Word32
  b      : Nat
  deriving DecidableEq, Repr

def Answer.of (status : Nat) : Answer := { status := status, extra := 0, a := 0, b := 0 }

/-- The completion record without its PHASE (Table RNG-8). -/
def recordOf (tag opc : Nat) (index : BitVec 16) (ring : Fin 64) (r : Answer) : Word128 :=
  orAll [at_ 0 tag, at_ 16 index.toNat, at_ 32 ring.val, at_ 40 r.status, at_ 48 opc, at_ 56 r.extra, at_ 64 r.a.toNat, at_ 96 (r.b % 2 ^ 31)]

def Op.record (o : Op) (r : Answer) : Word128 := recordOf o.tag o.opcode o.index (localRing o.ring) r

/-! ## Rings -/

def RingCtx.slots (c : RingCtx) : Nat := 2 ^ c.size
/-- Window word of a ring index (R129). -/
def RingCtx.word (c : RingCtx) (i : BitVec 16) : Nat := c.base + i.toNat % c.slots
/-- Global number of a submit ring's completion ring. -/
def State.cplOf (s : State) (r : Fin 512) : Fin 512 := ringNo (slotOfRing r) (s.ring r).ctx.cpl

/-- Halt a ring with a cause, its context word written (R131, R156); a ring that is not enabled stays DISABLED. -/
def haltRing (r : Fin 512) (cause : Nat) (at? : Option (BitVec 16)) (s : State) : State :=
  let s := modCtx r (fun c => { c with haltAt := at?.getD c.haltAt }) s
  drainWait (queueCtx r (s.modRing r fun q => { q with halted := q.ctx.en, cause := BitVec.ofNat 4 cause }))

def causeHost : Nat := 1
def causeUnc : Nat := 2
def causeRestart : Nat := 3
def causeUnclean : Nat := 4
def causeBadCfg : Nat := 5
def causeDoorbell : Nat := 6

/-- Capture a slot's first halt for uncorrectable data (Table RNG-10). -/
def captureUnc (r : Fin 512) (kind word : Nat) (s : State) : State :=
  s.modTen (slotOfRing r) fun t =>
    if t.unc.isSome then t
    else
      let v := (localRing r, BitVec.ofNat 2 kind)
      { t with unc := some v, uncLast := v, uncAddr := BitVec.ofNat 32 (16 * word) }

/-! ## Operations in flight -/

def State.op (s : State) (id : Nat) : Option Op := s.eng.ops.find? fun o => o.id = id
def State.modOp (s : State) (id : Nat) (f : Op → Op) : State :=
  s.modEng fun e => { e with ops := e.ops.map fun o => if o.id = id then f o else o }

/-- Its outcome is final and it is behind no open lifeline (R148). -/
def Op.resolved (o : Op) : Bool := o.ran && o.behind.isEmpty

/-- Entries a held item takes in the hold buffer (R151). -/
def Held.entries : Held → Nat
  | .write _ _ => 1
  | .push _ items => items.length
  | .record _ => 1
  | .violation _ _ => 0
  | .llOk _ => 0

def State.dirtyRings (s : State) : Nat := s.eng.rings.toList.countP fun r => r.dirty

/-- `ENG_STAT.HOLD_USED`. -/
def State.holdUsed (s : State) : Nat := (s.eng.hold.map fun h => h.what.entries).sum + s.dirtyRings

/-- Commits of the engine that wait for the field hold buffer (R162). -/
def State.engWaiting (s : State) : Nat := s.mram.waitq.countP fun e => e.writer = .engine

/-- Newest word held at an address by the slot's operations, with the operation that holds it (R147). -/
def State.heldWord (s : State) (n : Fin 8) (addr : Nat) : Option (Word128 × Op) :=
  s.eng.hold.reverse.findSome? fun h =>
    match h.what with
    | .write a d => if a = addr then (s.op h.op).bind fun o => if o.slot = n then some (d, o) else none else none
    | _ => none

def joinLines (a b : List (Fin 4)) : List (Fin 4) := a ++ b.filter fun k => !a.contains k

/-- What a word read by an operation gives. -/
inductive OpRead where
  | ok (d : Word128)
  /-- uncorrectable, or not readable in the window -/
  | bad
  deriving DecidableEq, Repr

/-- The operation is an EVALUATE or an LC_CHANGE under way: it was behind nothing when it started (R148). -/
def State.underWay (s : State) (id : Nat) : Bool :=
  (s.eva.cur.map fun e => decide (e.op = id)).getD false || (s.lc.run.map fun c => decide (c.op = some id)).getD false

/-- Operation q joins the lifelines that p joins: it was fetched from the same ring after p, it has read a word that p holds, or it is behind p's
own lifeline (R150). -/
def follows (p q : Op) : Bool :=
  (p.ring = q.ring && decide (p.id < q.id)) || q.readOf.contains p.id || (p.own.map fun k => q.behind.contains k).getD false

/-- These operations, and those that follow one of them and are not resolved. -/
def State.withFollowers (s : State) : Nat → List Op → List Op
  | 0, l => l
  | f + 1, l =>
    match s.eng.ops.filter fun q => !q.resolved && !s.underWay q.id && !l.any (fun p => p.id = q.id) && l.any (fun p => follows p q) with
    | [] => l
    | new => s.withFollowers f (l ++ new)

/-- Operations join lifelines, and with them what follows them; a lifeline one of them has opened is nested from then on (R150). -/
def joinOp (id : Nat) (ls : List (Fin 4)) (s : State) : State :=
  match s.op id with
  | none => s
  | some o =>
    if ls.all fun k => o.behind.contains k then s
    else
      let l := s.withFollowers 32 [o]
      let own (k : Fin 4) : Bool := l.any fun p => p.own = some k
      s.modEng fun e => { e with
        lls := Vector.ofFn fun k => if own k then e.lls[k].map fun x => { x with parents := joinLines x.parents ls } else e.lls[k]
        ops := e.ops.map fun q => if l.any (fun p => p.id = q.id) then { q with behind := joinLines q.behind ls } else q }

/-- An operation has read a word that p holds: it joins p's lifelines. -/
def readHeld (id : Nat) (p : Op) (s : State) : State :=
  joinOp id p.behind (s.modOp id fun o => { o with readOf := p.id :: o.readOf })

/-- One read of a window word by an operation: held values first, which join their lifelines; then the array.  Behind a lifeline a bad word
is left uncounted, for the operation will read it again (R147, R150, R157). -/
def opRead (id : Nat) (n : Fin 8) (addr : Nat) (s : State) : State × OpRead :=
  match s.heldWord n addr with
  | some (d, p) => (readHeld id p s, .ok d)
  | none =>
    match s.windowKey n addr with
    | none => (s, .bad)
    | some k =>
      let behind := ((s.op id).map fun o => !o.behind.isEmpty).getD false
      match s.deliver k with
      | .ok d c => (if c then noteCorrected k s else s, .ok d)
      | .bad c => (if behind then s else noteUnc k c s, .bad)

/-- Words read from an address: those before the first bad one, and its address. -/
def opReads (id : Nat) (n : Fin 8) : Nat → Nat → State → State × List Word128 × Option Nat
  | _, 0, s => (s, [], none)
  | addr, m + 1, s =>
    match opRead id n addr s with
    | (s, .bad) => (s, [], some addr)
    | (s, .ok d) =>
      let r := opReads id n (addr + 1) m s
      (r.1, d :: r.2.1, r.2.2)

/-! ## Commits and completion (R142 to R144, R151) -/

/-- Issue a word write of slot n. -/
def writeWord (n : Fin 8) (addr : Nat) (d : Word128) (s : State) : State :=
  match s.windowKey n addr with
  | some k => issue [mkWrite k d n .engine] s
  | none => s

/-- Write a completion record: its index and PHASE are those of its completion ring now; the operation is complete when it is accepted.  The
indices stay over a disabling of the ring, and the laps of R135 are counted from index 0, not from the setting of EN: the manual does not say which
(DESIGN CHOICE, log entry 176). -/
def issueRecord (id : Nat) (r : Fin 512) (w : Word128) (s : State) : State :=
  let cr := s.cplOf r
  let c := (s.ring cr).ctx
  let lap := c.prod.toNat / c.slots % 2
  let w := setField w 127 127 (if lap = 0 then 1 else 0)
  let key := s.windowKey (slotOfRing r) (c.word c.prod)
  let s := modCtx cr (fun c => { c with prod := c.prod + 1 }) s
  match key with
  | some k => issue [{ mkWrite k w (slotOfRing r) .engine with opDone := some id }] s
  | none => drainWait (opAccepted id w s)

/-- Commit one held item of an operation; a push that no longer fits turns the record into SKEIN (R178). -/
def commitHeld (o : Op) (what : Held) (refused : Option Nat) (s : State) : State × Option Nat :=
  match what with
  | .write a d => (writeWord o.slot a d s, refused)
  | .push sk items =>
    let r := push o.slot sk (BitVec.ofNat 7 (localRing o.ring).val) items s
    let s := if r.2 = sknIsolation then violate o.slot 4 (blockOf sk) r.1 else r.1
    (s, if r.2 = sknOk then refused else some r.2)
  | .record w =>
    let w := match refused with
      | some c => setField (setField w 47 40 stSkein) 63 56 c
      | none => w
    (issueRecord o.id o.ring w s, refused)
  | .violation path idx => (violate o.slot path idx.toNat s, refused)
  | .llOk _ => (s, refused)

/-- Commit items of an operation in their order. -/
def commitAll (o : Op) (out : List Held) (s : State) : State × Option Nat :=
  out.foldl (fun (q : State × Option Nat) h => commitHeld o h q.2 q.1) (s, none)

/-- Hold or commit what an operation has produced, in order. -/
def hold (id : Nat) (what : List Held) (s : State) : State :=
  s.modEng fun e => { e with hold := e.hold ++ what.map fun w => { op := id, what := w } }

/-- LL_OK of an operation's ring is to become 1 once the records of these operations, as far as they are still in flight, are accepted (R152). -/
def dueLl (o : Op) (ids : List Nat) (s : State) : State :=
  s.modEng fun e => { e with llDue := e.llDue ++ [{ ring := o.ring, op := o.id, ops := ids.filter fun i => (s.op i).isSome }] }

/-- Put an operation in its place in ring order among those of its ring. -/
def insertOp (c : RingCtx) (o : Op) : List Op → List Op
  | [] => [o]
  | p :: l => if o.index - c.cons < p.index - c.cons then o :: p :: l else p :: insertOp c o l

/-- Operations of one ring in ring order. -/
def sortOps (c : RingCtx) (l : List Op) : List Op := l.foldr (insertOp c) []

/-- Operations in ring order, each ring's on the places that its operations have in fetch order. -/
def State.inRingOrder (s : State) (l : List Op) : List Op :=
  l.zipIdx.filterMap fun x =>
    (sortOps (s.ring x.1.ring).ctx (l.filter fun o => o.ring = x.1.ring))[(l.take x.2).countP fun o => o.ring = x.1.ring]?

/-- Operations whose outcome is held under lifeline k alone. -/
def State.heldBy (s : State) (k : Fin 4) : List Nat := (s.eng.ops.filter fun o => o.ran && o.behind.all (· = k) && o.behind.contains k).map (·.id)

/-- Index of a frogged ring's oldest descriptor among these operations: the first in ring order from CONS. -/
def oldestOf (c : RingCtx) (l : List Op) : Option (BitVec 16) := (sortOps c l).head?.map (·.index)

/-- Where an enabled ring's fetch goes back to when these operations of it are frogged: the oldest of them, or where it stands, if that is
earlier (R153); a disabled ring's frogged descriptors are not fetched again (R163). -/
def refetch (gone : List Op) (q : Ring) : Ring :=
  match oldestOf q.ctx gone with
  | none => q
  | some i => if q.ctx.en && decide (i - q.ctx.cons < q.fetch - q.ctx.cons) then { q with fetch := i } else q

/-- Frog lifeline k, and every lifeline nested in it: held entries go, the operations behind leave flight, their rings fetch again from the
oldest, slots are freed, each affected slot counts, and LL_OK of a descriptor's ring becomes 0 (R153, R163). -/
def frogLine (k : Fin 4) (s : State) : State :=
  let line := s.eng.lls[k]
  let src := line.map fun l => slotOfRing l.ring
  let gone := s.eng.ops.filter fun o => o.behind.contains k
  let nested (i : Fin 4) : Bool := i = k || (s.eng.lls[i].map fun l => l.parents.contains k).getD false
  let s := s.modEng fun e => { e with
    hold := e.hold.filter fun h => !gone.any fun o => o.id = h.op
    ops := e.ops.filter fun o => !o.behind.contains k
    lls := Vector.ofFn fun i => if nested i then none else e.lls[i] }
  let s := State.each (gone.map (·.ring)).eraseDups (fun r s => s.modRing r (refetch (gone.filter fun o => o.ring = r))) s
  let s := State.each slots (fun n s =>
    let ops := gone.countP fun o => o.slot = n
    if ops = 0 && src ≠ some n then s
    else s.modTen n fun t => { t with frogOps := satAdd t.frogOps ops, frogLines := satInc t.frogLines }) s
  let s := gone.foldl (fun s o => settleLl o.id s) s
  match line with
  | some l => match l.src with
    | .desc id => setLlOk l.ring id false s
    | .eva _ => s
  | none => s

/-- Commit what an operation holds once it is behind no lifeline: its words and pushes, then its record.  A push that no longer fits fails the
lifeline it has opened; `release` releases that lifeline otherwise.  `batch` are the operations released with it (R152, R178). -/
def commitOp (release : Fin 4 → State → State) (batch : List Nat) (o : Op) (s : State) : State :=
  let mine := (s.eng.hold.filter fun h => h.op = o.id).map (·.what)
  let s := (s.modEng fun e => { e with hold := e.hold.filter fun h => !decide (h.op = o.id) }).modOp o.id fun o => { o with own := none }
  let record := mine.filter fun h => match h with
    | .record _ => true
    | _ => false
  let r := commitAll o (mine.filter fun h => match h with
    | .record _ => false
    | _ => true) s
  let put (s : State) : State := (record.foldl (fun (q : State × Option Nat) h => commitHeld o h q.2 q.1) (s, r.2)).1
  match o.own with
  | some k =>
    if r.2.isNone then release k (put (dueLl o (o.id :: r.1.heldBy k) r.1)) else put (frogLine k r.1)
  | none => put (if mine.contains (.llOk true) then dueLl o batch r.1 else if mine.contains (.llOk false) then setLlOk o.ring o.id false r.1 else r.1)

def settleHeld (release : Fin 4 → State → State) (batch : List Nat) (id : Nat) (s : State) : State :=
  match s.op id with
  | some o => if o.behind.isEmpty && o.ran then commitOp release batch o s else s
  | none => s

/-- Release a lifeline: what it held commits in ring order, operation by operation (R144, R152).  The fuel is for lifelines released within. -/
def releaseGo : Nat → Fin 4 → State → State
  | 0, _, s => s
  | f + 1, k, s =>
    let was := s.inRingOrder (s.eng.ops.filter fun o => o.behind.contains k)
    let batch := s.heldBy k
    let s := s.modEng fun e => { e with
      lls := (e.lls.set k.val none k.isLt).map fun l => l.map fun l => { l with parents := l.parents.filter (· ≠ k) }
      ops := e.ops.map fun o => { o with behind := o.behind.filter (· ≠ k), stuck := o.stuck && !o.behind.contains k } }
    was.foldl (fun s o => settleHeld (releaseGo f) batch o.id s) s

/-- Release lifeline k. -/
def releaseLine (k : Fin 4) (s : State) : State := releaseGo 5 k s

/-- Whether a failure of the operation leaves an uncorrectable halt: the bad word and its kind (R156). -/
abbrev BadWord := Option (Nat × Nat)

/-- The effects of an uncorrectable word on the ring and its captures, once the operation is resolved (R156). -/
def uncEffects (o : Op) (bad : BadWord) (s : State) : State :=
  match bad with
  | none => s
  | some (word, kind) => captureUnc o.ring kind word (haltRing o.ring causeUnc (some o.index) s)

/-- The record of an operation, of a push that was refused (R178). -/
def refusedRecord (w : Word128) : Option Nat → Word128
  | some c => setField (setField w 47 40 stSkein) 63 56 c
  | none => w

/-- An operation behind no lifeline has its final answer: its words and pushes commit, its own lifeline fails unless the answer is OK and no push
was refused, its record is written, and a lifeline that has not failed is released, LL_OK following (R144, R152, R153, R178). -/
def settleOp (o : Op) (r : Answer) (out : List Held) (bad : BadWord) (s : State) : State :=
  let q := commitAll o out (s.modOp o.id fun o => { o with ran := true, own := none })
  let ok := decide (r.status = stOk) && q.2.isNone
  let s := match o.own with
    | some k => if ok then dueLl o (o.id :: q.1.heldBy k) q.1 else frogLine k q.1
    | none => if o.ll then setLlOk o.ring o.id false q.1 else q.1
  let s := issueRecord o.id o.ring (refusedRecord (o.record r) q.2) (uncEffects o bad s)
  match o.own with
  | some k => if ok then releaseLine k s else s
  | none => s

/-- An operation behind a lifeline has its answer: it and what the operation produced are held.  A lifeline of its own fails at once, or is
released into those it is nested in; with a push it stays open, for the outcome is final only when the push commits (R151 to R153, R178). -/
def holdOp (o : Op) (r : Answer) (out : List Held) (s : State) : State :=
  let pushes := out.any fun h => match h with
    | .push _ _ => true
    | _ => false
  let ok := decide (r.status = stOk)
  let stays := ok && pushes
  let mark : List Held := if o.ll && (ok || o.own.isNone) then [.llOk ok] else []
  let s := hold o.id (out ++ mark ++ [.record (o.record r)])
    (s.modOp o.id fun o => { o with ran := true, own := if stays then o.own else none })
  match o.own with
  | some k => if stays then s else if ok then releaseLine k s else frogLine k s
  | none => s

/-- An operation has its final answer and what it produced. -/
def finish (id : Nat) (r : Answer) (out : List Held) (bad : BadWord) (s : State) : State :=
  match s.op id with
  | none => s
  | some o => if o.behind.isEmpty then settleOp o r out bad s else holdOp o r out s

/-! ## When an operation starts (R145 to R148, R150, R154, R155) -/

/-- An earlier operation of the ring in flight that is not resolved. -/
def State.earlier (s : State) (o : Op) (p : Op → Bool) : Bool := s.eng.ops.any fun q => q.id < o.id && p q

/-- ORDER lets the operation start (R146). -/
def State.orderOk (s : State) (o : Op) : Bool :=
  !(s.earlier o fun q => q.ring = o.ring && !q.resolved && (o.order ≠ 0 || q.order = 2 || q.order = 3)) &&
  !(o.order = 3 && s.earlier o fun q => q.slot = o.slot && !q.resolved)

/-- The store of the skein that a push or a pop names: its items lie there (R168). -/
def State.storeOf (s : State) (o : Op) : List (Nat × Nat) :=
  if (o.opcode = 0x30 || o.opcode = opSkeinPop) && s.skeinOwner o.skein = some o.slot then
    ((s.lane o.skein 0).map fun c => (c.base, 2 ^ c.cap)).toList
  else []

/-- Word ranges an operation reads and writes, the store of its skein among them. -/
def State.readsOf (s : State) (o : Op) : List (Nat × Nat) := o.reads ++ (if o.opcode = opSkeinPop then s.storeOf o else [])
def State.writesOf (s : State) (o : Op) : List (Nat × Nat) := o.writes ++ (if o.opcode = 0x30 then s.storeOf o else [])

/-- Hazards with earlier operations of the slot (R147; log entry 25 for those with EVALUATE and skeins).  The words of a held push have no place
before it commits, so a reader of its store waits. -/
def State.hazard (s : State) (o : Op) : Bool :=
  s.earlier o fun q => q.slot = o.slot &&
    if q.ran then !q.behind.isEmpty &&
      ((anyMeet (s.writesOf q) (s.writesOf o) && !q.behind.all fun k => o.behind.contains k) ||
       (q.opcode = 0x30 && anyMeet (s.storeOf q) (s.readsOf o)) ||
       (resolvedOnly o.opcode && !q.writes.isEmpty && (o.opcode = opEvaluate || anyMeet q.writes (s.readsOf o ++ s.writesOf o))))
    else
      anyMeet (s.writesOf q) (s.readsOf o) || anyMeet (s.writesOf q) (s.writesOf o) || anyMeet (s.readsOf q) (s.writesOf o) ||
      (q.opcode = opEvaluate && (!o.reads.isEmpty || (!o.writes.isEmpty && o.behind.isEmpty))) ||
      (o.opcode = opEvaluate && (!q.reads.isEmpty || !q.writes.isEmpty)) ||
      ((q.opcode = 0x30 || q.opcode = 0x31) && (o.opcode = 0x30 || o.opcode = 0x31) && q.skein = o.skein)

/-- The slot's commits that still wait for acceptance: a later operation of the slot waits for them. -/
def State.slotWaits (s : State) (n : Fin 8) : Bool := s.mram.waitq.any fun e => e.writer = .engine && e.slot = n

/-- The most recent lifeline descriptor before the operation in its ring that is still to settle LL_OK. -/
def State.llBefore (s : State) (o : Op) : Option Op :=
  (s.eng.ops.filter fun q => q.ring = o.ring && q.ll && q.id < o.id).getLast?

def State.pendingLl (s : State) (id : Nat) : Option Bool :=
  s.eng.hold.findSome? fun h => if h.op = id then match h.what with
    | .llOk b => some b
    | _ => none
  else none

/-- LL_OK as a DEP operation reads it at its start: the outcome of the lifeline before it, taken as success while that one is open and while its
LL_OK still waits for the records released with it; none while the lifeline before it has not started (R152, R154). -/
def State.llOkFor (s : State) (o : Op) : Option Bool :=
  let due := s.eng.llDue.any fun d => d.ring = o.ring && decide (d.op < o.id)
  match s.llBefore o with
  | none => some (due || o.pin.getD (s.ring o.ring).ctx.llOk)
  | some q =>
    if q.ran then some ((s.pendingLl q.id).getD (due || (s.ring o.ring).ctx.llOk))
    else if q.own.isSome then some true
    else none

/-- A lifeline descriptor before it in the ring has not started. -/
def State.llUnstarted (s : State) (o : Op) : Bool := s.earlier o fun q => q.ring = o.ring && q.ll && !q.ran && q.own.isNone

/-- The operation is behind a lifeline, or would join one by what it reads. -/
def State.speculative (s : State) (o : Op) : Bool :=
  !o.behind.isEmpty || s.eng.hold.any fun h => match h.what with
    | .write a _ => anyMeet [(a, 1)] o.reads && ((s.op h.op).map fun q => decide (q.slot = o.slot)).getD false
    | _ => false

/-- Ring context words that the operation's completion makes dirty: its own ring's and its completion ring's. -/
def State.newDirty (s : State) (o : Op) : Nat := ([o.ring, s.cplOf o.ring].eraseDups.filter fun r => !(s.ring r).dirty).length

/-- Entries the operation would add to the hold buffer (R151). -/
def State.holdNeed (s : State) (o : Op) : Nat :=
  let w := (o.writes.map (·.2)).sum + (if o.opcode = 0x30 then o.len - 1 else 0)
  (if s.speculative o then w + 1 else if o.ll then w else 0) + s.newDirty o

/-- An operation that never runs behind a lifeline waits while an earlier one of its ring is about to join one, for it would be behind that too
(R148, R150). -/
def State.wouldJoin (s : State) (o : Op) : Bool :=
  resolvedOnly o.opcode && s.earlier o fun q => q.ring = o.ring && !q.ran && s.speculative q

/-- The operation may start but for the hold buffer. -/
def State.startable (s : State) (o : Op) : Bool :=
  !o.ran && !o.stuck && s.domOn 2 && s.orderOk o && !s.hazard o && !s.slotWaits o.slot && !s.llUnstarted o && !s.wouldJoin o &&
    (!s.speculative o || (flag s.eng.ctl 0 && !resolvedOnly o.opcode)) && (!o.dep || (s.llOkFor o).isSome)

/-- Room for what it would hold (R151). -/
def State.holdRoom (s : State) (o : Op) : Bool := s.holdNeed o = 0 || s.holdUsed + s.holdNeed o ≤ 64

/-- `ENG_STAT.STALL_HOLD`: an operation waits for the hold buffer. -/
def State.stallHold (s : State) : Bool := s.eng.ops.any fun o => s.startable o && !s.holdRoom o

/-- A free lifeline slot. -/
def State.freeLine (s : State) : Option (Fin 4) := (List.finRange 4).find? fun k => s.eng.lls[k].isNone

/-- Open a lifeline; it is nested in those its source is behind (R149). -/
def openLine (k : Fin 4) (src : LlSource) (r : Fin 512) (parents : List (Fin 4)) (s : State) : State :=
  s.modEng fun e => { e with lls := e.lls.set k.val (some { src := src, ring := r, parents := parents }) k.isLt }

/-- The operation with an LL descriptor starts: it opens its lifeline, which later operations of its ring are behind (R149, R150). -/
def startLine (o : Op) (s : State) : State :=
  if o.ll && o.own.isNone && s.startable o && s.holdRoom o then
    match s.freeLine with
    | none => s
    | some k =>
      (openLine k (.desc o.id) o.ring o.behind s).modEng fun e => { e with ops := e.ops.map fun q =>
        if q.id = o.id then { q with own := some k }
        else if q.ring = o.ring && o.id < q.id && !q.ran then { q with behind := joinLines q.behind [k] } else q }
  else s

/-- Every lifeline descriptor that can start does, in fetch order. -/
def startLines (s : State) : State := s.eng.ops.foldl (fun s o => match s.op o.id with
  | some o => startLine o s
  | none => s) s

/-! ## Discarding (R134; log entry 27) -/

/-- Words of the descriptor at an index, as its word 0 reads; 1 where that does not read. -/
def State.lenAt (s : State) (r : Fin 512) (i : BitVec 16) : Nat :=
  match (s.windowKey (slotOfRing r) ((s.ring r).ctx.word i)).map s.deliver with
  | some (.ok d _) => field d 9 8 + 1
  | _ => 1

/-- Word 0 of the descriptor at an index, 0 where it does not read. -/
def State.headAt (s : State) (r : Fin 512) (i : BitVec 16) : Word128 :=
  match (s.windowKey (slotOfRing r) ((s.ring r).ctx.word i)).map s.deliver with
  | some (.ok d _) => d
  | _ => 0

/-- The descriptors that a restored completed mask speaks of, from the k-th after CONS on, with `left` words to PROD. -/
def State.maskWalk (s : State) (r : Fin 512) : Nat → Nat → BitVec 16 → Nat → List (BitVec 16 × Nat × Bool)
  | 0, _, _, _ => []
  | f + 1, k, i, left =>
    if left = 0 || (s.ring r).ctx.mask >>> k = 0 then []
    else
      let len := min (s.lenAt r i) left
      (i, len, (s.ring r).ctx.mask.getLsbD k) :: s.maskWalk r f (k + 1) (i + BitVec.ofNat 16 len) (left - len)

/-- The descriptors completed before a stop, as the restored mask has them, join those the ring has fetched (R131). -/
def unmask (r : Fin 512) (s : State) : State :=
  let c := (s.ring r).ctx
  if (s.ring r).fetched.isEmpty then s.modRing r fun q => { q with fetched := s.maskWalk r 32 0 c.cons (c.prod - c.cons).toNat } else s

/-- Completion slots of a ring reserved by operations whose record is not yet issued (R143). -/
def State.reserved (s : State) (cr : Fin 512) : Nat :=
  s.eng.ops.countP fun o => s.cplOf o.ring = cr && (!o.ran || !o.behind.isEmpty)

/-- A completion slot is free: none while CPL names no enabled completion ring (R143; log entry 26). -/
def State.cplFree (s : State) (r : Fin 512) : Bool :=
  let cr := s.cplOf r
  let c := (s.ring cr).ctx
  c.en && c.cpl? && (c.prod - c.cons).toNat + s.reserved cr < c.slots

/-- Complete one descriptor DISCARDED, without effect (R134). -/
def discardOne (r : Fin 512) (i : BitVec 16) (w : Word128) (len : Nat) (s : State) : State :=
  let o : Op := { id := s.eng.nextOp, ring := r, index := i, desc := [w], behind := [], own := none, ran := true, stuck := false,
                  readOf := [], pin := none }
  let s := s.modRing r fun q => { q with
    fetched := if q.fetched.any fun d => d.1 = i then q.fetched else q.fetched ++ [(i, len, false)] }
  let s := s.modEng fun e => { e with ops := e.ops ++ [o], nextOp := e.nextOp + 1 }
  issueRecord o.id r (o.record (.of stDiscarded)) s

/-- Where a descriptor of the walk from CONS stands: length, completed, in flight. -/
structure Walked where
  len  : Nat
  done : Bool
  live : Bool
  deriving DecidableEq, Repr

def State.walkAt (s : State) (r : Fin 512) (i : BitVec 16) (left : Nat) : Walked :=
  let live := s.eng.ops.any fun o => o.ring = r && o.index = i
  match (s.ring r).fetched.find? fun d => d.1 = i with
  | some d => { len := min d.2.1 left, done := d.2.2, live := live }
  | none => { len := min (s.lenAt r i) left, done := false, live := live }

/-- Walk from CONS to a stop index, completing DISCARDED every descriptor that is neither completed nor in flight, while completion slots last.
The second component says whether the walk came to its end. -/
def discardGo (r : Fin 512) : Nat → BitVec 16 → Nat → State → State × Bool
  | 0, _, left, s => (s, left = 0)
  | f + 1, i, left, s =>
    if left = 0 then (s, true)
    else
      let x := s.walkAt r i left
      let next := i + BitVec.ofNat 16 x.len
      if x.done || x.live then discardGo r f next (left - x.len) s
      else if s.cplFree r then discardGo r f next (left - x.len) (discardOne r i (s.headAt r i) x.len s)
      else (s, false)

/-- Discard from CONS to an index; then fetch stands there and the ring runs.  Where completion slots are wanting, the rest waits for them. -/
def discardTo (r : Fin 512) (stop : BitVec 16) (s : State) : State :=
  let s := unmask r s
  let c := (s.ring r).ctx
  let g := discardGo r 4096 c.cons (stop - c.cons).toNat s
  let s := g.1.modRing r settleRing
  let others := s.eng.discards.filter fun d => !decide (d.1 = r)
  let s := s.modEng fun e => { e with discards := if g.2 then others else others ++ [(r, stop)] }
  let s := if g.2 then s.modRing r fun q => { q with halted := false, held := false, fetch := stop } else s
  if s.ringIdle r then queueCtx r s else s

/-- Walks that wait for completion slots go on when there is one. -/
def goOnDiscarding (s : State) : State :=
  s.eng.discards.foldl (fun s d => if s.cplFree d.1 then discardTo d.1 d.2 s else s) s

/-! ## After anything the engine does -/

/-- Dirty context words are written until an entry of the hold buffer is free: the count never passes 64, and 64 contexts alone do not end all
fetching (R151; DESIGN CHOICE, log entry 173). -/
def trimHold : Nat → State → State
  | 0, s => s
  | f + 1, s =>
    if s.holdUsed < 64 then s
    else match (List.finRange 512).find? fun r => (s.ring r).dirty with
      | none => s
      | some r => trimHold f (drainWait (queueCtx r s))

/-- After anything the engine does: accept what waits, go on discarding, keep within the hold buffer, start lifelines. -/
def engSweep (s : State) : State := startLines (trimHold 512 (goOnDiscarding (drainWait s)))

/-- The operation that a command runs: in flight with this opcode, startable, its lifeline open if it has one. -/
def State.runnable (s : State) (id opc : Nat) : Option Op :=
  match s.op id with
  | none => none
  | some o =>
    if o.opcode = opc && s.startable o && s.holdRoom o && (!o.ll || o.own.isSome) then some o else none

/-- Every word an operation names lies in its slot's partition. -/
def State.namesOk (s : State) (o : Op) : Bool := (o.reads ++ o.writes).all fun r => s.inPartition o.slot r.1 r.2

/-- What a failed check holds and answers (R37, R56): path, index. -/
def isolated (o : Op) (path idx : Nat) (s : State) : State :=
  finish o.id (.of stIsolation) [.violation (BitVec.ofNat 4 path) (BitVec.ofNat 16 idx)] none s

/-- Run an operation: LIFELINE_FAIL for a DEP operation whose lifeline failed, the partition check of every word, then its own work.  R154 and R137
give no order of the two checks; the model makes that of LL_OK first (DESIGN CHOICE, log entry 177). -/
def runOp (id opc : Nat) (work : Op → State → State) (s : State) : State :=
  match s.runnable id opc with
  | none => s
  | some o =>
    engSweep <|
      if o.dep && s.llOkFor o = some false then finish o.id (.of stLifeline) [] none s
      else if !s.namesOk o then isolated o 2 o.ring.val s
      else work o s

/-- A bad word behind a lifeline stops the operation until it is resolved (R157); otherwise it completes UNCORRECTABLE (R156). -/
def uncorrectable (o : Op) (done : List Held) (a word kind : Nat) (s : State) : State :=
  match s.op o.id with
  | none => s
  | some q =>
    if !q.behind.isEmpty then s.modOp o.id fun q => { q with stuck := true }
    else if q.own.isSome then finish o.id (.of stUnc) [] (some (word, kind)) s
    else finish o.id { Answer.of stUnc with a := BitVec.ofNat 32 a } done (some (word, kind)) s

/-! ## Fetching (R145, R146, R160) -/

/-- The slot is suspended. -/
def State.suspended (s : State) (n : Fin 8) : Bool := s.tenants[n].st = .suspended

/-- Fetch of the slot is stopped: an ownership change of it runs (R46), or a SLOT_FENCE operation of it is not resolved (R146). -/
def State.fetchStopped (s : State) (n : Fin 8) : Bool :=
  (match s.lc.run with
    | some c => c.setting = 3 && c.target = n
    | none => false) || s.eng.ops.any fun o => o.slot = n && o.order = 3 && !o.resolved

/-- Fetch point after descriptors already in flight or completed (R153): they are passed over. -/
def skipFetched (r : Ring) (live : BitVec 16 → Bool) : Nat → BitVec 16 → BitVec 16
  | 0, i => i
  | n + 1, i =>
    match r.fetched.find? fun d => d.1 = i with
    | some d => if d.2.2 || live i then skipFetched r live n (i + BitVec.ofNat 16 d.2.1) else i
    | none => i

def State.fetchAt (s : State) (r : Fin 512) : BitVec 16 :=
  skipFetched (s.ring r) (fun i => s.eng.ops.any fun o => o.ring = r && o.index = i) ((s.ring r).fetched.length + 1) (s.ring r).fetch

/-- The lifelines a descriptor fetched from the ring now is behind (R150). -/
def State.behindFor (s : State) (r : Fin 512) : List (Fin 4) :=
  let fromOps := s.eng.ops.foldl (fun l o => if o.ring = r then joinLines (joinLines l o.behind) o.own.toList else l) []
  (List.finRange 4).foldl (fun l k => match s.eng.lls[k] with
    | some x => (match x.src with
      | .eva _ => if x.ring = r then joinLines (joinLines l [k]) x.parents else l
      | .desc _ => l)
    | none => l) fromOps

/-- Window word j of the descriptor at an index of a ring. -/
def State.descWord (s : State) (r : Fin 512) (i : BitVec 16) (j : Nat) : Nat := (s.ring r).ctx.word (i + BitVec.ofNat 16 j)

/-- Words of the descriptor at an index, as a read finds them, held values first: word 0 gives the length (R151). -/
def State.descAt (s : State) (r : Fin 512) (i : BitVec 16) : List Delivered :=
  let n := slotOfRing r
  let word (j : Nat) : Delivered := match s.heldWord n (s.descWord r i j) with
    | some (d, _) => .ok d false
    | none => match s.windowKey n (s.descWord r i j) with
      | some k => s.deliver k
      | none => .bad .check
  match word 0 with
  | .bad c => [.bad c]
  | .ok d c => .ok d c :: (List.range (field d 9 8)).map fun j => word (j + 1)

def Delivered.word? : Delivered → Option Word128
  | .ok d _ => some d
  | .bad _ => none

/-- A word of the descriptor is held under a lifeline. -/
def State.descHeld (s : State) (r : Fin 512) (i : BitVec 16) (len : Nat) : Bool :=
  (List.range len).any fun j => (s.heldWord (slotOfRing r) (s.descWord r i j)).isSome

/-- An operation of the slot in flight is still to write a word of the descriptor: fetch waits for it (R147). -/
def State.descAwaits (s : State) (r : Fin 512) (i : BitVec 16) (len : Nat) : Bool :=
  s.eng.ops.any fun o => o.slot = slotOfRing r && !o.ran && (List.range len).any fun j => anyMeet o.writes [(s.descWord r i j, 1)]

/-- The descriptor the ring would deliver now, when nothing but its turn is wanting: its index and its words. -/
def State.fetchable (s : State) (r : Fin 512) : Option (BitVec 16 × List Delivered) :=
  let q := s.ring r
  let n := slotOfRing r
  if q.ctx.en && !q.ctx.cpl? && !q.halted && !s.fetchStopped n && s.cplFree r then
    let i := s.fetchAt r
    let avail := (q.ctx.prod - i).toNat
    if avail = 0 || q.ctx.slots < avail then none
    else
      let d := s.descAt r i
      let bad := d.any fun w => w.word?.isNone
      let opc := ((d.headD (.bad .check)).word?.map fun w => field w 7 0).getD 0
      if avail < d.length then none
      else if s.suspended n && opc ≠ opEvaluate then none
      else if bad && (!(s.behindFor r).isEmpty || s.descHeld r i d.length) then none
      else if s.descAwaits r i d.length then none
      else some (i, d)
  else none

/-- The rings in turn, from the one after the last that was served. -/
def ringOrder (rr : Fin 512) : List (Fin 512) := (List.finRange 512).map fun i => finOf 512 (rr.val + i.val)

/-- The engine is awake and has room: below MAX_INFLIGHT, and the hold buffer not full (R145, R162). -/
def State.engReady (s : State) : Bool :=
  s.running && s.domOn 2 && s.eng.ops.length < field s.eng.ctl 13 8 && s.holdUsed + s.engWaiting < 64

/-- The ring to serve: one descriptor a turn; a slot with 16 or more in flight is passed over while another slot waits (R145). -/
def State.chooseRing (s : State) : Option (Fin 512 × BitVec 16 × List Delivered) :=
  let ready := (ringOrder s.eng.rr).filterMap fun r => (s.fetchable r).map fun d => (r, d.1, d.2)
  let waiting := ((ready.map fun x => slotOfRing x.1).eraseDups).length
  ready.find? fun x => !(2 ≤ waiting && 16 ≤ s.eng.ops.countP fun o => o.slot = slotOfRing x.1)

/-- Count the reads of a descriptor's words. -/
def countReads (r : Fin 512) (i : BitVec 16) (d : List Delivered) (s : State) : State :=
  State.each (List.range d.length) (fun j s =>
    if (s.heldWord (slotOfRing r) (s.descWord r i j)).isSome then s
    else match s.windowKey (slotOfRing r) (s.descWord r i j) with
      | some k => (demandRead k s).1
      | none => s) s

/-- A descriptor fetched from held words joins the lifelines they are held under (R150, R151). -/
def joinHeld (id : Nat) (r : Fin 512) (i : BitVec 16) (len : Nat) (s : State) : State :=
  State.each (List.range len) (fun j s =>
    match s.heldWord (slotOfRing r) (s.descWord r i j) with
    | some (_, p) => readHeld id p s
    | none => s) s

/-- The fetched descriptors of a ring with the one at index i, of this length: a refetched one keeps its place, and one that the host has
rewritten with another length ends what is known of those after it. -/
def noteFetched (i : BitVec 16) (len : Nat) (l : List (BitVec 16 × Nat × Bool)) : List (BitVec 16 × Nat × Bool) :=
  match l.find? fun d => d.1 = i with
  | some d => if d.2.1 = len then l else (l.takeWhile fun d => !decide (d.1 = i)) ++ [(i, len, false)]
  | none => l ++ [(i, len, false)]

/-- Enter a descriptor in flight. -/
def enterOp (r : Fin 512) (i : BitVec 16) (words : List Word128) (s : State) : State × Nat :=
  let o : Op :=
    { id := s.eng.nextOp, ring := r, index := i, desc := words, behind := s.behindFor r, own := none, ran := false, stuck := false
      readOf := [], pin := none }
  let s := s.modRing r fun q => { q with
    fetch := i + BitVec.ofNat 16 words.length, fetched := noteFetched i words.length q.fetched }
  (s.modEng fun e => { e with ops := e.ops ++ [o], nextOp := e.nextOp + 1 }, o.id)

/-- First bad word of a descriptor. -/
def badIndex (d : List Delivered) : Option Nat := (findFrom (fun w : Delivered => w.word?.isNone) 0 d).map (·.1)

/-- Fetch one descriptor: a bad word completes it UNCORRECTABLE and halts its ring (R156); a descriptor outside R136 completes BAD_DESC; an
EVALUATE of a suspended slot completes SUSPENDED with verdict DENY (R160, R340). -/
def fetchRing (r : Fin 512) (i : BitVec 16) (d : List Delivered) (s : State) : State :=
  let s := s.modEng fun e => { e with rr := finOf 512 (r.val + 1) }
  let s := countReads r i d s
  match badIndex d with
  | some j =>
    let w := (s.ring r).ctx.word (i + BitVec.ofNat 16 j)
    let (s, id) := enterOp r i (List.replicate d.length 0) s
    finish id (.of stUnc) [] (some (w, 0)) s
  | none =>
    let (s, id) := enterOp r i (d.filterMap Delivered.word?) s
    let s := joinHeld id r i d.length s
    match s.op id with
    | none => s
    | some o =>
      let deny := if o.opcode = opEvaluate then 2 else 0
      if o.bad then finish id { Answer.of stBadDesc with extra := deny } [] none s
      else if s.suspended o.slot && o.opcode = opEvaluate then finish id { Answer.of stSuspended with extra := 2 } [] none s
      else s

def descriptorFetch (s : State) : State :=
  if s.engReady then
    match s.chooseRing with
    | none => s
    | some (r, i, d) => engSweep (fetchRing r i d s)
  else s

def execDescriptorFetch (s : State) : Host.Outcome State Fault Refusal := .next (descriptorFetch s)

/-- `ENG_FROG_CLR.GO`. -/
def engFrogClr (n : Fin 8) (s : State) : State := s.modTen n fun t => { t with frogOps := 0, frogLines := 0 }

def execEngFrogClr (p : Port) (s : State) : Host.Outcome State Fault Refusal := .next (atWindow p 0x714 engFrogClr s)

end Sys2Proof.Machine
end

