-- ==== Sys2Proof/Machine/Rings.lean ====
section
/-! DEFINITION. Doorbells and ring configuration (R93, R130 to R134, R163). -/

namespace Sys2Proof.Machine

/-! ## Doorbells -/

/-- Port address of a ring's doorbell: DOORBELL+0x10 × ring on port A, the ring number on port B (Tables PRT-2, PRT-7). -/
def doorbellAddr (p : Port) (r : Fin 512) : Nat :=
  match p with
  | .a => 0x50000000 + 16 * r.val
  | .b => r.val

/-- A doorbell write from port p: a ring the open slot does not own fails path 0x1 (R93). -/
def atRing (p : Port) (r : Fin 512) (act : State → State) (s : State) : State :=
  if s.portWorks then
    match s.reach p 0x400 with
    | .slot n => if slotOfRing r = n then act s else violate n 1 r.val s
    | .closed => malformed p malClosed (doorbellAddr p r) (s.clocksOf p 4) s
    | _ => s
  else s

/-- POST (R133). -/
def post (r : Fin 512) (i : BitVec 16) (s : State) : State :=
  let c := (s.ring r).ctx
  if c.cpl? then
    let s := modCtx r (fun c => { c with cons := i }) s
    engSweep (if c.prod = i then queueCtx r s else s)
  else if (i - c.cons).toNat ≤ c.slots && (i - c.prod).toNat ≤ c.slots then
    if i = c.prod then s else engSweep (modCtx r (fun c => { c with prod := i }) s)
  else haltRing r causeDoorbell none s

def execDoorbellPost (p : Port) (ring : Fin 512) (index : BitVec 16) (s : State) : Host.Outcome State Fault Refusal :=
  .next (atRing p ring (post ring index) s)

/-- HALT of a submit ring (R134).  The manual does not say what HALT does to a ring that is HALTED or DISABLED already: the model leaves it, its cause
with it (DESIGN CHOICE, log entry 178). -/
def haltDoorbell (r : Fin 512) (s : State) : State :=
  if (s.ring r).ctx.cpl? || !(s.ring r).ctx.en || (s.ring r).halted then s else haltRing r causeHost none s

def execDoorbellHalt (p : Port) (ring : Fin 512) (s : State) : Host.Outcome State Fault Refusal :=
  .next (atRing p ring (haltDoorbell ring) s)

/-- The doorbell acts only on a HALTED submit ring. -/
def State.haltedSubmit (s : State) (r : Fin 512) : Bool := !(s.ring r).ctx.cpl? && (s.ring r).halted

/-- DISCARD (R134). -/
def discard (r : Fin 512) (s : State) : State := if s.haltedSubmit r then engSweep (discardTo r (s.ring r).ctx.prod s) else s

def execDoorbellDiscard (p : Port) (ring : Fin 512) (s : State) : Host.Outcome State Fault Refusal :=
  .next (atRing p ring (discard ring) s)

/-- RESUME: INDEX between CONS and PROD, else ignored (R134). -/
def resume (r : Fin 512) (i : BitVec 16) (s : State) : State :=
  let c := (s.ring r).ctx
  if s.haltedSubmit r && decide ((i - c.cons).toNat ≤ (c.prod - c.cons).toNat) then engSweep (discardTo r i s) else s

def execDoorbellResume (p : Port) (ring : Fin 512) (index : BitVec 16) (s : State) : Host.Outcome State Fault Refusal :=
  .next (atRing p ring (resume ring index) s)

/-- A doorbell value at a ring (Table RNG-4): a reserved CMD has no effect (R132). -/
def doorbell (r : Fin 512) (v : Word32) (s : State) : State :=
  let i : BitVec 16 := v.setWidth 16
  match field v 19 16 with
  | 0 => post r i s
  | 1 => resume r i s
  | 2 => discard r s
  | 3 => haltDoorbell r s
  | _ => s

/-! ## Ring configuration (R130, Table RNG-2) -/

/-- The configuration fields of a written value; a reserved SIZE leaves the field as it was (R13). -/
def cfgOf (v : Word32) (c : RingCtx) : RingCtx :=
  let size := field v 21 18
  { c with
    base := field v 17 0, size := if 4 ≤ size && size ≤ 12 then size else c.size, cpl? := flag v 22, cpl := finOf 64 (field v 28 23) }

/-- The whole ring body lies in the partition, and SIZE is 4 to 12. -/
def State.cfgOk (s : State) (n : Fin 8) (c : RingCtx) : Bool := 4 ≤ c.size && c.size ≤ 12 && s.inPartition n c.base c.slots

/-- A write of `RING_CFG_j` from slot n: while EN is 1 only EN may change; EN becomes 1 only for a valid configuration.  A ring that is disabled is
HALTED no longer; one that cast-on halted and nothing has resumed is HALTED again once it is enabled, for none of its descriptors is executed
without a RESUME (R130, R158; log entry 179). -/
def ringCfg (n : Fin 8) (j : Fin 64) (v : Word32) (s : State) : State :=
  let r := ringNo n j
  let old := (s.ring r).ctx
  let en := flag v 31
  if old.en then
    if en then s
    else engSweep (queueCtx r ((modCtx r (fun c => { c with en := false }) s).modRing r fun q => { q with halted := false }))
  else
    let c := cfgOf v old
    let ok := en && s.cfgOk n c
    let s := s.modRing r fun q => { q with
      ctx := { c with en := ok }, dirty := q.dirty || decide ({ c with en := ok } ≠ old)
      halted := if ok then q.held && !c.cpl? else q.halted
      cause := if ok then (if q.held && !c.cpl? then q.cause else 0) else if en then BitVec.ofNat 4 causeBadCfg else q.cause }
    engSweep (queueCtx r (s.modEng fun e => { e with discards := e.discards.filter fun d => !decide (d.1 = r) }))

def execRingCfgWrite (p : Port) (j : Fin 64) (val : Word32) (s : State) : Host.Outcome State Fault Refusal :=
  .next (atWindow p (0x400 + 8 * j.val) (fun n => ringCfg n j val) s)

/-- `RING_STAT_j.STATE` (Table RNG-3): DISABLED, IDLE, ACTIVE, CPL_WAIT, HALTED.  The manual gives the states of a ring that is fetched from; an
enabled completion ring reads IDLE while every record in it has been taken, else ACTIVE (R130; DESIGN CHOICE, log entry 180). -/
def State.ringState (s : State) (r : Fin 512) : Nat :=
  let q := s.ring r
  let busy := s.eng.ops.any fun o => o.ring = r
  if q.halted then 4
  else if !q.ctx.en then (if busy then 2 else 0)
  else if q.ctx.cpl? then (if q.ctx.cons = q.ctx.prod then 1 else 2)
  else if q.ctx.cons = q.ctx.prod && !busy then 1
  else if q.fetch ≠ q.ctx.prod && !s.cplFree r then 3
  else 2

/-- `RING_STAT_j`. -/
def State.ringStat (s : State) (r : Fin 512) : Word32 :=
  let q := s.ring r
  orAll [at_ 0 q.ctx.cons.toNat, at_ 16 (s.ringState r), at_ 20 q.cause.toNat,
    at_ 24 (s.eng.ops.countP fun o => o.ring = r), bitAt 30 q.ctx.llOk]

/-- `RING_IDX_j`. -/
def State.ringIdx (s : State) (r : Fin 512) : Word32 :=
  orAll [at_ 0 (s.ring r).ctx.prod.toNat, at_ 16 (s.ring r).ctx.haltAt.toNat]

/-- `RING_CFG_j` as a register. -/
def RingCtx.cfgReg (c : RingCtx) : Word32 :=
  orAll [at_ 0 c.base, at_ 18 c.size, bitAt 22 c.cpl?, at_ 23 c.cpl.val, bitAt 31 c.en]

end Sys2Proof.Machine
end

