-- ==== Sys2Proof/Machine/EngineOps.lean ====
section
/-! DEFINITION. The engine's operations on words, keys, skeins and limited changes (R38 to R40, R136 to R141, R174 to R178, R183, R409). -/

namespace Sys2Proof.Machine

/-! ## Words -/

def ok1 : Answer := .of stOk

def nopWork (o : Op) (s : State) : State := finish o.id ok1 [] none s

def execNop (id : Nat) (s : State) : Host.Outcome State Fault Refusal := .next (runOp id 0x01 nopWork s)

def writeImmWork (o : Op) (s : State) : State := finish o.id ok1 [.write o.addrA (o.w 1)] none s

def execWriteImm (id : Nat) (s : State) : Host.Outcome State Fault Refusal := .next (runOp id 0x02 writeImmWork s)

/-- Word writes from an address on. -/
def writesFrom (addr : Nat) : List Word128 → List Held
  | [] => []
  | d :: ds => .write addr d :: writesFrom (addr + 1) ds

/-- Go on with words read, or with the bad one: `kind` of Table RNG-10. -/
def withReads (o : Op) (addr n kind : Nat) (f : List Word128 → State → State) (s : State) : State :=
  let r := opReads o.id o.slot addr n s
  match r.2.2 with
  | none => f r.2.1 r.1
  | some bad => uncorrectable o [] 0 bad kind r.1

/-- COPY: words before a bad one are written, and counted in RESULT_A (R156). -/
def copyWork (o : Op) (s : State) : State :=
  let r := opReads o.id o.slot o.addrA o.count s
  let out := writesFrom o.addrB r.2.1
  match r.2.2 with
  | none => finish o.id ok1 out none r.1
  | some bad => uncorrectable o out r.2.1.length bad 1 r.1

def execCopy (id : Nat) (s : State) : Host.Outcome State Fault Refusal := .next (runOp id 0x03 copyWork s)

def fillWork (o : Op) (s : State) : State := finish o.id ok1 (writesFrom o.addrA (List.replicate o.count (o.w 1))) none s

def execFill (id : Nat) (s : State) : Host.Outcome State Fault Refusal := .next (runOp id 0x04 fillWork s)

def okOr (b : Bool) (no : Nat) : Nat := if b then stOk else no

def compareWork (o : Op) (s : State) : State :=
  withReads o o.addrA 1 1 (fun ws s =>
    finish o.id (.of (okOr (ws.headD 0 &&& o.w 2 = o.w 1 &&& o.w 2) stMismatch)) [] none s) s

def execCompare (id : Nat) (s : State) : Host.Outcome State Fault Refusal := .next (runOp id 0x05 compareWork s)

def casWork (o : Op) (s : State) : State :=
  withReads o o.addrA 1 2 (fun ws s =>
    let found := ws.headD 0
    let same := found = o.w 1
    finish o.id { Answer.of (okOr same stMismatch) with a := found.setWidth 32 } (if same then [.write o.addrA (o.w 2)] else []) none s) s

def execCas (id : Nat) (s : State) : Host.Outcome State Fault Refusal := .next (runOp id 0x06 casWork s)

/-- A 32-bit lane plus a signed addend: wrapping, or clamped to the unsigned lane; the second component says that it was clamped. -/
def addLane (old addend : Word32) (sat : Bool) : Word32 × Bool :=
  let t := (old.toNat : Int) + addend.toInt
  if !sat then (BitVec.ofInt 32 t, false)
  else if t < 0 then (0, true)
  else if 0xFFFFFFFF < t then (0xFFFFFFFF, true)
  else (BitVec.ofInt 32 t, false)

def addWork (o : Op) (s : State) : State :=
  withReads o o.addrA 1 2 (fun ws s =>
    let lane := field (o.w 0) 65 64
    let old := regOfWord (ws.headD 0) lane
    let r := addLane old ((o.w 0 >>> 96).setWidth 32) (flag (o.w 0) 66)
    finish o.id { Answer.of stOk with a := old, extra := if r.2 then 1 else 0 }
      [.write o.addrA (setRegOfWord (ws.headD 0) lane r.1)] none s) s

def execAdd (id : Nat) (s : State) : Host.Outcome State Fault Refusal := .next (runOp id 0x07 addWork s)

/-! ## Keys in use (R140) -/

def useSign : Byte := 3
def useStorage : Byte := 4

/-- The slot's key KEY, when its use and state serve: decrypt and verify with ACTIVE or RETIRED, encrypt with ACTIVE alone. -/
def State.useKey (s : State) (n : Fin 8) (k : Nat) (use : Byte) (seal_ : Bool) : Option Word128 :=
  let key := s.keys[keyNo n k]
  if key.use = use && (key.st = .active || (!seal_ && key.st = .retired)) then some key.key else none

def cmacWork (o : Op) (s : State) : State :=
  match s.useKey o.slot o.keySel useSign false with
  | none => finish o.id (.of stKeyState) [] none s
  | some k => withReads o o.addrB o.count 1 (fun ws s =>
      finish o.id (.of (okOr (cmac64 k (ws.flatMap bytesOf) = (o.w 1).setWidth 64) stAuthFail)) [] none s) s

def execCmacCheck (id : Nat) (s : State) : Host.Outcome State Fault Refusal := .next (runOp id 0x10 cmacWork s)

/-- The output bytes over the words at DST, bytes past the output kept (log entry 24). -/
def storeBytes (o : Op) (bytes : List Byte) (s : State) : State :=
  let n := wordsFor bytes.length
  let full := bytes.length / 16
  let out (ws : List Word128) (s : State) : State := finish o.id ok1 (writesFrom o.addrC ws) none s
  if full = n then out (wordsOf n bytes) s
  else withReads o (o.addrC + full) 1 2 (fun ws s =>
    let tail := bytes.drop (16 * full)
    out (wordsOf full bytes ++ [ofBytesLE 128 (overlay (bytesOf (ws.headD 0)) 0 tail)]) s) s

/-- CCM_OPEN: DST is written only after the MIC verifies. -/
def ccmOpenWork (o : Op) (s : State) : State :=
  match s.useKey o.slot o.keySel useStorage false with
  | none => finish o.id (.of stKeyState) [] none s
  | some k =>
    let m := o.micLen
    withReads o o.addrB (wordsFor (o.aadLen + o.payLen + m)) 1 (fun ws s =>
      let bytes := ws.flatMap bytesOf
      let aad := bytes.take o.aadLen
      let plain := ccmCrypt k o.nonce ((bytes.drop o.aadLen).take o.payLen)
      let mic := (bytes.drop (o.aadLen + o.payLen)).take m
      if ccmTag k o.nonce aad plain m = mic then storeBytes o plain s else finish o.id (.of stAuthFail) [] none s) s

def execCcmOpen (id : Nat) (s : State) : Host.Outcome State Fault Refusal := .next (runOp id 0x11 ccmOpenWork s)

/-- CCM_SEAL: DST receives the ciphertext, then the MIC. -/
def ccmSealWork (o : Op) (s : State) : State :=
  match s.useKey o.slot o.keySel useStorage true with
  | none => finish o.id (.of stKeyState) [] none s
  | some k =>
    withReads o o.addrB (wordsFor (o.aadLen + o.payLen)) 1 (fun ws s =>
      let bytes := ws.flatMap bytesOf
      let plain := (bytes.drop o.aadLen).take o.payLen
      storeBytes o (ccmCrypt k o.nonce plain ++ ccmTag k o.nonce (bytes.take o.aadLen) plain o.micLen) s) s

def execCcmSeal (id : Nat) (s : State) : Host.Outcome State Fault Refusal := .next (runOp id 0x12 ccmSealWork s)

/-! ## Skeins (R175, R176, R178, R183) -/

/-- SKEIN_PUSH: all or nothing; behind a lifeline the push is held and checked when it commits. -/
def skeinPushWork (o : Op) (s : State) : State := finish o.id ok1 [.push o.skein (o.desc.drop 1)] none s

def execSkeinPush (id : Nat) (s : State) : Host.Outcome State Fault Refusal := .next (runOp id 0x30 skeinPushWork s)

/-- Pops for an engine operation: the items moved with their lanes, and the store word of a bad item. -/
structure Pops where
  st    : State
  items : List Word128
  lanes : List Nat
  bad   : Option Nat

def popGo (n : Fin 8) (sk : BitVec 16) : Nat → Pops → Pops
  | 0, r => r
  | m + 1, r =>
    match popOne n sk false r.st with
    | (s, .item w, l) => popGo n sk m { r with st := s, items := r.items ++ [w], lanes := r.lanes ++ l.toList }
    | (s, .bad _ w _ _, l) => { r with st := s, lanes := r.lanes ++ l.toList, bad := some w }
    | (s, .empty, _) => { r with st := s }

/-- SKEIN_POP of a skein of the slot: items to DST until the first empty read; a bad item is consumed and ends it.  EXTRA holds the code of
Table SKN-5, ISOLATION too (R176). -/
def skeinPopWork (o : Op) (s : State) : State :=
  if s.skeinOwner o.skein ≠ some o.slot then
    finish o.id { Answer.of stIsolation with extra := sknIsolation } [.violation 4 (BitVec.ofNat 16 (blockOf o.skein))] none s
  else if (s.skein o.skein).isNone then finish o.id { Answer.of stOk with extra := sknState } [] none s
  else
    let l := loadSkein o.skein s
    if !l.2 then finish o.id { Answer.of stSkein with extra := sknMismatch } [] none l.1
    else
      let r := popGo o.slot o.skein o.count { st := l.1, items := [], lanes := [], bad := none }
      let s := settlePops o.slot o.skein r.lanes r.st
      let out := writesFrom o.addrB r.items
      let a : Word32 := BitVec.ofNat 32 r.items.length
      match r.bad with
      | none => finish o.id { Answer.of stOk with a := a } out none s
      | some w => finish o.id { Answer.of stUnc with a := a } out (some (w, 1)) s

def execSkeinPop (id : Nat) (s : State) : Host.Outcome State Fault Refusal := .next (runOp id opSkeinPop skeinPopWork s)

/-! ## Key slots (R38 to R40, R138, R139) -/

def Op.keyIdx (o : Op) : Nat := field (o.w 0) 34 32
def Op.keySite (o : Op) : Bool := flag (o.w 0) 35

/-- Number of the key slot an operation names. -/
def Op.keyNo (o : Op) : Fin 36 := if o.keySite then siteKey o.keyIdx else Machine.keyNo o.slot o.keyIdx

/-- A KEY operation naming a site slot from a ring of another slot fails path 0x3 (R138). -/
def withKey (o : Op) (f : State → State) (s : State) : State :=
  if o.keySite && o.slot ≠ 0 then isolated o 3 (32 + o.keyIdx) s else f s

/-- A key slot changes: its pair is written, charged to the ring's owner. -/
def setKey (n : Fin 8) (k : Fin 36) (f : Key → Key) (s : State) : State := pairWrite 4 k.val n (fun s => s.modKey k f) s

/-- The load counter of a key slot changes: its pair is written (Table INT-9, class 0x5). -/
def setCtr (n : Fin 8) (k : Fin 36) (c : Word32) (s : State) : State :=
  pairWrite 5 k.val n (fun s => s.modKey k fun q => { q with ctr := c }) s

/-- Before a key of site slot 0 leaves, chains are keyed anew and heads written (R396, R409). -/
def beforeKChange (reason : Nat) (s : State) : State := writeHeads (if s.chainKey.2 then rekey reason s else s)

/-- After the first key has become ACTIVE in site slot 0: CHAIN_REKEY of reason 3. -/
def afterKArrives (before : Bool) (s : State) : State := if before then s else rekey 3 s

/-- The first failing check of a blob in the order of R139, or the key, its use and its counter. -/
def blobCheck (s : State) (o : Op) (b : List Byte) : Except Nat (Word128 × Byte × Word32) :=
  let k := s.keys[o.keyNo]
  let use := b.getD 19 0
  let ctr : Word32 := ofBytesLE 32 ((b.drop 20).take 4)
  if b.getD 16 0 ≠ BitVec.ofNat 8 o.slot.val || b.getD 17 0 ≠ BitVec.ofNat 8 o.keyIdx ||
      b.getD 18 0 ≠ (if o.keySite then 1 else 0) || (b.drop 24).any (· ≠ 0) ||
      (!o.keySite && (use = 0 || 6 < use.toNat)) then .error stAuthFail
  else if ctr ≤ k.ctr then .error stCounter
  else if k.st ≠ .blank || s.tenants[o.slot].st = .free || s.tenants[o.slot].st = .purging then .error stKeyState
  else .ok (ofBytesLE 128 (b.take 16), use, ctr)

/-- A key slot has a new key: a counter that was exhausted, or whose pair was lost, starts at 0 with it (R300, R313). -/
def newNetKey (k : Fin 36) (s : State) : State :=
  if s.mac.fcStop[k] || s.damaged 7 k.val then
    pairWrite 7 k.val (if k.val < 32 then finOf 8 (k.val / 4) else 0) (fun s => s.modMac fun m => { m with
      fc := upd m.fc k fun _ => 0, fcStored := upd m.fcStored k fun _ => 1024
      fcLow := upd m.fcLow k fun _ => false, fcStop := upd m.fcStop k fun _ => false }) s
  else s

/-- KEY_LOAD: the blob at BLOB, unwrapped under the transport key, fills a BLANK key slot as LOADED. -/
def keyLoadWork (o : Op) (s : State) : State :=
  withKey o (withReads o o.addrB 3 1 fun ws s =>
    match keyUnwrap s.fuses.transport ((ws.flatMap bytesOf).take 40) with
    | none => finish o.id (.of stAuthFail) [] none s
    | some b => match blobCheck s o b with
      | .error e => finish o.id (.of e) [] none s
      | .ok (key, use, ctr) =>
        finish o.id ok1 [] none (newNetKey o.keyNo
          (setKey o.slot o.keyNo (fun q => { q with st := .loaded, use := use, key := key }) (setCtr o.slot o.keyNo ctr s)))) s

def execKeyLoad (id : Nat) (s : State) : Host.Outcome State Fault Refusal := .next (runOp id 0x40 keyLoadWork s)

/-- Activate a tenant's key: another ACTIVE key of the same use retires in the same write (R39). -/
def activateTenant (n : Fin 8) (k : Nat) (s : State) : State :=
  let old := [0, 1, 2].filter fun j => j ≠ k && s.keys[keyNo n j].use = s.keys[keyNo n k].use && s.keys[keyNo n j].st = .active
  keysWrite (keyNo n k :: old.map (keyNo n)) n (fun s =>
    State.each old (fun j s => s.modKey (keyNo n j) fun q => { q with st := .retired }) (s.modKey (keyNo n k) fun q => { q with st := .active })) s

/-- Blank a key slot; its load counter stays (R38, R40). -/
def blankKey (q : Key) : Key := { q with st := .blank, use := 0, key := 0 }

/-- Move the key q of a site slot into another as ACTIVE, in one write; the load counters stay (R40). -/
def moveSite (dst src : Nat) (q : Key) (s : State) : State :=
  keysWrite [siteKey dst, siteKey src] 0
    (fun s => (s.modKey (siteKey dst) fun z => { q with st := .active, ctr := z.ctr }).modKey (siteKey src) blankKey) s

/-- Activate a site slot: 1 moves into 0, and 3 into 2, the key with its state and use and without its load counter (R40, R409). -/
def activateSite (k : Nat) (s : State) : State :=
  let before := s.chainKey.2
  let q := s.keys[siteKey k]
  if k = 0 then afterKArrives before (setKey 0 (siteKey 0) (fun q => { q with st := .active }) (writeHeads s))
  else if k = 1 then
    let s := beforeKChange 1 s
    afterKArrives before (moveSite 0 1 q s)
  else if k = 2 then setKey 0 (siteKey 2) (fun q => { q with st := .active }) s
  else
    newNetKey (siteKey 2) (moveSite 2 3 q s)

/-- The operation changes what site slot 0 holds: it waits until the recorder is ready for a change of K (R396; log entry 28). -/
def Op.changesK (o : Op) : Bool := o.keySite && o.keyIdx ≤ 1

def keyActivateWork (o : Op) (s : State) : State :=
  withKey o (fun s =>
    if s.keys[o.keyNo].st ≠ .loaded then finish o.id (.of stKeyState) [] none s
    else if o.changesK && !s.rekeyReady then s
    else finish o.id ok1 [] none (if o.keySite then activateSite o.keyIdx s else activateTenant o.slot o.keyIdx s)) s

def execKeyActivate (id : Nat) (s : State) : Host.Outcome State Fault Refusal := .next (runOp id 0x41 keyActivateWork s)

def keyRetireWork (o : Op) (s : State) : State :=
  withKey o (fun s =>
    if s.keys[o.keyNo].st ≠ .active then finish o.id (.of stKeyState) [] none s
    else finish o.id ok1 [] none (setKey o.slot o.keyNo (fun q => { q with st := .retired }) s)) s

def execKeyRetire (id : Nat) (s : State) : Host.Outcome State Fault Refusal := .next (runOp id 0x42 keyRetireWork s)

/-- KEY_DESTROY succeeds from any state; destroying the key in site slot 0 is a change of K, before which the heads are written (R396). -/
def keyDestroyWork (o : Op) (s : State) : State :=
  withKey o (fun s =>
    let k0 := o.keySite && o.keyIdx = 0
    if k0 && !s.rekeyReady then s
    else finish o.id ok1 [] none (setKey o.slot o.keyNo blankKey (if k0 then writeHeads s else s))) s

def execKeyDestroy (id : Nat) (s : State) : Host.Outcome State Fault Refusal := .next (runOp id 0x43 keyDestroyWork s)

/-! ## Limited changes (R141) -/

def Op.lcReq (o : Op) : LcReq :=
  { setting := (o.w 0 >>> 32).setWidth 4, target := finOf 8 (field (o.w 0) 42 40), lastAck := flag (o.w 0) 48
    value := o.w 1, code := (o.w 2).setWidth 64, op := some o.id }

/-- The completion of an LC_CHANGE with a reason: EXTRA, and the changes left in RESULT_A. -/
def lcAnswer (reason left : Nat) : Answer :=
  { status := okOr (reason = lcDone) stRefused, extra := reason, a := BitVec.ofNat 32 left, b := 0 }

/-- The operation's request is complete with this reason. -/
def finishLc (id : Nat) (reason : Nat) (s : State) : State :=
  match s.op id with
  | none => s
  | some o => finish id (lcAnswer reason (if settingOk o.lcReq.setting.toNat o.lcReq.target.val
      then s.tallyLeft o.lcReq.setting.toNat o.lcReq.target.val else s.lc.left.toNat)) [] none s

/-- The change is complete: START clears, its status and the claim's registers are settled, slot 0's ports are told, and the operation that asked for
it completes (R46, R50, R141). -/
def lcComplete (c : LcRun) (s : State) : State :=
  let s := setLcStatus lcDone c.setting.toNat c.target.val (s.modLc fun l => { l with run := none })
  let s := (zeroClaim c.claim.isSome s).irqSlot 0 irqSite
  match c.op with
  | some id => engSweep (finishLc id lcDone s)
  | none => engSweep s

/-- A burnt change is complete once its stitch is written (R46, Table TEN-10). -/
def lcSettle (s : State) : State :=
  match s.lc.run with
  | none => s
  | some c => if c.burnt? && (s.lcRecord c.setting.toNat c.target).stitched then lcComplete c s else s

/-- LC_CHANGE runs once; while its change runs it stays in flight. -/
def lcChangeWork (o : Op) (s : State) : State :=
  if (s.lc.run.map fun c => decide (c.op = some o.id)).getD false then s
  else if o.slot ≠ 0 then isolated o 7 o.ring.val s
  else
    let r := lcRequest o.lcReq s
    match r.2 with
    | some e => finishLc o.id e r.1
    | none => r.1

def execLcChange (id : Nat) (s : State) : Host.Outcome State Fault Refusal := .next (runOp id opLcChange lcChangeWork s)

end Sys2Proof.Machine
end

