-- ==== Sys2Proof/Machine/Skeins.lean ====
section
/-! DEFINITION. Skein commands: allocation, quotas, and the operations of `SKN_SEL` (R164 to R167, R173, R180, R187). -/

namespace Sys2Proof.Machine

/-! ## Allocation and quotas -/

/-- `SKN_ALLOC.GO` (Table SKN-2): grants a block no slot owns to a slot that is neither FREE nor PURGING. -/
def sknAlloc (block : Byte) (slot : Fin 8) (s : State) : State :=
  let s := s.modSkn fun k => { k with alBlock := block, alSlot := slot }
  let res (r : BitVec 3) (s : State) : State := s.modSkn fun k => { k with alRes := r }
  if block = 0 then res 2 s
  else if (lookup block.toNat s.skn.blocks).isSome then res 1 s
  else if !s.tenants[slot].owned then res 3 s
  else res 0 (sysPlain (blockIdx block.toNat) 0 (s.modSkn fun k => { k with blocks := store block.toNat (some slot) k.blocks }))

def execSknAlloc (p : Port) (block : Byte) (slot : Fin 8) (s : State) : Host.Outcome State Fault Refusal :=
  .next (atSlot0 p 0x800 (sknAlloc block slot) s)

def State.quotaSum (s : State) : Nat := (s.tenants.toList.map fun t => t.quota).sum

/-- `SKN_QUOTA_n.QUOTA` (R166). -/
def sknQuota_ (slot : Fin 8) (q : Nat) (s : State) : State :=
  if 3840 < s.quotaSum - s.tenants[slot].quota + q || q < s.tenants[slot].used then s
  else sysPlain (quotaIdx slot.val) 0 (s.modTen slot fun t => { t with quota := q })

def execSknQuotaWrite (p : Port) (slot : Fin 8) (quota : BitVec 12) (s : State) : Host.Outcome State Fault Refusal :=
  .next (atSlot0 p (0x810 + 4 * slot.val) (sknQuota_ slot quota.toNat) s)

/-! ## Operations of `SKN_SEL` (R167) -/

/-- Result of a skein operation of slot n. -/
def setSknRes (n : Fin 8) (r : Nat) (s : State) : State := s.modTen n fun t => { t with sknRes := BitVec.ofNat 4 r }

/-- A GO: SKEIN and OP are held as written; a skein in a block the slot does not own gives ISOLATION. -/
def sknGo (n : Fin 8) (sk : BitVec 16) (op : Nat) (act : State → State) (s : State) : State :=
  let s := s.modTen n fun t => { t with sknSel := sk, sknOp := BitVec.ofNat 4 op }
  if s.skeinOwner sk ≠ some n then setSknRes n sknIsolation (violate n 4 (blockOf sk) s) else act s

/-- A new lane context: both copies with HEAD and TAIL 0 (R165, R167). -/
def newLane (c0 c1 : Word32) (l : Nat) : LaneCtx :=
  { head := 0, tail := 0, pkts := 0, rlock := false, wopen := none, gen := 0, lane := l, armed := true, drain := false, cfg0 := c0, cfg1 := c1 }

/-- CAP, the store and IDLE_CODE as R167 asks. -/
def State.sknCfgOk (s : State) (n : Fin 8) (c0 : Word32) : Bool :=
  let cap := field c0 22 18
  let log := field c0 25 24
  let idle := field c0 30 28
  2 + log ≤ cap && cap ≤ 16 && s.inPartition n (field c0 17 0) (2 ^ cap) && (!flag c0 26 || (1 ≤ idle && idle ≤ 6))

/-- CONFIGURE: the checks STATE, BAD_CFG, QUOTA in that order (log entry 29). -/
def sknConfigure (n : Fin 8) (sk : BitVec 16) (s : State) : State :=
  let t := s.tenants[n]
  let lanes := 2 ^ field t.sknCfg0 25 24
  if (s.skein sk).isSome then setSknRes n sknState s
  else if !s.sknCfgOk n t.sknCfg0 then setSknRes n sknBadCfg s
  else if t.quota < t.used + lanes then setSknRes n sknQuota s
  else
    let s := s.modSkn fun k => { k with
      skeins := store sk.toNat (some { lanes := (List.range lanes).map (newLane t.sknCfg0 t.sknCfg1) }) k.skeins }
    let s := s.modTen n fun t => { t with used := t.used + lanes }
    setSknRes n sknOk (State.each (List.range lanes) (writePair sk) s)

def execConfigure (p : Port) (skein : BitVec 16) (s : State) : Host.Outcome State Fault Refusal :=
  .next (atWindow p 0x840 (fun n => sknGo n skein 1 (sknConfigure n skein)) s)

/-- An operation on a configured skein, its lane contexts loaded and checked first (R181, R187). -/
def withSkein (n : Fin 8) (sk : BitVec 16) (act : Skein → State → State) (s : State) : State :=
  if (s.skein sk).isNone then setSknRes n sknState s
  else
    let r := loadSkein sk s
    if !r.2 then setSknRes n sknMismatch r.1
    else match r.1.skein sk with
      | none => setSknRes n sknState r.1
      | some k => act k r.1

/-- UNCONFIGURE: every lane empty and none with WOPEN. -/
def sknUnconfigure (n : Fin 8) (sk : BitVec 16) (s : State) : State :=
  withSkein n sk (fun k s =>
    if k.lanes.any fun c => c.count ≠ 0 || c.wopen.isSome then setSknRes n sknNotEmpty s
    else setSknRes n sknOk (sysPlain (quotaIdx n.val) n (removeSkein sk s))) s

def execUnconfigure (p : Port) (skein : BitVec 16) (s : State) : Host.Outcome State Fault Refusal :=
  .next (atWindow p 0x840 (fun n => sknGo n skein 2 (sknUnconfigure n skein)) s)

/-- A FLUSH or DROP of slot n's skein has discarded the packet that the MAC had in service or was to go on with: an attempt on air or awaiting its
acknowledgement completes and ABANDONED counts it; any other service ends (R334). -/
def packetGone (n : Fin 8) (sk : BitVec 16) (s : State) : State :=
  let of (f : TxFrame) : Bool := (f.flow.map fun x => decide (x.1 = n)).getD false && f.skein = sk
  let s := s.modMac fun m => { m with flows := m.flows.map fun f => if (f.part.map of).getD false then { f with part := none } else f }
  match s.phy.tx with
  | none => s
  | some f =>
    if !of f || f.gone then s
    else if s.phy.txPhase = .onAir || s.phy.txPhase = .awaitAck then
      (s.modPhy fun p => { p with tx := some { f with gone := true } }).modTen n fun t => { t with abandoned := satInc t.abandoned }
    else releaseUnit .rftx ((s.modPhy fun p => { p with tx := none, txPhase := .idle, clear := false }).modMac fun m => { m with backoff := none })

def sknFlush (n : Fin 8) (sk : BitVec 16) (s : State) : State :=
  withSkein n sk (fun k s => setSknRes n sknOk (packetGone n sk (State.each (List.range k.lanes.length) (flushLane n sk) s))) s

def execFlush (p : Port) (skein : BitVec 16) (s : State) : Host.Outcome State Fault Refusal :=
  .next (atWindow p 0x840 (fun n => sknGo n skein 3 (sknFlush n skein)) s)

def sknDrop (n : Fin 8) (sk : BitVec 16) (s : State) : State :=
  withSkein n sk (fun k s => setSknRes n sknOk (packetGone n sk (State.each (List.range k.lanes.length) (dropLane n sk) s))) s

def execDrop (p : Port) (skein : BitVec 16) (s : State) : Host.Outcome State Fault Refusal :=
  .next (atWindow p 0x840 (fun n => sknGo n skein 4 (sknDrop n skein)) s)

/-- `SKN_OCC_l` of a lane. -/
def LaneCtx.occ (c : LaneCtx) : Word32 := orAll [at_ 0 c.count, bitAt 20 c.rlock, bitAt 21 c.wopen.isSome]

/-- QUERY: occupancy of every lane, and the configuration echoed; it changes no context. -/
def sknQuery (n : Fin 8) (sk : BitVec 16) (s : State) : State :=
  withSkein n sk (fun k s =>
    let lanes := k.lanes.length
    let get (l : Fin 8) : Option LaneCtx := if l.val < lanes then k.lanes[l.val]? else none
    setSknRes n sknOk (s.modTen n fun t => { t with
      sknOcc := Vector.ofFn fun l => match get l with
        | some c => c.occ
        | none => t.sknOcc[l]
      sknPkt := Vector.ofFn fun l => match get l with
        | some c => snap32 c.pkts
        | none => t.sknPkt[l]
      sknCfg0 := ((k.lanes[0]?).map fun c => c.cfg0).getD t.sknCfg0
      sknCfg1 := ((k.lanes[0]?).map fun c => c.cfg1).getD t.sknCfg1 })) s

def execQuery (p : Port) (skein : BitVec 16) (s : State) : Host.Outcome State Fault Refusal :=
  .next (atWindow p 0x840 (fun n => sknGo n skein 5 (sknQuery n skein)) s)

/-- The lane's cached context is dirty. -/
def State.laneDirty (s : State) (sk : BitVec 16) (l : Nat) : Bool := s.skn.cache.any fun x => x.key = laneKey sk l && x.dirty

/-- SYNC: every dirty lane context of the skein is written. -/
def sknSync (n : Fin 8) (sk : BitVec 16) (s : State) : State :=
  withSkein n sk (fun k s =>
    setSknRes n sknOk (State.each (List.range k.lanes.length) (fun l s => if s.laneDirty sk l then writePair sk l s else s) s)) s

def execSync (p : Port) (skein : BitVec 16) (s : State) : Host.Outcome State Fault Refusal :=
  .next (atWindow p 0x840 (fun n => sknGo n skein 6 (sknSync n skein)) s)

/-- GO with a reserved OP: held as written, BAD_OP, nothing else (R167).  An OP of Table SKN-2 is no such step. -/
def sknBadOpGo (n : Fin 8) (sk : BitVec 16) (op : BitVec 4) (s : State) : State :=
  if 1 ≤ op.toNat && op.toNat ≤ 6 then s
  else setSknRes n sknBadOp (s.modTen n fun t => { t with sknSel := sk, sknOp := op })

def execSknSelBadOp (p : Port) (skein : BitVec 16) (op : BitVec 4) (s : State) : Host.Outcome State Fault Refusal :=
  .next (atWindow p 0x840 (fun n => sknBadOpGo n skein op) s)

/-- `SKN_SEL` written with GO: the operation OP names. -/
def sknSelGo (n : Fin 8) (sk : BitVec 16) (op : Nat) (s : State) : State :=
  match op with
  | 1 => sknGo n sk 1 (sknConfigure n sk) s
  | 2 => sknGo n sk 2 (sknUnconfigure n sk) s
  | 3 => sknGo n sk 3 (sknFlush n sk) s
  | 4 => sknGo n sk 4 (sknDrop n sk) s
  | 5 => sknGo n sk 5 (sknQuery n sk) s
  | 6 => sknGo n sk 6 (sknSync n sk) s
  | _ => sknBadOpGo n sk (BitVec.ofNat 4 op) s

/-! ## Port B (R107, R175, R176) -/

/-- What a port B push or pop leaves in `SKN_PB_RES`. -/
def setPbRes (n : Fin 8) (r count : Nat) (s : State) : State :=
  s.modTen n fun t => { t with pbRes := (BitVec.ofNat 4 r, BitVec.ofNat 5 count) }

/-- A port B SKEIN_PUSH of slot n. -/
def pbPush (n : Fin 8) (sk : BitVec 16) (items : List Word128) (s : State) : State :=
  let r := push n sk 0x40 items s
  let s := if r.2 = sknIsolation then violate n 4 (blockOf sk) r.1 else r.1
  setPbRes n r.2 (if r.2 = sknOk then items.length else 0) s

/-- Pops for port B: the words delivered, data items among them, the lanes, and the keys of bad items. -/
structure PbPops where
  st    : State
  words : List Word128
  data  : Nat
  lanes : List Nat
  bad   : List Nat

/-- The word a port is given for an uncorrectable one (R114, R235, Tables INT-1, INT-2): 16 bytes of 0xE5, or of 0x5A when PURGED. -/
def poisonWord : UncCause → Word128
  | .purged => ofBytesLE 128 (List.replicate 16 0x5A)
  | _ => ofBytesLE 128 (List.replicate 16 0xE5)

/-- Pop m words: after the first empty read the rest are empty reads (R176, R177); a bad item counts as data (R126, R183). -/
def pbPopGo (n : Fin 8) (sk : BitVec 16) : Nat → PbPops → PbPops
  | 0, r => r
  | m + 1, r =>
    match popOne n sk false r.st with
    | (s, .item w, l) => pbPopGo n sk m { r with
        st := s, words := r.words ++ [w], data := r.data + 1, lanes := r.lanes ++ l.toList }
    | (s, .bad k _ _ c, l) => pbPopGo n sk m { r with
        st := s, words := r.words ++ [poisonWord c], data := r.data + 1, lanes := r.lanes ++ l.toList, bad := r.bad ++ [k] }
    | (s, .empty, _) => { r with st := s, words := r.words ++ List.replicate (m + 1) (s.emptyRead sk) }

end Sys2Proof.Machine
end

