-- ==== Sys2Proof/Machine/Scan.lean ====
section
/-! DEFINITION. Range passes: start, stop, end, and their summary (R227, R228, R239, Tables INT-5, INT-6). -/

namespace Sys2Proof.Machine

/-- Counts of a range pass (Table INT-6). -/
structure ScanCount where
  corrected : Nat
  uncorr    : Nat
  blank     : Nat
  rewritten : Nat
  firstUnc  : Option Nat
  deriving DecidableEq, Repr

def scanComplete : BitVec 2 := 0
def scanStopped : BitVec 2 := 1
def scanClosed : BitVec 2 := 2

/-- A rewrite of a pass: the word as it reads goes through the write path, charged to the slot that started the pass (R198, R227).  The repair
queue hands a pass's repairs on as fast as the pass finds them (log entry 181). -/
def scanRewrite (n : Fin 8) (k : Nat) (d : Word128) (blank : Bool) (s : State) : State :=
  issue [{ mkWrite k d n .integrity with tgt := .word k d blank }]
    (s.modInt fun i => { i with repairs := i.repairs.filter fun j => !decide (j = k) })

/-- One word of a pass (R227, R228): CHECK counts, CHECK_REPAIR rewrites corrected words, REFRESH rewrites every WRITTEN word. -/
def scanWord (n : Fin 8) (mode : BitVec 2) (w : Nat) (r : State × ScanCount) : State × ScanCount :=
  match r.1.windowKey n w with
  | none => r
  | some k => match r.1.readKey k with
    | .data d c =>
      let q := { r.2 with corrected := r.2.corrected + (if c then 1 else 0) }
      if mode = 2 || (mode = 1 && c) then (scanRewrite n k d false r.1, { q with rewritten := q.rewritten + 1 }) else (r.1, q)
    | .blank c =>
      let q := { r.2 with corrected := r.2.corrected + (if c then 1 else 0), blank := r.2.blank + 1 }
      if mode = 1 && c then (scanRewrite n k 0 true r.1, { q with rewritten := q.rewritten + 1 }) else (r.1, q)
    | .unc _ => (r.1, { r.2 with uncorr := r.2.uncorr + 1, firstUnc := some (r.2.firstUnc.getD w) })

/-- The first m words of a pass. -/
def scanGoWords (c : Scan) (m : Nat) (s : State) : State × ScanCount :=
  (List.range m).foldl (fun r i => scanWord c.slot c.mode (c.start + i) r)
    (s, { corrected := 0, uncorr := 0, blank := 0, rewritten := 0, firstUnc := none })

/-- The summary (Table INT-6). -/
def scanSummary (c : Scan) (outcome : BitVec 2) (q : ScanCount) : Word128 :=
  orAll [at_ 0 c.start, at_ 18 (c.count - 1), at_ 36 c.mode.toNat, at_ 38 outcome.toNat, at_ 40 (satNat 16 q.corrected),
    at_ 56 (satNat 16 q.uncorr), at_ 72 (satNat 18 q.blank), at_ 90 (satNat 18 q.rewritten), at_ 108 (q.firstUnc.getD 0),
    bitAt 126 q.firstUnc.isSome]

/-- The slot's pass, queued or running. -/
def State.scanOf (s : State) (n : Fin 8) : Option (Nat × Scan) := findFrom (fun c : Scan => decide (c.slot = n)) 0 s.int.scans

/-- The pass as it reads while the field defers writes: it only counts, for its rewrites wait (R228). -/
def Scan.countOnly (c : Scan) : Scan := { c with mode := 0 }

/-- A pass ends after m words: summary loaded, SCAN_DONE on the slot's channel, and the next queued pass runs (R228).  The rewrites of a pass that
is cut while the field defers writes still wait then, and are not made (log entry 181). -/
def endScan (c : Scan) (outcome : BitVec 2) (m : Nat) (s : State) : State :=
  let r := scanGoWords (if s.mram.defer then c.countOnly else c) m s
  let sum := scanSummary c outcome r.2
  let s := r.1.modInt fun i => { i with scans := i.scans.filter fun d => !decide (d.slot = c.slot) }
  let s := s.modTen c.slot fun t => { t with scanSum := sum }
  raise .scanDone c.slot ((List.range 4).map (regOfWord sum)) s

/-- A pass ends before its last word: a queued one has read nothing; how far a running one has come is not the manual's to say, so the
number of words read is free (log entry 31). -/
def cutScan (n : Fin 8) (outcome : BitVec 2) (s : State) : State :=
  match s.scanOf n with
  | none => s
  | some (i, c) =>
    if i = 0 then s.draw fun v s => endScan c outcome (v.toNat % (c.count + 1)) s else endScan c outcome 0 s

def setScanRes (n : Fin 8) (r : BitVec 2) (s : State) : State := s.modTen n fun t => { t with scanRes := r }

/-- `SCAN_CTL.GO` (R227): BUSY while the slot's own pass is queued or running, BAD_RANGE outside the partition, else queued. -/
def scanGo (n : Fin 8) (s : State) : State :=
  let t := s.tenants[n]
  let start := field t.scanCtl 17 0
  if (s.scanOf n).isSome then setScanRes n 2 s
  else if t.scanCnt = 0 || !s.inPartition n start t.scanCnt then setScanRes n 1 s
  else setScanRes n 0 (s.modInt fun i => { i with
    scans := i.scans ++ [{ slot := n, start := start, count := t.scanCnt, mode := (t.scanCtl >>> 20).setWidth 2, stop := 0 }] })

/-- START and MODE as a write leaves them: the reserved MODE keeps the field (R13). -/
def scanCtlOf (v old : Word32) : Word32 :=
  let r := setField old 17 0 (field v 17 0)
  if field v 21 20 = 3 then r else setField r 21 20 (field v 21 20)

def execScanGo (p : Port) (val : Word32) (s : State) : Host.Outcome State Fault Refusal :=
  .next (atWindow p 0xE40 (fun n s => scanGo n (s.modTen n fun t => { t with scanCtl := scanCtlOf val t.scanCtl })) s)

def execScanStop (p : Port) (s : State) : Host.Outcome State Fault Refusal :=
  .next (atWindow p 0xE40 (fun n => cutScan n scanStopped) s)

/-- The granules that a pass reads. -/
def State.scanGranules (s : State) (c : Scan) : List (Fin 64) :=
  (List.range ((c.start + c.count - 1) / 4096 - c.start / 4096 + 1)).filterMap fun i => s.granAt c.slot (c.start / 4096 + i)

/-- The array can be read at the patrol's priority: ENG and the array are on, and no swatch holds it (R222, R228, R231). -/
def State.scanReads (s : State) (a : Arr) : Bool := s.domOn 2 && s.domOn (arrDom a) && !(s.int.swRun && decide (s.int.swTest = a))

/-- The running pass has read its last word, its arrays being on; its rewrites wait while the field defers writes (R222, R228). -/
def scanDone (s : State) : State :=
  match s.int.scans with
  | [] => s
  | c :: _ =>
    if (c.mode ≠ 0 && s.mram.defer) || !(s.scanGranules c).all (fun g => s.scanReads (granArr g)) then s else endScan c scanComplete c.count s

def execScanDone (s : State) : Host.Outcome State Fault Refusal := .next (scanDone s)

end Sys2Proof.Machine
end

