-- ==== Sys2Proof/Machine/Ports.lean ====
section
/-! DEFINITION. Needles, opening and closing of windows, host reset (R96 to R100, R115, R117 to R121, R124, R421), and the slot-0 tenant
registers SUSPEND and TEN_ISO (R32, R37). -/

namespace Sys2Proof.Machine

/-! ## Needles (R117 to R121) -/

/-- Why a needle was orphaned, as the model numbers it for `Config.orphanCause`: lease, close, transfer. -/
def orphanLease : Nat := 0
def orphanClose : Nat := 1
def orphanTransfer : Nat := 2

/-- A needle becomes free: the ports that wait for it are told once (R118). -/
def freeNeedle (k : Fin 32) (s : State) : State :=
  let s := s.modNeedle k fun d => { d with holder := none, remain := 0 }
  State.each [Port.a, Port.b] (fun p s =>
    if (s.port p).ndlWait[k] then
      let s := s.modPort p fun q => { q with ndlWait := upd q.ndlWait k fun _ => false }
      if s.openOn p (slotOfNeedle k) then s.irq p irqNeedle else s
    else s) s

/-- A needle is released with ORPHANED set, and its stitch names the needle, its former holder's port and the cause (R119). -/
def orphanNeedle (k : Fin 32) (cause : Nat) (s : State) : State :=
  match s.needles[k].holder with
  | none => s
  | some (p, _) =>
    let s := s.modNeedle k fun d => { d with orphaned := true }
    raise .needleOrphan (slotOfNeedle k) [snap32 k.val, snap32 (portCode p), Config.orphanCause cause] (freeNeedle k s)

def setNdl (p : Port) (k : Fin 32) (r : BitVec 3) (s : State) : State :=
  s.modPort p fun q => { q with ndlResult := upd q.ndlResult k fun _ => r }

def ndlOk : BitVec 3 := 0
def ndlBusy : BitVec 3 := 1
def ndlNotHolder : BitVec 3 := 2
def ndlBadLease : BitVec 3 := 3
def ndlIsolation : BitVec 3 := 4
def ndlExpired : BitVec 3 := 5

/-- An operation on a needle of the slot; one on another slot's needle fails path 0x6 (R118). -/
def onNeedle (p : Port) (k : Fin 32) (n : Fin 8) (act : State → State) (s : State) : State :=
  if slotOfNeedle k = n then act s else setNdl p k ndlIsolation (violate n 6 k.val s)

/-- ACQUIRE and, with `wait`, ACQUIRE_WAIT.  The manual gives no order of a LEASE of 0 and the other results: the model answers BAD_LEASE before
BUSY, and before NOT_HOLDER of a RENEW (R118, Table PRT-12; DESIGN CHOICE, log entry 182). -/
def acquire (p : Port) (k : Fin 32) (lease : BitVec 16) (wait : Bool) (n : Fin 8) (s : State) : State :=
  onNeedle p k n (fun s =>
    if lease = 0 then setNdl p k ndlBadLease s
    else if s.needles[k].holder.isSome then
      let s := if wait then s.modPort p fun q => { q with ndlWait := upd q.ndlWait k fun _ => true } else s
      setNdl p k ndlBusy s
    else
      let s := s.modNeedle k fun d => { d with holder := some (p, n), port := p, gen := d.gen + 1, remain := lease, lapsed := none }
      setNdl p k ndlOk (s.modPort p fun q => { q with ndlWait := upd q.ndlWait k fun _ => false })) s

/-- The tick on which REMAIN reaches 0: the holder's port is told, the needle is orphaned (R116, R119, R121). -/
def leaseExpire (k : Fin 32) (s : State) : State :=
  match s.needles[k].holder with
  | none => s
  | some (p, n) =>
    if 1 < s.needles[k].remain.toNat then s
    else
      let s := if s.openOn p n then s.irq p irqNeedle else s
      (orphanNeedle k orphanLease s).modNeedle k fun d => { d with lapsed := some (p, n) }

/-- RENEW: one committed in the same CORE_CLK cycle as the tick that took REMAIN to 0 finds the needle released and gives EXPIRED (R121); in which
cycle of that millisecond it is committed is for the outside world (log entry 184). -/
def renew (p : Port) (k : Fin 32) (lease : BitVec 16) (n : Fin 8) (s : State) : State :=
  onNeedle p k n (fun s =>
    if lease = 0 then setNdl p k ndlBadLease s
    else if s.needles[k].lapsed = some (p, n) then
      s.draw fun v s => setNdl p k (if v.getLsbD 0 then ndlExpired else ndlNotHolder) s
    else if s.needles[k].holder ≠ some (p, n) then setNdl p k ndlNotHolder s
    else setNdl p k ndlOk (s.modNeedle k fun d => { d with remain := lease })) s

def releaseOp (p : Port) (k : Fin 32) (n : Fin 8) (s : State) : State :=
  onNeedle p k n (fun s =>
    if s.needles[k].holder ≠ some (p, n) then setNdl p k ndlNotHolder s else setNdl p k ndlOk (freeNeedle k s)) s

def clearOrphan (p : Port) (k : Fin 32) (n : Fin 8) (s : State) : State :=
  onNeedle p k n (fun s =>
    if s.needles[k].holder ≠ some (p, n) then setNdl p k ndlNotHolder s
    else setNdl p k ndlOk (s.modNeedle k fun d => { d with orphaned := false })) s

/-- Setup offset of `NDL_CTL_k`. -/
def ndlOff (k : Fin 32) : Nat := 0x300 + 8 * k.val

def execAcquire (p : Port) (k : Fin 32) (lease : BitVec 16) (s : State) : Host.Outcome State Fault Refusal :=
  .next (atWindow p (ndlOff k) (acquire p k lease false) s)

def execAcquireWait (p : Port) (k : Fin 32) (lease : BitVec 16) (s : State) : Host.Outcome State Fault Refusal :=
  .next (atWindow p (ndlOff k) (acquire p k lease true) s)

def execRenew (p : Port) (k : Fin 32) (lease : BitVec 16) (s : State) : Host.Outcome State Fault Refusal :=
  .next (atWindow p (ndlOff k) (renew p k lease) s)

def execRelease (p : Port) (k : Fin 32) (s : State) : Host.Outcome State Fault Refusal := .next (atWindow p (ndlOff k) (releaseOp p k) s)

def execClearOrphan (p : Port) (k : Fin 32) (s : State) : Host.Outcome State Fault Refusal :=
  .next (atWindow p (ndlOff k) (clearOrphan p k) s)

def execLeaseExpire (k : Fin 32) (s : State) : Host.Outcome State Fault Refusal := .next (leaseExpire k s)

/-! ## Closing (R100, R116, R119, R228, R406, R407) -/

/-- The tenant bits of `IRQ_STAT`: CMPL, SKEIN, LOG, RADIO, NEEDLE and SITE (log entry 32). -/
def tenantBits : BitVec 9 := 0x11F

/-- The words of port B's last MEM_WRITE still wait, none of them accepted: the command is staged and not yet committed (R108, R123). -/
def State.stagedB (s : State) : Bool :=
  0 < s.portB.staged && decide ((s.mram.waitq.filter fun e => e.writer = .port .b).length = s.portB.staged)

/-- Discard a staged port B command; one whose commit has begun is committed whole (R108, R115, R123; log entry 159). -/
def discardStaged (p : Port) (s : State) : State :=
  if p = .b && s.stagedB then
    s.modMram fun m => { m with waitq := m.waitq.filter fun e => !decide (e.writer = .port .b) }
  else s

/-- Close a port's window: needles it holds for the slot are orphaned, tenant bits and waits cleared, cursor and audit read gone; the slot's
range pass ends when neither port has it open any more. -/
def closePort (p : Port) (s : State) : State :=
  match (s.port p).open? with
  | none => s
  | some n =>
    let s := State.each (List.finRange 32) (fun k s => if s.needles[k].holder = some (p, n) then orphanNeedle k orphanClose s else s) s
    let s := s.modPort p fun q => { q with
      open? := none, keyless := false, irqStat := q.irqStat &&& ~~~tenantBits, ndlWait := Vector.replicate 32 false
      cursor := none, liveEnd := false, auditOn := false }
    let s := discardStaged p s
    if s.openOn (otherPort p) n then s else cutScan n scanClosed s

def execPortClose (p : Port) (s : State) : Host.Outcome State Fault Refusal := .next (atIdent p (closePort p) s)

/-- The effect of a port's reset line (R115): staged data gone, window closed, configuration, enables and status at their reset values. -/
def resetPort (p : Port) (s : State) : State :=
  (closePort p (discardStaged p s)).modPort p fun q => { q with
    mode8d := false, lat := 0x14, irqEn := 0, irqStat := 0, rdy := decide (p = .b) && s.domOn 1, openWait := none }

/-- A pulse of the reset line: under 0.5 us ignored, from 1 us a reset, between them one or the other in full (R115; log entry 4). -/
def hostReset (p : Port) (widthNs : Nat) (s : State) : State :=
  if widthNs < 500 then s
  else if 1000 ≤ widthNs then resetPort p s
  else
    let s' := { s with freeCtr := s.freeCtr + 1 }
    if Config.shortResetTaken s.freeCtr then resetPort p s' else s'

def execHostReset (p : Port) (widthNs : Nat) (s : State) : Host.Outcome State Fault Refusal := .next (hostReset p widthNs s)

/-! ## Opening (R97 to R99, R421, R425) -/

def openOpened : BitVec 3 := 0
def openCode : BitVec 3 := 1
def openState : BitVec 3 := 2
def openLocked : BitVec 3 := 3

/-- Key use PORT_OPEN (Table RNG-7). -/
def usePortOpen : Byte := 1

/-- The slot's PORT_OPEN keys, ACTIVE or RETIRED. -/
def State.openKeys (s : State) (n : Fin 8) : List Word128 :=
  [0, 1, 2].filterMap fun j =>
    let k := s.keys[keyNo n j]
    if k.use = usePortOpen && (k.st = .active || k.st = .retired) then some k.key else none

/-- Slot n opens without a code (R98). -/
def State.keylessSlot (s : State) (n : Fin 8) : Bool :=
  (s.openKeys n).isEmpty && (n ≠ 0 || s.keys[siteKey 0].st = .blank)

/-- The message of an open code (R97). -/
def openMessage (s : State) (p : Port) (n : Fin 8) : List Byte :=
  s.longBytes ++ [BitVec.ofNat 8 n.val, BitVec.ofNat 8 (portCode p), 0, 0] ++ bytesLE 4 (s.port p).nonce

/-- The code registers hold a code that one of the slot's keys made, or for slot 0 the ACTIVE authorization key (R97). -/
def State.openCodeOk (s : State) (p : Port) (n : Fin 8) : Bool :=
  (s.openKeys n ++ (if n = 0 then s.siteAuth.toList else [])).any fun k => cmac64 k (openMessage s p n) = (s.port p).code

/-- Result of an attempt on a slot. -/
def State.openResult (s : State) (p : Port) (n : Fin 8) : BitVec 3 :=
  let t := s.tenants[n]
  if (s.port p).locked then openLocked
  else if t.st = .purging || (t.st = .free && n ≠ 0) then openState
  else if s.haltTable && n ≠ 0 then openState
  else if s.halted && !s.haltTable then openState
  else if s.life.state = .bindOff then openState
  else if s.keylessSlot n || s.openCodeOk p n then openOpened
  else openCode

/-- A fresh nonce after every attempt (R99). -/
def newNonce (p : Port) (s : State) : State := s.draw fun v s => s.modPort p fun q => { q with nonce := v.setWidth 32 }

/-- A failed attempt: counted and stitched; the fourth failure in a row locks the port out for 1 s (R99, Table PRT-6). -/
def openFail (p : Port) (n : Fin 8) (r : BitVec 3) (s : State) : State :=
  let s := s.modPort p fun q => { q with
    result := r, failRun := satInc q.failRun, locked := q.locked || decide (satInc q.failRun = 4) }
  newNonce p (raise .portOpenFail 0 [snap32 n.val, snap32 r.toNat, snap32 (portCode p)] s)

/-- The slot is SUSPENDED, its windows closed until an ownership change purges it. -/
def sealLost (n : Fin 8) (s : State) : State := s.modTen n fun t => if t.st = .owned then { t with st := .suspended } else t

/-- The seal check at cast-on and at every open of a window: one that does not verify is handled as a class 0x2 mismatch; a BLANK seal is a purge
to resume (R196, R215, R237). -/
def checkSeal (n : Fin 8) (s : State) : State :=
  if s.tenants[n].granules = 0 || s.keys[keyNo n 3].st ≠ .active || s.sealOk n || s.damaged 2 n.val then s
  else
    let s := (clearDamage 2 n.val s).modInt fun i => { i with
      pairFail := satInc i.pairFail, damage := i.damage ++ [{ cls := 2, idx := n.val, kind := .differ 0, half := .B, seen := true }] }
    sealLost n (raise .pairMismatch 0 [2, snap32 n.val] s)

/-- Attempt an open on a slot. -/
def openAttempt (p : Port) (n : Fin 8) (s : State) : State :=
  let r := s.openResult p n
  if r = openOpened then
    let keyless := s.keylessSlot n
    newNonce p ((closePort p (checkSeal n s)).modPort p fun q => { q with
      open? := some n, lastSlot := n, keyless := keyless, result := openOpened, failRun := 0 })
  else openFail p n r s

/-- `xx_OPEN.GO`: before READY in cast-on the open waits (R421); while one waits a GO has no further effect (R12). -/
def openGo (p : Port) (n : Fin 8) (s : State) : State :=
  if (s.port p).openWait.isSome then s
  else if s.life.state = .castOn then s.modPort p fun q => { q with openWait := some n }
  else openAttempt p n s

/-- `xx_OPEN` written with GO: SLOT is held, and the open is attempted. -/
def portOpen (p : Port) (n : Fin 8) (s : State) : State := openGo p n (s.modPort p fun q => { q with sel := n })

def execPortOpen (p : Port) (slot : Fin 8) (s : State) : Host.Outcome State Fault Refusal := .next (atIdent p (portOpen p slot) s)

/-- READY is asserted: the opens that wait are attempted (R421). -/
def openWaiting (s : State) : State :=
  State.each [Port.a, Port.b] (fun p s =>
    match (s.port p).openWait with
    | none => s
    | some n => openAttempt p n (s.modPort p fun q => { q with openWait := none })) s

def openLockExpire (p : Port) (s : State) : State := s.modPort p fun q => { q with locked := false }

def execOpenLockExpire (p : Port) (s : State) : Host.Outcome State Fault Refusal := .next (openLockExpire p s)

def malClr (p : Port) (s : State) : State := s.modPort p fun q => { q with malCount := 0 }

def execMalClr (p : Port) (s : State) : Host.Outcome State Fault Refusal := .next (atIdent p (malClr p) s)

/-! ## SUSPEND and TEN_ISO (R32, R37, R94) -/

/-- Offset of `TEN_CTL` of a slot. -/
def tenOff (n : Fin 8) : Nat := 0x200 + 16 * n.val

/-- The slot is SUSPENDED whatever `TEN_CTL.SUSPEND` holds: its seal word or a granule's entry does not read (Table INT-9), or its ownership
record differs from its tallies (R51). -/
def State.forcedSusp (s : State) (n : Fin 8) : Bool :=
  s.damaged 2 n.val || (List.finRange 64).any (fun g => s.mram.part[g].owner.toNat = n.val && decide (s.mram.part[g].st = .closed)) ||
    (s.faulted 9 && !s.lcAgrees 3 n)

/-- `TEN_CTL.SUSPEND`: no effect on a slot that is FREE or PURGING (R32). -/
def suspend_ (n : Fin 8) (v : Bool) (s : State) : State :=
  if s.tenants[n].owned then
    sysPlain (suspIdx n.val) 0 (s.modTen n fun t => { t with susp := v, st := if v || s.forcedSusp n then .suspended else .owned })
  else s

def execSuspend (p : Port) (slot : Fin 8) (val : Bool) (s : State) : Host.Outcome State Fault Refusal :=
  .next (atSlot0 p (tenOff slot) (suspend_ slot val) s)

def tenIsoClr (n : Fin 8) (s : State) : State := s.modTen n fun t => { t with iso := 0 }

def execTenIsoClr (p : Port) (slot : Fin 8) (s : State) : Host.Outcome State Fault Refusal :=
  .next (atSlot0 p (tenOff slot + 12) (tenIsoClr slot) s)

end Sys2Proof.Machine
end

