-- ==== Sys2Proof/Machine/Faults.lean ====
section
/-! DEFINITION. Faults of Table LIF-5: reporting and clearing (R426, R427, R435). -/

namespace Sys2Proof.Machine

def faultStore : Nat := 1
def faultTcxo : Nat := 2
def faultDomain : Nat := 3
def faultSwatch : Nat := 4
def faultTable : Nat := 5
def faultVariant : Nat := 6
def faultField : Nat := 0xC
def faultRelease : Nat := 0xD

/-- A fault becomes active; the first since `LIF_FAULT.VALID` was cleared is captured (R426). -/
def captureFault (code : Nat) (detail : Word32) (s : State) : State :=
  s.modLife fun l =>
    let l := { l with mask := l.mask ||| bitAt code true }
    if l.valid then l else { l with valid := true, first := BitVec.ofNat 8 code, detail := detail }

/-- A LIMP fault outside cast-on: RUN becomes LIMP. -/
def limpFault (code : Nat) (detail : Word32) (s : State) : State :=
  (captureFault code detail s).modLife fun l => if l.state = .run then { l with state := .limp } else l

/-- A HALT fault (R425, R435). -/
def haltFault (code : Nat) (detail : Word32) (s : State) : State :=
  (captureFault code detail s).modLife fun l => { l with state := .halt }

/-- The FAULT stitch of a LIMP fault. -/
def stitchFault (code : Nat) (s : State) : State := raise .fault 0 [snap32 code, s.life.detail] s

/-- A fault clears, with FAULT_CLEAR; LIMP ends with the last of them (R427). -/
def clearFault (code : Nat) (s : State) : State :=
  if s.faulted code then
    let s := s.modLife fun l =>
      let m := l.mask &&& ~~~(bitAt code true)
      { l with mask := m, state := if l.state = .limp && m = 0 then .run else l.state }
    raise .faultClear 0 [snap32 code] s
  else s

end Sys2Proof.Machine
end

