-- ==== Sys2Proof/Machine/Eval.lean ====
section
/-! DEFINITION. The access evaluator: evaluations, rule programs, verdicts (R340 to R352, R358 to R360, R363). -/

namespace Sys2Proof.Machine

/-! ## Sensing items and snapshots (Tables EVA-5, EVA-7) -/

/-- Temperature in whole degrees; which way a part of a degree goes is free (log entry 35). -/
def wholeDegrees (t : BitVec 10) : Int :=
  if t.toInt % 4 = 0 then t.toInt / 4 else if Config.roundTempUp t then t.toInt / 4 + 1 else t.toInt / 4

/-- The pair is in its release state (R353). -/
def State.released (s : State) : Bool := !s.eva.pulses.isEmpty || s.eva.hold

/-- The module's site identifier. -/
def State.siteId (s : State) : BitVec 16 := s.lc.site.value.setWidth 16

/-- SENSE items 0 to 7; none for the reserved ones. -/
def State.senseItem (s : State) (steps : Nat) : Nat → Option Word64
  | 0 => some (at_ 0 s.sns.time ||| bitAt 32 s.sns.trusted)
  | 1 => some (s.sns.batMv.setWidth 64)
  | 2 => some (s.sns.mag.setWidth 64 ||| bitAt 16 s.mram.defer)
  | 3 => some (BitVec.ofInt 64 (wholeDegrees s.sns.temp))
  | 4 => some (bitAt 0 s.sns.door ||| bitAt 1 s.sns.bolt)
  | 5 => some (bitAt 0 s.eva.hold ||| bitAt 1 s.released)
  | 6 => some (at_ 0 s.mac.short.toNat ||| at_ 16 s.siteId.toNat)
  | 7 => some (at_ 0 steps)
  | _ => none

def verdictGrant : BitVec 2 := 1
def verdictDeny : BitVec 2 := 2
def verdictDefer : BitVec 2 := 3

/-- The snapshots of a verdict stitch as taken now (Table EVA-7). -/
def verdictSlots (e : Eval) (v : BitVec 2) (reason : BitVec 16) (trap : BitVec 12) (s : State) : List Word32 :=
  [orAll [at_ 0 s.sns.batMv.toNat, at_ 16 (BitVec.ofInt 8 (wholeDegrees s.sns.temp)).toNat, bitAt 24 s.sns.door, bitAt 25 s.sns.bolt],
   orAll [at_ 0 s.sns.mag.toNat, bitAt 16 s.mram.defer], snap32 s.sns.time,
   orAll [at_ 0 reason.toNat, at_ 16 trap.toNat, at_ 28 v.toNat, bitAt 30 s.sns.trusted, bitAt 31 e.ll.isSome],
   orAll [at_ 0 e.tag.toNat, at_ 16 e.steps, at_ 28 e.keySel.toNat]] ++ e.snap.toList

/-! ## Traps (Table EVA-6) -/

def trapFetch : BitVec 12 := 0x001
def trapData : BitVec 12 := 0x002
def trapInsn : BitVec 12 := 0x003
def trapSteps : BitVec 12 := 0x004
def trapIso : BitVec 12 := 0x005
def trapPc : BitVec 12 := 0x006
def trapList : BitVec 12 := 0x007
def trapAuth : BitVec 12 := 0x008
def trapKey : BitVec 12 := 0x009
def trapMark : BitVec 12 := 0x00A
def trapRelease : BitVec 12 := 0x00B
def trapLog : BitVec 12 := 0x00C

/-! ## The evaluation under way -/

def State.modEval (s : State) (f : Eval → Eval) : State := s.modEva fun v => { v with cur := v.cur.map f }
def Eval.slot (e : Eval) : Fin 8 := slotOfRing e.ring

/-- Disarm the driver, unless a pulse or a hold runs (R350, R357). -/
def disarm (s : State) : State := if s.released then s else s.modEva fun v => { v with armed := false }

/-- Completion of an evaluation: verdict in EXTRA, the stitch's number, steps and trap (Table RNG-6). -/
def evalAnswer (e : Eval) (seq : Word32) : Answer :=
  { status := stOk, extra := e.verdict.toNat, a := seq, b := e.steps + 65536 * e.trap.toNat }

/-- The evaluation ends: its completion record is written and the next one may begin. -/
def evalComplete (seq : Word32) (s : State) : State :=
  match s.eva.cur with
  | none => s
  | some e => engSweep (finish e.op (evalAnswer e seq) [] none (s.modEva fun v => { v with cur := none }))

/-- Count a verdict and a trap, and capture the slot's first trap (R347). -/
def countVerdict (e : Eval) (v : BitVec 2) (trap : BitVec 12) (s : State) : State :=
  s.modTen e.slot fun t =>
    let t := if v = verdictGrant then { t with cGrant := satInc t.cGrant } else if v = verdictDeny then { t with cDeny := satInc t.cDeny }
      else { t with cDefer := satInc t.cDefer }
    if trap = 0 then t
    else
      let t := { t with cTrap := satInc t.cTrap }
      if t.trapV then t else { t with trapV := true, trap := (trap, BitVec.ofNat 12 e.pc) }

/-- Listed words whose COND matches a verdict: 1 GRANT, 2 DENY, 3 any (R343, R346). -/
def matching (v : BitVec 2) (l : List Listed) : List Listed :=
  l.filter fun x => x.cond = 3 || (x.cond = 1 && v = verdictGrant) || (x.cond = 2 && v = verdictDeny)

/-- The writes of listed words. -/
def State.listWrites (s : State) (n : Fin 8) (l : List Listed) : List WEntry :=
  l.filterMap fun x => (s.windowKey n x.addr).map fun k => mkWrite k x.data n .evaluator

/-- A DENY or DEFER stitch that takes a frogged staging's place needs no position of its own and is not held by a full queue (R399). -/
def queueReplacement (code : BitVec 12) (n : Fin 8) (slots : List Word32) (f : Stitch → Stitch) (s : State) : State :=
  pushStitch (f (mkStitch s code n 0 slots)) s

/-- Hand the verdict stitch to the recorder: queued, held while the queue is full, or without a position (R340, R402). -/
def writeVerdict (code : BitVec 12) (slots : List Word32) (s : State) : State :=
  match s.eva.cur with
  | none => s
  | some e =>
    let n := e.slot
    let f (st : Stitch) : Stitch := { st with forOp := some e.op }
    if s.log.chans[n].reuse.isSome then
      (queueReplacement code n slots f s).modEval fun e => { e with phase := .recording }
    else if !s.queueRoom then s.modEval fun e => { e with phase := .stitchWait code slots }
    else
      match raiseWith code n slots f s with
      | (s, .queued) => s.modEval fun e => { e with phase := .recording }
      | (s, _) => evalComplete 0xFFFFFFFF s

/-- DENY or DEFER: the pre-arm lifeline and the staged stitch are frogged, the driver disarmed, matching listed words committed (none after
MARK_WAIT), the verdict stitch written (R350, R351). -/
def refuse_ (v : BitVec 2) (reason : BitVec 16) (trap : BitVec 12) (s : State) : State :=
  match s.eva.cur with
  | none => s
  | some e =>
    let n := e.slot
    let slots := verdictSlots e v reason trap s
    let s := countVerdict e v trap s
    let s := match e.ll with
      | some k => frogLine k s
      | none => s
    let s := if e.staged then frogStaged n s else s
    let s := disarm s
    let list := if trap = trapMark then [] else matching v e.list
    let s := s.modEval fun e => { e with ll := none, staged := false, list := [], verdict := v, trap := trap }
    let s := issue (s.listWrites n list) s
    let s := writeVerdict (if v = verdictDeny then Ev.evaDeny.code else Ev.evaDefer.code) slots s
    let s := if trap = trapMark then raise .tamperMark 0 [snap32 n.val, e.tag.setWidth 32, s.sns.mag.setWidth 32] s else s
    engSweep s

/-- A trap inside the program: DENY, with no END to give a reason, so the stitch's reason is free (log entry 36). -/
def trapEval (code : BitVec 12) (s : State) : State := s.draw fun v s => refuse_ verdictDeny (v.setWidth 16) code s

/-- A word named by the program lies outside the owner's partition (R346). -/
def trapIsolation (s : State) : State :=
  match s.eva.cur with
  | none => s
  | some e => trapEval trapIso (violate e.slot 2 e.ring.val s)

/-! ## EVALUATE (R340 to R342) -/

def useCredential : Byte := 2

def Op.prog (o : Op) : Nat := o.addrA
def Op.cred (o : Op) : Nat := o.addrB
def Op.credLen (o : Op) : Nat := field (o.w 0) 103 96
def Op.evaKey (o : Op) : Nat := field (o.w 0) 105 104

def half (w : Word128) (high : Bool) : Word64 := if high then (w >>> 64).setWidth 64 else w.setWidth 64

/-- WR0 to WR15 from the request block and the plaintext (Table EVA-2). -/
def loadRegs (o : Op) (plain : List Byte) : Vector Word64 16 :=
  let p := plain ++ zeros (48 - plain.length)
  Vector.ofFn fun i =>
    if i.val < 6 then half (o.w (1 + i.val / 2)) (i.val % 2 = 1)
    else if i.val < 12 then ofBytesLE 64 ((p.drop (8 * (i.val - 6))).take 8)
    else if i.val = 12 then
      orAll [at_ 0 plain.length, at_ 8 o.evaKey, at_ 16 (localRing o.ring).val, at_ 24 o.slot.val]
    else 0

/-- A window word of slot n is held under a lifeline other than `ll`: the evaluator reads it only when that has resolved (R359). -/
def State.heldBack (s : State) (n : Fin 8) (ll : Option (Fin 4)) (addr : Nat) : Bool :=
  s.eng.hold.any fun h => match h.what with
    | .write a _ => a = addr && (match s.op h.op with
        | some o => o.slot = n && o.behind.any fun k => ll ≠ some k
        | none => false)
    | _ => false

/-- One of `count` window words from `addr` is so held. -/
def State.anyHeldBack (s : State) (n : Fin 8) (ll : Option (Fin 4)) (addr count : Nat) : Bool :=
  (List.range count).any fun i => s.heldBack n ll ((addr + i) % 262144)

/-- Read words one by one for the evaluator, each counted; the first bad one ends it. -/
def evaReads (n : Fin 8) : Nat → Nat → State → State × Option (List Word128)
  | _, 0, s => (s, some [])
  | a, m + 1, s =>
    match s.windowKey n a with
    | none => (s, none)
    | some k => match demandRead k s with
      | (s, .bad _) => (s, none)
      | (s, .ok d _) =>
        let r := evaReads n (a + 1) m s
        (r.1, r.2.map (d :: ·))

/-- Start an evaluation: key, credential, registers; a failing one traps before any instruction runs. -/
def startEval (o : Op) (s : State) : State :=
  let n := o.slot
  let e : Eval :=
    { op := o.id, ring := o.ring, index := o.index, prog := o.prog, wr := loadRegs o [], pc := 0, steps := 0, list := [],
      snap := Vector.replicate 3 0, keySel := BitVec.ofNat 2 o.evaKey, tag := BitVec.ofNat 16 o.tag, irq := o.irq, ll := none,
      hinted := false, staged := false, seq := 0, verdict := 0, trap := 0, phase := .running, waitMs := 0 }
  let s := s.modEva fun v => { v with cur := some e }
  match s.useKey n o.evaKey useCredential false with
  | none => trapEval trapKey s
  | some k =>
    match evaReads n o.cred (wordsFor o.credLen) s with
    | (s, none) => trapEval trapData s
    | (s, some ws) =>
      let bytes := (ws.flatMap bytesOf).take o.credLen
      let nonce := bytes.take 13
      let plain := ccmCrypt k nonce ((bytes.drop 13).take (o.credLen - 21))
      if ccmTag k nonce [] plain 8 = (bytes.drop (o.credLen - 8)).take 8 then s.modEval fun e => { e with wr := loadRegs o plain }
      else trapEval trapAuth s

/-- EVALUATE: in fetch order, one at a time; PROG or a credential word outside the partition completes ISOLATION with DENY (R340). -/
def evaluate (id : Nat) (s : State) : State :=
  match s.runnable id opEvaluate with
  | none => s
  | some o =>
    if s.eva.cur.isSome || (s.earlier o fun q => q.opcode = opEvaluate && !q.ran) then s
    else if s.anyHeldBack o.slot none o.cred (wordsFor o.credLen) then s
    else if o.dep && s.llOkFor o = some false then engSweep (finish o.id { Answer.of stLifeline with extra := 2 } [] none s)
    else if !(s.inPartition o.slot o.prog 1 && s.inPartition o.slot o.cred (wordsFor o.credLen)) then
      engSweep (finish o.id { Answer.of stIsolation with extra := 2 } [.violation 2 (BitVec.ofNat 16 o.ring.val)] none s)
    else startEval o s

def execEvaluate (id : Nat) (s : State) : Host.Outcome State Fault Refusal := .next (evaluate id s)

/-! ## Instructions (Tables EVA-3, EVA-4) -/

def insRd (w : Word128) : Fin 16 := finOf 16 (field w 11 8)
def insRa (w : Word128) : Fin 16 := finOf 16 (field w 15 12)
def insRb (w : Word128) : Fin 16 := finOf 16 (field w 19 16)
def insF (w : Word128) : Nat := field w 23 20
def insF0 (w : Word128) : Bool := flag w 20
def insF1 (w : Word128) : Bool := flag w 21
def insCond (w : Word128) : BitVec 2 := (w >>> 22).setWidth 2
def insA (w : Word128) : Nat := field w 63 32
def insImm (w : Word128) : Word64 := half w true

/-- Bits that an opcode uses, OP included. -/
def insFields (op : Nat) : List (Nat × Nat) :=
  match op with
  | 0x01 => [(11, 8), (127, 64)]
  | 0x02 => [(15, 8)]
  | 0x03 => [(15, 8), (21, 20), (49, 32)]
  | 0x04 => [(19, 8), (23, 21), (49, 32)]
  | 0x05 => [(15, 8), (23, 21), (49, 32), (66, 64), (127, 96)]
  | 0x10 => [(19, 8)]
  | 0x11 => [(19, 8)]
  | 0x12 => [(19, 8)]
  | 0x13 => [(19, 8)]
  | 0x14 => [(19, 8)]
  | 0x15 => [(15, 8), (37, 32)]
  | 0x16 => [(15, 8), (37, 32)]
  | 0x17 => [(15, 8), (127, 64)]
  | 0x20 => [(19, 12), (43, 32)]
  | 0x21 => [(19, 12), (43, 32)]
  | 0x22 => [(19, 12), (43, 32)]
  | 0x23 => [(19, 12), (43, 32)]
  | 0x24 => [(15, 12), (43, 32), (69, 64)]
  | 0x25 => [(43, 32)]
  | 0x30 => [(19, 8), (49, 32)]
  | 0x31 => [(11, 8), (35, 32)]
  | 0x32 => [(15, 12), (20, 20), (34, 32)]
  | 0x33 => [(47, 32)]
  | 0x3F => [(21, 20), (47, 32)]
  | _ => []

/-- The opcode is one of Table EVA-4. -/
def knownOp (op : Nat) : Bool := !(insFields op).isEmpty

/-- Fields the opcode does not use are zero, and COND, item, slot and verdict are not reserved (R343). -/
def insOk (w : Word128) : Bool :=
  let op := field w 7 0
  let a := insA w
  knownOp op && w &&& ~~~maskOf ((7, 0) :: insFields op) = 0 &&
    match op with
    | 0x04 => insCond w ≠ 0
    | 0x05 => insCond w ≠ 0
    | 0x31 => a < 8
    | 0x32 => 5 ≤ a && a + (if insF0 w then 1 else 0) ≤ 7
    | 0x3F => field w 21 20 ≠ 0
    | _ => true

/-- What the fetch of the next instruction gives. -/
inductive Fetched where
  | none
  | word (w : Word128)
  | ended (s : State)

/-- Fetch the instruction at the index: budget, range, partition, data (R344, Table EVA-6). -/
def fetchInsn (s : State) : State × Fetched :=
  match s.eva.cur with
  | none => (s, .none)
  | some e =>
    if e.phase ≠ .running then (s, .none)
    else if 2048 ≤ e.steps then (s, .ended (trapEval trapSteps s))
    else if 4095 < e.pc then (s, .ended (trapEval trapPc s))
    else if s.heldBack e.slot e.ll ((e.prog + e.pc) % 262144) then (s, .none)
    else match s.windowKey e.slot ((e.prog + e.pc) % 262144) with
      | none => (s, .ended (trapIsolation s))
      | some k => match demandRead k s with
        | (s, .bad _) => (s, .ended (trapEval trapFetch s))
        | (s, .ok w _) => (s, .word w)

/-- Effective address (R343). -/
def effAddr (w : Word128) (e : Eval) : Nat :=
  (field w 49 32 + if insF1 w then field e.wr[insRa w] 17 0 else 0) % 262144

/-- The instruction reads a word that is held back: LDW and ADDW their word, FIND any word of its table (R359). -/
def State.insnWaits (s : State) (w : Word128) (e : Eval) : Bool :=
  match field w 7 0 with
  | 0x03 => s.heldBack e.slot e.ll (effAddr w e)
  | 0x05 => s.heldBack e.slot e.ll (effAddr w e)
  | 0x30 => s.anyHeldBack e.slot e.ll (field w 49 32) (field e.wr[insRb w] 12 0)
  | _ => false

/-- Run the next instruction when its opcode is `op`: a step is counted, the index moves on, and `act` does the rest.  An instruction of
another opcode is another command's; one that reads a word held back waits. -/
def runInsn (op : Nat) (act : Word128 → Eval → State → State) (s : State) : State :=
  match fetchInsn s with
  | (_, .none) => s
  | (_, .ended t) => t
  | (t, .word w) =>
    if field w 7 0 ≠ op || (s.eva.cur.map fun e => s.insnWaits w e).getD false then s
    else if !insOk w then trapEval trapInsn (t.modEval fun e => { e with steps := e.steps + 1 })
    else
      let t := t.modEval fun e => { e with steps := e.steps + 1, pc := e.pc + 1 }
      match t.eva.cur with
      | none => t
      | some e => act w e t

/-- A trap in an instruction names that instruction's index. -/
def trapAt (code : BitVec 12) (s : State) : State := trapEval code (s.modEval fun e => { e with pc := e.pc - 1 })
def trapIsoAt (s : State) : State := trapIsolation (s.modEval fun e => { e with pc := e.pc - 1 })

def setWr (rd : Fin 16) (v : Word64) (s : State) : State := s.modEval fun e => { e with wr := upd e.wr rd fun _ => v }

/-- The newest listed value of a word (R346). -/
def listedAt (l : List Listed) (a : Nat) : Option Word128 := l.reverse.findSome? fun x => if x.addr = a then some x.data else none

/-- What a word read by an instruction gives. -/
inductive EvaRead where
  | ok (d : Word128)
  | iso
  | unc

def evaRead (e : Eval) (a : Nat) (s : State) : State × EvaRead :=
  match s.windowKey e.slot a with
  | none => (s, .iso)
  | some k =>
    match listedAt e.list a with
    | some d => (s, .ok d)
    | none => match demandRead k s with
      | (s, .ok d _) => (s, .ok d)
      | (s, .bad _) => (s, .unc)

/-- Read a word and go on, or trap. -/
def withWord (e : Eval) (a : Nat) (f : Word128 → State → State) (s : State) : State :=
  match evaRead e a s with
  | (s, .ok d) => f d s
  | (s, .iso) => trapIsoAt s
  | (s, .unc) => trapAt trapData s

/-- List a write; a ninth traps (R346). -/
def listWrite (e : Eval) (a : Nat) (d : Word128) (c : BitVec 2) (s : State) : State :=
  if 8 ≤ e.list.length then trapAt trapList s
  else s.modEval fun e => { e with list := e.list ++ [{ addr := a, data := d, cond := c }] }

/-- WR[RD] of two registers. -/
def aluWork (f : Word64 → Word64 → Word64) (w : Word128) (e : Eval) (s : State) : State :=
  setWr (insRd w) (f e.wr[insRa w] e.wr[insRb w]) s

/-- Jump to A[11:0] when the condition holds. -/
def jumpIf (b : Bool) (w : Word128) (s : State) : State := if b then s.modEval fun e => { e with pc := field w 43 32 } else s

def ldiWork (w : Word128) (_e : Eval) (s : State) : State := setWr (insRd w) (insImm w) s
def movWork (w : Word128) (e : Eval) (s : State) : State := setWr (insRd w) e.wr[insRa w] s
def ldwWork (w : Word128) (e : Eval) (s : State) : State :=
  withWord e (effAddr w e) (fun d s => setWr (insRd w) (half d (insF0 w)) s) s

/-- STW: the word is {WR[RB], WR[RD]}. -/
def stwWork (w : Word128) (e : Eval) (s : State) : State :=
  let a := effAddr w e
  match s.windowKey e.slot a with
  | none => trapIsoAt s
  | some _ => listWrite e a (e.wr[insRb w] ++ e.wr[insRd w]) (insCond w) s

/-- ADDW: RD receives the lane as it was; the word is listed with the lane plus the addend, wrapping or clamped. -/
def addwWork (w : Word128) (e : Eval) (s : State) : State :=
  let a := effAddr w e
  withWord e a (fun d s =>
    let lane := field w 65 64
    let old := regOfWord d lane
    let r := addLane old ((w >>> 96).setWidth 32) (flag w 66)
    setWr (insRd w) (old.setWidth 64) (listWrite e a (setRegOfWord d lane r.1) (insCond w) s)) s

def shlWork (w : Word128) (e : Eval) (s : State) : State := setWr (insRd w) (e.wr[insRa w] <<< field w 37 32) s
def shrWork (w : Word128) (e : Eval) (s : State) : State := setWr (insRd w) (e.wr[insRa w] >>> field w 37 32) s
def addiWork (w : Word128) (e : Eval) (s : State) : State := setWr (insRd w) (e.wr[insRa w] + insImm w) s
def beqWork (w : Word128) (e : Eval) (s : State) : State := jumpIf (e.wr[insRa w] = e.wr[insRb w]) w s
def bneWork (w : Word128) (e : Eval) (s : State) : State := jumpIf (e.wr[insRa w] ≠ e.wr[insRb w]) w s
def bltuWork (w : Word128) (e : Eval) (s : State) : State := jumpIf (e.wr[insRa w] < e.wr[insRb w]) w s
def bgeuWork (w : Word128) (e : Eval) (s : State) : State := jumpIf (e.wr[insRb w] ≤ e.wr[insRa w]) w s
def bbsWork (w : Word128) (e : Eval) (s : State) : State := jumpIf (e.wr[insRa w].getLsbD (field w 69 64)) w s
def jmpWork (w : Word128) (_e : Eval) (s : State) : State := jumpIf true w s

/-- The probes of FIND: each reads one word and counts one step; the first is the instruction's own (R344, R345). -/
def findGo (e : Eval) (base : Nat) (key : Word64) (rd : Fin 16) : Nat → Bool → Nat → Nat → State → State
  | 0, _, _, _, s => setWr rd 0 s
  | f + 1, first, lo, hi, s =>
    if lo < hi then
      let steps := (s.eva.cur.map (·.steps)).getD 0
      if !first && 2048 ≤ steps then trapAt trapSteps s
      else
        let s := if first then s else s.modEval fun e => { e with steps := e.steps + 1 }
        let mid := (lo + hi) / 2
        withWord e ((base + mid) % 262144) (fun d s =>
          let k := half d false
          if k = key then setWr rd (bitAt 63 true ||| at_ 0 mid) s
          else if k < key then findGo e base key rd f false (mid + 1) hi s
          else findGo e base key rd f false lo mid s) s
    else setWr rd 0 s

def findWork (w : Word128) (e : Eval) (s : State) : State :=
  let count := field e.wr[insRb w] 12 0
  if 4096 < count then trapAt trapInsn s else findGo e (field w 49 32) e.wr[insRa w] (insRd w) 14 true 0 count s

def senseWork (w : Word128) (e : Eval) (s : State) : State :=
  match s.senseItem e.steps (insA w) with
  | some v => setWr (insRd w) v s
  | none => trapAt trapInsn s

/-- SNAP: slots 5 to 7 of the verdict stitch. -/
def snapWork (w : Word128) (e : Eval) (s : State) : State :=
  let i := insA w - 5
  let v := e.wr[insRa w]
  s.modEval fun e =>
    let z := upd e.snap (finOf 3 i) fun _ => v.setWidth 32
    { e with snap := if insF0 w then upd z (finOf 3 (i + 1)) fun _ => (v >>> 32).setWidth 32 else z }

/-- The GRANT stitch of an evaluation, with its snapshots taken now. -/
def grantStitch (e : Eval) (reason : BitVec 16) (s : State) : Stitch :=
  { mkStitch s Ev.evaGrant.code e.slot 0 (verdictSlots e verdictGrant reason 0 s) with cls0 := true }

/-- HINT: the first one opens the pre-arm lifeline, arms the driver and stages a GRANT stitch; one that cannot be staged for want of a
position leaves that to the verdict, and one that waits holds the evaluator (R348, R398, R402). -/
def hintWork (reason : BitVec 16) (e : Eval) (s s0 : State) : State :=
  match e.hinted || !flag s.eva.ctl 0 || !flag s.eng.ctl 0 || s.eva.fault, s.freeLine with
  | true, _ => s.modEval fun e => { e with hinted := true }
  | false, none => s.modEval fun e => { e with hinted := true }
  | false, some k =>
    let s := s.modEval fun e => { e with hinted := true, ll := some k }
    let s := (openLine k (.eva e.op) e.ring [] s).modEva fun v => { v with armed := true }
    match stage (grantStitch { e with ll := some k } reason s) s with
    | .full => s
    | .wait => s0
    | .done s => s.modEval fun e => { e with
        staged := true, seq := (s.log.chans[e.slot].staged.map (·.seq)).getD 0 }

/-! ## Verdicts (R349 to R351) -/

/-- END or a trap at END: GRANT waits for its group, unless the pair has a fault; DENY and DEFER are final. -/
def endWork (w : Word128) (_e : Eval) (s : State) : State :=
  let reason : BitVec 16 := BitVec.ofNat 16 (field w 47 32)
  let v : BitVec 2 := (w >>> 20).setWidth 2
  let s := s.modEval fun e => { e with pc := e.pc - 1 }
  if v = verdictGrant then
    if s.eva.fault then refuse_ verdictDefer reason trapRelease s
    else s.modEval fun e => { e with phase := .grantWait reason }
  else refuse_ v reason 0 s

/-- Stage the GRANT stitch at the verdict when no HINT has (R349 step 1). -/
def stageAtVerdict (e : Eval) (reason : BitVec 16) (s : State) : Staging :=
  if e.staged then .done s
  else match stage (grantStitch e reason s) s with
    | .done s => .done (s.modEval fun e => { e with staged := true, seq := (s.log.chans[e.slot].staged.map (·.seq)).getD 0 })
    | r => r

/-- The GRANT group is accepted whole, ahead of every other writer, or not at all: the mark is placed, the lifeline released, the driver armed;
while RELEASE_FAULT is set a GRANT becomes DEFER before any mark (R349, R354). -/
def grantGroup (s : State) : State :=
  match s.eva.cur with
  | none => s
  | some e =>
    match e.phase with
    | .grantWait reason =>
      if s.eva.fault then refuse_ verdictDefer reason trapRelease s
      else match stageAtVerdict e reason s with
        | .full => refuse_ verdictDefer reason trapLog s
        | .wait => s
        | .done t =>
          match t.eva.cur, t.log.chans[e.slot].staged with
          | some e, some p =>
            let m := t.markWrite p
            match acceptAll (t.listWrites e.slot (matching verdictGrant e.list) ++ m.2) t with
            | none => t
            | some t =>
              let t := countVerdict e verdictGrant 0 (marked m.1 t)
              let t := match e.ll with
                | some k => releaseLine k t
                | none => t
              let t := t.modEva fun v => { v with armed := true }
              engSweep (t.modEval fun e => { e with
                ll := none, staged := false, list := [], verdict := verdictGrant, trap := 0, seq := p.seq, phase := .driveWait })
          | _, _ => t
    | _ => s

def execGrantGroupAccept (s : State) : Host.Outcome State Fault Refusal := .next (grantGroup s)

/-- MARK_WAIT passes before the group is accepted: none of it is issued, and the evaluation becomes DEFER (R351). -/
def markWaitExpire (s : State) : State :=
  match s.eva.cur with
  | none => s
  | some e => match e.phase with
    | .grantWait reason => refuse_ verdictDefer reason trapMark s
    | _ => s

def execMarkWaitExpire (s : State) : Host.Outcome State Fault Refusal := .next (markWaitExpire s)

/-- A queued verdict stitch has its number: the evaluation completes with it (R340). -/
def verdictRecorded (op : Nat) (seq : Word32) (s : State) : State :=
  match s.eva.cur with
  | some e => if e.op = op then evalComplete seq s else s
  | none => s

/-- The recorder's queue has room again: a verdict stitch that waited for it goes in (R402). -/
def verdictRetry (s : State) : State :=
  match s.eva.cur with
  | none => s
  | some e => match e.phase with
    | .stitchWait code slots => writeVerdict code slots s
    | _ => s

/-! ## The instruction commands -/

def execLdi (s : State) : Host.Outcome State Fault Refusal := .next (runInsn 0x01 ldiWork s)
def execMov (s : State) : Host.Outcome State Fault Refusal := .next (runInsn 0x02 movWork s)
def execLdw (s : State) : Host.Outcome State Fault Refusal := .next (runInsn 0x03 ldwWork s)
def execStw (s : State) : Host.Outcome State Fault Refusal := .next (runInsn 0x04 stwWork s)
def execAddw (s : State) : Host.Outcome State Fault Refusal := .next (runInsn 0x05 addwWork s)
def execEvaAdd (s : State) : Host.Outcome State Fault Refusal := .next (runInsn 0x10 (aluWork (· + ·)) s)
def execSub (s : State) : Host.Outcome State Fault Refusal := .next (runInsn 0x11 (aluWork (· - ·)) s)
def execAnd (s : State) : Host.Outcome State Fault Refusal := .next (runInsn 0x12 (aluWork (· &&& ·)) s)
def execOr (s : State) : Host.Outcome State Fault Refusal := .next (runInsn 0x13 (aluWork (· ||| ·)) s)
def execXor (s : State) : Host.Outcome State Fault Refusal := .next (runInsn 0x14 (aluWork (· ^^^ ·)) s)
def execShl (s : State) : Host.Outcome State Fault Refusal := .next (runInsn 0x15 shlWork s)
def execShr (s : State) : Host.Outcome State Fault Refusal := .next (runInsn 0x16 shrWork s)
def execAddi (s : State) : Host.Outcome State Fault Refusal := .next (runInsn 0x17 addiWork s)
def execBeq (s : State) : Host.Outcome State Fault Refusal := .next (runInsn 0x20 beqWork s)
def execBne (s : State) : Host.Outcome State Fault Refusal := .next (runInsn 0x21 bneWork s)
def execBltu (s : State) : Host.Outcome State Fault Refusal := .next (runInsn 0x22 bltuWork s)
def execBgeu (s : State) : Host.Outcome State Fault Refusal := .next (runInsn 0x23 bgeuWork s)
def execBbs (s : State) : Host.Outcome State Fault Refusal := .next (runInsn 0x24 bbsWork s)
def execJmp (s : State) : Host.Outcome State Fault Refusal := .next (runInsn 0x25 jmpWork s)
def execFind (s : State) : Host.Outcome State Fault Refusal := .next (runInsn 0x30 findWork s)
def execSense (s : State) : Host.Outcome State Fault Refusal := .next (runInsn 0x31 senseWork s)
def execSnap (s : State) : Host.Outcome State Fault Refusal := .next (runInsn 0x32 snapWork s)

def execHint (s : State) : Host.Outcome State Fault Refusal :=
  .next (runInsn 0x33 (fun w e t => hintWork (BitVec.ofNat 16 (field w 47 32)) e t s) s)

def execEndProg (s : State) : Host.Outcome State Fault Refusal := .next (runInsn 0x3F endWork s)

/-- A reserved opcode traps BAD_INSN; the fetch's own traps fold in as for the others (R343, R347). -/
def badInsn (s : State) : State :=
  match fetchInsn s with
  | (_, .none) => s
  | (_, .ended t) => t
  | (t, .word w) =>
    if knownOp (field w 7 0) then s else trapEval trapInsn (t.modEval fun e => { e with steps := e.steps + 1 })

def execBadInsn (s : State) : Host.Outcome State Fault Refusal := .next (badInsn s)

end Sys2Proof.Machine
end

