-- ==== Sys2Proof/Machine/Release.lean ====
section
/-! DEFINITION. The release pair and the emergency unlock (R353 to R357, R360, R362, R364, R400, R440). -/

namespace Sys2Proof.Machine

/-! ## The pair (R353, R354) -/

/-- A pulse or the hold has ended: with nothing left running the driver is disarmed, unless an evaluation has armed it (log entry 38). -/
def afterDrive (pulse : Bool) (s : State) : State :=
  let s := s.modEva fun v => { v with
    lastEnd := some s.life.ms, lastPulse := if pulse then some s.life.ms else v.lastPulse }
  if (s.eva.cur.map fun e => e.ll.isSome || e.phase = .driveWait).getD false then s else disarm s

/-- GAP has passed since the end of the previous pulse; a pair that is in its release state need not wait (R349). -/
def State.gapOver (s : State) : Bool :=
  s.released || match s.eva.lastPulse with
    | none => true
    | some t => field s.eva.ctl 23 16 ≤ s.life.ms - t

/-- The pair is driven for the evaluation whose group has been accepted: a pulse of `REL_PULSE.LEN` × 20 ms of the slot starts (R353).  With VIO low or a release fault the
verdict stands and the pair is not driven (R349, R354, R360). -/
def pairDrive (s : State) : State :=
  match s.eva.cur with
  | none => s
  | some e =>
    if e.phase ≠ .driveWait then s
    else if !s.power.vioOk || s.eva.fault then evalComplete e.seq (disarm s)
    else if !s.gapOver || !s.eva.armed then s
    else evalComplete e.seq (s.modEva fun v => { v with pulses := v.pulses ++ [{ slot := e.slot, left := 20 * s.tenants[e.slot].pulseLen.toNat }] })

def execPairDrive (s : State) : Host.Outcome State Fault Refusal := .next (pairDrive s)

/-- Slots of the pulses under way. -/
def Eva.pulseSlots (v : Eva) : List (Fin 8) := v.pulses.map (·.slot)

/-- The time of the oldest pulse of a slot is over. -/
def pulseEnd (n : Fin 8) (s : State) : State :=
  if s.eva.pulseSlots.contains n then
    afterDrive true (s.modEva fun v => { v with pulses := eraseFirst (fun q => decide (q.slot = n)) v.pulses })
  else s

def execPulseEnd (slot : Fin 8) (s : State) : Host.Outcome State Fault Refusal := .next (pulseEnd slot s)

/-- End the hold, with nothing of it left to resume. -/
def endHold (s : State) : State :=
  let was := s.eva.hold
  let s := s.modEva fun v => { v with hold := false, holdMs := 0 }
  if was then afterDrive false s else s

/-- End every pulse at once. -/
def endPulses (s : State) : State :=
  if s.eva.pulses.isEmpty then s else afterDrive true (s.modEva fun v => { v with pulses := [] })

/-- `REL_STAT` (Table EVA-9). -/
def State.relStat (s : State) : Word32 :=
  orAll [bitAt 0 (!s.eva.pulses.isEmpty), bitAt 1 s.eva.hold, bitAt 2 s.eva.armed, bitAt 8 s.eva.fault, at_ 9 s.eva.faultPin.toNat,
    at_ 16 (min 0xFFFF ((s.eva.holdMs + 999) / 1000))]

/-- A pin has differed from its driven level for 10 us: non-release levels, FAULT with its pins, a RELEASE_FAULT stitch, LIMP (R354, R426).
A mismatch while FAULT is set, or with PORT off or VIO low, has no further effect. -/
def releaseFault (pins : BitVec 2) (s : State) : State :=
  if s.eva.fault || pins = 0 || !s.running || !s.power.vioOk then s
  else
    let s := endHold (endPulses s)
    let s := s.modEva fun v => { v with fault := true, faultPin := pins }
    let s := raise .releaseFault 0 [s.relStat] s
    limpFault faultRelease (pins.setWidth 32) s

def execReleaseFault (pins : BitVec 2) (s : State) : Host.Outcome State Fault Refusal := .next (releaseFault pins s)

/-- Writing 1 to `REL_STAT.FAULT` clears it only if the readback matches the non-release levels (R354). -/
def relFaultClear (ok : Bool) (s : State) : State :=
  if s.eva.fault && ok then clearFault faultRelease (s.modEva fun v => { v with fault := false, faultPin := 0 }) else s

def execRelStatFaultClear (p : Port) (readbackOk : Bool) (s : State) : Host.Outcome State Fault Refusal :=
  .next (atSlot0 p 0x1C20 (relFaultClear readbackOk) s)

/-! ## Emergency orders (R355, R356) -/

def ordKind (w0 : Word128) : Nat := field w0 7 0
def ordHold (w0 : Word128) : Nat := field w0 31 16
def ordNo (w0 : Word128) : Word32 := regOfWord w0 1
def ordTime (w0 : Word128) : Nat := field w0 95 64
def ordScope (w0 : Word128) : Nat := field w0 111 96
def ordSite (w0 : Word128) : Nat := field w0 127 112

def emergEn (v : Word32) : Bool := flag v 0
def emergEp (v : Word32) : Nat := field v 6 4
def emergWindow (v : Word32) : Nat := field v 15 8
def emergMax (v : Word32) : Nat := field v 31 16

/-- The group address is one of an enabled `MAC_GROUP_i`. -/
def State.groupEnabled (s : State) (a : Nat) : Bool := s.mac.groups.toList.any fun g => flag g 16 && field g 15 0 = a

/-- The slot's SIGN keys, ACTIVE or RETIRED. -/
def State.signKeys (s : State) (n : Fin 8) : List Word128 :=
  [0, 1, 2].filterMap fun j =>
    let k := s.keys[keyNo n j]
    if k.use = useSign && (k.st = .active || k.st = .retired) then some k.key else none

/-- Result of the checks of R356, in order: 1 ACCEPTED, else 1 more than the number of the first check that fails. -/
def State.orderResult (s : State) (n : Fin 8) (w0 w1 : Word128) : Nat :=
  let issue := ordTime w0
  if !emergEn s.eva.emerg then 2
  else if s.tenants[n].role ≠ .safety then 3
  else if ordKind w0 ≠ 1 && ordKind w0 ≠ 2 then 4
  else if ordSite w0 ≠ s.siteId.toNat then 5
  else if ordScope w0 ≠ 0xFFFF && !s.groupEnabled (ordScope w0) then 6
  else if ordNo w0 ≤ s.eva.emergNo then 7
  else if !(s.signKeys n).any (fun k => cmac64 k (bytesOf w0) = w1.setWidth 64) then 8
  else if s.sns.trusted && 60 * emergWindow s.eva.emerg < (max issue s.sns.time - min issue s.sns.time) then 9
  else 1

/-- Snapshots of an emergency stitch: the order word, and the hold end in seconds from acceptance (Table REC-4). -/
def orderSlots (w0 : Word128) (hold : Nat) : List Word32 := (List.range 4).map (regOfWord w0) ++ [snap32 hold]

/-- Seconds of hold that an order asks for, limited (R356). -/
def State.holdSecs (s : State) (w0 : Word128) : Nat := min (ordHold w0) (emergMax s.eva.emerg)

/-- The hold is started or extended to `ms` from now, for this order. -/
def startHold (n : Fin 8) (w0 : Word128) (ms : Nat) (s : State) : State :=
  s.modEva fun v => { v with
    hold := true, armed := true, holdMs := max v.holdMs ms, holdOrder := w0, holdOwner := s.tenants[n].owner }

/-- The EMERG_UNLOCK stitch of an order. -/
def emergStitch (q : EmergWait) (s : State) : Stitch :=
  { mkStitch s Ev.emergUnlock.code q.slot 0 (orderSlots q.w0 (s.holdSecs q.w0)) with cls0 := true }

/-- Stage the EMERG_UNLOCK stitch, mark it, and drive; what is left waits (R356).  A full channel drops the stitch and the order (R395, R440). -/
def emergMark (q : EmergWait) (s : State) : State :=
  let staged : Staging := if q.staged then .done s else stage (emergStitch q s) s
  match staged with
  | .full => (admitStitch (emergStitch q s) s).1.modEva fun v => { v with emergQ := none }
  | .wait => s.modEva fun v => { v with emergQ := some q }
  | .done t =>
    match t.log.chans[q.slot].staged with
    | none => t.modEva fun v => { v with emergQ := none }
    | some p =>
      let m := t.markWrite p
      match acceptAll m.2 t with
      | none => t.modEva fun v => { v with emergQ := some { q with staged := true } }
      | some t =>
        let t := (marked m.1 t).modEva fun v => { v with emergQ := none }
        if t.power.vioOk && !t.eva.fault then startHold q.slot q.w0 q.hold t else t

/-- An order whose mark has not been accepted lapses: EMERG_LAPSED, in the staged stitch's place if it was staged (R356, R399, R400). -/
def lapse (q : EmergWait) (s : State) : State :=
  let s := s.modEva fun v => { v with emergQ := none }
  let slots := orderSlots q.w0 (s.holdSecs q.w0)
  let s := if q.staged then frogStaged q.slot s else s
  if s.log.chans[q.slot].reuse.isSome then queueReplacement Ev.emergLapsed.code q.slot slots id s
  else raise .emergLapsed q.slot slots s

/-- A refused order: its result, and EMERG_REFUSED on the SAFETY slot's channel when there is one; a refused order has no hold end, so that
snapshot is free (log entry 39). -/
def refuseOrder (r : Nat) (w0 : Word128) (s : State) : State :=
  let s := s.modEva fun v => { v with emergRes := BitVec.ofNat 4 r }
  match s.safetySlot with
  | none => s
  | some n => s.draw fun v s => raise .emergRefused n ([snap32 r] ++ orderSlots w0 (field v 31 0)) s

/-- An accepted order: its number is stored; UNLOCK is marked and drives, CANCEL ends the hold and what waits to start one. -/
def acceptOrder (n : Fin 8) (w0 : Word128) (s : State) : State :=
  let s := sysIssue [sysHalf (.emerg (ordNo w0)) .A n 0] (s.modEva fun v => { v with emergRes := 1, emergNo := ordNo w0 })
  if ordKind w0 = 1 then
    emergMark { slot := n, w0 := w0, hold := 1000 * s.holdSecs w0, staged := false } s
  else
    let s := match s.eva.emergQ with
      | some q => lapse q s
      | none => s
    raise .emergCancel n (orderSlots w0 0) (endHold s)

/-- The emergency path is idle and the recorder's queue has room for its stitch; a new UNLOCK waits behind one whose mark waits (R402). -/
def State.orderReady (s : State) (w0 : Word128) : Bool := s.queueRoom && (s.eva.emergQ.isNone || ordKind w0 = 2)

/-- An order offered to the evaluator by slot n (R355, R356); a suspended slot's orders are stopped before (R357). -/
def emergOrder (n : Fin 8) (w0 w1 : Word128) (s : State) : State :=
  if !s.running || s.tenants[n].st = .suspended then s
  else if !s.orderReady w0 then s.modEva fun v => { v with emergHeld := some (n, w0, w1) }
  else
    let r := s.orderResult n w0 w1
    if r = 1 then acceptOrder n w0 s else refuseOrder r w0 s

/-- An UNLOCK order, or one of a kind that is none; a CANCEL is another command's. -/
def unlockOrder (n : Fin 8) (w0 w1 : Word128) (s : State) : State := if ordKind w0 = 2 then s else emergOrder n w0 w1 s

def execUnlockOrder (sender : Fin 8) (w0 w1 : Word128) (s : State) : Host.Outcome State Fault Refusal := .next (unlockOrder sender w0 w1 s)

/-- A CANCEL order, or one of a kind that is none. -/
def cancelOrder (n : Fin 8) (w0 w1 : Word128) (s : State) : State := if ordKind w0 = 1 then s else emergOrder n w0 w1 s

def execCancelOrder (sender : Fin 8) (w0 w1 : Word128) (s : State) : Host.Outcome State Fault Refusal := .next (cancelOrder sender w0 w1 s)

/-- What waits is tried again: the mark of an accepted order, then an order held for the recorder (R356, R402). -/
def emergRetry (s : State) : State :=
  let s := match s.eva.emergQ with
    | some q => emergMark q s
    | none => s
  match s.eva.emergHeld with
  | none => s
  | some (n, w0, w1) => if s.orderReady w0 then emergOrder n w0 w1 (s.modEva fun v => { v with emergHeld := none }) else s

def execEmergMarkRetry (s : State) : Host.Outcome State Fault Refusal := .next (emergRetry s)

/-- A hold time runs out: that of the order whose mark still waits, or of the running hold (R356, R400). -/
def holdEnd (s : State) : State :=
  match s.eva.emergQ with
  | some q => if !s.eva.hold || q.hold ≤ s.eva.holdMs then lapse q s else endHold s
  | none => if s.eva.hold then endHold s else s

def execHoldEnd (s : State) : Host.Outcome State Fault Refusal := .next (holdEnd s)

/-! ## Stops and READY (R80, R360, R362, R364) -/

/-- VIO has fallen: every pulse and the hold end and are not resumed, with a RELEASE_VIO stitch, whether or not one ran (R360; log entry 40). -/
def releaseVio (s : State) : State :=
  let s := (endHold (endPulses s)).modEva fun v => { v with holdMs := 0 }
  raise .releaseVio 0 [s.relStat] s

/-- A stop holds the pair in its non-release state at once; the hold's remainder stays for a restart that keeps AON (R364). -/
def safePair (s : State) : State :=
  s.modEva fun v => { v with
    pulses := [], hold := false, armed := false, emergQ := none, emergHeld := none
    lastEnd := if s.released then some s.life.ms else v.lastEnd
    lastPulse := if s.eva.pulses.isEmpty then v.lastPulse else some s.life.ms }

/-- READY is asserted with time of a hold left: it resumes, or lapses when the SAFETY slot has changed owner or the path is off (R364). -/
def resumeHold (s : State) : State :=
  if s.eva.holdMs = 0 then s
  else
    let w0 := s.eva.holdOrder
    let secs := (s.eva.holdMs + 999) / 1000
    match s.safetySlot with
    | some n =>
      if s.tenants[n].owner = s.eva.holdOwner && emergEn s.eva.emerg then
        raise .emergResumed n (orderSlots w0 secs) (s.modEva fun v => { v with hold := true, armed := true })
      else raise .emergLapsed n (orderSlots w0 secs) (s.modEva fun v => { v with holdMs := 0 })
    | none => s.modEva fun v => { v with holdMs := 0 }

/-- A transfer of the SAFETY slot ends a running hold (R362). -/
def transferHold (n : Fin 8) (s : State) : State :=
  if s.tenants[n].role = .safety then endHold (s.modEva fun v => { v with emergQ := none, emergHeld := none }) else s

end Sys2Proof.Machine
end

