-- ==== Sys2Proof/Machine/Recorder.lean ====
section
/-! DEFINITION. Recorder commands: offering, chain tags, class changes, bindings, clears, posts, reads and the audit read
(R385, R391, R397, R402, R405 to R408, R413, R414). -/

namespace Sys2Proof.Machine

/-! ## Clearing a channel (R397, R413) -/

/-- The message of a clear code. -/
def clearMessage (s : State) (n : Fin 8) : List Byte :=
  let h := s.log.chans[n].head
  s.longBytes ++ [0xC1, BitVec.ofNat 8 n.val, h.epoch, 0] ++ bytesLE 4 (h.chidx.setWidth 32)

def State.clearCodeOk (s : State) (n : Fin 8) : Bool :=
  match s.siteAuth with
  | some k => cmac64 k (clearMessage s n) = s.log.clrCode
  | none => false

/-- A staged stitch, or an audit cursor of either port on the channel: the only BUSY cases (R413). -/
def State.clearBusy (s : State) (n : Fin 8) : Bool :=
  s.log.chans[n].staged.isSome ||
    [Port.a, Port.b].any fun p => (s.port p).auditOn && ((s.port p).cursor.map fun c => decide (c.1 = n)).getD false

/-- The transient conditions of R397, a frogged staging's place not yet taken among them. -/
def State.clearWaits (s : State) (n : Fin 8) : Bool :=
  s.log.chans[n].tagging.isSome || s.log.chans[n].reuse.isSome || !s.queueRoom

/-- SEQ of the stitch at a position, when its header can be read. -/
def State.seqAt (s : State) (n : Fin 8) (p : Nat) : Option Word32 :=
  match (s.posKey n p 0).map s.deliver with
  | some (.ok w _) => some (regOfWord w 0)
  | _ => none

def setClrRes (r : BitVec 2) (s : State) : State := s.modLog fun l => { l with clrRes := r, clrWait := none }

/-- Clear into a new epoch: LOG_CLEARED goes ahead of the channel's waiting stitches, to position 0.  The first and last SEQ of a channel
that holds no readable stitch are free (log entry 42). -/
def clearNow (n : Fin 8) (s : State) : State :=
  let h := s.log.chans[n].head
  let tag := s.lastTag n
  s.draw fun v s =>
    let first := (s.seqAt n 0).getD (v.setWidth 32)
    let last := (s.seqAt n (h.pos - 1)).getD ((v >>> 32).setWidth 32)
    let slots := [h.epoch.setWidth 32, h.chidx.setWidth 32] ++ snap64 tag ++ [h.drops.setWidth 32, first, last]
    let st := mkStitch s Ev.logCleared.code n 0 slots
    let s := s.modChan n fun c => { c with
      head := { pos := 0, chidx := 0, epoch := h.epoch + 1, drops := 0, tag := none, tagPos := 0 }, full := false, warned := false }
    let s := if s.capacity n = 0 then dropStitch n s else s.modLog fun l => { l with queue := st :: l.queue }
    setClrRes 0 (writeHead n s)

/-- A clear that has been asked for: BUSY, waiting, AUTH, or done. -/
def clearGo (n : Fin 8) (s : State) : State :=
  if s.clearBusy n then setClrRes 2 s
  else if s.clearWaits n then s.modLog fun l => { l with clrWait := some n }
  else if s.clearCodeOk n then clearNow n s
  else setClrRes 1 s

/-- A clear that waits goes on when its conditions have passed. -/
def clearRetry (s : State) : State :=
  match s.log.clrWait with
  | some n => clearGo n s
  | none => s

/-- `REC_CLR` written with GO; while a clear waits, GO already reads 1 and has no further effect (R12). -/
def recClr (n : Fin 8) (s : State) : State :=
  if s.log.clrWait.isSome then s else clearGo n (s.modLog fun l => { l with clrCh := n })

def execRecClr (p : Port) (ch : Fin 8) (s : State) : Host.Outcome State Fault Refusal := .next (atSlot0 p 0x22E8 (recClr ch) s)

/-! ## Offering and tags -/

/-- The head of the queue is offered; a limited change whose stitch it is completes; then what waited for room in the queue goes in: a verdict, an
order, a clear (R46, R397, R402). -/
def stitchOffer (s : State) : State :=
  match offerNext s with
  | (s, none) => clearRetry s
  | (s, some p) =>
    let s := lcSettle s
    let s := match p.st.forOp with
      | some op => verdictRecorded op p.seq s
      | none => s
    let s := verdictRetry s
    let s := if s.eva.emergHeld.isSome then emergRetry s else s
    clearRetry (reportLost s)

def execStitchOffer (s : State) : Host.Outcome State Fault Refusal := .next (stitchOffer s)

def chainTagDone (n : Fin 8) (s : State) : State := clearRetry (tagDone n s)

def execChainTagDone (ch : Fin 8) (s : State) : Host.Outcome State Fault Refusal := .next (chainTagDone ch s)

/-! ## Classes and bindings (R385, R391) -/

/-- Channel n returns from class M to class C: its value record rewritten with the stitched flag clear, then CLASS_CHANGE, which sets it; LC_AUDIT clears
if the record now agrees (R427). -/
def toClassC (n : Fin 8) (s : State) : State :=
  if s.lc.audit[n].value.getLsbD 0 then
    let s := pairWrite 6 (lcIndex 4 n) 0 (fun s =>
      modRecordAt (lcIndex 4 n) (fun r => { value := 0, old := r.value, count := s.tallies 4 n.val, stitched := false }) s) s
    let s := (raiseWith Ev.classChange.code 0 [snap32 n.val, 0] (fun st => { st with lc := some (lcIndex 4 n) }) s).1
    if s.lcAgrees 4 n then clearFault (lcFault 4) s else s
  else s

/-- `REC_CLASS.TO_C`: each bit set, in ascending order. -/
def recToC (bits : Byte) (s : State) : State := State.each slots (fun n s => if bits.getLsbD n.val then toClassC n s else s) s

def execRecClassToC (p : Port) (bits : Byte) (s : State) : Host.Outcome State Fault Refusal := .next (atSlot0 p 0x220C (recToC bits) s)

/-- A module code that no table lists (R389). -/
def reservedCode (c : BitVec 12) : Bool := !c.msb && (evOf c).isNone

/-- The class-0 codes of Table REC-4, below those of Table LIF-6: fixed. -/
def fixedCode (c : BitVec 12) : Bool := c.toNat < 0xF0 && factoryClass c = 0

def bindLoad (code : BitVec 12) (s : State) : State :=
  s.modLog fun l => { l with bindCode := code, bindOp := false, bindCls := if reservedCode code then 0 else s.classOf code }

def execBindLoad (p : Port) (code : BitVec 12) (s : State) : Host.Outcome State Fault Refusal := .next (atSlot0 p 0x22E0 (bindLoad code) s)

def bindWrite (code : BitVec 12) (cls : BitVec 4) (s : State) : State :=
  let s := s.modLog fun l => { l with bindCode := code, bindOp := true, bindCls := cls }
  if reservedCode code || fixedCode code then s
  else sysPlain bindIdx 0 (s.modLog fun l => { l with
    bind := store code.toNat (if cls = factoryClass code then none else some cls) l.bind })

def execBindWrite (p : Port) (code : BitVec 12) (cls : BitVec 4) (s : State) : Host.Outcome State Fault Refusal :=
  .next (atSlot0 p 0x22E0 (bindWrite code cls) s)

/-! ## Posts (R414) -/

def setPostRes (n : Fin 8) (r : BitVec 4) (s : State) : State := s.modTen n fun t => { t with postRes := r }

/-- The slot's post waits in the queue: `REC_POST_CODE.GO` reads 1. -/
def State.posting (s : State) (n : Fin 8) : Bool := s.log.queue.any fun st => st.post = some n

def recPostGo (n : Fin 8) (code : BitVec 12) (s : State) : State :=
  if s.posting n then s
  else
    let s := s.modTen n fun t => { t with postCode := code }
    if !code.msb then setPostRes n 1 s
    else match raiseWith code n s.tenants[n].postV.toList (fun st => { st with post := some n }) s with
      | (s, .queued) => s
      | (s, .suppressed) => setPostRes n 2 s
      | (s, .dropped) => setPostRes n 3 s
      | (s, .lost) => setPostRes n 4 s

def execRecPost (p : Port) (code : BitVec 12) (s : State) : Host.Outcome State Fault Refusal :=
  .next (atWindow p 0x2300 (fun n => recPostGo n code) s)

/-! ## Reads (R405, R406, R416) -/

def rdOk : BitVec 4 := 0
def rdEnd : BitVec 4 := 1
def rdPending : BitVec 4 := 2
def rdUnmarked : BitVec 4 := 3
def rdBad : BitVec 4 := 4
def rdDenied : BitVec 4 := 5
def rdBadReq : BitVec 4 := 6

/-- RESULT and the window of a port. -/
def setRd (p : Port) (r : BitVec 4) (ws : List Word128) (s : State) : State :=
  s.modPort p fun q => { q with rdResult := r, win := Vector.ofFn fun i => ws.getD i.val 0, liveEnd := r = rdEnd && q.rdMode = 0 }

/-- A position's words as a consumer reads them, and whether all can be read. -/
def readPosition (n : Fin 8) (p : Nat) : Nat → State → State × List Word128 × Bool
  | 0, s => (s, [], true)
  | m + 1, s =>
    let r := readPosition n p m s
    match r.1.posKey n p m with
    | none => (r.1, r.2.1 ++ [poisonWord .check], false)
    | some k => match demandRead k r.1 with
      | (s, .ok d _) => (s, r.2.1 ++ [d], r.2.2)
      | (s, .bad c) => (s, r.2.1 ++ [poisonWord c], false)

/-- What four words that can be read hold (R384, Table REC-6). -/
def positionResult (ws : List Word128) : BitVec 4 :=
  let w (i : Nat) : Word128 := ws.getD i 0
  let t := w 3
  if trailerMark t = markStaged then rdUnmarked
  else if trailerMark t = markDoneByte && (trailerM t || (stitchCrc (w 0) (w 1) (w 2) t).toNat = field t 31 0) then rdOk
  else rdBad

/-- Load the cursor's position into the window. -/
def rdLoad (p : Port) (s : State) : State :=
  match (s.port p).cursor with
  | none => setRd p rdBadReq [] s
  | some (n, pos) =>
    let c := s.log.chans[n]
    let beyond := (s.port p).rdMode = 1 && ((s.seqAt n pos).map fun q => decide ((s.port p).rdLimit < q)).getD false
    let live := (c.staged.map fun x => decide (x.pos = pos)).getD false || (c.reuse.map fun x => decide (x.1 = pos)).getD false
    if c.head.pos ≤ pos || beyond then setRd p rdEnd [] s
    else if live then setRd p rdPending [] s
    else
      let r := readPosition n pos 4 s
      setRd p (if r.2.2 then positionResult r.2.1 else rdBad) r.2.1 r.1

/-- First position of a channel whose SEQ is START or more; headers that cannot be read are counted and passed over (R396, R406). -/
def seekGo (n : Fin 8) (start : Word32) : Nat → Nat → State → State × Nat
  | 0, p, s => (s, p)
  | m + 1, p, s =>
    match s.posKey n p 0 with
    | none => (s, p)
    | some k => match s.deliver k with
      | .ok w c => if start ≤ regOfWord w 0 then (s, p) else seekGo n start m (p + 1) (if c then noteCorrected k s else s)
      | .bad .blank => seekGo n start m (p + 1) s
      | .bad c => seekGo n start m (p + 1) (noteUnc k c s)

/-- SEEK from a port open on slot n: its own channel from the ownership start on, or any channel under an audit read. -/
def seek_ (p : Port) (n : Fin 8) (s : State) : State :=
  let q := s.port p
  if q.auditOn || (q.rdCh = n && s.tenants[n].recOwn ≤ q.rdStart) then
    let s := if q.rdMode = 1 then s.modPort p fun q => { q with rdLimit := if s.log.seq = 0 then 0 else s.log.seq - 1 } else s
    let r := seekGo q.rdCh q.rdStart s.log.chans[q.rdCh].head.pos 0 s
    rdLoad p (r.1.modPort p fun z => { z with cursor := some (q.rdCh, r.2) })
  else setRd p rdDenied [] (violate n 5 q.rdCh.val s)

/-- NEXT: one position forward, or the same after PENDING or END. -/
def next_ (p : Port) (s : State) : State :=
  let stay := (s.port p).rdResult = rdEnd || (s.port p).rdResult = rdPending
  rdLoad p (s.modPort p fun q => { q with cursor := q.cursor.map fun c => (c.1, if stay then c.2 else c.2 + 1) })

/-- `REC_RD_CTL` written with GO: CH, OP and MODE are held as written. -/
def rdGo (p : Port) (n : Fin 8) (ch : Fin 8) (op mode : BitVec 2) (s : State) : State :=
  let s := s.modPort p fun q => { q with rdCh := ch, rdOp := op, rdMode := mode }
  if (op ≠ 1 && op ≠ 2) || 2 ≤ mode.toNat then setRd p rdBadReq [] s
  else if op = 1 then seek_ p n s
  else next_ p s

def execSeek (p : Port) (ch : Fin 8) (mode : BitVec 2) (s : State) : Host.Outcome State Fault Refusal :=
  .next (atWindow p 0x2344 (fun n => rdGo p n ch 1 mode) s)

def execNext (p : Port) (mode : BitVec 2) (s : State) : Host.Outcome State Fault Refusal :=
  .next (atWindow p 0x2344 (fun n s => rdGo p n (s.port p).rdCh 2 mode s) s)

/-- A GO with a reserved OP or MODE; a valid pair is no such step. -/
def rdBadGo (p : Port) (n : Fin 8) (op mode : BitVec 2) (s : State) : State :=
  if (op = 1 || op = 2) && mode.toNat < 2 then s else rdGo p n (s.port p).rdCh op mode s

def execRecRdBadReq (p : Port) (op mode : BitVec 2) (s : State) : Host.Outcome State Fault Refusal :=
  .next (atWindow p 0x2344 (fun n => rdBadGo p n op mode) s)

/-! ## Audit read (R407) -/

def auditMessage (s : State) (p : Port) : List Byte :=
  s.longBytes ++ [0xAD, BitVec.ofNat 8 (portCode p), 0, 0] ++ bytesLE 4 s.log.audNonce

/-- An attempt from a port open on slot 0: the nonce changes; a code that verifies enables the read and writes AUDIT_OPEN. -/
def auditGo (p : Port) (s : State) : State :=
  let ok : Bool := match s.siteAuth with
    | some k => cmac64 k (auditMessage s p) = s.log.audCode
    | none => false
  let s := s.draw fun v s => s.modLog fun l => { l with audNonce := v.setWidth 32 }
  if ok then
    raise .auditOpen 0 [snap32 (portCode p), 0xFF] (s.modPort p fun q => { q with auditOn := true, cursor := none, liveEnd := false })
  else s

def execAuditGo (p : Port) (s : State) : Host.Outcome State Fault Refusal := .next (atSlot0 p 0x2358 (auditGo p) s)

end Sys2Proof.Machine
end

