-- ==== Sys2Proof/Machine/Sensing.lean ====
section
/-! DEFINITION. Measurements, site time, the usage ledger and its billing periods (R365 to R382). -/

namespace Sys2Proof.Machine

/-! ## Battery, temperature, charge (R365, R367, R369) -/

/-- `SNS_CTL.BAT_LOW` in mV. -/
def State.batLowMv (s : State) : Nat := 20 * field s.sns.ctl 31 24

/-- A battery sample: the register, the store that follows VBAT (R61), the lowest of a frame on air, and BAT_LOW when it first falls below the threshold. -/
def batterySample (mv : BitVec 16) (s : State) : State :=
  let s := (noteBegun s).modPower fun p => p.follow mv.toNat
  let s := s.modSns fun q => { q with batMv := mv }
  let s := if s.phy.txPhase = .onAir then
      s.modSns fun q => { q with txMin := some (match q.txMin with | some m => if m ≤ mv then m else mv | none => mv) }
    else s
  if mv.toNat < s.batLowMv then
    if s.sns.batArm then raise .batLow 0 [mv.setWidth 32] (wakeUp (s.modSns fun q => { q with batArm := false })) else s
  else if s.batLowMv + 100 ≤ mv.toNat then s.modSns fun q => { q with batArm := true }
  else s

def execBatterySample (mv : BitVec 16) (s : State) : Host.Outcome State Fault Refusal := .next (batterySample mv s)

/-- A temperature sample; none is taken asleep. -/
def tempSample (t : BitVec 10) (s : State) : State := if s.power.asleep then s else s.modSns fun q => { q with temp := t }

def execTempSample (t : BitVec 10) (s : State) : Host.Outcome State Fault Refusal := .next (tempSample t s)

/-- A field sample; a burn that has begun by then stays begun (R46). -/
def execFieldSample (x y z : Int) (s : State) : Host.Outcome State Fault Refusal := .next (fieldSample x y z (noteBegun s))

/-- `SNS_CLR.CHG`. -/
def snsClrChg (s : State) : State := s.modSns fun q => { q with pw := { q.pw with chg := 0 }, chgSub := 0 }

def execSnsClrChg (p : Port) (s : State) : Host.Outcome State Fault Refusal := .next (atSlot0 p 0x2024 snsClrChg s)

/-! ## Door and bolt (R368, R382) -/

/-- What a DOOR or BOLT stitch carries: the new state, and 1 for a pair in its release state (log entry 43). -/
def ioSlots (s : State) (new : Bool) : List Word32 := [bitAt 0 new, bitAt 0 s.released]

/-- No pulse or hold has ended within the last `SNS_CTL.FORCE_WIN` seconds. -/
def State.noRecentEnd (s : State) : Bool :=
  match s.eva.lastEnd with
  | none => true
  | some t => decide (1000 * field s.sns.ctl 23 20 < s.life.ms - t)

/-- A DOOR_IN level has been accepted. -/
def doorChange (level : Bool) (s : State) : State :=
  let open' := level != flag s.sns.ctl 16
  let s := s.modSns fun q => { q with doorPin := level }
  if open' = s.sns.door then s
  else
    let s := s.modSns fun q => { q with door := open' }
    let s := if flag s.sns.ctl 18 then wakeUp s else s
    raise (if open' && !s.released && s.noRecentEnd then .doorForced else .door) 0 (ioSlots s open') s

def execDoorChange (level : Bool) (s : State) : Host.Outcome State Fault Refusal := .next (doorChange level s)

/-- A BOLT_IN level has been accepted: low is thrown. -/
def boltChange (level : Bool) (s : State) : State :=
  let thrown := level = flag s.sns.ctl 17
  let s := s.modSns fun q => { q with boltPin := level }
  if thrown = s.sns.bolt then s
  else
    let s := s.modSns fun q => { q with bolt := thrown }
    raise .bolt 0 (ioSlots s thrown) (if flag s.sns.ctl 19 then wakeUp s else s)

def execBoltChange (level : Bool) (s : State) : Host.Outcome State Fault Refusal := .next (boltChange level s)

/-- A write of `SNS_CTL`: an inversion bit that changes inverts what its input reads as, without a stitch (log entry 43). -/
def snsCtlWrite (v : Word32) (s : State) : State :=
  s.modSns fun q => { q with
    ctl := v, door := q.door != (flag v 16 != flag q.ctl 16), bolt := q.bolt != (flag v 17 != flag q.ctl 17) }

/-! ## Period records (R373 to R379) -/

/-- The five counters of a running word, as the record carries them. -/
def LedgerWord.slots (w : LedgerWord) : List Word32 := [w.txSym, w.txFr, w.rxFr, w.writes, w.energy].map snap32

/-- A counter of the word is saturated. -/
def LedgerWord.saturated (w : LedgerWord) : Bool :=
  decide (2 ^ 32 - 1 ≤ w.txSym) || [w.txFr, w.rxFr, w.writes, w.energy].any fun x => decide (2 ^ 24 - 1 ≤ x)

/-- Snapshots of a slot's period record (Table SNS-6). -/
def State.periodSlots (s : State) (n : Fin 8) (skip : Nat) (transfer : Bool) : List Word32 :=
  let q := s.sns
  let w := q.run[n]
  [snap32 q.pw.period] ++ w.slots ++ [snap32 q.pw.hwm,
    orAll [bitAt 0 q.trusted, bitAt 1 q.backstep, bitAt 2 q.fwdstep, bitAt 3 q.unclean, bitAt 4 w.saturated, bitAt 5 transfer,
      at_ 8 (satNat 8 (q.covered[n] + 1)), at_ 16 (satNat 8 (q.skipped[n] + skip))]]

/-- Raise a period record: a full wait queue counts as a channel that cannot take it (R402). -/
def raisePeriod (n : Fin 8) (slots : List Word32) (s : State) : State × Bool :=
  if s.queueRoom || s.freePos n = 0 then
    let r := raiseWith Ev.ledgerPeriod.code n slots id s
    (r.1, decide (r.2 = .queued))
  else (s, false)

/-- The slot's running word starts anew. -/
def zeroRun (n : Fin 8) (s : State) : State :=
  s.modSns fun q => { q with
    run := upd q.run n fun _ => LedgerWord.reset, covered := upd q.covered n fun _ => 0, skipped := upd q.skipped n fun _ => 0 }

/-- Close the open period of a slot; a record that cannot be written leaves the word to be merged (R376, R378). -/
def closePeriod (skip : Nat) (n : Fin 8) (s : State) : State :=
  if s.tenants[n].owned then
    let r := raisePeriod n (s.periodSlots n skip false) s
    if r.2 then zeroRun n r.1
    else r.1.modSns fun q => { q with covered := upd q.covered n (· + 1), skipped := upd q.skipped n (· + skip) }
  else s

/-- Step 6 of an ownership transfer; a slot that was FREE has no period to close (R379). -/
def transferRecord (n : Fin 8) (wasFree : Bool) (s : State) : State :=
  zeroRun n (if wasFree then s else (raisePeriod n (s.periodSlots n 0 true) s).1)

/-! ## Stored words (R377) -/

/-- Write the eight running words, both halves: with the period word and the heads they are the 17 pairs of Table CON-12 (log entry 22: charged to
slot 0). -/
def writeRuns (s : State) : State := State.each slots (fun n s => issueTwin (.ledger n s.sns.run[n]) 0 .ledger s) s

/-- Write the period word, both halves. -/
def writePeriod (s : State) : State := issueTwin (.period s.sns.pw) 0 .ledger s

/-- WB minutes of site time have passed; WB 0 writes only at boundaries and bind-off. -/
def ledgerWriteback (s : State) : State := if s.sns.wb = 0 || !s.running then s else writeRuns s

def execLedgerWriteback (s : State) : Host.Outcome State Fault Refusal := .next (ledgerWriteback s)

/-- An hour of site time has passed. -/
def periodWordWrite (s : State) : State := if s.running then writePeriod s else s

def execPeriodWordWrite (s : State) : Host.Outcome State Fault Refusal := .next (periodWordWrite s)

/-! ## Boundaries (R375) -/

/-- A boundary has been reached and not yet crossed. -/
def State.boundaryDue (s : State) : Bool := s.sns.pw.next ≤ s.sns.pw.hwm

/-- Cross a boundary, step by step as R375 lists it. -/
def crossBoundary (s : State) : State :=
  let q := s.sns
  let k := (q.pw.hwm - q.origin) / (q.len * 3600)
  let skip := k - q.pw.period - 1
  let s := s.modSns fun q => { q with
    len := q.lenPend.getD q.len, origin := q.originPend.getD q.origin, lenPend := none, originPend := none }
  let s := State.each slots (closePeriod skip) s
  let s := s.modSns fun q => { q with
    pw := { q.pw with period := k, next := q.origin + (k + 1) * q.len * 3600 }, backstep := false, fwdstep := false, unclean := false }
  writePeriod (writeRuns s)

/-- `ST_HWM` has reached `LG_NEXT`; one reached in bind-off is crossed after the next cast-on. -/
def boundaryCrossing (s : State) : State := if s.boundaryDue && s.running then crossBoundary s else s

def execBoundaryCrossing (s : State) : Host.Outcome State Fault Refusal := .next (boundaryCrossing s)

/-! ## Site time (R370 to R372, R381) -/

/-- Site time stands at a value: the high-water mark rises with it. -/
def setTime (t : Nat) (s : State) : State :=
  s.modSns fun q => { q with time := t, frac := 0, holdSec := 0, pw := { q.pw with hwm := max q.pw.hwm t } }

/-- The step of R371: its stitch, its count, the open period's flag, and the period word. -/
def stepTime (src v : Nat) (s : State) : State :=
  let old := s.sns.time
  let s := setTime v s
  let s := s.modSns fun q => { q with
    steps := satInc q.steps, backstep := q.backstep || decide (v < old), fwdstep := q.fwdstep || decide (old < v) }
  writePeriod (raise .siteTimeStep 0 [snap32 old, snap32 v, snap32 src] s)

/-- A source value: 1 beacon, 2 host.  A boundary already reached is crossed first (R381). -/
def sourceValue (src v : Nat) (s : State) : State :=
  let s := boundaryCrossing s
  let old := s.sns.time
  let min := field s.sns.stCtl 7 0
  let s :=
    if old ≤ v then (if v - old < min then setTime v s else stepTime src v s)
    else if old - v < min then s.modSns fun q => { q with holdSec := old - v, frac := 0 }
    else stepTime src v s
  s.modSns fun q => { q with trusted := true, source := BitVec.ofNat 2 src, ageMs := 0 }

def execStSet (p : Port) (val : Word32) (s : State) : Host.Outcome State Fault Refusal :=
  .next (atSlot0 p 0x204C (sourceValue 2 val.toNat) s)

/-- `ST_CTL.TRUST_MAX` hours without a source value. -/
def trustExpire (s : State) : State := s.modSns fun q => { q with trusted := false }

def execTrustExpire (s : State) : Host.Outcome State Fault Refusal := .next (trustExpire s)

end Sys2Proof.Machine
end

