-- ==== Sys2Proof/Machine/Phy.lean ====
section
/-! DEFINITION. The radio's physical layer: regions and channels, access limits, coding, symbols, tone maps, gauge measurement, power
(R243 to R281). -/

namespace Sys2Proof.Machine

/-! ## Regions and channels (R243 to R247, Table PHY-2) -/

/-- The region code in force: 0 under a region fault (R243). -/
def State.region (s : State) : Nat := if s.faulted 7 then 0 else field s.lc.region.value 3 0

/-- Regions 0x2 and 0x4 hop. -/
def State.hopping (s : State) : Bool := s.region = 2 || s.region = 4

/-- `PHY_CTL.ON`: the radio is permitted (R18, R243, R279, R425). -/
def State.radioOn (s : State) : Bool := s.region ≠ 0 && s.power.tcxoOk && !s.faulted faultVariant && s.running

/-- Channels of a region, ascending. -/
def regionChannels : Nat → List Nat
  | 1 => List.range 44 ++ [46, 47, 48, 52, 54, 55]
  | 2 => List.range 208
  | 3 => [40, 41, 42, 43]
  | 4 => (List.range 104).map (· + 104)
  | _ => []

/-- Sub-band of a channel in regions 0x1 and 0x3. -/
def subBand (ch : Nat) : Fin 5 :=
  if ch < 40 then 0 else if ch < 44 then 1 else if ch < 49 then 2 else if ch < 54 then 3 else 4

/-- A channel that a write of `PHY_CHAN.FIXED` may name (R244): one of the region, or of the variant's band while no region is set. -/
def State.channelOk (s : State) (ch : Nat) : Bool :=
  match field s.lc.region.value 3 0 with
  | 0 => if s.fuses.variant = 1 then ch < 56 else ch < 208
  | r => (regionChannels r).contains ch

/-- `PHY_CHAN.FIXED` written: a channel outside leaves it unchanged (R244). -/
def chanWrite (ch : Byte) (s : State) : State :=
  if s.channelOk ch.toNat then sysPlain channelIdx 0 (s.modPhy fun p => { p with fixed := ch }) else s

/-- A FIXED outside the region in force is replaced, and stored like any write of it (R245). -/
def replaceFixed (s : State) : State :=
  match regionChannels (field s.lc.region.value 3 0) with
  | [] => s
  | c :: cs => if (c :: cs).contains s.phy.fixed.toNat then s
    else
      let r := field s.lc.region.value 3 0
      sysPlain channelIdx 0 (s.modPhy fun p => { p with fixed := if r = 1 || r = 3 then 40 else BitVec.ofNat 8 c })

/-- A channel is masked out of hopping. -/
def masked (m : Vector Word32 7) (ch : Nat) : Bool := (m[ch / 32]?.getD 0).getLsbD (ch % 32)

/-- One bit of the hop generator. -/
def hopStep (x : BitVec 16) : BitVec 16 :=
  let fb := x.getLsbD 0 ^^ x.getLsbD 2 ^^ x.getLsbD 3 ^^ x.getLsbD 5
  (x >>> 1) ||| bitAt 15 fb

/-- The shuffle of R246 from index i down to 1. -/
def shuffle : Nat → BitVec 16 → List Nat → List Nat
  | 0, _, l => l
  | i + 1, x, l =>
    let x := iter hopStep 16 x
    let j := x.toNat % (i + 2)
    let a := l.getD (i + 1) 0
    let b := l.getD j 0
    shuffle i x ((l.set (i + 1) b).set j a)

/-- The hopping list of R246. -/
def State.buildHop (s : State) : List Nat :=
  let l := (regionChannels s.region).filter fun c => !masked s.phy.hopmask c
  let x := s.siteId ^^^ 0xACE1
  shuffle (l.length - 1) (if x = 0 then 0xACE1 else x) l

/-- The channel of the superframe under way; FIXED, a channel of the region under R245, where every channel is masked out. -/
def State.channel (s : State) : Nat :=
  if s.hopping then s.phy.hopList.getD (s.mac.sfn.toNat % s.phy.hopList.length) s.phy.fixed.toNat else s.phy.fixed.toNat

/-- The radio takes the channel in force (`PHY_CHAN.CUR`); a frame in reception keeps its channel to its end (R276). -/
def retune (s : State) : State := if s.phy.rxHeld then s else s.modPhy fun p => { p with cur := BitVec.ofNat 8 s.channel }

/-- The frame in reception has ended, and the hop it held back follows (R276). -/
def rxEnded (s : State) : State := if s.phy.rxHeld then retune (s.modPhy fun p => { p with rxHeld := false }) else s

/-- The hopping list is rebuilt (R246, R247). -/
def rebuildHop (s : State) : State :=
  let l := s.buildHop
  s.modPhy fun p => { p with hopList := l, rebuild := false }

/-- A region comes into force, at a change of its code and at cast-on: FIXED, the hopping list and the channel are of that region before the
radio is next used (R245, R246). -/
def enterRegion (s : State) : State := retune (rebuildHop (replaceFixed s))

/-- `PHY_HOPMASK_i` written (R247): refused whole when fewer than 50 channels are left. -/
def hopmaskWrite (i : Fin 7) (v : Word32) (s : State) : State :=
  let m := s.phy.hopmask.set i.val v i.isLt
  let chans := if s.hopping then regionChannels s.region else List.range 208
  if (chans.filter fun c => !masked m c).length < 50 then s.modPhy fun p => { p with maskRef := true }
  else sysSetting 0 (0x1080 + 4 * i.val) (s.modPhy fun p => { p with hopmask := m, rebuild := true })

def execPhyHopmaskWrite (p : Port) (i : Fin 7) (val : Word32) (s : State) : Host.Outcome State Fault Refusal :=
  .next (atSlot0 p (0x1080 + 4 * i.val) (hopmaskWrite i val) s)

def execPhyChanWrite (p : Port) (fixed : Byte) (s : State) : Host.Outcome State Fault Refusal :=
  .next (atSlot0 p 0x1014 (chanWrite fixed) s)

/-! ## Legacy PHY (R272) -/

/-- Compatibility is disabled, or its record is in doubt (R41, R51). -/
def State.compatDisabled (s : State) : Bool := s.faulted 0xB || s.tallies 5 0 ≠ 0

/-- The radio is idle: no frame in progress and no listen under way. -/
def State.radioIdle (s : State) : Bool := s.phy.txPhase = .idle || s.phy.txPhase = .ready

/-- `COMPAT.ACTIVE` follows the strap and `W2_PHY` while the radio is idle. -/
def settleCompat (s : State) : State :=
  if s.radioIdle then s.modPhy fun p => { p with active := (p.strap || p.w2) && !s.compatDisabled } else s

def w2Write (v : Bool) (s : State) : State := settleCompat (sysSetting 0 0x1000 (s.modPhy fun p => { p with w2 := v }))

def execCompatW2PhyWrite (p : Port) (val : Bool) (s : State) : Host.Outcome State Fault Refusal := .next (atSlot0 p 0x1000 (w2Write val) s)

/-! ## Subcarriers (R249, R268) -/

/-- Used subcarrier u of subcarrier k, k counted from −16: none for DC and guard. -/
def usedOf (i : Nat) : Option Nat :=
  if i < 2 || i = 16 || i = 31 then none else if i < 16 then some (i - 2) else some (i - 3)

/-- Data subcarrier number of a used subcarrier: pilots are u = 3, 10, 17 and 24. -/
def dataOf (u : Nat) : Option Nat :=
  if u = 3 || u = 10 || u = 17 || u = 24 then none
  else some (u - [3, 10, 17, 24].countP fun p => decide (p < u))

/-- Used subcarrier of data subcarrier d. -/
def usedOfData (d : Nat) : Nat := ((List.range 28).find? fun u => dataOf u = some d).getD 0

/-- ATT_u of 15 notches a used subcarrier. -/
def notched (shape : Word128) (u : Nat) : Bool := field shape (4 * u + 3) (4 * u) = 15

/-- Data subcarrier d is notched. -/
def dataNotched (shape : Word128) (d : Nat) : Bool := notched shape (usedOfData d)

/-- A symbol from what each used subcarrier carries. -/
def symbolOf (shape : Word128) (f : Nat → Point) : List Point :=
  (List.range 32).map fun i => match usedOf i with
    | some u => if notched shape u then .null else f u
    | none => .null

/-! ## Scrambling and coding (R254, R260) -/

/-- One bit of the scrambler of x^7 + x^4 + 1 and its next state; bit i holds the output of i + 1 steps before. -/
def scramStep (x : BitVec 7) : Bool × BitVec 7 :=
  let b := x.getLsbD 6 ^^ x.getLsbD 3
  (b, (x <<< 1) ||| bitAt 0 b)

/-- XOR a bit string with the scrambler's sequence. -/
def scramble : BitVec 7 → List Bool → List Bool
  | _, [] => []
  | x, b :: bs => let r := scramStep x; (b ^^ r.1) :: scramble r.2 bs

/-- Bit s_n of the pilots: the scrambler restarted at the header symbol (R251). -/
def pilotBit (n : Nat) : Bool := (scramStep (iter (fun x => (scramStep x).2) n (BitVec.allOnes 7))).1

/-- Bits of bytes, each least significant bit first. -/
def bitsOf (bs : List Byte) : List Bool := bs.flatMap fun b => (List.range 8).map fun i => b.getLsbD i

/-- Parity of the taps of the encoder, current bit first. -/
def tapParity (taps reg : BitVec 7) : Bool := parity (taps &&& reg) 7

/-- The outputs of the encoder kept at step i of the puncturing period of a rate. -/
def kept (rate : BitVec 2) (i : Nat) (a b : Bool) : List Bool :=
  match rate.toNat with
  | 1 => if i % 2 = 0 then [a, b] else [a]
  | 2 => if i % 3 = 0 then [a, b] else if i % 3 = 1 then [a] else [b]
  | _ => [a, b]

/-- The encoder from state `reg` at step i: generators 133 and 171 octal, output A before B. -/
def convolve (rate : BitVec 2) : Nat → BitVec 7 → List Bool → List Bool
  | _, _, [] => []
  | i, reg, b :: bs =>
    let reg := (reg >>> 1) ||| bitAt 6 b
    kept rate i (tapParity 0o133 reg) (tapParity 0o171 reg) ++ convolve rate (i + 1) reg bs

/-- The coded bits of a PSDU: scrambled, with six zero tail bits. -/
def codedBits (rate : BitVec 2) (psdu : List Byte) : List Bool :=
  convolve rate 0 0 (scramble (BitVec.allOnes 7) (bitsOf psdu) ++ List.replicate 6 false)

/-! ## Tone maps (R256, R257) -/

/-- Loading code of data subcarrier d. -/
def loadOf (map : BitVec 72) (d : Nat) : Nat := field map (3 * d + 2) (3 * d)

/-- N_cbps of a map. -/
def cbps (map : BitVec 72) : Nat := ((List.range 24).map (loadOf map)).sum

/-- A map that may be stored with VALID 1. -/
def mapOk (map : BitVec 72) : Bool := ((List.range 24).all fun d => loadOf map d ≤ 4) && 12 ≤ cbps map

/-- A tone map as it is stored: VALID 0 under R256. -/
def storedMap (t : ToneMap) : ToneMap := { t with valid := t.valid && mapOk t.map }

/-- `TMAP_k` as its line of four registers. -/
def ToneMap.word (t : ToneMap) : Word128 :=
  orAll [t.map.setWidth 128, at_ 72 t.rate.toNat, bitAt 74 t.tx, at_ 76 t.index.toNat, bitAt 80 t.valid]

/-- The slot a register line spells; the reserved RATE keeps the old one. -/
def toneMapOf (w : Word128) (old : ToneMap) : ToneMap :=
  storedMap { map := w.setWidth 72, rate := if field w 73 72 = 3 then old.rate else BitVec.ofNat 2 (field w 73 72), tx := flag w 74,
              index := BitVec.ofNat 4 (field w 79 76), valid := flag w 80 }

/-! ## Frame length (R255, R273) -/

/-- N_sym of a PSDU of n bytes: robust, or loaded at a rate and N_cbps. -/
def dataSymbols (rate : BitVec 2) (ncbps n : Nat) : Nat :=
  let info := 8 * n + 6
  let up (a b : Nat) : Nat := (a + b - 1) / b
  match rate.toNat with
  | 0 => up (2 * info) ncbps
  | 1 => up (up (3 * info) 2) ncbps
  | 2 => up (up (4 * info) 3) ncbps
  | _ => 4 * up (2 * info) 24

/-- Microseconds of a multitone frame of so many data symbols. -/
def symUs (nsym : Nat) : Nat := 288 * (5 + nsym)

/-- Airtime of a legacy frame with so many bytes after the sync word, in us, rounded up. -/
def legacyUs (bytes : Nat) : Nat := ((6 + bytes) * 8 * 1000000 + 38399) / 38400

/-- Symbol times of an airtime, rounded up. -/
def symTimes (us : Nat) : Nat := (us + 287) / 288

/-! ## Symbols (R251 to R253, R261, R262) -/

/-- A gauge symbol. -/
def gaugeSymbol (shape : Word128) : List Point := symbolOf shape fun u => .gauge !((0x96F3A5C : BitVec 28).getLsbD u)

/-- A pilot or data subcarrier in symbol n from the header symbol on: the pilot at +11 carries −1 times p_n. -/
def carrier (n : Nat) (data : Nat → Point) (u : Nat) : Point :=
  match dataOf u with
  | some d => data d
  | none => .pilot (pilotBit n ^^ decide (u = 24))

/-- The header bit of data subcarrier d. -/
def headerBit (h : BitVec 6) (d : Nat) : Bool :=
  h.getLsbD 5 ^^ ((List.range 5).foldl (fun b i => b ^^ (h.getLsbD i && d.testBit i)) false)

def headerSymbol (shape : Word128) (rate : BitVec 2) (tmap : BitVec 4) : List Point :=
  let h : BitVec 6 := orAll [at_ 0 rate.toNat, at_ 2 tmap.toNat]
  symbolOf shape (carrier 0 fun d => .data [headerBit h d])

/-- The subcarriers of a loaded symbol in the order in which bits are assigned: the passes of R261. -/
def passOrder (map : BitVec 72) : List Nat :=
  (List.range 4).flatMap fun p => ((List.range 24).map fun i => 7 * i % 24).filter fun d => p < loadOf map d

/-- The bits of a loaded symbol that subcarrier d gets. -/
def loadedBits (map : BitVec 72) (bits : List Bool) (d : Nat) : List Bool :=
  (((passOrder map).zip bits).filter fun x => x.1 = d).map (·.2)

/-- Loaded data symbols from symbol n on; the stream is padded with zeros. -/
def loadedSymbols (shape : Word128) (map : BitVec 72) : Nat → Nat → List Bool → List (List Point)
  | 0, _, _ => []
  | m + 1, n, bits =>
    let k := cbps map
    let mine := bits.take k ++ List.replicate (k - bits.length) false
    symbolOf shape (carrier n fun d => match loadedBits map mine d with
      | [] => .null
      | b => .data b) :: loadedSymbols shape map m (n + 1) (bits.drop k)

/-- Robust data symbols from symbol n on: each group of 24 coded bits in four symbols (R262). -/
def robustSymbols (shape : Word128) : Nat → Nat → List Bool → List (List Point)
  | 0, _, _ => []
  | g + 1, n, bits =>
    ((List.range 4).map fun c => symbolOf shape (carrier (n + c) fun d => .data [bits.getD ((7 * d + 6 * c) % 24) false])) ++
      robustSymbols shape g (n + 4) (bits.drop 24)

/-- The symbols of a frame: four gauge symbols, the header, the data. -/
def frameSymbols (shape : Word128) (rate : BitVec 2) (tmap : BitVec 4) (map : BitVec 72) (psdu : List Byte) : List (List Point) :=
  let robust := rate = 3
  let nsym := dataSymbols rate (cbps map) psdu.length
  let bits := codedBits (if robust then 0 else rate) psdu
  List.replicate 4 (gaugeSymbol shape) ++ [headerSymbol shape rate tmap] ++
    (if robust then robustSymbols shape (nsym / 4) 1 bits else loadedSymbols shape map nsym 1 bits)

/-! ## The transmitted wave (R250, R268) -/

/-- One term of a sample: an amplitude at a phase of 2πphase/32, scaled by 1/√10 where `qam`, and attenuated by `att` dB. -/
structure WaveTerm where
  amp   : Int
  phase : Fin 32
  qam   : Bool
  att   : Nat
  deriving DecidableEq, Repr

/-- A bit as a sign: 0 → −1, 1 → +1. -/
def signOf (b : Bool) : Int := if b then 1 else -1

/-- g of the 8-PSK points, by b0b1b2. -/
def pskStep (b0 b1 b2 : Bool) : Nat :=
  match b0, b1, b2 with
  | false, false, false => 0
  | false, false, true => 1
  | false, true, true => 2
  | false, true, false => 3
  | true, true, false => 4
  | true, true, true => 5
  | true, false, true => 6
  | true, false, false => 7

/-- I or Q of 16-QAM: 00 → −3, 01 → −1, 11 → +1, 10 → +3. -/
def qamLevel (a b : Bool) : Int := signOf a * if b then 1 else 3

/-- The constellation value of a point (R250), each of its terms an amplitude, a phase in steps of 2π/32, and the 1/√10 of 16-QAM.  QPSK is the
point of phase ±π/4 or ±3π/4 that I and Q name. -/
def Point.value : Point → List (Int × Nat × Bool)
  | .null => []
  | .gauge neg => [(signOf !neg, 0, false)]
  | .pilot neg => [(signOf !neg, 0, false)]
  | .data [b0] => [(signOf b0, 0, false)]
  | .data [b0, b1] => [(1, if b0 then (if b1 then 4 else 28) else (if b1 then 12 else 20), false)]
  | .data [b0, b1, b2] => [(1, 4 * pskStep b0 b1 b2 + 2, false)]
  | .data [b0, b1, b2, b3] => [(qamLevel b0 b1, 0, true), (qamLevel b2 b3, 8, true)]
  | .data _ => []

/-- Sample n of a symbol's 32-point inverse transform, from its points for k = −16 to +15; e^(2πi(i−16)n/32) has the phase (i + 16)n. -/
def waveSample (shape : Word128) (points : List Point) (n : Nat) : List WaveTerm :=
  (List.range 32).flatMap fun i =>
    let att := match usedOf i with
      | some u => field shape (4 * u + 3) (4 * u)
      | none => 0
    ((points.getD i .null).value).map fun v => { amp := v.1, phase := finOf 32 (v.2.1 + (i + 16) * n), qam := v.2.2, att := att }

/-- A symbol as it leaves: its last 32 us, four samples of 125 kS/s, first as the cyclic prefix, and then its 32 samples (R250). -/
def waveSymbol (shape : Word128) (points : List Point) : List (List WaveTerm) :=
  let x := (List.range 32).map (waveSample shape points)
  x.drop 28 ++ x

/-- The samples of a frame on air. -/
def AirFrame.wave (a : AirFrame) : List (List (List WaveTerm)) := a.symbols.map (waveSymbol a.shape)

/-! ## Length word (R254) -/

/-- One step of the CRC-5 register. -/
def crc5Step (reg : BitVec 5) (b : Bool) : BitVec 5 :=
  let fb := b ^^ reg.getLsbD 4
  if fb then (reg <<< 1) ^^^ 0b00101 else reg <<< 1

/-- The length word of N. -/
def lengthWord (n : Nat) : BitVec 16 :=
  let x : BitVec 16 := BitVec.ofNat 16 (n % 2048)
  let reg := (List.range 11).foldl (fun r i => crc5Step r (x.getLsbD i)) (BitVec.allOnes 5)
  (List.range 5).foldl (fun w k => w ||| bitAt (11 + k) (reg.getLsbD (4 - k))) x

/-- The CRC-5 of a received length word passes. -/
def lengthOk (w : BitVec 16) : Bool := w = lengthWord (field w 10 0)

/-- CRC-16 of the W2 frame (R273). -/
def crc16 (bs : List Byte) : BitVec 16 :=
  let step (c : BitVec 16) : BitVec 16 := if c.msb then (c <<< 1) ^^^ 0x1021 else c <<< 1
  bs.foldl (fun c b => iter step 8 (c ^^^ ((b.setWidth 16 : BitVec 16) <<< (8 : Nat)))) 0xFFFF

/-! ## Gauge table (R266, Table PHY-7) -/

def gaugeSnr (g : Word128) (d : Nat) : Nat := field g (5 * d + 4) (5 * d)
def gaugeCount (g : Word128) : Nat := field g 127 120

/-- old + (new − old) / 2^avg, rounded to nearest. -/
def average (old new avg : Nat) : Nat :=
  let k := 2 ^ avg
  let t := old * (k - 1) + new
  let q := t / k
  let r := t % k
  if k < 2 * r || (2 * r = k && Config.roundUp t k) then q + 1 else q

/-- An entry after a frame with these SNR codes. -/
def gaugeUpdate (avg : Nat) (snr : List (BitVec 5)) (g : Word128) : Word128 :=
  let first := gaugeCount g = 0
  let code (d : Nat) : Nat := (snr.getD d 0).toNat
  orAll ((List.range 24).map (fun d => at_ (5 * d) (if first then code d else average (gaugeSnr g d) (code d) avg)) ++
    [at_ 120 (satNat 8 (gaugeCount g + 1))])

/-- Highest loading whose threshold of Table PHY-5 an SNR in dB reaches, at a rate. -/
def bestLoad (rate : Nat) (snr : Int) : Nat :=
  let t : List Int := match rate with
    | 0 => [2, 5, 9, 11]
    | 1 => [4, 7, 11, 13]
    | _ => [5, 8, 12, 15]
  t.countP fun x => decide (x ≤ snr)

/-- A map derived for a rate (R259, R331): notched subcarriers off, loadings capped. -/
def deriveFor (g : Word128) (margin cap : Nat) (off : Nat → Bool) (rate : Nat) : BitVec 72 :=
  orAll ((List.range 24).map fun d =>
    at_ (3 * d) (if off d then 0 else min cap (bestLoad rate ((gaugeSnr g d : Int) - 4 - margin))))

/-- Information bits per symbol times 12: N_cbps × R. -/
def info12 (rate : Nat) (map : BitVec 72) : Nat := cbps map * (match rate with | 0 => 6 | 1 => 8 | _ => 9)

/-- The rate and map with the most information bits among the rates up to a cap that reach N_cbps 12; ties to the lower rate. -/
def derive (g : Word128) (margin cap rcap : Nat) (off : Nat → Bool) : Option (Nat × BitVec 72) :=
  (List.range (rcap + 1)).foldl (fun (best : Option (Nat × BitVec 72)) r =>
    let m := deriveFor g margin cap off r
    if cbps m < 12 then best
    else match best with
      | none => some (r, m)
      | some b => if info12 b.1 b.2 < info12 r m then some (r, m) else best) none

/-! ## Power (R267) -/

/-- The region's EIRP limit in 0.01 dBm. -/
def State.eirp (s : State) : Int :=
  if s.hopping then 3600 else if subBand s.channel = 3 then 2915 else 1615

/-- Antenna gain in 0.01 dBi. -/
def State.antGain (s : State) : Int :=
  if flag s.phy.ctl 0 then 50 * (BitVec.ofNat 8 (field s.phy.ctl 15 8)).toInt else -300

/-- The regulatory cap as a power code: rounded down to 0.5 dB and limited to +16 dBm. -/
def State.regCap (s : State) : Nat := min 52 ((s.eirp - s.antGain + 1000) / 50).toNat

/-- The applied power of a request: the lowest of request, regulatory cap and governor row. -/
def State.appliedPower (s : State) (req : Nat) : Nat := min req (min s.regCap (s.txMaxCode.getD 0))

/-- RFTX may not transmit: refused (R71), or the site identifier is in fault (R51). -/
def State.txRefused (s : State) : Bool := s.noFit .rftx 90 || s.faulted 8

/-- RFRX would be refused (R71). -/
def State.rxRefused (s : State) : Bool := s.noFit .rfrx 58

/-! ## Limits on transmit time (R248, R271) -/

/-- T_sf in us. -/
def State.tSf (s : State) : Nat := 240000 * 2 ^ s.mac.so.toNat
def State.tSlot (s : State) : Nat := s.tSf / 32

/-- The dwell allowance C of a visit, in us. -/
def State.dwellMax (s : State) : Nat := 400000 / ((400000 + s.tSf - 1) / s.tSf)

/-- The hour limit of a sub-band in us. -/
def State.hourLimit (s : State) (b : Fin 5) : Nat :=
  if flag s.phy.ctl 1 then 1000000 * field s.phy.lbt 27 16
  else match b.val with
    | 1 => 36000000
    | 3 => 360000000
    | 4 => 36000000
    | _ => 3600000

/-- Time sent in a sub-band in the sliding hour, in us. -/
def State.dutyUsed (s : State) (b : Fin 5) : Nat := s.phy.duty[b].sum

/-- A transmission of so many us keeps the limits. -/
def State.timeAllows (s : State) (us : Nat) : Bool :=
  if s.hopping then s.mac.dwell + us ≤ s.dwellMax
  else let b := subBand s.channel; s.dutyUsed b + us ≤ s.hourLimit b

/-- Airtime sent is counted. -/
def countAir (us : Nat) (s : State) : State :=
  if s.hopping then s.modMac fun m => { m with dwell := m.dwell + us }
  else
    s.modPhy fun p => { p with duty := upd p.duty (subBand s.channel) fun l => match l with
      | [] => [us]
      | a :: t => (a + us) :: t }

/-- A bucket of 60 s rolls over; in hopping regions no buckets are kept. -/
def dutyRoll (s : State) : State :=
  s.modPhy fun p => { p with duty := if s.hopping then Vector.replicate 5 [] else p.duty.map fun l => 0 :: l.take 59 }

def execDutyBucketRoll (s : State) : Host.Outcome State Fault Refusal := .next (dutyRoll s)

/-! ## Listen-before-talk (R270, R281) -/

/-- `PHY_CTL.ACCESS` is in force: never on a YX-4128-A. -/
def State.lbtOn (s : State) : Bool := flag s.phy.ctl 1 && s.fuses.variant = 1

/-- `PHY_LBT.THR` in dBm. -/
def State.lbtThr (s : State) : Int := (BitVec.ofNat 8 (field s.phy.lbt 7 0)).toInt

/-- A power window reaches the threshold. -/
def State.powerBusy (s : State) (dbm : Int) : Bool := decide (s.lbtThr ≤ dbm)

/-- A listen begins: BASE ms and a random 0 to RAND ms in steps of 0.25 ms. -/
def startListen (s : State) : State :=
  s.draw fun v s => s.modPhy fun p => { p with
    txPhase := .listening, clear := false, lbtHeard := false
    lbtUs := 1000 * field p.lbt 11 8 + 250 * (v.toNat % (4 * field p.lbt 15 12 + 1)) }

/-- Gauge symbols found during a listen make it busy, whatever becomes of their frame (R281). -/
def noteGauge (s : State) : State :=
  if s.phy.txPhase = .listening then s.modPhy fun p => { p with lbtHeard := true } else s

/-- What the listen has found: gauge symbols, or a window of 288 us that reaches THR among those that lie in it (log entry 187). -/
def State.listenBusy (s : State) (windows : List (BitVec 8)) (gauge : Bool) : Bool :=
  gauge || s.phy.lbtHeard || (windows.take (s.phy.lbtUs / 288)).any fun w => s.powerBusy w.toInt

end Sys2Proof.Machine
end

