-- ==== Sys2Proof/Machine/Receiver.lean ====
section
/-! DEFINITION. The receiver's decisions: header, soft values, trellis, the tentative and the final PSDU, the SNR estimate (R253, R261 to R266). -/

namespace Sys2Proof.Machine

/-! ## Header (R253) -/

/-- Correlation of the header's soft values with a codeword. -/
def headerCorr (soft : List (BitVec 3)) (h : BitVec 6) : Int :=
  ((List.range 24).map fun d => (soft.getD d 0).toInt * signOf (headerBit h d)).sum

/-- The codeword of the largest correlation; of two equally good ones `ties` says which (log entry 189). -/
def bestHeader (ties : Nat) (soft : List (BitVec 3)) : BitVec 6 :=
  ((List.range 63).foldl (fun (b : BitVec 6 × Int) i =>
    let h := BitVec.ofNat 6 (i + 1)
    let c := headerCorr soft h
    if b.2 < c || (b.2 = c && ties.testBit i) then (h, c) else b) (0, headerCorr soft 0)).1

/-! ## Soft values in coded order (R261 to R263) -/

/-- Soft value of bit p of data subcarrier d of a data symbol; nothing received is zero. -/
def softAt (soft : List (List (List (BitVec 3)))) (sym d p : Nat) : Int := (((soft.getD sym []).getD d []).getD p 0).toInt

/-- The subcarriers and bits of a loaded symbol in the order in which coded bits are assigned (R261). -/
def passBits (map : BitVec 72) : List (Nat × Nat) :=
  (List.range 4).flatMap fun p => ((((List.range 24).map fun i => 7 * i % 24).filter fun d => p < loadOf map d)).map fun d => (d, p)

/-- Coded soft values of so many loaded symbols from symbol n on. -/
def loadedSoft (map : BitVec 72) (soft : List (List (List (BitVec 3)))) : Nat → Nat → List Int
  | 0, _ => []
  | m + 1, n => (passBits map).map (fun x => softAt soft n x.1 x.2) ++ loadedSoft map soft m (n + 1)

/-- Coded soft values of so many robust groups from group g on: the sum of the four values of each coded bit (R262; log entry 190). -/
def robustSoft (soft : List (List (List (BitVec 3)))) : Nat → Nat → List Int
  | 0, _ => []
  | m + 1, g =>
    ((List.range 24).map fun j => ((List.range 4).map fun c => softAt soft (4 * g + c) (7 * (j + 120 - 6 * c) % 24) 0).sum) ++
      robustSoft soft m (g + 1)

/-- Outputs A and B of so many encoder steps from step i on, zero where a position is punctured (R260, R263). -/
def depuncture (rate : BitVec 2) : Nat → Nat → List Int → List (Int × Int)
  | 0, _, _ => []
  | m + 1, i, l =>
    match (kept rate i true false) with
    | [_, _] => (l.getD 0 0, l.getD 1 0) :: depuncture rate m (i + 1) (l.drop 2)
    | [true] => (l.getD 0 0, 0) :: depuncture rate m (i + 1) (l.drop 1)
    | _ => (0, l.getD 0 0) :: depuncture rate m (i + 1) (l.drop 1)

/-! ## Trellis (R260, R263; log entry 190) -/

/-- The best path into a state: its metric and its bits, the newest in bit 0; none where no path leads. -/
abbrev Survivor := Option (Int × Nat)

/-- A survivor extended by a bit whose outputs are those of the register `reg`. -/
def extend (reg : BitVec 7) (bit : Nat) (ab : Int × Int) : Survivor → Survivor
  | none => none
  | some (m, path) =>
    some (m + (if tapParity 0o133 reg then ab.1 else -ab.1) + (if tapParity 0o171 reg then ab.2 else -ab.2), 2 * path + bit)

/-- The better of two survivors; of two equally good ones the second where `tie`. -/
def better (tie : Bool) : Survivor → Survivor → Survivor
  | none, b => b
  | a, none => a
  | some a, some b => if a.1 < b.1 || (a.1 = b.1 && tie) then some b else some a

/-- The states of a list two by two. -/
def twos {α : Type} : List α → List (α × α)
  | a :: b :: t => (a, b) :: twos t
  | _ => []

/-- The states that a bit leads to, from state i on, out of states 2i and 2i + 1 each. -/
def acsBit (ties step bit : Nat) (ab : Int × Int) : Nat → List (Survivor × Survivor) → List Survivor
  | _, [] => []
  | i, (u, v) :: t =>
    let reg (low : Nat) : BitVec 7 := BitVec.ofNat 7 (2 * i + low + 64 * bit)
    better (ties.testBit (64 * (step + 1) + 32 * bit + i)) (extend (reg 0) bit ab u) (extend (reg 1) bit ab v) ::
      acsBit ties step bit ab (i + 1) t

/-- One step of the trellis: a state holds the last six bits, the newest highest. -/
def acs (ties step : Nat) (ab : Int × Int) (v : List Survivor) : List Survivor :=
  acsBit ties step 0 ab 0 (twos v) ++ acsBit ties step 1 ab 0 (twos v)

/-- The path of the best state. -/
def bestPath (ties step : Nat) (v : List Survivor) : Nat :=
  ((v.foldl (fun (b : Survivor × Nat) x => (better (ties.testBit (64 * (step + 1) + b.2)) b.1 x, b.2 + 1)) (none, 0)).1.map (·.2)).getD 0

/-- Tentative decisions at depth 24, final decisions at depth 96, and the path that ends in the terminated state, from step `step` on. -/
def trellis (ties : Nat) : Nat → List Survivor → List (Int × Int) → List Bool × List Bool × Nat
  | _, v, [] => ([], [], ((v.getD 0 none).map (·.2)).getD 0)
  | step, v, ab :: rest =>
    let v := acs ties step ab v
    let best := bestPath ties step v
    let r := trellis ties (step + 1) v rest
    (if 24 ≤ step then best.testBit 24 :: r.1 else r.1, if 96 ≤ step then best.testBit 96 :: r.2.1 else r.2.1, r.2.2)

/-- The zero state before the first bit. -/
def trellisStart : List Survivor := some (0, 0) :: List.replicate 63 none

/-- Tentative and final decisions of the whole of a frame of `steps` information bits: the last 96 from the terminated state. -/
def decisions (ties : Nat) (pairs : List (Int × Int)) : List Bool × List Bool :=
  let r := trellis ties 0 trellisStart pairs
  let k := min 96 pairs.length
  (r.1, r.2.1 ++ (List.range k).map fun i => r.2.2.testBit (k - 1 - i))

/-! ## The PSDU (R254, R263 to R265) -/

/-- Bytes of a bit string, least significant bit first; an incomplete last byte is none. -/
def bytesOfBits : Nat → List Bool → List Byte
  | 0, _ => []
  | n + 1, l => (BitVec.ofBoolListLE (l.take 8)).setWidth 8 :: bytesOfBits n (l.drop 8)

/-- The descrambled bytes of decided bits. -/
def psduBytes (bits : List Bool) : List Byte := bytesOfBits (bits.length / 8) (scramble (BitVec.allOnes 7) bits)

/-- Length word of received bytes. -/
def lengthOf (bs : List Byte) : BitVec 16 := BitVec.ofNat 16 (beNat (bs.take 2).reverse)

/-- A received frame as decided. -/
structure Heard where
  rate  : BitVec 2
  tmap  : BitVec 4
  /-- the tentative length word -/
  len   : BitVec 16
  /-- tentative and final bytes of the PSDU -/
  tent  : List Byte
  fin   : List Byte
  /-- the first bit at which the final decision disagrees with the tentative one (R264) -/
  dis   : Option Nat
  snr   : List (BitVec 5)
  rssi  : BitVec 8
  cfo   : BitVec 16
  afterTxUs : Nat
  deriving DecidableEq, Repr

/-- The first place at which two lists of decisions differ. -/
def firstDiff (a b : List Bool) : Option Nat := (findFrom (fun x : Bool × Bool => x.1 != x.2) 0 (a.zip b)).map (·.1)

/-- Information bits of a PSDU of n bytes with its tail. -/
def infoBits (n : Nat) : Nat := 8 * n + 6

/-- How far the receiver decodes: to the end that the tentative length word gives, or, where the final one differs, to the end that one gives, or
at once when that end has passed.  The final length word is decided 96 bits after it or at the frame's end (R263, R265). -/
def decodeSteps (lenT lenF : BitVec 16) : Nat :=
  let t := infoBits (field lenT 10 0)
  if lenT = lenF then t else max (infoBits (field lenF 10 0)) (min t 112)

/-- The tentative length word, and the tentative and final bits, from the outputs of as many encoder steps as asked for. -/
def decideFrame (ties : Nat) (pairs : Nat → List (Int × Int)) : BitVec 16 × List Bool × List Bool :=
  let lenT := lengthOf (psduBytes ((trellis ties 0 trellisStart (pairs 40)).1.take 16))
  if !lengthOk lenT then (lenT, [], [])
  else
    let r := decisions ties (pairs (infoBits (field lenT 10 0)))
    let lenF := lengthOf (psduBytes (r.2.take 16))
    (lenT, if lenT = lenF then r else decisions ties (pairs (decodeSteps lenT lenF)))

/-- The outputs of m encoder steps of a received frame, under a header's RATE and a tone map. -/
def framePairs (f : RxFrame) (rate : BitVec 2) (map : BitVec 72) (m : Nat) : List (Int × Int) :=
  if rate = 3 then depuncture 0 m 0 (robustSoft f.soft ((2 * m + 23) / 24) 0)
  else depuncture rate m 0 (loadedSoft map f.soft ((2 * m + cbps map - 1) / cbps map) 0)

/-! ## SNR (R266) -/

/-- SNR code of the four values of a gauge symbol: the squared mean over the variance, −4 dB at code 0 (log entry 191). -/
def snrCode (x : List (Int × Int)) : BitVec 5 :=
  let i : Int := (x.map (·.1)).sum
  let q : Int := (x.map (·.2)).sum
  let sig : Nat := (i * i + q * q).toNat
  let noise : Nat := (4 * (x.map fun v => v.1 * v.1 + v.2 * v.2).sum - (i * i + q * q)).toNat
  let ten (a b : Nat) : Nat := Nat.pow 10 a * Nat.pow b 10
  let reaches (v : Nat) : Bool := Nat.ble (ten v noise) (ten 4 sig)
  if sig = 0 then 0
  else
    let n := (List.range 32).countP reaches
    if n = 0 then 0
    else if 32 ≤ n || ten (n - 1) noise = ten 4 sig || !Config.roundUp sig noise then BitVec.ofNat 5 (n - 1)
    else BitVec.ofNat 5 n

/-! ## A received frame -/

/-- What the receiver decides of a frame: with the legacy PHY its bytes, no header symbol, no tentative bits and no gauge (R273). -/
def State.heard (s : State) (f : RxFrame) : Heard :=
  if s.phy.active then
    { rate := 3, tmap := 0, len := 0, tent := [], fin := f.legacy, dis := none, snr := [], rssi := f.rssi, cfo := f.cfo,
      afterTxUs := f.afterTxUs }
  else
    let h := bestHeader f.ties f.header
    let rate : BitVec 2 := h.setWidth 2
    let tmap : BitVec 4 := (h >>> 2).setWidth 4
    let d := decideFrame f.ties (framePairs f rate s.phy.tmaps[finOf 16 tmap.toNat].map)
    { rate := rate, tmap := tmap, len := d.1, tent := psduBytes d.2.1, fin := psduBytes d.2.2, dis := firstDiff d.2.1 d.2.2
      snr := (List.range 24).map fun c => snrCode (f.gauge.getD c []), rssi := f.rssi, cfo := f.cfo, afterTxUs := f.afterTxUs }

end Sys2Proof.Machine
end

