-- ==== Sys2Proof/Machine/Mac.lean ====
section
/-! DEFINITION. Frames: formats, building, parsing, security, counters, replay marks, neighbours and senders (R282 to R287, R292 to R302, R308). -/

namespace Sys2Proof.Machine

/-! ## Fields -/

/-- A number from bytes, least significant first (R282). -/
def leNat (bs : List Byte) : Nat := beNat bs.reverse

/-- First n bytes and the rest, when there are n. -/
def split? (n : Nat) (bs : List Byte) : Option (List Byte × List Byte) := if bs.length < n then none else some (bs.take n, bs.drop n)

def typBeacon : Nat := 0
def typData : Nat := 1
def typAck : Nat := 2
def typCommand : Nat := 3
def typWake : Nat := 4

/-- MIC bytes of a LEVEL (Table MAC-5). -/
def micBytes (level : Nat) : Nat := match level % 4 with
  | 0 => 0
  | k => 2 ^ (k + 1)

/-- A LEVEL that a secured frame may have. -/
def levelOk (level : Nat) : Bool := level % 4 ≠ 0

/-- Bytes of the body after a command's id (Table MAC-7). -/
def commandBytes : Nat → Option Nat
  | 1 => some 1
  | 2 => some 7
  | 3 => some 4
  | 4 => some 11
  | 5 => some 0
  | 6 => some 1
  | 7 => some 10
  | 8 => some 2
  | _ => none

/-! ## Received frames (R282 to R284, R308) -/

/-- A frame whose header has been read: step 1 of the filter holds of it. -/
structure Hdr where
  typ    : Nat
  ar     : Bool
  pend   : Bool
  retry  : Bool
  seq    : Byte
  site   : Nat
  dst    : List Byte
  src    : List Byte
  secctl : Byte
  keyid  : Byte
  ctr    : Word32
  /-- dispatch of a data frame, id of a command -/
  disp   : List Byte
  /-- header, security header and dispatch, as authenticated -/
  aad    : List Byte
  body   : List Byte
  mic    : List Byte
  fcsOk  : Bool
  deriving DecidableEq, Repr

def Hdr.level (h : Hdr) : Nat := field h.secctl 2 0
def Hdr.keySite (h : Hdr) : Bool := flag h.keyid 7
def Hdr.keySlot (h : Hdr) : Nat := field h.keyid 6 4
def Hdr.keySel (h : Hdr) : Nat := field h.keyid 1 0
def Hdr.ep (h : Hdr) : Nat := (h.disp.getD 0 0).toNat
def Hdr.epSlot (h : Hdr) : Fin 8 := finOf 8 (h.ep / 8)
def Hdr.epNo (h : Hdr) : Fin 64 := finOf 64 h.ep
def Hdr.xfer (h : Hdr) : Nat := leNat (h.disp.drop 1)
def Hdr.srcShort (h : Hdr) : Option Nat := if h.src.length = 2 then some (leNat h.src) else none

/-- The beacon body of Table MAC-6: CAP_LAST above BSLOTS, and the length its fields ask for (R288). -/
def beaconBodyOk (b : List Byte) : Bool :=
  let sf : BitVec 16 := BitVec.ofNat 16 (leNat (b.take 2))
  2 ≤ b.length && field sf 9 8 < field sf 7 3 && b.length = 10 + (if flag sf 13 then 2 else 0) + 2 * field sf 12 10

/-- Security header, dispatch or id, body and MIC of a secured frame, from its bytes between the addresses and the check. -/
def parseSecured (h : Hdr) (rest : List Byte) : Option Hdr := do
  let (sec, rest) ← split? 6 rest
  let h := { h with secctl := sec.getD 0 0, keyid := sec.getD 1 0, ctr := BitVec.ofNat 32 (leNat (sec.drop 2)) }
  let (disp, rest) ← split? (if h.typ = typData then 3 else if h.typ = typCommand then 1 else 0) rest
  let m := micBytes h.level
  if rest.length < m then none
  else
    let body := rest.take (rest.length - m)
    let ok := field h.secctl 7 3 = 0 && field h.keyid 3 2 = 0 &&
      (if h.typ = typData then field (disp.getD 0 0) 7 6 = 0
       else if h.typ = typCommand then commandBytes (disp.getD 0 0).toNat = some body.length
       else beaconBodyOk body)
    if ok then some { h with disp := disp, aad := h.aad ++ sec ++ disp, body := body, mic := rest.drop (rest.length - m) } else none

/-- DST_MODE, SRC_MODE, SEC and AR allowed for a type (Table MAC-4). -/
def comboOk (typ dm sm : Nat) (sec ar : Bool) : Bool :=
  match typ with
  | 0 => dm = 0 && sm = 1 && sec && !ar
  | 1 => dm ≠ 0 && sm ≠ 0 && sec
  | 2 => dm ≠ 0 && sm = 0 && !sec && !ar
  | 3 => dm ≠ 0 && sm ≠ 0 && sec
  | _ => dm = 1 && sm = 0 && !sec && !ar

def modeBytes : Nat → Nat
  | 1 => 2
  | 2 => 8
  | _ => 0

/-- Step 1 of the filter on the bytes after the length word (R283). -/
def parseFrame (bs : List Byte) : Option Hdr := do
  let (fcb, rest) ← split? 3 bs
  let fc : BitVec 16 := BitVec.ofNat 16 (leNat (fcb.take 2))
  let typ := field fc 3 0
  let dm := field fc 11 10
  let sm := field fc 13 12
  let sec := flag fc 6
  if 4 < typ || field fc 5 4 ≠ 1 || field fc 15 14 ≠ 0 || dm = 3 || sm = 3 || !comboOk typ dm sm sec (flag fc 7) then none
  else
    let (site, rest) ← split? (if typ = typAck then 0 else 2) rest
    let (dst, rest) ← split? (modeBytes dm) rest
    let (src, rest) ← split? (modeBytes sm) rest
    if rest.length < 4 then none
    else
      let covered := bs.take (bs.length - 4)
      let h : Hdr :=
        { typ := typ, ar := flag fc 7, pend := flag fc 8, retry := flag fc 9, seq := fcb.getD 2 0, site := leNat site, dst := dst, src := src,
          secctl := 0, keyid := 0, ctr := 0, disp := [], aad := fcb ++ site ++ dst ++ src, body := [], mic := [],
          fcsOk := leNat (bs.drop (bs.length - 4)) = (crc32 covered).toNat }
      let rest := rest.take (rest.length - 4)
      if sec then parseSecured h rest
      else if rest.length = (if typ = typAck then 1 else 2) then some { h with body := rest } else none

/-- Step 1 on a W2 frame, from its length byte on (R273, R308): its fields run most significant byte first (log entry 48). -/
def parseW2 (bs : List Byte) : Option Hdr := do
  let (hd, rest) ← split? 9 bs
  let len := (hd.getD 0 0).toNat
  let fc := hd.getD 1 0
  let typ := field fc 1 0
  let sec := flag fc 5
  if len < 8 || 127 < len || field fc 7 6 ≠ 0 || rest.length ≠ len - 8 + 2 || sec ≠ decide (typ ≠ typAck) ||
      (flag fc 2 && (typ = typBeacon || typ = typAck)) then none
  else
    let h : Hdr :=
      { typ := typ, ar := flag fc 2, pend := flag fc 3, retry := flag fc 4, seq := hd.getD 2 0, site := beNat ((hd.drop 3).take 2)
        dst := if typ = typBeacon then [] else ((hd.drop 5).take 2).reverse, src := ((hd.drop 7).take 2).reverse
        secctl := 0, keyid := 0, ctr := 0, disp := [], aad := hd.drop 1, body := [], mic := []
        fcsOk := beNat (rest.drop (len - 8)) = (crc16 (bs.take (len + 1))).toNat }
    let rest := rest.take (len - 8)
    if sec then parseSecured h rest else if rest.isEmpty then some h else none

/-! ## Security (R298, R299) -/

/-- The 13-byte nonce. -/
def nonceOf (long : Word64) (ctr : Word32) (secctl : Byte) : List Byte := bytesBE 8 long ++ bytesBE 4 ctr ++ [secctl]

/-- Payload as sent, and MIC: encrypted from level 5 on, authenticated in clear below. -/
def secure (key : Word128) (nonce aad body : List Byte) (level : Nat) : List Byte × List Byte :=
  if 5 ≤ level then (ccmCrypt key nonce body, ccmTag key nonce aad body (micBytes level))
  else (body, ccmTag key nonce (aad ++ body) [] (micBytes level))

/-- Body of a received frame when its MIC verifies (step 10). -/
def unsecure (key : Word128) (long : Word64) (h : Hdr) : Option (List Byte) :=
  let nonce := nonceOf long h.ctr h.secctl
  let plain := if 5 ≤ h.level then ccmCrypt key nonce h.body else h.body
  if (secure key nonce h.aad plain h.level).2 = h.mic then some plain else none

/-- Key uses NET_UNICAST and NET_GROUP. -/
def useNetUnicast : Byte := 5
def useNetGroup : Byte := 6

def State.keyLive (s : State) (k : Fin 36) : Bool := s.keys[k].st = .active || s.keys[k].st = .retired

/-- The key that a data frame's KEYID names, when state, use and slot serve (R299, step 5 of Table MAC-5a). -/
def State.dataKey (s : State) (h : Hdr) (group : Bool) : Option (Fin 36) :=
  let k := if h.keySite then siteKey h.keySel else keyNo (finOf 8 h.keySlot) h.keySel
  let use := s.keys[k].use
  let ok := if h.keySite then h.keySel = 2 && h.epSlot = 0
    else h.keySel < 3 && h.keySlot = h.epSlot.val && use = (if group then useNetGroup else useNetUnicast)
  if ok && s.keyLive k then some k else none

/-- Site slot 2, the site network key. -/
def netKey : Fin 36 := siteKey 2

/-! ## Outgoing counters (R300) -/

/-- Owner's channel of a key slot. -/
def keyChan (k : Fin 36) : Fin 8 := if k.val < 32 then finOf 8 (k.val / 4) else 0

/-- Key slot number as stitches name it: 4n + k of a tenant's, 0 to 3 of the site's (log entry 140). -/
def keyName (k : Fin 36) : Nat := if k.val < 32 then k.val else k.val - 32

/-- The key may send: ACTIVE, its counter neither exhausted nor lost (R299, R300, R313). -/
def State.keySends (s : State) (k : Fin 36) : Bool := s.keys[k].st = .active && !s.mac.fcStop[k] && !s.lostPair 7 k.val

/-- The live value has reached the stored one: the stored value is rewritten as live + 1,024, never past the last counter. -/
def stepStored (k : Fin 36) (s : State) : State :=
  let c := s.mac.fc[k]
  if s.mac.fcStored[k] ≤ c then
    pairWrite 7 k.val (keyChan k) (fun s => s.modMac fun m => { m with
      fcStored := upd m.fcStored k fun _ => BitVec.ofNat 32 (min 0xFFFFFFFF (c.toNat + 1024)) }) s
  else s

/-- Take a counter for a transmission: none when the key is exhausted, which stops it. -/
def takeCounter (k : Fin 36) (s : State) : State × Option Word32 :=
  let c := s.mac.fc[k]
  if c = 0xFFFFFFFF then
    if s.mac.fcStop[k] then (s, none)
    else (raise .fcExhausted (keyChan k) [snap32 (keyName k)] (s.modMac fun m => { m with fcStop := upd m.fcStop k fun _ => true }), none)
  else
    let s := stepStored k ((stepStored k s).modMac fun m => { m with fc := upd m.fc k (· + 1) })
    let s := if 0xFFFF0000 ≤ c + 1 && !s.mac.fcLow[k] then
        raise .fcLow (keyChan k) [snap32 (keyName k), c + 1] (s.modMac fun m => { m with fcLow := upd m.fcLow k fun _ => true })
      else s
    (s, some c)

/-! ## Replay marks (R301) -/

/-- The counter passes a mark. -/
def Mark.passes (m : Mark) (c : Word32) : Bool :=
  if m.h < c then true
  else
    let d := m.h.toNat - c.toNat
    1 ≤ d && d ≤ 24 && !m.win.getLsbD (d - 1)

/-- The stored H after an accepted counter: COUNTER + 16, never past the last counter, so that no counter is accepted twice (R301). -/
def storedMark (c : Word32) : Word32 := BitVec.ofNat 32 (min 0xFFFFFFFF (c.toNat + 16))

/-- The mark after the counter has been accepted; the second component says that the stored H is rewritten. -/
def Mark.commit (m : Mark) (c : Word32) : Mark × Bool :=
  let m' : Mark :=
    if m.h < c then
      let d := c.toNat - m.h.toNat
      { m with h := c, win := if d ≤ 24 then (m.win <<< d) ||| bitAt (d - 1) true else 0 }
    else { m with win := m.win ||| bitAt (m.h.toNat - c.toNat - 1) true }
  if m.stored ≤ c then ({ m' with stored := storedMark c }, true) else (m', false)

def Mark.new (k : Fin 36) (c : Word32) : Mark := { key := k, h := c, win := 0, stored := storedMark c }

/-- Commit a counter to a list of at most n marks: none when no mark is free. -/
def commitMarks (n : Nat) (k : Fin 36) (c : Word32) (l : List Mark) : List Mark × Bool :=
  match l.find? fun m => m.key = k with
  | some m => let r := m.commit c; (l.map fun m => if m.key = k then r.1 else m, r.2)
  | none => if l.length < n then (l ++ [Mark.new k c], true) else (l, false)

/-- Step 6 against a list of at most n marks. -/
def marksPass (n : Nat) (k : Fin 36) (c : Word32) (l : List Mark) : Bool :=
  match l.find? fun m => m.key = k with
  | some m => m.passes c
  | none => l.length < n

/-! ## Drops, neighbours, senders (R286, R292, R293) -/

/-- Count a failure of step k. -/
def macDrop (k : Nat) (s : State) : State := s.modMac fun m => { m with dropk := upd m.dropk (finOf 11 (k + 10)) satInc }

def State.nbOf (s : State) (p : Neighbour → Bool) : Option (Fin 64) :=
  (List.finRange 64).find? fun i => s.mac.nbs[i].valid && p s.mac.nbs[i]

def State.nbByShort (s : State) (a : Nat) : Option (Fin 64) := s.nbOf fun n => n.short.toNat = a
def State.nbByLong (s : State) (a : Word64) : Option (Fin 64) := s.nbOf fun n => n.long = a

/-- Who sent a frame. -/
inductive From where
  | nb (i : Fin 64)
  | cached (e : Sender)
  | new
  deriving DecidableEq, Repr

/-- The sender a source address names (step 4). -/
def State.sender (s : State) (src : List Byte) : Option From :=
  if src.length = 2 then (s.nbByShort (leNat src)).map .nb
  else
    let a : Word64 := ofBytesLE 64 src
    match s.nbByLong a with
    | some i => some (.nb i)
    | none => some (match s.mac.senders.find? fun e => e.long = a with
      | some e => .cached e
      | none => .new)

/-- Long address of the sender, for the nonce. -/
def State.longOf (s : State) (f : From) (src : List Byte) : Word64 :=
  match f with
  | .nb i => s.mac.nbs[i].long
  | _ => ofBytesLE 64 src

/-- Effective ceiling of the power loop (R329): regulatory cap, governor row, `LOOP_PWR.MAX`. -/
def State.powerCeil (s : State) : Nat := min s.regCap (min (s.txMaxCode.getD 0) (field s.mac.loopPwr 13 8))

/-- A power code clamped into the effective range. -/
def State.clampPower (s : State) (p : Nat) : Nat := min s.powerCeil (max p (field s.mac.loopPwr 5 0))

/-- Create a neighbour entry, or give an entry of the same long address this short address; refused when none is free (R293, R330). -/
def addNeighbour (long : Word64) (short : BitVec 16) (coord : Bool) (s : State) : State :=
  match s.nbByLong long with
  | some i => sysPlain (nbIdx i.val) 0 (s.modNb i fun n => { n with short := short, coord := n.coord || coord })
  | none =>
    match (List.finRange 64).find? fun i => !s.mac.nbs[i].valid with
    | none => macDrop 4 s
    | some i =>
      let pwr := BitVec.ofNat 6 (s.clampPower s.phy.txpwr.toNat)
      sysPlain (nbIdx i.val) 0 ((s.modNb i fun _ =>
        { Neighbour.reset with long := long, short := short, valid := true, coord := coord, pwr := pwr }).modPhy fun p =>
          { p with gauge := upd p.gauge i fun _ => 0 })

/-- Delete a neighbour entry. -/
def dropNeighbour (i : Fin 64) (s : State) : State :=
  sysPlain (nbIdx i.val) 0 ((s.modNb i fun _ => Neighbour.reset).modPhy fun p => { p with gauge := upd p.gauge i fun _ => 0 })

/-- Write the word of a sender-cache entry with the stored H of its mark. -/
def writeSender (no : Nat) (h : Word32) (s : State) : State := sysIssue [sysHalf (.sender no h) .A 0 0] s

/-- Commit a counter of a sender-cache entry, created if need be; it becomes the most recently used.  Its number is answered. -/
def commitSender (long : Word64) (k : Fin 36) (c : Word32) (s : State) : State × Nat :=
  let l := s.mac.senders
  match l.find? fun e => e.long = long with
  | some e =>
    let r := commitMarks 1 k c e.mark.toList
    let t := s.modMac fun m => { m with senders := (l.filter fun e => !decide (e.long = long)) ++ [{ e with mark := r.1.head? }] }
    (if r.2 then writeSender e.no (storedMark c) t else t, e.no)
  | none =>
    let fresh (no : Nat) : Sender := { no := no, long := long, mark := some (Mark.new k c), cell := .blank }
    if l.length < 256 then
      let no := ((List.range 256).find? fun i => !l.any fun e => decide (e.no = i)).getD 0
      (writeSender no (storedMark c) (s.modMac fun m => { m with senders := l ++ [fresh no] }), no)
    else match l with
      | [] => (s, 0)
      | old :: rest =>
        (writeSender old.no (storedMark c) (s.modMac fun m => { m with senders := rest ++ [fresh old.no], evict := satInc m.evict }), old.no)

/-- The cache entry of a source is read: a corrected word is counted and repaired, an uncorrectable one discards the entry, and the sender is as
one not cached (R219, Table INT-2). -/
def readSender (src : List Byte) (s : State) : State :=
  if src.length = 2 then s
  else match s.mac.senders.find? fun e => e.long = (ofBytesLE 64 src : Word64) with
    | none => s
    | some e => match e.cell with
      | .corr _ => noteCorrected (wordKey .A (senderIdx e.no)) s
      | .bad =>
        noteUnc (wordKey .A (senderIdx e.no)) .check (s.modMac fun m => { m with senders := m.senders.filter fun x => !decide (x.no = e.no) })
      | _ => s

/-- A new site identifier, or a transfer of slot 0: tables cleared, no short address, UNSYNC (R312); the words of the neighbours that were in
use and of the module's address are written. -/
def clearMacSite (s : State) : State :=
  let used := (List.finRange 64).filter fun i => s.mac.nbs[i].valid
  State.each used (fun i s => sysPlain (nbIdx i.val) 0 s) <| sysPlain macIdx 0 <| (s.modMac fun m => { m with
    nbs := Vector.replicate 64 Neighbour.reset, senders := [], slotmask := 0, maskNext := none, short := 0xFFFE, state := .unsync
    trackRef := m.sfn + 1, miss := 0, searched := 0, window := false, rxHold := [], ackDue := none, modq := [] }).modPhy fun p =>
      { p with gauge := Vector.replicate 64 0, rebuild := true }

/-! ## `MAC_NBCTL` (R292, R293, R333) -/

/-- A neighbour entry as the word of Table MAC-8. -/
def Neighbour.word (n : Neighbour) : Word128 :=
  orAll [n.long.setWidth 128, at_ 64 n.short.toNat, bitAt 80 n.valid, bitAt 81 n.coord, at_ 84 n.txmap.toNat, at_ 90 n.pwr.toNat,
    at_ 96 n.txseq.toNat, at_ 104 n.rxseq.toNat]

def setNbCtl (i : Fin 64) (op : BitVec 2) (s : State) : State := s.modMac fun m => { m with nbEntry := i, nbOp := op }

def nbRead (i : Fin 64) (s : State) : State := (setNbCtl i 1 s).modMac fun m => { m with nbWord := m.nbs[i].word }

/-- WRITE: PWR of a host write is clamped while the power loop is on (R333); another long address starts a new entry. -/
def nbWrite (i : Fin 64) (s : State) : State :=
  let s := setNbCtl i 2 s
  let w := s.mac.nbWord
  let old := s.mac.nbs[i]
  let same := old.valid && old.long = w.setWidth 64
  let pwr := if flag s.mac.loopCtl 0 then BitVec.ofNat 6 (s.clampPower (field w 95 90)) else BitVec.ofNat 6 (field w 95 90)
  let base : Neighbour := if same then old else Neighbour.reset
  let s := s.modNb i fun _ => { base with
    long := w.setWidth 64, short := BitVec.ofNat 16 (field w 79 64), valid := flag w 80, coord := flag w 81
    txmap := BitVec.ofNat 4 (field w 87 84), pwr := pwr, txseq := BitVec.ofNat 8 (field w 103 96), rxseq := BitVec.ofNat 8 (field w 111 104) }
  sysPlain (nbIdx i.val) 0 (if same then s else s.modPhy fun p => { p with gauge := upd p.gauge i fun _ => 0 })

def nbDelete (i : Fin 64) (s : State) : State := dropNeighbour i (setNbCtl i 3 s)

def execNbctlRead (p : Port) (entry : Fin 64) (s : State) : Host.Outcome State Fault Refusal := .next (atSlot0 p 0x1480 (nbRead entry) s)
def execNbctlWrite (p : Port) (entry : Fin 64) (s : State) : Host.Outcome State Fault Refusal := .next (atSlot0 p 0x1480 (nbWrite entry) s)
def execNbctlDelete (p : Port) (entry : Fin 64) (s : State) : Host.Outcome State Fault Refusal := .next (atSlot0 p 0x1480 (nbDelete entry) s)

/-! ## Frames to send -/

/-- The module's own source address: short, or long while it has none (R292). -/
def State.ownSrc (s : State) : List Byte := if s.mac.short = 0xFFFE then s.longBytes else bytesLE 2 s.mac.short

/-- Frame control of a secured frame. -/
def fcOf (typ : Nat) (ar : Bool) (dst src : List Byte) : BitVec 16 :=
  let mode (a : List Byte) : Nat := if a.length = 2 then 1 else if a.length = 8 then 2 else 0
  orAll [at_ 0 typ, at_ 4 1, bitAt 6 true, bitAt 7 ar, at_ 10 (mode dst), at_ 12 (mode src)]

def TxFrame.ar (f : TxFrame) : Bool := flag f.fc 7
def TxFrame.level (f : TxFrame) : Nat := field f.secctl 2 0

/-- The frame as it goes now, from the source address that the module has: long while it has no short one, and in an ASSOC_REQ (R292). -/
def State.sourced (s : State) (f : TxFrame) : TxFrame :=
  let src := if f.hdr = [0x01] && f.flow.isNone then s.longBytes else s.ownSrc
  { f with src := src, fc := setField f.fc 13 12 (if src.length = 2 then 1 else 2) }

/-- A command of the module flow (R317).  Level and AR of the module's own commands are not given: both are free (log entry 49). -/
def queueCommand (id : Nat) (payload dst src : List Byte) (nb : Option (Fin 64)) (s : State) : State :=
  s.draw fun v s =>
    let level := [1, 2, 3, 5, 6, 7].getD (field v 31 0 % 6) 1
    let f : TxFrame :=
      { flow := none, fc := fcOf typCommand (v.getLsbD 32) dst src, seq := 0, dst := dst, src := src, secctl := BitVec.ofNat 8 level
        keyid := 0x82, key := netKey, hdr := [BitVec.ofNat 8 id], payload := payload, nb := nb, tries := 0, skein := 0, lane := 0, items := 0
        gone := false }
    s.modMac fun m => { m with modq := m.modq ++ [f] }

/-- A command to a neighbour, by its short address. -/
def commandTo (i : Fin 64) (id : Nat) (payload : List Byte) (s : State) : State :=
  queueCommand id payload (bytesLE 2 s.mac.nbs[i].short) s.ownSrc (some i) s

/-- Bytes of a frame's PSDU. -/
def TxFrame.bytes (f : TxFrame) : Nat := 2 + 5 + f.dst.length + f.src.length + 6 + f.hdr.length + f.payload.length + micBytes f.level + 4

/-- Bytes of the payload field of a frame in W2 form. -/
def TxFrame.w2Bytes (f : TxFrame) : Nat := 6 + f.hdr.length + f.payload.length + micBytes f.level

/-- The PSDU of a frame with its counter (R282, R284, R298). -/
def psduOf (s : State) (f : TxFrame) (ctr : Word32) : List Byte :=
  let hd := bytesLE 2 f.fc ++ [f.seq] ++ bytesLE 2 s.siteId ++ f.dst ++ f.src
  let sec := [f.secctl, f.keyid] ++ bytesLE 4 ctr
  let r := secure s.keys[f.key].key (nonceOf s.fuses.longAddr ctr f.secctl) (hd ++ sec ++ f.hdr) f.payload f.level
  let m := hd ++ sec ++ f.hdr ++ r.1 ++ r.2
  bytesLE 2 (lengthWord f.bytes) ++ m ++ bytesLE 4 (crc32 m)

/-- The header of a W2 frame. -/
def w2Header (s : State) (typ : Nat) (ar pend retry sec : Bool) (seq : Byte) (dst src : List Byte) : List Byte :=
  [orAll [at_ 0 typ, bitAt 2 ar, bitAt 3 pend, bitAt 4 retry, bitAt 5 sec], seq] ++ bytesBE 2 s.siteId ++ dst.reverse ++ src.reverse

/-- Preamble, sync word, length, header, payload and CRC of a W2 frame. -/
def w2Frame (hd payload : List Byte) : List Byte :=
  let m := BitVec.ofNat 8 (8 + payload.length) :: hd ++ payload
  [0x55, 0x55, 0x55, 0x55, 0x93, 0xB5] ++ m ++ bytesBE 2 (crc16 m)

/-- A frame in W2 form. -/
def w2Of (s : State) (f : TxFrame) (ctr : Word32) : List Byte :=
  let hd := w2Header s (field f.fc 3 0) f.ar (flag f.fc 8) (flag f.fc 9) true f.seq f.dst f.src
  let sec := [f.secctl, f.keyid] ++ bytesLE 4 ctr
  let r := secure s.keys[f.key].key (nonceOf s.fuses.longAddr ctr f.secctl) (hd ++ sec ++ f.hdr) f.payload f.level
  w2Frame hd (sec ++ f.hdr ++ r.1 ++ r.2)

end Sys2Proof.Machine
end

