-- ==== Sys2Proof/Machine/Loops.lean ====
section
/-! DEFINITION. The adaptive loops: power, loading, threshold (R329 to R333, R337, R338). -/

namespace Sys2Proof.Machine

/-! ## Conflicts and starvation (R329, R332) -/

def loopPower : Fin 3 := 0
def loopLoading : Fin 3 := 1
def loopThreshold : Fin 3 := 2

/-- The loop is on (`LOOP_CTL`). -/
def State.loopOn (s : State) (l : Fin 3) : Bool := flag s.mac.loopCtl l.val

/-- The software floor lies above the effective ceiling: the conflict bit, and its stitch when the bit goes from 0 to 1. -/
def noteConflict (l : Fin 3) (floor ceil : Word32) (s : State) : State :=
  if s.mac.conflict.getLsbD l.val then s
  else raise .loopConflict 0 [snap32 l.val, floor, ceil] (s.modMac fun m => { m with conflict := m.conflict ||| bitAt l.val true })

def limRegulatory : Nat := 0
def limGovernor : Nat := 1
def limSoftware : Nat := 2
def limPool : Nat := 3

/-- One interval of a loop: starved by a limit, or not; the STARVE_N-th in a row is stitched. -/
def countInterval (l : Fin 3) (inst : Nat) (limit : Option Nat) (wanted applied : Word32) (s : State) : State :=
  let set (n : BitVec 8) (s : State) : State := s.modMac fun m => { m with starve := upd m.starve l fun _ => n }
  match limit with
  | none => set 0 s
  | some c =>
    let n := s.mac.starve[l].toNat + 1
    if field s.mac.loopCtl 15 8 ≤ n then
      raise .loopStarved 0 [snap32 l.val, snap32 inst, Config.limitCode c, wanted, applied] (set 0 s)
    else set (BitVec.ofNat 8 n) s

/-- A signed value of w bits as a snapshot, zero-extended (R390). -/
def snapSigned (w : Nat) (x : Int) : Word32 := (BitVec.ofInt w x).setWidth 32

/-- A value clamped into a range whose floor yields to its ceiling. -/
def clampInt (floor ceil x : Int) : Int := min ceil (max x (min floor ceil))

/-! ## Power (Table SCH-2, R337) -/

/-- The limit that makes the power ceiling: the first, in order of precedence, of those equally low. -/
def State.powerLimit (s : State) : Nat :=
  if s.powerCeil = s.regCap then limRegulatory
  else if some s.powerCeil = s.txMaxCode || (s.txMaxCode.isNone && s.powerCeil = 0) then limGovernor
  else limSoftware

/-- An interval of the power loop of a neighbour: the FB code of its acknowledgement, or none for a missed one. -/
def powerLoop (i : Fin 64) (fb : Option Nat) (s : State) : State :=
  if s.loopOn loopPower && s.mac.nbs[i].valid then
    let pwr : Int := s.mac.nbs[i].pwr.toNat
    let tgt := field s.mac.loopPwr 20 16
    let wanted : Int := match fb with
      | none => pwr + 2
      | some f => if tgt + 4 ≤ f then pwr - 1 else if f < tgt then pwr + 2 else pwr
    let floor : Int := field s.mac.loopPwr 5 0
    let ceil : Int := s.powerCeil
    let applied := clampInt floor ceil wanted
    let s := if ceil < floor then noteConflict loopPower (snapSigned 32 floor) (snapSigned 32 ceil) s else s
    let limit := if applied = wanted then none else if ceil < wanted then some s.powerLimit else some limSoftware
    let s := s.modNb i fun n => { n with pwr := BitVec.ofInt 6 applied }
    countInterval loopPower i.val limit (snapSigned 32 wanted) (snapSigned 32 applied) (if applied = pwr then s else sysPlain (nbIdx i.val) 0 s)
  else s

/-! ## Loading (R259, R331) -/

/-- Some neighbour holds the pool slot. -/
def State.slotHeld (s : State) (k : Fin 16) : Bool :=
  s.mac.nbs.toList.any fun n => n.valid && (n.curSlot = some k || n.prevSlot = some k)

/-- The lowest free slot of the pool. -/
def State.freePool (s : State) : Option (Fin 16) :=
  (List.finRange 16).find? fun k => s.mac.pool.getLsbD k.val && !s.phy.tmaps[k].tx && !s.slotHeld k

/-- Write a tone-map slot, a word of the system area. -/
def setToneMap (k : Fin 16) (t : ToneMap) (s : State) : State :=
  sysPlain (tmapIdx k.val) 0 (s.modPhy fun p => { p with tmaps := upd p.tmaps k fun _ => storedMap t })

/-- The previous slot of a neighbour returns to the pool with VALID 0. -/
def releasePrev (i : Fin 64) (s : State) : State :=
  match s.mac.nbs[i].prevSlot with
  | none => s
  | some k => (setToneMap k { s.phy.tmaps[k] with valid := false } s).modNb i fun n => { n with prevSlot := none }

/-- Body of a TONEMAP that tells a neighbour about slot k (Table MAC-7). -/
def toneBody (k : Nat) (t : ToneMap) : List Byte := [BitVec.ofNat 8 k, BitVec.ofNat 8 t.rate.toNat] ++ bytesLE 9 t.map

/-- The map the loop applies to a neighbour: notched subcarriers off, CAP_LOAD, CAP_RATE, FLOOR; none serves it robust. -/
def State.loopMap (s : State) (i : Fin 64) (floor12 : Nat) : Option (Nat × BitVec 72) :=
  match derive s.phy.gauge[i] (field s.phy.load 3 0) (field s.mac.loopLoad 2 0) (field s.mac.loopLoad 5 4) (dataNotched s.phy.shape) with
  | some r => if info12 r.1 r.2 < floor12 then none else some r
  | none => none

/-- The most information bits × 12 that the caps and the notches leave: the effective ceiling of the loading loop. -/
def State.loadCeil12 (s : State) : Nat :=
  let r := field s.mac.loopLoad 5 4
  info12 r (orAll ((List.range 24).map fun d => at_ (3 * d) (if dataNotched s.phy.shape d then 0 else field s.mac.loopLoad 2 0)))

/-- The map of a neighbour's current slot, and whether it is one that serves the neighbour. -/
def State.curMap (s : State) (i : Fin 64) : Option (Nat × BitVec 72) :=
  match s.mac.nbs[i].curSlot with
  | some k => let t := s.phy.tmaps[k]; if t.valid then some (t.rate.toNat, t.map) else none
  | none => none

/-- Put a map into a free pool slot and tell the neighbour; robust is a map with every subcarrier off, stored with VALID 0 (R256, R314). -/
def giveMap (i : Fin 64) (k : Fin 16) (r : Option (Nat × BitVec 72)) (s : State) : State :=
  let t : ToneMap := { map := (r.map (·.2)).getD 0, rate := BitVec.ofNat 2 ((r.map (·.1)).getD 0), tx := false, index := BitVec.ofNat 4 k.val,
                       valid := r.isSome }
  let s := setToneMap k t s
  let s := s.modNb i fun n => { n with prevSlot := n.curSlot, prevSfn := s.mac.sfn.toNat, curSlot := some k }
  commandTo i 4 (toneBody k.val t) s

/-- An interval of the loading loop of a neighbour.  No second handover begins before the first is over (log entry 50). -/
def loadingLoop (i : Fin 64) (s : State) : State :=
  let margin := field s.phy.load 3 0
  let floor12 := 12 * field s.mac.loopLoad 12 8
  let ceil12 := s.loadCeil12
  let s := if ceil12 < floor12 then noteConflict loopLoading (snap32 (floor12 / 12)) (snap32 (ceil12 / 12)) s else s
  let wanted := derive s.phy.gauge[i] margin 4 2 fun _ => false
  let legal := derive s.phy.gauge[i] margin 4 2 (dataNotched s.phy.shape)
  let applied := s.loopMap i (min floor12 ceil12)
  let limit := if applied = wanted then none else if legal = wanted then some limSoftware else some limRegulatory
  let starved (limit : Option Nat) (s : State) : State :=
    s.draw fun v s => countInterval loopLoading i.val limit (v.setWidth 32) ((v >>> 32).setWidth 32) s
  if applied = s.curMap i || s.mac.nbs[i].prevSlot.isSome then starved limit s
  else match s.freePool with
    | none => starved (some limPool) s
    | some k => giveMap i k applied (starved limit s)

/-- A frame accepted from a neighbour, its header naming a loaded RX slot or none: the handover ends, and EVERY frames end an interval. -/
def loadingFrame (i : Fin 64) (slot : Option Nat) (s : State) : State :=
  if s.loopOn loopLoading then
    let s := if slot.isSome && slot = s.mac.nbs[i].curSlot.map (·.val) then releasePrev i s else s
    let n := s.mac.nbs[i].since + 1
    if field s.mac.loopLoad 23 16 ≤ n then loadingLoop i (s.modNb i fun x => { x with since := 0 })
    else s.modNb i fun x => { x with since := n }
  else s

/-- Sixteen superframes have passed since the previous slot was left; a loop that is off keeps both slots (R338). -/
def prevExpire (i : Fin 64) (s : State) : State :=
  if s.loopOn loopLoading && 16 ≤ s.mac.sfn.toNat - s.mac.nbs[i].prevSfn then releasePrev i s else s

def execTonemapPrevExpire (entry : Fin 64) (s : State) : Host.Outcome State Fault Refusal := .next (prevExpire entry s)

/-! ## Threshold (R305, R330) -/

/-- `LOOP_THR.CUR` in dBm. -/
def State.sniffThr (s : State) : Int := (BitVec.ofNat 8 (field s.mac.loopThr 23 16)).toInt
def State.thrMin (s : State) : Int := (BitVec.ofNat 8 (field s.mac.loopThr 7 0)).toInt
def State.thrMax (s : State) : Int := (BitVec.ofNat 8 (field s.mac.loopThr 15 8)).toInt

def setThr (x : Int) (s : State) : State :=
  s.modMac fun m => { m with loopThr := setField m.loopThr 23 16 (BitVec.ofInt 8 x).toNat }

/-- An interval of the threshold loop: a sniff, and whether it was a false wake. -/
def thresholdLoop (falseWake : Bool) (s : State) : State :=
  if s.loopOn loopThreshold then
    let cur := s.sniffThr
    let clean := if falseWake then 0 else s.mac.cleanRun + 1
    let full := !falseWake && decide (field s.mac.loopThr 31 24 ≤ clean)
    let wanted := if falseWake then cur + 1 else if full then cur - 1 else cur
    let applied := clampInt s.thrMin s.thrMax wanted
    let s := if s.thrMax < s.thrMin then noteConflict loopThreshold (snapSigned 8 s.thrMin) (snapSigned 8 s.thrMax) s else s
    let s := setThr applied (s.modMac fun m => { m with cleanRun := if full then 0 else clean })
    countInterval loopThreshold 0 (if applied = wanted then none else some limSoftware) (snapSigned 8 wanted) (snapSigned 8 applied) s
  else s

end Sys2Proof.Machine
end

