-- ==== Sys2Proof/Machine/Sched.lean ====
section
/-! DEFINITION. The scheduler, the transmit path and acknowledgements sent (R291, R295 to R297, R304, R317 to R328, R334, R335). -/

namespace Sys2Proof.Machine

/-! ## Flow registers (Table MAC-11) -/

def Flow.skein (q : Flow) : BitVec 16 := q.flow.setWidth 16
def Flow.dst (q : Flow) : Nat := field q.flow 31 16
def Flow.ep (q : Flow) : Nat := field q.flowb 7 0
def Flow.key (q : Flow) : Nat := field q.flowb 9 8
def Flow.level (q : Flow) : Nat := field q.flowb 14 12
def Flow.ar (q : Flow) : Bool := flag q.flowb 15
/-- To a group address or to broadcast. -/
def Flow.toGroup (q : Flow) : Bool := flag q.flowb 16 || q.dst = 0xFFFF
def Flow.requeue (q : Flow) : Bool := flag q.flowb 17
def Flow.en (q : Flow) : Bool := flag q.flowb 31

def flowNo (n : Fin 8) (f : Fin 8) : Fin 64 := finOf 64 (8 * n.val + f.val)
def flowSlot (i : Fin 64) : Fin 8 := finOf 8 (i.val / 8)
def flowIdx (i : Fin 64) : Fin 8 := finOf 8 i.val

/-- A write of `MAC_FLOWB_f`: EN going from 0 to 1 sets F_last to V (R319). -/
def flowbWrite (i : Fin 64) (v : Word32) (s : State) : State :=
  sysSetting (flowSlot i) (0x1604 + 16 * (i.val % 8)) <| s.modFlow i fun q =>
    if flag v 31 && !q.en then { q with flowb := v, last := s.mac.v, fin := none } else { q with flowb := v }

def flowEnable (f : Fin 8) (n : Fin 8) (s : State) : State :=
  flowbWrite (flowNo n f) (s.mac.flows[flowNo n f].flowb ||| bitAt 31 true) s

def execFlowEnable (p : Port) (f : Fin 8) (s : State) : Host.Outcome State Fault Refusal :=
  .next (atWindow p (0x1604 + 16 * f.val) (flowEnable f) s)

/-! ## Length, cost and gates (R255, R322, R326) -/

/-- How a frame to a neighbour goes: RATE, TMAP and map; a map that loads a notched subcarrier falls back to robust (R258, R269). -/
structure TxForm where
  rate     : BitVec 2
  tmap     : BitVec 4
  map      : BitVec 72
  fallback : Bool
  deriving DecidableEq, Repr

def TxForm.robust (fallback : Bool) : TxForm := { rate := 3, tmap := 0, map := 0, fallback := fallback }

def State.txForm (s : State) (nb : Option (Fin 64)) : TxForm :=
  match nb with
  | none => TxForm.robust false
  | some i =>
    let t := s.phy.tmaps[finOf 16 s.mac.nbs[i].txmap.toNat]
    if !(t.valid && t.tx) then TxForm.robust false
    else if (List.range 24).any fun d => loadOf t.map d ≠ 0 && dataNotched s.phy.shape d then TxForm.robust true
    else { rate := t.rate, tmap := t.index, map := t.map, fallback := false }

/-- Airtime in us of n PSDU bytes in a form, and its symbol times. -/
def TxForm.us (t : TxForm) (n : Nat) : Nat := symUs (dataSymbols t.rate (cbps t.map) n)
def TxForm.sym (t : TxForm) (n : Nat) : Nat := 5 + dataSymbols t.rate (cbps t.map) n

/-- Bytes of a W2 frame after its sync word. -/
def TxFrame.w2Total (f : TxFrame) : Nat := 11 + f.w2Bytes

/-- Airtime of a frame, and its cost in symbol times. -/
def State.frameUs (s : State) (f : TxFrame) : Nat := if s.phy.active then legacyUs f.w2Total else (s.txForm f.nb).us f.bytes
def State.frameCost (s : State) (f : TxFrame) : Nat :=
  if s.phy.active then symTimes (legacyUs f.w2Total) else (s.txForm f.nb).sym f.bytes

/-- Airtime of the acknowledgement that a frame expects: under the RX map assigned to the neighbour, or robust. -/
def State.ackExpected (s : State) (f : TxFrame) : Nat :=
  if s.phy.active then legacyUs 11
  else
    let n := if f.src.length = 8 then 18 else 12
    match f.nb.bind s.curMap with
    | some (r, m) => symUs (dataSymbols (BitVec.ofNat 2 r) (cbps m) n)
    | none => symUs (dataSymbols 3 0 n)

/-- D_frame + A. -/
def State.airNeed (s : State) (f : TxFrame) : Nat := s.frameUs f + if f.ar then 578 + s.ackExpected f else 0

/-- The kinds of gate. -/
inductive Gate where
  | contention
  | assigned
  deriving DecidableEq, Repr

/-- Slot of the superframe under way. -/
def State.slotNow (s : State) : Nat := s.mac.sfUs / s.tSlot

/-- The gate that is open now for these kinds ([0] assigned, [1] contention) and where it ends, in us from the beacon. -/
def State.gateNow (s : State) (kinds : Nat) : Option (Gate × Nat) :=
  let sl := s.slotNow
  let cap := s.mac.capLast.toNat
  if 31 < sl then none
  else if s.mac.bslots.toNat < sl && sl ≤ cap then (if kinds.testBit 1 then some (.contention, (cap + 1) * s.tSlot) else none)
  else if cap < sl && s.mac.slotmask.getLsbD sl && kinds.testBit 0 then some (.assigned, (sl + 1) * s.tSlot)
  else none

def cmdAssocReq : Nat := 1

/-- Gate kinds of a frame: those of its flow; the module flow uses both, and ASSOC_REQ contention only (R292). -/
def State.kindsOf (s : State) (f : TxFrame) : Nat :=
  match f.flow with
  | some (n, k) => field s.tenants[n].gate (2 * k.val + 1) (2 * k.val)
  | none => if f.hdr = [BitVec.ofNat 8 cmdAssocReq] then 2 else 3

/-- The gate in which the frame fits now, within the limits on transmit time (R248, R271, R326). -/
def State.fitGate (s : State) (f : TxFrame) : Option Gate :=
  match s.gateNow (s.kindsOf f) with
  | none => none
  | some (g, e) =>
    let need := s.airNeed f
    if s.mac.sfUs + need ≤ e && (!s.hopping || s.mac.dwell + need ≤ s.dwellMax) && s.timeAllows (s.frameUs f) then some g else none

/-! ## Fair queueing (R318, R319) -/

/-- Complete packets in the skein a flow is bound to. -/
def State.flowPackets (s : State) (i : Fin 64) : Nat :=
  let sk := s.mac.flows[i].skein
  if s.skeinOwner sk = some (flowSlot i) then (((s.skein sk).map fun k => (k.lanes.map LaneCtx.pkts).sum).getD 0) else 0

/-- The flow's head packet: its lane and its items. -/
def State.flowHead (s : State) (i : Fin 64) : Option (Nat × List (Option Word128)) :=
  let q := s.mac.flows[i]
  if q.en && s.skeinOwner q.skein = some (flowSlot i) then s.headPacket (flowSlot i) q.skein else none

/-- The flow is enabled and its skein holds a complete packet, whoever is popping it (R318). -/
def State.holdsPacket (s : State) (i : Fin 64) : Bool := s.mac.flows[i].en && decide (0 < s.flowPackets i)

/-- The flow is backlogged (R318). -/
def State.backlogged (s : State) (i : Fin 64) : Bool :=
  let t := s.tenants[flowSlot i]
  decide (t.st = .owned) && t.sw ≠ 0 && s.holdsPacket i

def flowWeight (fw : Word32) (f : Nat) : Nat := field fw (4 * f + 3) (4 * f)

/-- INC of a flow. -/
def State.incOf (s : State) (i : Fin 64) : Word32 :=
  let n := flowSlot i
  let t := s.tenants[n]
  let sum := (((List.finRange 8).filter fun f => s.mac.flows[flowNo n f].en).map fun f => flowWeight t.fw f.val).sum
  BitVec.ofNat 32 (2 ^ 20 * sum / (t.sw.toNat * flowWeight t.fw (flowIdx i).val))

/-- The later of two times modulo 2^32. -/
def later (a b : Word32) : Word32 := if 0 < (a - b).toInt then a else b

/-- A flow that has become backlogged gets its finish time; one whose skein has no packet loses it; holding leaves it (R319, R335). -/
def refreshFlow (i : Fin 64) (s : State) : State :=
  if !s.holdsPacket i then s.modFlow i fun q => { q with fin := none }
  else if s.mac.flows[i].fin.isNone && s.backlogged i then
    let inc := s.incOf i
    s.modFlow i fun q => { q with fin := some (later s.mac.v q.last + inc) }
  else s

def refreshFlows (s : State) : State := State.each (List.finRange 64) refreshFlow s

/-- A packet of the flow has left the skein: F = F_last + INC for the next. -/
def afterPop (i : Fin 64) (s : State) : State :=
  let more := s.backlogged i
  let inc := s.incOf i
  s.modFlow i fun q => { q with fin := if more then some (q.last + inc) else none, part := none }

/-! ## Frames of flows (R304) -/

/-- The frame a flow sends with these items, with an XFER that no register gives (log entry 51). -/
def State.flowFrame (s : State) (i : Fin 64) (xfer : BitVec 16) (lane : Nat) (items : List Word128) : TxFrame :=
  let q := s.mac.flows[i]
  let n := flowSlot i
  let dst := bytesLE 2 (BitVec.ofNat 16 q.dst)
  { flow := some (n, flowIdx i), fc := fcOf typData (q.ar && !q.toGroup) dst s.ownSrc, seq := 0, dst := dst, src := s.ownSrc
    secctl := BitVec.ofNat 8 q.level, keyid := orAll [at_ 0 q.key, at_ 4 n.val], key := keyNo n q.key
    hdr := BitVec.ofNat 8 q.ep :: bytesLE 2 xfer, payload := items.flatMap bytesOf
    nb := if q.toGroup then none else s.nbByShort q.dst
    tries := 0, skein := q.skein, lane := lane, items := items.length, gone := false }

/-- The payload exceeds what a PSDU, or a W2 frame, takes (R254, R304, R308). -/
def State.tooLong (s : State) (f : TxFrame) : Bool := if s.phy.active then 119 < f.w2Bytes else 1024 < f.bytes

/-- The flow's key may secure its frames: its use, its level, and sending allowed (R299, R313). -/
def State.flowKeyOk (s : State) (i : Fin 64) : Bool :=
  let q := s.mac.flows[i]
  let k := keyNo (flowSlot i) q.key
  q.key < 3 && levelOk q.level && s.keys[k].use = (if q.toGroup then useNetGroup else useNetUnicast) && s.keySends k

/-- Stateless frames are not available in legacy mode (R308). -/
def State.formOk (s : State) (f : TxFrame) : Bool := !s.phy.active || f.src.length = 2

/-- L − cost ≥ −BURST: a retry may be sent (R323). -/
def State.retryPaid (s : State) (n : Fin 8) (cost : Nat) : Bool :=
  decide (-(s.tenants[n].shpBurst : Int) ≤ s.tenants[n].level - cost)

/-- The frame a flow would send next. -/
def State.nextFrame (s : State) (i : Fin 64) : Option TxFrame :=
  match s.mac.flows[i].part with
  | some f => some (s.sourced f)
  | none => match s.flowHead i with
    | none => none
    | some (l, items) => if items.any Option.isNone then none else some (s.flowFrame i 0 l (items.filterMap id))

/-- A flow that may be chosen now, with its finish time and its frame (R320). -/
def State.candidate (s : State) (i : Fin 64) : Option (Word32 × TxFrame) :=
  let q := s.mac.flows[i]
  let n := flowSlot i
  match q.fin, s.nextFrame i with
  | some t, some f =>
    let cost := s.frameCost f
    let paid := if f.tries = 0 then decide ((cost : Int) ≤ s.tenants[n].level) else s.retryPaid n cost
    if q.en && !q.wait && s.backlogged i && s.flowKeyOk i && s.formOk f && !s.tooLong f && paid && (s.fitGate f).isSome then some (t, f)
    else none
  | _, _ => none

/-- The eligible flow with the smallest F; ties go to the lower slot, then to the lower flow. -/
def State.bestFlow (s : State) : Option (Fin 64 × TxFrame) :=
  ((List.finRange 64).foldl (fun (b : Option (Word32 × Fin 64 × TxFrame)) i => match s.candidate i with
    | none => b
    | some (t, f) => match b with
      | none => some (t, i, f)
      | some x => if (t - x.1).toInt < 0 then some (t, i, f) else b) none).map (·.2)

/-! ## Ends of service (R304, R327) -/

/-- No frame is in service. -/
def endService (s : State) : State :=
  releaseUnit .rftx ((s.modPhy fun p => { p with tx := none, txPhase := .idle, clear := false }).modMac fun m => { m with backoff := none })

/-- A frame given up returns to its flow; `wait`: it waits for the next gate; `count`: it no longer fitted (R327). -/
def returnFrame (wait count : Bool) (s : State) : State :=
  match s.phy.tx with
  | none => s
  | some f =>
    let s := endService s
    match f.flow with
    | none => s.modMac fun m => { m with modq := f :: m.modq, modWait := m.modWait || wait }
    | some (n, k) =>
      let s := s.modFlow (flowNo n k) fun q => { q with part := if f.tries = 0 then none else some f, wait := q.wait || wait }
      if count then s.modTen n fun t => { t with fitWait := satInc t.fitWait } else s

/-- A consumer is inside a packet of the skein (R170). -/
def State.midPacket (s : State) (sk : BitVec 16) : Bool := ((s.skein sk).map fun k => k.lanes.any fun c => c.rlock).getD false

/-- The packet of a frame leaves its skein; inside a packet that another consumer has begun nothing of it can be popped (R170). -/
def popFrame (n k : Fin 8) (f : TxFrame) (s : State) : State :=
  afterPop (flowNo n k) (if s.midPacket f.skein then s else popMany n f.skein f.lane f.items s)

/-- The items of a frame's packet, at the head of its lane. -/
def State.packetOf (s : State) (n : Fin 8) (f : TxFrame) : List Word128 :=
  ((s.lane f.skein f.lane).map fun c => (s.packetAt n c f.items c.head).filterMap id).getD []

/-- A packet has exhausted its retries: pushed again at the tail of its lane with REQUEUE, else counted (R304).  A packet flushed away is not
popped (R334). -/
def failFrame (f : TxFrame) (s : State) : State :=
  match f.flow with
  | none => s
  | some (n, k) =>
    if f.gone then s
    else
      let q := s.mac.flows[flowNo n k]
      let items := s.packetOf n f
      let mid := s.midPacket f.skein
      let s := popFrame n k f s
      if q.requeue && !mid then refreshFlow (flowNo n k) (pushInternal n f.skein 0x41 items s).1
      else s.modFlow (flowNo n k) fun q => { q with fail := satInc q.fail }

/-- The frame in service has been sent, and acknowledged where it asked for it. -/
def sentFrame (s : State) : State :=
  match s.phy.tx with
  | none => s
  | some f =>
    let s := endService s
    match f.flow with
    | none => s
    | some (n, k) =>
      if f.gone then s
      else (popFrame n k f s).modFlow (flowNo n k) fun q => { q with sent := satInc q.sent }

/-! ## Service (R270, R291, R321) -/

/-- The power a frame asks for (R267, R294). -/
def State.requestedPower (s : State) (nb : Option (Fin 64)) : Nat :=
  match nb with
  | some i => s.mac.nbs[i].pwr.toNat
  | none => s.phy.txpwr.toNat

/-- Governor charge of the frame in service. -/
def State.txFrameCharge (s : State) (f : TxFrame) : Nat := txCharge (s.appliedPower (s.requestedPower f.nb))

/-- The fit test at RFTX admission: a frame that no longer fits gives up its admission (R327). -/
def fitCheck (s : State) : State :=
  match s.phy.tx with
  | none => s
  | some f =>
    if s.phy.txPhase = .ready && s.power.isAdmitted .rftx && s.mac.ackDue.isNone && (s.fitGate f).isNone then returnFrame false true s else s

/-- The channel is the module's: RFTX is requested; a refusal leaves the frame queued (R278, R316). -/
def toReady (s : State) : State :=
  match s.phy.tx with
  | none => s
  | some f =>
    let s := wantDoms 0xA0 (s.modPhy fun p => { p with txPhase := .ready })
    let s := requestUnit .rftx (s.txFrameCharge f) s
    if s.power.isAdmitted .rftx || s.power.isWaiting .rftx then fitCheck s else returnFrame false false s

/-- Listen first where R270 asks for it. -/
def listenOrReady (s : State) : State :=
  if s.lbtOn then startListen s else toReady s

/-- Draw the units of a backoff (R291). -/
def drawBackoff (nb be : Nat) (s : State) : State :=
  s.draw fun v s => s.modMac fun m => { m with backoff := some (nb, be, v.toNat % 2 ^ be) }

/-- Put a frame into service at a gate. -/
def serveFrame (f : TxFrame) (g : Gate) (s : State) : State :=
  let s := (s.modPhy fun p => { p with tx := some (s.sourced f), txPhase := .idle, clear := false }).modMac fun m => { m with backoff := none }
  match g with
  | .contention => drawBackoff 0 (field s.mac.csma 3 0) s
  | .assigned => listenOrReady s

/-- Nothing holds every flow: the radio permitted, on its site, in TRACK, not kept receiving, RFTX not refused (R285, R315, R335). -/
def State.sendOk (s : State) : Bool :=
  s.radioOn && s.siteId ≠ 0 && s.mac.state = .track && s.mac.rxHold.isEmpty && !s.txRefused

/-- What blocks one frame once chosen: its slot, its key (R313, R335). -/
def State.frameOk (s : State) (f : TxFrame) : Bool :=
  s.sendOk && s.keySends f.key && match f.flow with
    | some (n, _) => decide (s.tenants[n].st = .owned) && s.tenants[n].sw ≠ 0
    | none => true

/-- A channel found busy: another backoff, or CHANNEL_BUSY, which waits for the next gate (R291, R327). -/
def channelBusy (s : State) : State :=
  match s.mac.backoff with
  | none => returnFrame true false s
  | some (nb, be, _) =>
    if field s.mac.csma 11 8 < nb + 1 then returnFrame true false s
    else drawBackoff (nb + 1) (min (be + 1) (field s.mac.csma 7 4)) (s.modPhy fun p => { p with txPhase := .idle, clear := false })

/-- The channel is clear: the fit test is made again after a backoff (R326). -/
def channelClear (s : State) : State :=
  match s.phy.tx with
  | none => s
  | some f =>
    if !s.frameOk f then returnFrame false false s
    else if (s.fitGate f).isNone then returnFrame false true s
    else toReady (s.modMac fun m => { m with backoff := none })

/-- A backoff has run out and the clear-channel check is made, one power window against `PHY_LBT.THR`; with ACCESS 1 the listen of R270 is the
check. -/
def backoffExpire (dbm : Int) (s : State) : State :=
  if s.phy.tx.isSome && s.phy.txPhase = .idle && s.mac.backoff.isSome && s.mac.ackDue.isNone then
    if s.lbtOn then startListen s
    else if s.powerBusy dbm || s.rxRefused then channelBusy s
    else channelClear s
  else s

def execBackoffExpire (dbm : Int) (s : State) : Host.Outcome State Fault Refusal := .next (backoffExpire dbm s)

/-- A listen has ended: busy where a window reached THR or gauge symbols were found, and where the radio cannot receive (R270, R278, R281). -/
def lbtListenEnd (windows : List (BitVec 8)) (gauge : Bool) (s : State) : State :=
  if s.phy.txPhase = .listening then
    let s :=
      if s.listenBusy windows gauge || s.rxRefused then channelBusy (s.modPhy fun p => { p with clear := false, txPhase := .idle })
      else channelClear (s.modPhy fun p => { p with clear := true, txPhase := .idle })
    settleCompat s
  else s

def execLbtListenEnd (windows : List (BitVec 8)) (gauge : Bool) (s : State) : Host.Outcome State Fault Refusal :=
  .next (lbtListenEnd windows gauge s)

/-! ## Sending opportunities (R320, R321) -/

/-- Discard a head packet that holds an uncorrectable item (R183), or is too long (R304), or whose pending retry has no credit (R323). -/
def trimHead (i : Fin 64) (s : State) : State :=
  let n := flowSlot i
  let q := s.mac.flows[i]
  match q.part with
  | some f => if s.retryPaid n (s.frameCost f) then s else failFrame f s
  | none =>
    match s.flowHead i with
    | none => s
    | some (l, items) =>
      if items.any Option.isNone then
        let w := ((s.lane q.skein l).map fun c => c.word (c.head + items.length - 1)).getD 0
        afterPop i (raise .skeinItemUnc n [q.skein.setWidth 32, snap32 l, snap32 w] (popMany n q.skein l items.length s))
      else if s.tooLong (s.flowFrame i 0 l (items.filterMap id)) then
        (afterPop i (popMany n q.skein l items.length s)).modFlow i fun q => { q with fail := satInc q.fail }
      else s

/-- The module flow's head frame may go now. -/
def State.moduleFrame (s : State) : Option (TxFrame × Gate) :=
  match s.mac.modq with
  | [] => none
  | f :: _ =>
    let f := s.sourced f
    if !s.mac.modWait && s.frameOk f && s.formOk f then (s.fitGate f).map fun g => (f, g) else none

/-- A free XFER for a frame not yet sent. -/
def drawXfer (f : TxFrame) (k : TxFrame → State → State) (s : State) : State :=
  if f.tries = 0 then s.draw fun v s => k { f with hdr := f.hdr.take 1 ++ bytesLE 2 (v.setWidth 16) } s else k f s

/-- The chosen flow's frame goes into service once the contexts of its skein are loaded: a pair that fails the checks of R181 gives no frame. -/
def serveFlow (i : Fin 64) (s : State) : State :=
  let r := loadSkein s.mac.flows[i].skein s
  if !r.2 then r.1
  else match r.1.candidate i with
    | none => r.1
    | some (_, f) => match r.1.fitGate f with
      | none => r.1
      | some g => drawXfer f (fun f s => serveFrame f g s) r.1

/-- A sending opportunity: the module flow first, then the eligible flow with the smallest F. -/
def sendOpportunity (s : State) : State :=
  if s.sendOk && s.phy.tx.isNone && s.phy.txPhase = .idle && s.mac.ackDue.isNone then
    let s := refreshFlows (State.each (List.finRange 64) trimHead s)
    match s.moduleFrame with
    | some (f, g) => serveFrame f g (s.modMac fun m => { m with modq := m.modq.drop 1 })
    | none => match s.bestFlow with
      | none => s
      | some (i, _) => serveFlow i s
  else s

def execSendOpportunity (s : State) : Host.Outcome State Fault Refusal := .next (sendOpportunity s)

/-! ## Transmission (R252, R258, R267, R269, R295, R322) -/

/-- Another complete packet waits for this short address, beyond the one of a flow under way. -/
def State.moreFor (s : State) (short : Nat) (skip : Option (Fin 64)) : Bool :=
  (List.finRange 64).any fun i =>
    let q := s.mac.flows[i]
    q.en && !q.toGroup && q.dst = short && decide ((if skip = some i then 1 else 0) < s.flowPackets i)

/-- The next SEQ to the frame's neighbour, or to anyone else. -/
def takeSeq (nb : Option (Fin 64)) (s : State) : State × Byte :=
  match nb with
  | some i => (s.modNb i fun n => { n with txseq := n.txseq + 1 }, s.mac.nbs[i].txseq)
  | none => (s.modMac fun m => { m with ownSeq := m.ownSeq + 1 }, s.mac.ownSeq)

/-- SEQ of a first attempt; RETRY and PENDING of this one. -/
def markFrame (f : TxFrame) (s : State) : State × TxFrame :=
  let more := match f.nb with
    | some i => s.moreFor s.mac.nbs[i].short.toNat (f.flow.map fun x => flowNo x.1 x.2)
    | none => false
  let fc := orAll [f.fc &&& ~~~(bitAt 8 true ||| bitAt 9 true), bitAt 8 more, bitAt 9 (f.tries ≠ 0)]
  if f.tries = 0 then
    let r := takeSeq f.nb s
    (r.1, { f with seq := r.2, fc := fc })
  else (s, { f with fc := fc })

/-- The first attempt of a tenant's frame starts: V takes its F, F_last too, and the bucket pays (R319, R320, R322). -/
def payFirst (f : TxFrame) (cost : Nat) (s : State) : State :=
  match f.flow with
  | none => s
  | some (n, k) =>
    if f.tries ≠ 0 then s
    else
      let i := flowNo n k
      let s := refreshFlows s
      let t := s.mac.flows[i].fin.getD s.mac.v
      ((s.modMac fun m => { m with v := t }).modFlow i fun q => { q with last := t }).modTen n fun t => { t with level := t.level - cost }

/-- The frame goes on air with this counter. -/
def launch (f : TxFrame) (ctr : Word32) (s : State) : State :=
  let s := payFirst f (s.frameCost f) s
  let (s, f) := markFrame f s
  let legacy := s.phy.active
  let t := s.txForm f.nb
  let power := s.appliedPower (s.requestedPower f.nb)
  let psdu := if legacy then [] else psduOf s f ctr
  let a : AirFrame :=
    { rate := t.rate, tmap := t.tmap, psdu := psdu, sym := s.frameCost f, us := s.frameUs f, power := power, shape := s.phy.shape
      slot := (f.flow.map (·.1)).getD 0, ack := false, startUs := s.mac.sfUs
      symbols := if legacy then [] else frameSymbols s.phy.shape t.rate t.tmap t.map psdu, legacy := if legacy then w2Of s f ctr else [] }
  (s.modPhy fun p => { p with
    tx := some f, txPhase := .onAir, air := some a, applied := BitVec.ofNat 6 power, clear := false
    fallback := if !legacy && t.fallback then satInc p.fallback else p.fallback }).modSns fun q => { q with txMin := none }

/-- The shaper still admits a first attempt. -/
def State.firstPaid (s : State) (f : TxFrame) : Bool :=
  match f.flow with
  | none => true
  | some (n, _) => f.tries ≠ 0 || decide ((s.frameCost f : Int) ≤ s.tenants[n].level)

/-- The frame in service starts: admitted, and still fitting just before transmission (R326, R327). -/
def frameTxStart (s : State) : State :=
  match s.phy.tx.map s.sourced with
  | none => s
  | some f =>
    if s.phy.txPhase ≠ .ready || s.mac.ackDue.isSome || !s.power.isAdmitted .rftx || (s.lbtOn && !s.phy.clear) then s
    else if (s.fitGate f).isNone then returnFrame false true s
    else if !s.frameOk f || !s.firstPaid f then returnFrame false false s
    else match takeCounter f.key s with
      | (s, none) => returnFrame false false s
      | (s, some c) => launch f c s

def execFrameTxStart (s : State) : Host.Outcome State Fault Refusal := .next (frameTxStart s)

/-- The frame on air has ended: ledger, transmit time, MIN_TX, RFTX (R271, R365, R374). -/
def airEnd (a : AirFrame) (s : State) : State :=
  let s := countAir a.us (State.chargeTx a.slot a.sym 1 a.us (txCharge a.power) s)
  let s := (s.modMac fun m => { m with sfUs := max m.sfUs (a.startUs + a.us) }).modSns fun q => { q with
    minTx := q.txMin.getD q.minTx, txMin := none }
  releaseUnit .rftx (s.modPhy fun p => { p with txPhase := .idle })

/-- A retry is charged at its end (R323). -/
def payRetry (f : TxFrame) (cost : Nat) (s : State) : State :=
  match f.flow with
  | some (n, _) => if f.tries = 0 then s else s.modTen n fun t => { t with level := t.level - cost }
  | none => s

/-- After an acknowledgement, sent or not, the frame in service goes on. -/
def resumeService (s : State) : State :=
  if s.phy.tx.isSome && s.mac.backoff.isNone then listenOrReady s else s

def frameTxEnd (s : State) : State :=
  match s.phy.air with
  | none => s
  | some a =>
    if s.phy.txPhase ≠ .onAir then s
    else
      let s := airEnd a s
      let s :=
        if a.ack then resumeService s
        else match s.phy.tx with
          | none => s
          | some f =>
            let s := payRetry f a.sym s
            let s := s.modPhy fun p => { p with tx := some { f with tries := f.tries + 1 } }
            if f.ar then wantDoms 0x60 (s.modPhy fun p => { p with txPhase := .awaitAck }) else sentFrame s
      settleCompat s

def execFrameTxEnd (s : State) : Host.Outcome State Fault Refusal := .next (frameTxEnd s)

/-! ## Missed acknowledgements (R297, R304, R323, R334) -/

/-- The retry of a frame in service, or its end. -/
def retryOrFail (f : TxFrame) (s : State) : State :=
  let paid := match f.flow with
    | some (n, _) => s.retryPaid n (s.frameCost f)
    | none => true
  if f.gone || field s.mac.csma 15 12 < f.tries || !paid then failFrame f (endService s)
  else if !s.frameOk f then returnFrame false false s
  else match s.fitGate (s.sourced f) with
    | some g => serveFrame f g s
    | none => returnFrame false false s

/-- No matching acknowledgement: an interval of the power loop, then a retry or the end. -/
def missedAck (s : State) : State :=
  match s.phy.tx with
  | none => s
  | some f =>
    if s.phy.txPhase = .awaitAck then
      let s := s.modPhy fun p => { p with txPhase := .idle }
      let s := match f.nb with
        | some i => powerLoop i none s
        | none => s
      settleCompat (retryOrFail f s)
    else s

def execAckTimeout (s : State) : Host.Outcome State Fault Refusal := .next (missedAck s)

/-! ## Acknowledgements sent (R295, R296) -/

/-- FC, SEQ, DST, FB and FCS of an acknowledgement, after its length word. -/
def ackPsdu (a : AckDue) (more : Bool) : List Byte :=
  let fc : BitVec 16 := orAll [at_ 0 typAck, at_ 4 1, bitAt 8 more, at_ 10 (if a.dst.length = 2 then 1 else 2)]
  let m := bytesLE 2 fc ++ [a.seq] ++ a.dst ++ [a.fb.setWidth 8]
  bytesLE 2 (lengthWord (m.length + 6)) ++ m ++ bytesLE 4 (crc32 m)

/-- The acknowledgement is not sent; the frame in service goes on. -/
def dropAck (f : State → State) (s : State) : State :=
  resumeService (f (releaseUnit .rftx (s.modMac fun m => { m with ackDue := none })))

/-- Airtime and symbol times of an acknowledgement. -/
def State.ackUs (s : State) (a : AckDue) : Nat :=
  if s.phy.active then legacyUs 11 else (s.txForm a.nb).us (if a.dst.length = 8 then 18 else 12)

def State.ackSym (s : State) (a : AckDue) : Nat :=
  if s.phy.active then symTimes (legacyUs 11) else (s.txForm a.nb).sym (if a.dst.length = 8 then 18 else 12)

/-- The acknowledgement goes on air. -/
def sendAck (a : AckDue) (s : State) : State :=
  let more := match a.nb with
    | some i => s.moreFor s.mac.nbs[i].short.toNat none
    | none => false
  let t := s.txForm a.nb
  let power := s.appliedPower (s.requestedPower a.nb)
  let legacy := s.phy.active
  let psdu := if legacy then [] else ackPsdu a more
  let air : AirFrame :=
    { rate := t.rate, tmap := t.tmap, psdu := psdu, sym := s.ackSym a, us := s.ackUs a, power := power, shape := s.phy.shape, slot := a.slot
      ack := true, startUs := s.mac.sfUs, symbols := if legacy then [] else frameSymbols s.phy.shape t.rate t.tmap t.map psdu
      legacy := if legacy then w2Frame (w2Header s typAck false more false false a.seq a.dst s.ownSrc) [] else [] }
  ((s.modPhy fun p => { p with
    txPhase := .onAir, air := some air, applied := BitVec.ofNat 6 power
    fallback := if !legacy && t.fallback then satInc p.fallback else p.fallback }).modMac fun m =>
      { m with ackDue := none }).modSns fun q => { q with txMin := none }

/-- 576 us after frame end: ACK_LATE without RFTX; not sent beyond the limits on transmit time, across a superframe boundary in a hopping
region, in UNSYNC, or while the site identifier is in fault (R51). -/
def ackSend (s : State) : State :=
  match s.mac.ackDue with
  | none => s
  | some a =>
    let us := s.ackUs a
    if !s.radioOn || s.mac.state = .unsync || s.faulted 8 then dropAck id s
    else if !s.power.isAdmitted .rftx then dropAck (macDrop 11) s
    else if !s.timeAllows us then dropAck (fun s => s.modPhy fun p => { p with regDrop := satInc p.regDrop }) s
    else if s.hopping && s.tSf < s.mac.sfUs + us then dropAck id s
    else sendAck a s

def execAckSend (s : State) : Host.Outcome State Fault Refusal := .next (ackSend s)

/-! ## Refills (R324, R328) -/

/-- A write of `SHP_CFG_n` is held for the refill; BURST 0 is reserved and leaves the field as it stands. -/
def shpWrite (n : Fin 8) (v : Word32) (s : State) : State :=
  sysSetting 0 (0x1840 + 16 * n.val) <| s.modTen n fun t =>
    let old := (t.shpPend.map (·.2)).getD t.shpBurst
    { t with shpPend := some (field v 11 0, if field v 31 16 = 0 then old else field v 31 16) }

def execShpCfgWrite (p : Port) (slot : Fin 8) (val : Word32) (s : State) : Host.Outcome State Fault Refusal :=
  .next (atSlot0 p (0x1840 + 16 * slot.val) (shpWrite slot val) s)

/-- One bucket at a refill, step by step as R324 lists it, and its policer. -/
def refillSlot (n : Fin 8) (s : State) : State :=
  let old := s.tenants[n]
  let rate := (old.shpPend.map (·.1)).getD old.shpRate
  let burst := (old.shpPend.map (·.2)).getD old.shpBurst
  let s := s.modTen n fun t => { t with shpRate := rate, shpBurst := burst, shpPend := none }
  let low := old.level < -(burst : Int)
  let s := if low then
      (raise .shaperClamp 0 [snap32 n.val, snapSigned 17 old.level, snapSigned 17 (-(burst : Int)), snap32 old.shpBurst, snap32 burst] s).modTen n
        fun t => { t with clamps := satInc t.clamps, level := -(burst : Int) }
    else s
  s.modTen n fun t => { t with
    level := min (burst : Int) (t.level + rate), polLevel := min (field t.polCfg 15 8) (t.polLevel + field t.polCfg 7 0) }

def refill (s : State) : State := State.each slots refillSlot s

def execRefill (s : State) : Host.Outcome State Fault Refusal := .next (refill s)

end Sys2Proof.Machine
end

