-- ==== Sys2Proof/Machine/MacRx.lean ====
section
/-! DEFINITION. Receiving: the address filter, delivery, acknowledgements, commands, wake frames, run-ahead (R258, R264 to R266, R285 to R287,
R292 to R297, R301 to R307, R309 to R315). -/

namespace Sys2Proof.Machine

/-! ## What has been received (R258, R263 to R265) -/

/-- The receiver can receive: the radio permitted, RFRX and BB admitted, nothing on air (R69, R278, R279, R316). -/
def State.rxReady (s : State) : Bool :=
  s.radioOn && !s.rxRefused && s.power.isAdmitted .rfrx && s.power.isAdmitted .bb && s.phy.txPhase ≠ .onAir

/-- The header's RATE and TMAP name robust or a valid RX slot. -/
def State.headerOk (s : State) (f : Heard) : Bool :=
  s.phy.active ||
    if f.rate = 3 then f.tmap = 0 else let t := s.phy.tmaps[finOf 16 f.tmap.toNat]; t.valid && !t.tx

/-- The tentative length word passes its CRC-5. -/
def State.tentOk (s : State) (f : Heard) : Bool := s.phy.active || lengthOk f.len

/-- A PSDU read as a MAC frame: step 1 of the filter. -/
def parsePsdu (bs : List Byte) : Option Hdr :=
  let n := field (lengthOf bs) 10 0
  if bs.length < n || n < 4 || 1024 < n then none else parseFrame ((bs.take n).drop 2)

def State.parsed (s : State) (f : Heard) : Option Hdr := if s.phy.active then parseW2 f.fin else parsePsdu f.fin

/-- What the tentative bits say of the header: steps 1 to 8 look at no byte past the dispatch, and the bytes not yet decided stand as zeros. -/
def Heard.tentHdr (f : Heard) : Option Hdr := parsePsdu (f.tent ++ zeros (field f.len 10 0 - f.tent.length))

/-- Loading code of data subcarrier d in the received frame: robust frames load every one. -/
def State.rxLoad (s : State) (f : Heard) (d : Nat) : Nat :=
  if f.rate = 3 then 1 else loadOf s.phy.tmaps[finOf 16 f.tmap.toNat].map d

/-- Airtime of the received frame in us. -/
def State.rxUs (s : State) (f : Heard) : Nat :=
  if s.phy.active then legacyUs f.fin.length
  else symUs (dataSymbols f.rate (cbps s.phy.tmaps[finOf 16 f.tmap.toNat].map) (field (lengthOf f.fin) 10 0))

/-- FB: the mean SNR code of the loaded subcarriers (R295; log entry 46 for its rounding). -/
def State.feedback (s : State) (f : Heard) : BitVec 5 :=
  let ds := (List.range 24).filter fun d => s.rxLoad f d ≠ 0
  let sum := (ds.map fun d => (f.snr.getD d 0).toNat).sum
  let n := ds.length
  if n = 0 then 0
  else BitVec.ofNat 5 (sum / n + if sum % n ≠ 0 && Config.roundUp sum n then 1 else 0)

/-! ## Steps 2 to 8 (Table MAC-5a) -/

/-- An enabled `MAC_GROUP_i`, or broadcast, and not the module's own address. -/
def State.toGroup (s : State) (h : Hdr) : Bool :=
  h.dst.length = 2 && leNat h.dst ≠ s.mac.short.toNat && (leNat h.dst = 0xFFFF || s.groupEnabled (leNat h.dst))

/-- Step 3. -/
def State.dstOk (s : State) (h : Hdr) : Bool :=
  h.typ = typBeacon || s.toGroup h ||
    (if h.dst.length = 2 then leNat h.dst = s.mac.short.toNat && s.mac.short ≠ 0xFFFE else h.dst = s.longBytes)

def Endpoint.kind (e : Endpoint) : Nat := field e.ep 23 22
def Endpoint.base (e : Endpoint) : Nat := field e.ep 17 0
def Endpoint.size (e : Endpoint) : Nat := field e.ep 21 18
def Endpoint.minSec (e : Endpoint) : Nat := field e.ep 26 24
def Endpoint.newSender (e : Endpoint) : Bool := flag e.ep 28
def Endpoint.runAhead (e : Endpoint) : Bool := flag e.ep 29
def Endpoint.groupOk (e : Endpoint) : Bool := flag e.ep 30

def cmdAssocRsp : Nat := 2
def Hdr.cmd (h : Hdr) : Nat := (h.disp.getD 0 0).toNat

/-- Step 4: who sent it, when that is allowed. -/
def State.srcStep (s : State) (h : Hdr) : Option From :=
  match s.sender h.src with
  | some .new =>
    if (h.typ = typData && s.mac.eps[h.epNo].newSender) || (h.typ = typCommand && h.cmd = cmdAssocRsp) then some .new else none
  | r => r

/-- Step 5: the key. -/
def State.keyStep (s : State) (h : Hdr) : Option (Fin 36) :=
  if !levelOk h.level then none
  else if h.typ = typData then
    let e := s.mac.eps[h.epNo]
    if e.minSec ≤ h.level && e.kind ≠ 0 && s.tenants[h.epSlot].st = .owned then s.dataKey h (s.toGroup h) else none
  else if h.keySite && h.keySel = 2 && s.keyLive netKey && (h.typ ≠ typBeacon || h.level ≤ 3) then some netKey
  else none

/-- Step 6. -/
def State.replayOk (s : State) (fr : From) (k : Fin 36) (c : Word32) : Bool :=
  match fr with
  | .nb i => marksPass 8 k c s.mac.nbs[i].marks
  | .cached e => marksPass 1 k c e.mark.toList
  | .new => true

/-- A duplicate (R302). -/
def State.isDup (s : State) (h : Hdr) (fr : From) : Bool :=
  match fr with
  | .nb i => h.retry && s.mac.nbs[i].rxseq = h.seq
  | _ => false

/-- Step 8: the policer of the endpoint's slot (R328). -/
def State.policeOk (s : State) (h : Hdr) : Bool :=
  h.typ ≠ typData || !flag s.tenants[h.epSlot].polCfg 31 || 1 ≤ s.tenants[h.epSlot].polLevel

/-- Who sent a frame that has passed steps 2 to 8, its key, and whether it is a duplicate. -/
structure Passed where
  fr  : From
  key : Fin 36
  dup : Bool
  deriving DecidableEq, Repr

/-- Steps 2 to 8, or the step that fails; data with AR to a group is no combination of Table MAC-4. -/
def State.headSteps (s : State) (h : Hdr) : Except Nat Passed :=
  if h.typ = typData && h.ar && s.toGroup h then .error 1
  else if s.siteId = 0 || h.site ≠ s.siteId.toNat then .error 2
  else if !s.dstOk h then .error 3
  else match s.srcStep h with
    | none => .error 4
    | some fr => match s.keyStep h with
      | none => .error 5
      | some k =>
        if !s.replayOk fr k h.ctr then .error 6
        else if !s.policeOk h then .error 8
        else .ok { fr := fr, key := k, dup := s.isDup h fr }

/-- The cache entry of a long source is read at step 4 (R219). -/
def State.sourceRead (s : State) (h : Hdr) : State :=
  match s.headSteps h with
  | .error k => if k ≤ 3 then s else readSender h.src s
  | .ok _ => readSender h.src s

/-- Steps 9 and 10: the frame's clear body. -/
def State.endSteps (s : State) (h : Hdr) (p : Passed) : Except Nat (List Byte) :=
  if !h.fcsOk then .error 9
  else match unsecure s.keys[p.key].key (s.longOf p.fr h.src) h with
    | none => .error 10
    | some b => .ok b

/-! ## Commits (R266, R301, R328) -/

/-- The frame's counter is committed to its sender's mark; the sender cache's entry number is answered. -/
def commitMark (h : Hdr) (p : Passed) (s : State) : State × Nat :=
  match p.fr with
  | .nb i =>
    let r := commitMarks 8 p.key h.ctr s.mac.nbs[i].marks
    if r.2 then
      let j := ((findFrom (fun m : Mark => m.key = p.key) 0 r.1).map (·.1)).getD 0
      (pairWrite 8 (8 * i.val + j) 0 (fun s => s.modNb i fun n => { n with marks := r.1 }) s, 0)
    else (s.modNb i fun n => { n with marks := r.1 }, 0)
  | _ => commitSender (s.longOf p.fr h.src) p.key h.ctr s

/-- RXSEQ and the gauge table of an accepted frame's sender. -/
def commitNb (h : Hdr) (f : Heard) (p : Passed) (s : State) : State :=
  match p.fr with
  | .nb i =>
    let s := s.modNb i fun n => { n with rxseq := h.seq }
    if s.phy.active then s
    else s.modPhy fun q => { q with gauge := upd q.gauge i fun g => gaugeUpdate (field q.load 6 4) f.snr g }
  | _ => s

/-- The policer's charge becomes final. -/
def payPolicer (h : Hdr) (s : State) : State :=
  if h.typ = typData && flag s.tenants[h.epSlot].polCfg 31 then s.modTen h.epSlot fun t => { t with polLevel := t.polLevel - 1 } else s

/-! ## What follows acceptance (R289, R295 to R297) -/

/-- The slot under way is a contention slot. -/
def State.inContention (s : State) : Bool := s.mac.bslots.toNat < s.slotNow && s.slotNow ≤ s.mac.capLast.toNat

/-- The hold is that of PENDING from neighbour i. -/
def RxHold.from (h : RxHold) (i : Fin 64) : Bool :=
  match h with
  | .pendFrom j _ => i = j
  | _ => false

/-- PENDING of an accepted frame or an acknowledgement of neighbour i keeps the receiver on, or lets it go; what other neighbours hold stays. -/
def notePending (i : Fin 64) (pend : Bool) (s : State) : State :=
  let coord := s.mac.nbs[i].coord
  let c := s.inContention
  s.modMac fun m => { m with rxHold :=
    (m.rxHold.filter fun h => !(h.from i || (!pend && coord && h = .pendBeacon))) ++ if pend then [.pendFrom i c] else [] }

/-- An acknowledgement becomes due; RFTX is requested for it at its decision (R296). -/
def ackNow (h : Hdr) (f : Heard) (p : Passed) (s : State) : State :=
  if h.ar && !s.toGroup h then
    let nb := match p.fr with
      | .nb i => some i
      | _ => none
    let a : AckDue := { seq := h.seq, dst := h.src, fb := s.feedback f, nb := nb, slot := if h.typ = typData then h.epSlot else 0 }
    let s := (releaseUnit .rftx s).modMac fun m => { m with ackDue := some a }
    requestUnit .rftx (txCharge (s.appliedPower (s.requestedPower nb))) (wantDoms 0xA0 s)
  else s

/-- The interval of the loading loop, PENDING, and the wake that led to this frame. -/
def afterAccept_ (h : Hdr) (f : Heard) (p : Passed) (s : State) : State :=
  let s := s.modMac fun m => { m with wakeHit := true }
  match p.fr with
  | .nb i =>
    let slot := if f.rate = 3 || s.phy.active then none else some f.tmap.toNat
    notePending i h.pend (loadingFrame i slot s)
  | _ => s

/-- A duplicate that has passed step 10: its mark, its police charge and its acknowledgement, and no delivery. -/
def acceptDup (h : Hdr) (f : Heard) (p : Passed) (s : State) : State :=
  ackNow h f p (payPolicer h (commitMark h p s).1)

/-- A beacon or a command is accepted: its receiver time to slot 0 (log entry 200), commits, then `act`. -/
def acceptWith (h : Hdr) (f : Heard) (p : Passed) (act : State → State) (s : State) : State :=
  let s := State.chargeRx 0 (s.rxUs f) s
  ackNow h f p (act (afterAccept_ h f p (commitNb h f p (commitMark h p s).1)))

/-! ## Arrival (R264, R281, R297, R305, R315) -/

/-- Times of wakes without an accepted frame within the hour. -/
def State.recentWakes (s : State) : List Nat := s.mac.worWakes.filter fun t => decide (s.life.ms - t < 3600000)

/-- `MAC_WOR.WAKE_CAP` is reached. -/
def State.wakeCapped (s : State) : Bool := field s.mac.wor 31 24 ≤ s.recentWakes.length

/-- A wake has led to no accepted frame; the stitch is written once at the cap. -/
def countWake (s : State) : State :=
  let l := s.life.ms :: s.recentWakes
  let capped := s.wakeCapped
  let s := s.modMac fun m => { m with worWakes := l }
  if !s.wakeCapped then s.modMac fun m => { m with worCap := false }
  else if capped && s.mac.worCap then s
  else raise .worCap 0 [snap32 l.length] (s.modMac fun m => { m with worCap := true })

/-- Gauge symbols have been found: a listen becomes busy, level and offset, the tentative disagreement, the sniff that led to it. -/
def arrive (f : Heard) (s : State) : State :=
  let s := (noteGauge s).modPhy fun p => { p with
    rssi := f.rssi, cfo := f.cfo, tentDis := if f.dis.isSome then satInc p.tentDis else p.tentDis }
  if s.mac.listen then thresholdLoop false (s.modMac fun m => { m with listen := false }) else s

/-- A frame that has arrived is handled; one that is no awaited acknowledgement ends the wait first (R297, R315). -/
def handleFrame (f : Heard) (act : State → State) (s : State) : State :=
  let was := s.mac.listen
  let s := rxEnded (act (missedAck (arrive f s)))
  if was && !s.mac.wakeHit && s.mac.rdv.isNone then countWake s else s

/-- Receiver time of a frame that is not delivered goes to slot 0 (Table SNS-5). -/
def dropFrame (k : Nat) (f : Heard) (s : State) : State := State.chargeRx 0 (s.rxUs f) (macDrop k s)

/-! ## Run-ahead (R306, R307, R309, R310) -/

/-- The frame ran ahead: its tentative bits through the dispatch passed steps 1 to 8 and led to no duplicate, no disagreement was known by
then, the endpoint and the engine allow it, and a lifeline slot was free. -/
def State.ranAhead (s : State) (f : Heard) : Bool :=
  if s.phy.active then false
  else match f.tentHdr with
    | none => false
    | some h =>
      let early := match f.dis with
        | some j => decide (j + 96 < 8 * (2 + h.aad.length) + 24)
        | none => false
      h.typ = typData && decide (2 + h.aad.length ≤ f.tent.length) && !early && s.mac.eps[h.epNo].runAhead && flag s.eng.ctl 0 && s.freeLine.isSome &&
        match s.headSteps h with
        | .ok p => !p.dup
        | .error _ => false

/-- Count a run-ahead, and its frog: `MAC_RA` and `ENG_FROG` of the slot (R22, R307). -/
def noteRun (f : Heard) (ran frogged : Bool) (s : State) : State :=
  if !ran then s
  else
    let n : Fin 8 := (f.tentHdr.map Hdr.epSlot).getD 0
    let s := s.modMac fun m => { m with raLines := satInc m.raLines, raFrogs := if frogged then satInc m.raFrogs else m.raFrogs }
    if frogged then s.modTen n fun t => { t with frogLines := satInc t.frogLines } else s

/-- A frame that its tentative bits took for data and its final bits for something else, or for nothing: the run-ahead is frogged (R306, R309). -/
def frogRun (f : Heard) (act : State → State) (s : State) : State := noteRun f (s.ranAhead f) true (act s)

/-- A frame of this type: unchanged where the receiver cannot receive, or the frame is of another kind. -/
def onFrame (typ : Nat) (f : Heard) (act : Hdr → State → State) (s : State) : State :=
  if s.rxReady && s.headerOk f && s.tentOk f then
    match s.parsed f with
    | some h => if h.typ = typ then handleFrame f (if typ = typData then act h else frogRun f (act h)) s else s
    | none => s
  else s

/-! ## Data frames (R303, R355) -/

/-- Room for one more completion record in a ring. -/
def State.cplRoom (s : State) (cr : Fin 512) : Bool :=
  let c := (s.ring cr).ctx
  c.en && c.cpl? && (c.prod - c.cons).toNat + s.reserved cr < c.slots

/-- A completion record of the MAC, behind the words it reports. -/
def macRecord (n : Fin 8) (cr : Fin 512) (words : List WEntry) (w : Word128) (s : State) : State :=
  let c := (s.ring cr).ctx
  let w := setField w 127 127 (if c.prod.toNat / c.slots % 2 = 0 then 1 else 0)
  let rec_ := ((s.windowKey n (c.word c.prod)).map fun k => mkWrite k w n .mac).toList
  issue (words ++ rec_) (modCtx cr (fun c => { c with prod := c.prod + 1 }) s)

/-- Payload words with their window words. -/
def payloadWrites (s : State) (n : Fin 8) (start : Nat) (body : List Byte) : List WEntry :=
  let ws := wordsOf (wordsFor body.length) body
  (List.range ws.length).filterMap fun j => (s.windowKey n (start + j)).map fun k => mkWrite k (ws.getD j 0) n .mac

/-- The endpoint can take this payload (step 11), by its kind. -/
def State.windowOk (s : State) (h : Hdr) (body : List Byte) : Bool :=
  let e := s.mac.eps[h.epNo]
  h.xfer + wordsFor body.length ≤ 2 ^ e.size && s.inPartition h.epSlot (e.base + h.xfer) (wordsFor body.length) &&
    s.cplRoom (ringNo h.epSlot e.cpl)

/-- Name of the sender in a completion record. -/
def senderIndex (fr : From) (no : Nat) : BitVec 16 :=
  match fr with
  | .nb i => BitVec.ofNat 16 i.val
  | _ => BitVec.ofNat 16 (0x8000 + no)

/-- The sender's short address for RESULT_B; a sender without one leaves it open (log entry 53). -/
def withShort (h : Hdr) (fr : From) (f : Nat → State → State) (s : State) : State :=
  match fr with
  | .nb i => f s.mac.nbs[i].short.toNat s
  | _ => match h.srcShort with
    | some a => f a s
    | none => s.draw fun v s => f (field v 15 0) s

/-- Step 11 of a data frame: the state with the payload taken, or none. -/
def deliverData (h : Hdr) (p : Passed) (no : Nat) (body : List Byte) (s : State) : Option State :=
  let e := s.mac.eps[h.epNo]
  let n := h.epSlot
  if s.toGroup h && !e.groupOk then none
  else if e.kind = 1 then
    if s.windowOk h body then
      some (withShort h p.fr (fun a s =>
        macRecord n (ringNo n e.cpl) (payloadWrites s n (e.base + h.xfer) body)
          (recordOf h.xfer 0x60 (senderIndex p.fr no) (finOf 64 (h.ep % 8))
            { status := stOk, extra := h.level, a := h.ctr, b := a + 65536 * body.length }) s) s)
    else none
  else if h.xfer = 0 && body.length % 16 = 0 then
    let r := pushInternal n (BitVec.ofNat 16 (field e.ep 15 0)) 0x41 (wordsOf (wordsFor body.length) body) s
    if r.2 = sknOk || r.2 = sknDrained then some r.1 else none
  else none

/-- What a refused push leaves (R175): its counts, and nothing of the frame. -/
def refusedPush (h : Hdr) (body : List Byte) (s : State) : State :=
  let e := s.mac.eps[h.epNo]
  if !(s.toGroup h && !e.groupOk) && e.kind ≠ 1 && h.xfer = 0 && body.length % 16 = 0 then
    (pushInternal h.epSlot (BitVec.ofNat 16 (field e.ep 15 0)) 0x41 (wordsOf (wordsFor body.length) body) s).1
  else s

/-- The endpoint is the emergency endpoint: its order is offered, whatever becomes of step 11 (R355). -/
def offerOrder (h : Hdr) (body : List Byte) (s : State) : State :=
  if s.safetySlot = some h.epSlot && h.ep % 8 = emergEp s.eva.emerg then
    emergOrder h.epSlot (ofBytesLE 128 (body.take 16)) (ofBytesLE 128 ((body.drop 16).take 16)) s
  else s

/-- A data frame that has passed step 10. -/
def acceptData (h : Hdr) (f : Heard) (p : Passed) (ran : Bool) (body : List Byte) (s : State) : State :=
  let s := offerOrder h body s
  let (t, no) := commitMark h p s
  match deliverData h p no body t with
  | some t =>
    let t := commitNb h f p (payPolicer h t)
    let t := State.chargeRxFrame h.epSlot (s.rxUs f) t
    let t := t.modEp h.epNo fun e => { e with deliv := satInc e.deliv }
    noteRun f ran f.dis.isSome (ackNow h f p (afterAccept_ h f p (t.irqSlot h.epSlot irqRadio)))
  | none =>
    let s := if ran && f.dis.isNone then s else payPolicer h s
    noteRun f ran true ((dropFrame 11 f (refusedPush h body s)).modEp h.epNo fun e => { e with refused := satInc e.refused })

/-- A frame that the policer stops is counted there too (R328). -/
def notePolice (h : Hdr) (k : Nat) (s : State) : State :=
  if k = 8 then s.modTen h.epSlot fun t => { t with polDrops := satInc t.polDrops } else s

/-- A data frame through the filter. -/
def dataSteps (f : Heard) (h : Hdr) (s : State) : State :=
  let ran := s.ranAhead f
  let s := s.sourceRead h
  match s.headSteps h with
  | .error k => noteRun f ran true (dropFrame k f (notePolice h k s))
  | .ok p => match s.endSteps h p with
    | .error k => noteRun f ran true (dropFrame k f s)
    | .ok body =>
      if p.dup then noteRun f ran true (State.chargeRx 0 (s.rxUs f) (acceptDup h f p s))
      else acceptData h f p ran body s

def dataFrame (f : Heard) (s : State) : State := onFrame typData f (dataSteps f) s

def execDataFrame (f : RxFrame) (s : State) : Host.Outcome State Fault Refusal := .next (dataFrame (s.heard f) s)

/-! ## Acknowledgements received (R297) -/

/-- The frame is the acknowledgement that is awaited: in time, of its SEQ, to its source. -/
def State.ackMatches (s : State) (h : Hdr) (f : Heard) (t : TxFrame) : Bool :=
  s.phy.txPhase = .awaitAck && 500 ≤ f.afterTxUs && f.afterTxUs ≤ 700 && h.seq = t.seq && h.dst = t.src

/-- The frame in service is acknowledged: sent; an interval of the power loop, and PENDING. -/
def acknowledged (h : Hdr) (t : TxFrame) (s : State) : State :=
  let s := settleCompat (sentFrame s)
  match t.nb with
  | none => s
  | some i =>
    let s := if h.body.isEmpty then s else powerLoop i (some (field (h.body.getD 0 0) 4 0)) s
    if h.pend then notePending i true s else s

/-- A received acknowledgement: matched, or the end of the wait. -/
def ackFrame (f : Heard) (s : State) : State :=
  if s.rxReady && s.headerOk f && s.tentOk f then
    match s.parsed f with
    | some h =>
      if h.typ ≠ typAck then s
      else
        let s := State.chargeRx 0 (s.rxUs f) s
        match s.phy.tx with
        | some t => if s.ackMatches h f t then rxEnded (frogRun f (acknowledged h t) (arrive f s)) else handleFrame f (frogRun f id) s
        | none => handleFrame f (frogRun f id) s
    | none => s
  else s

def execAckFrame (f : RxFrame) (s : State) : Host.Outcome State Fault Refusal := .next (ackFrame (s.heard f) s)

/-! ## Wake frames and sniffing (R305, R330) -/

/-- A wake frame to the module's short address or to an enabled group: steps 1 to 3, then the rendezvous, unless the cap is reached. -/
def wakeSteps (f : Heard) (h : Hdr) (s : State) : State :=
  if s.siteId = 0 || h.site ≠ s.siteId.toNat then dropFrame 2 f s
  else if !s.dstOk h then dropFrame 3 f s
  else
    let s := State.chargeRx 0 (s.rxUs f) s
    if s.mac.sniffEn && leNat h.dst ≠ 0xFFFF && !s.wakeCapped then s.modMac fun m => { m with rdv := some (leNat h.body) } else s

def wakeFrame (f : Heard) (s : State) : State := onFrame typWake f (wakeSteps f) s

def execWakeFrame (f : RxFrame) (s : State) : Host.Outcome State Fault Refusal := .next (wakeFrame (s.heard f) s)

/-- A sniff: one power window of 288 us against the threshold. -/
def sniffWake (dbm : Int) (s : State) : State :=
  if !s.mac.sniffEn || s.mac.rdv.isSome || !s.radioOn then s
  else
    let s := State.chargeRx 0 288 (wantDoms 0x60 (wakeFor 0x60 s))
    if s.sniffThr ≤ dbm && !s.rxRefused then wantDoms 0x60 (s.modMac fun m => { m with listen := true, wakeHit := false })
    else thresholdLoop false s

def execSniffWake (dbm : Int) (s : State) : Host.Outcome State Fault Refusal := .next (sniffWake dbm s)

/-- Sixteen milliseconds without gauge symbols: a false wake. -/
def sniffListenEnd (s : State) : State :=
  if s.mac.listen then countWake (thresholdLoop true (State.chargeRx 0 16000 (s.modMac fun m => { m with listen := false }))) else s

def execSniffListenEnd (s : State) : Host.Outcome State Fault Refusal := .next (sniffListenEnd s)

/-- The rendezvous: the module receives for one slot length. -/
def rdvExpire (s : State) : State :=
  if s.mac.rdv.isSome then
    wantDoms 0x60 (wakeUp (s.modMac fun m => { m with
      rdv := none, rxHold := m.rxHold ++ [.rendezvous (m.sfUs + s.tSlot)], wakeHit := false }))
  else s

def execRdvExpire (s : State) : Host.Outcome State Fault Refusal := .next (rdvExpire s)

/-! ## Frames that fail before the filter's second step (R258, R265, R283) -/

def hdrBad (f : Heard) (s : State) : State :=
  if s.rxReady && !s.headerOk f then
    handleFrame f (fun s => State.chargeRx 0 1440 (s.modPhy fun p => { p with hdrBad := satInc p.hdrBad })) s
  else s

def execHdrBad (f : RxFrame) (s : State) : Host.Outcome State Fault Refusal := .next (hdrBad (s.heard f) s)

def lenBad (f : Heard) (s : State) : State :=
  if s.rxReady && s.headerOk f && !s.tentOk f then
    handleFrame f (fun s => State.chargeRx 0 1440 (s.modPhy fun p => { p with lenBad := satInc p.lenBad })) s
  else s

def execLenBad (f : RxFrame) (s : State) : Host.Outcome State Fault Refusal := .next (lenBad (s.heard f) s)

def formatFail (f : Heard) (s : State) : State :=
  if s.rxReady && s.headerOk f && s.tentOk f && (s.parsed f).isNone then handleFrame f (frogRun f (dropFrame 1 f)) s else s

def execFormatFail (f : RxFrame) (s : State) : Host.Outcome State Fault Refusal := .next (formatFail (s.heard f) s)

end Sys2Proof.Machine
end

