-- ==== Sys2Proof/Machine/MacCmd.lean ====
section
/-! DEFINITION. Beacons, the superframe, association and the commands of the site network key (R246, R247, R288 to R294, R314, R331). -/

namespace Sys2Proof.Machine

/-! ## Superframes (R246, R247, R289) -/

/-- A superframe with number m has begun: the hopping list is rebuilt when it must be, an announced move of the fixed channel takes effect at its
superframe, and the radio takes the channel. -/
def startSuperframe (s : State) : State :=
  let s := if s.phy.rebuild then rebuildHop s else s
  let s := match s.mac.chsw with
    | some (c, a) =>
      if s.mac.sfn.setWidth 8 = a then (chanWrite c s).modMac fun m => { m with chsw := none } else s
    | none => s
  retune s

/-- Frames that waited for the next gate may be chosen again. -/
def nextGate (s : State) : State :=
  s.modMac fun m => { m with modWait := false, flows := m.flows.map fun q => { q with wait := false } }

/-- The holds that p picks end (R289, R297, R305); a rendezvous that has led to no accepted frame counts against the cap. -/
def endHolds (p : RxHold → Bool) (s : State) : State :=
  let rdv := s.mac.rxHold.any fun h => p h && match h with
    | .rendezvous _ => true
    | _ => false
  let s := s.modMac fun m => { m with rxHold := m.rxHold.filter fun h => !p h }
  if rdv && !s.mac.wakeHit then countWake s else s

/-- A rendezvous lasts one slot length, over a boundary too; every other hold ends with its superframe. -/
def RxHold.overBoundary (tSf : Nat) (h : RxHold) : RxHold :=
  match h with
  | .rendezvous u => .rendezvous (u - tSf)
  | h => h

/-- A superframe boundary: m, the assigned slots announced for it, a new visit of a channel; `receiving`: a frame is in reception, which keeps
its channel (R276). -/
def superframeBoundary (receiving : Bool) (s : State) : State :=
  if !s.running then s
  else
    let tSf := s.tSf
    let s := endHolds (fun h => match h with
      | .rendezvous u => decide (u ≤ tSf)
      | _ => true) s
    let s := nextGate (s.modMac fun m => { m with
      sfn := m.sfn + 1, sfUs := 0, dwell := 0, slotmask := m.maskNext.getD m.slotmask, maskNext := none
      rxHold := m.rxHold.map (RxHold.overBoundary tSf) })
    startSuperframe (s.modPhy fun p => { p with rxHeld := receiving && s.rxReady })

def execSuperframeBoundary (receiving : Bool) (s : State) : Host.Outcome State Fault Refusal := .next (superframeBoundary receiving s)

/-- The slot length of a rendezvous ends before the slot under way does. -/
def State.rdvEnd (s : State) : Option Nat :=
  s.mac.rxHold.findSome? fun h => match h with
    | .rendezvous u => if u < (s.slotNow + 1) * s.tSlot then some u else none
    | _ => none

/-- The current slot ends: gates change, and holds that last to its end or to the end of slot CAP_LAST end with it.  The slot length that a
rendezvous lasts is a slot of its own, which ends first where it ends first (R305; log entry 192). -/
def slotEnd (s : State) : State :=
  if !s.running then s
  else match s.rdvEnd with
  | some u =>
    endHolds (fun h => match h with
      | .rendezvous v => decide (v ≤ u)
      | _ => false) (s.modMac fun m => { m with sfUs := max m.sfUs u })
  | none =>
    let sl := s.slotNow
    let was := s.inContention
    let s := s.modMac fun m => { m with sfUs := (sl + 1) * s.tSlot }
    let s := if was && s.inContention then s else nextGate s
    let cap := decide (s.mac.capLast.toNat ≤ sl)
    endHolds (fun h => match h with
      | .rendezvous u => decide (u ≤ s.mac.sfUs)
      | .pendFrom _ c => !c || cap
      | _ => cap) s

def execSlotEnd (s : State) : Host.Outcome State Fault Refusal := .next (slotEnd s)

/-- The hold is one of PENDING. -/
def RxHold.isPend (h : RxHold) : Bool :=
  match h with
  | .pendFrom _ _ => true
  | _ => false

/-- PEND_WAIT without a frame from the neighbour: of several holds of PENDING that of the longest wait ends. -/
def pendWaitExpire (s : State) : State := s.modMac fun m => { m with rxHold := eraseFirst RxHold.isPend m.rxHold }

def execPendWaitExpire (s : State) : Host.Outcome State Fault Refusal := .next (pendWaitExpire s)

/-! ## Beacons (R288 to R290) -/

def sfspec (b : List Byte) : BitVec 16 := BitVec.ofNat 16 (leNat (b.take 2))

/-- The announced move (CHAN, AT), and the short addresses with data pending. -/
def beaconChsw (b : List Byte) : Option (Byte × Byte) := if flag (sfspec b) 13 then some (b.getD 10 0, b.getD 11 0) else none
def beaconPend (b : List Byte) : List Nat :=
  let rest := b.drop (10 + if flag (sfspec b) 13 then 2 else 0)
  (List.range (field (sfspec b) 12 10)).map fun j => leNat ((rest.drop (2 * j)).take 2)

/-- A move to a channel outside the region is ignored, and counted at step 1; only regions 0x1 and 0x3 move. -/
def noteChsw (b : List Byte) (s : State) : State :=
  match beaconChsw b with
  | none => s
  | some (c, a) =>
    if s.region ≠ 1 && s.region ≠ 3 then s
    else if (regionChannels s.region).contains c.toNat then s.modMac fun m => { m with chsw := some (c, a) }
    else macDrop 1 s

/-- What the beacon says keeps the receiver on. -/
def beaconHold (b : List Byte) (s : State) : State :=
  let pend := s.mac.short ≠ 0xFFFE && (beaconPend b).contains s.mac.short.toNat
  s.modMac fun m => { m with rxHold :=
    m.rxHold ++ (if m.alert then [.alert] else []) ++ if pend then [.pendBeacon] else [] }

/-- SITE_TIME, as the time at the beacon's start; the airtime since is added (R370). -/
def beaconTime (us v : Nat) (s : State) : State :=
  let s := sourceValue 1 v s
  if s.sns.holdSec = 0 then s.modSns fun q => { q with frac := us / 1000 } else s

/-- An accepted beacon (R289, R290). -/
def applyBeacon (h : Hdr) (us : Nat) (b : List Byte) (s : State) : State :=
  let sf := sfspec b
  let m : Word32 := BitVec.ofNat 32 (leNat ((b.drop 2).take 4))
  let s := s.modMac fun q => { q with
    so := BitVec.ofNat 3 (field sf 2 0), capLast := BitVec.ofNat 5 (field sf 7 3), bslots := BitVec.ofNat 2 (field sf 9 8)
    sfn := m, trackRef := m, sfUs := us, dwell := if q.sfn = m then q.dwell else 0, miss := 0, searched := 0, window := false, state := .track
    assocOpen := flag sf 14, alert := flag sf 15, beaconSrc := BitVec.ofNat 16 (h.srcShort.getD 0) }
  beaconHold b (startSuperframe (noteChsw b (beaconTime us (leNat ((b.drop 6).take 4)) s)))

/-- Steps 2 to 11 of a beacon or command: `act` is what step 11 does with its clear body, none where it fails. -/
def commandSteps (f : Heard) (act : Hdr → Passed → List Byte → State → Option (State → State)) (h : Hdr) (s : State) : State :=
  let s := s.sourceRead h
  match s.headSteps h with
  | .error k => dropFrame k f s
  | .ok p => match s.endSteps h p with
    | .error k => dropFrame k f s
    | .ok b =>
      if p.dup then State.chargeRx 0 (s.rxUs f) (acceptDup h f p s)
      else match act h p b s with
        | some g => acceptWith h f p g s
        | none => dropFrame 11 f s

def beacon (f : Heard) (s : State) : State :=
  onFrame typBeacon f (commandSteps f fun h _ b s => if beaconBodyOk b then some (applyBeacon h (s.rxUs f) b) else none) s

def execBeacon (f : RxFrame) (s : State) : Host.Outcome State Fault Refusal := .next (beacon (s.heard f) s)

/-- The next superframe is one of every n from the reference on. -/
def State.everySf (s : State) (n : Nat) : Bool := (s.mac.sfn + 1 - s.mac.trackRef).toNat % n = 0

/-- A beacon is listened for in the next superframe: in TRACK every (SKIP + 1)-th, in SEARCH each, in UNSYNC one superframe of every 64
(R290; log entry 188 for which); with sniffing in a hopping region one of every RESYNC superframes (R305). -/
def State.beaconDue (s : State) : Bool :=
  (s.mac.trackEn && match s.mac.state with
    | .track => s.everySf (s.mac.skip.toNat + 1)
    | .search => true
    | .unsync => s.everySf 64) ||
  (s.mac.sniffEn && s.hopping && s.everySf (field s.mac.wor 23 16))

/-- The receiver opens for an expected beacon. -/
def beaconWake (s : State) : State :=
  if s.beaconDue && s.running then wantDoms 0x60 (wakeUp (s.modMac fun m => { m with window := true })) else s

def execBeaconWake (s : State) : Host.Outcome State Fault Refusal := .next (beaconWake s)

/-- Receiver time of a window without a beacon: 2 G + 1.44 ms in TRACK, slot 0 in SEARCH, a superframe in UNSYNC. -/
def State.windowUs (s : State) : Nat :=
  match s.mac.state with
  | .track => 2 * s.power.guardNs / 1000 + 1440
  | .search => s.tSlot
  | .unsync => s.tSf

/-- A window closes without a beacon: MISS, SEARCH, UNSYNC. -/
def beaconWindowEnd (s : State) : State :=
  if !s.mac.window then s
  else
    let s := State.chargeRx 0 (if s.rxRefused then 0 else s.windowUs) (s.modMac fun m => { m with window := false })
    match s.mac.state with
    | .track =>
      let n := s.mac.miss + 1
      if s.mac.lostMax.toNat ≤ n then s.modMac fun m => { m with miss := n, state := .search, searched := 0 }
      else s.modMac fun m => { m with miss := n }
    | .search =>
      let n := s.mac.searched + 1
      if 4 * s.mac.search.toNat ≤ n then
        raise .beaconLost 0 [s.mac.sfn, snap32 s.channel]
          (s.modMac fun m => { m with searched := n, state := .unsync, trackRef := m.sfn + 1 })
      else s.modMac fun m => { m with searched := n }
    | .unsync => s

def execBeaconWindowEnd (s : State) : Host.Outcome State Fault Refusal := .next (beaconWindowEnd s)

/-! ## Commands (Table MAC-7) -/

/-- A command frame of this id. -/
def onCommand (id : Nat) (f : Heard) (act : Hdr → Passed → List Byte → State → Option (State → State)) (s : State) : State :=
  match s.parsed f with
  | some h => if h.typ = typCommand && h.cmd = id then onFrame typCommand f (commandSteps f act) s else s
  | none => s

/-- The neighbour entry of the sender. -/
def Passed.nb? (p : Passed) : Option (Fin 64) :=
  match p.fr with
  | .nb i => some i
  | _ => none

/-- The coordinator's entry sent it; a command of the coordinator from anyone else fails step 11 (log entry 54). -/
def State.fromCoord (s : State) (p : Passed) : Bool := (p.nb?.map fun i => s.mac.nbs[i].coord).getD false

/-- The frame comes from the source of the last beacon. -/
def State.fromBeaconSrc (s : State) (h : Hdr) (p : Passed) : Bool :=
  match p.nb? with
  | some i => s.mac.nbs[i].short = s.mac.beaconSrc
  | none => match s.nbByShort s.mac.beaconSrc.toNat with
    | some i => s.mac.nbs[i].long = s.longOf p.fr h.src
    | none => false

/-- ASSOC_RSP: status, short address, slot mask (R292). -/
def applyAssocRsp (h : Hdr) (p : Passed) (b : List Byte) (s : State) : State :=
  let short : BitVec 16 := BitVec.ofNat 16 (leNat ((b.drop 1).take 2))
  let done (r : BitVec 4) (s : State) : State := s.modMac fun m => { m with assoc := false, assocRes := r }
  if b.getD 0 0 ≠ 0 || 0xFFFE ≤ short.toNat then done 2 s
  else
    let long := s.longOf p.fr h.src
    let s := s.modMac fun m => { m with short := short, slotmask := BitVec.ofNat 32 (leNat ((b.drop 3).take 4)), maskNext := none }
    done 1 (sysPlain macIdx 0 (addNeighbour long s.mac.beaconSrc true s))

def assocRsp (f : Heard) (s : State) : State :=
  onCommand cmdAssocRsp f (fun h p b s => if s.mac.assoc && s.fromBeaconSrc h p then some (applyAssocRsp h p b) else none) s

def execAssocRsp (f : RxFrame) (s : State) : Host.Outcome State Fault Refusal := .next (assocRsp (s.heard f) s)

/-- SLOT_ASSIGN: the slot mask from the next superframe. -/
def slotAssign (f : Heard) (s : State) : State :=
  onCommand 3 f (fun _ p b s =>
    if s.fromCoord p then some fun s => sysPlain macIdx 0 (s.modMac fun m => { m with maskNext := some (BitVec.ofNat 32 (leNat (b.take 4))) })
    else none) s

def execSlotAssign (f : RxFrame) (s : State) : Host.Outcome State Fault Refusal := .next (slotAssign (s.heard f) s)

/-- The TX slot for a neighbour's map: its own TXMAP slot when that is a TX slot no other neighbour uses, else the lowest free slot outside the
pool (log entry 52). -/
def State.txSlotFor (s : State) (i : Fin 64) : Option (Fin 16) :=
  let own : Fin 16 := finOf 16 s.mac.nbs[i].txmap.toNat
  let shared (k : Fin 16) : Bool := (List.finRange 64).any fun j => j ≠ i && s.mac.nbs[j].valid && s.mac.nbs[j].txmap.toNat = k.val
  if s.phy.tmaps[own].tx && !shared own then some own
  else (List.finRange 16).find? fun k => !s.mac.pool.getLsbD k.val && !s.phy.tmaps[k].valid && !(s.phy.tmaps[k].tx && shared k)

/-- TONEMAP: INDEX, RATE and MAP into a TX slot, which the neighbour's word names from then on (Table MAC-8). -/
def applyTonemap (i : Fin 64) (k : Fin 16) (b : List Byte) (s : State) : State :=
  let t : ToneMap := { map := BitVec.ofNat 72 (leNat ((b.drop 2).take 9)), rate := (b.getD 1 0).setWidth 2, tx := true
                       index := (b.getD 0 0).setWidth 4, valid := true }
  let v : BitVec 4 := BitVec.ofNat 4 k.val
  if s.mac.nbs[i].txmap = v then setToneMap k t s
  else sysPlain (nbIdx i.val) 0 ((setToneMap k t s).modNb i fun n => { n with txmap := v })

def tonemap (f : Heard) (s : State) : State :=
  onCommand 4 f (fun _ p b s => match p.nb? with
    | none => none
    | some i => match s.txSlotFor i with
      | none => none
      | some k => if (b.getD 0 0).toNat < 16 && (b.getD 1 0).toNat < 3 then some (applyTonemap i k b) else none) s

def execTonemap (f : RxFrame) (s : State) : Host.Outcome State Fault Refusal := .next (tonemap (s.heard f) s)

/-- TONEMAP_REQ: the RX slot derived for the sender; one without a slot gets one when the pool has it. -/
def answerTonemap (i : Fin 64) (s : State) : State :=
  match s.mac.nbs[i].curSlot with
  | some k => commandTo i 4 (toneBody k.val s.phy.tmaps[k]) s
  | none => match s.freePool, s.loopMap i (min (12 * field s.mac.loopLoad 12 8) s.loadCeil12) with
    | some k, some r => giveMap i k (some r) s
    | _, _ => s

def tonemapReq (f : Heard) (s : State) : State :=
  onCommand 5 f (fun _ p _ _ => match p.nb? with
    | none => none
    | some i => some (answerTonemap i)) s

def execTonemapReq (f : RxFrame) (s : State) : Host.Outcome State Fault Refusal := .next (tonemapReq (s.heard f) s)

/-- LEAVE: the coordinator's returns the module to short address 0xFFFE. -/
def leaveCmd (f : Heard) (s : State) : State :=
  onCommand 6 f (fun _ p _ s =>
    some (if s.fromCoord p then fun s => sysPlain macIdx 0 (s.modMac fun m => { m with short := 0xFFFE }) else id)) s

def execLeave (f : RxFrame) (s : State) : Host.Outcome State Fault Refusal := .next (leaveCmd (s.heard f) s)

/-- NB_ADD: long and short address of a new entry. -/
def nbAdd (f : Heard) (s : State) : State :=
  onCommand 7 f (fun _ p b s =>
    if s.fromCoord p then some (addNeighbour (ofBytesLE 64 (b.take 8)) (BitVec.ofNat 16 (leNat ((b.drop 8).take 2))) false) else none) s

def execNbAdd (f : RxFrame) (s : State) : Host.Outcome State Fault Refusal := .next (nbAdd (s.heard f) s)

/-- NB_DEL: the entry of a short address. -/
def nbDel (f : Heard) (s : State) : State :=
  onCommand 8 f (fun _ p b s =>
    if s.fromCoord p then some fun s => match s.nbByShort (leNat (b.take 2)) with
      | some i => dropNeighbour i s
      | none => s
    else none) s

def execNbDel (f : RxFrame) (s : State) : Host.Outcome State Fault Refusal := .next (nbDel (s.heard f) s)

/-! ## `MAC_MODE` (R292) -/

/-- `MAC_MODE.ASSOC`: ASSOC_REQ from the long address to the beacon's source, or NOT OPEN. -/
def assocGo (s : State) : State :=
  if s.mac.assoc then s
  else if s.mac.state = .track && s.mac.assocOpen then
    let cap : Byte := orAll [bitAt 0 s.mac.sniffEn, bitAt 1 s.phy.active]
    queueCommand cmdAssocReq [cap] (bytesLE 2 s.mac.beaconSrc) s.longBytes (s.nbByShort s.mac.beaconSrc.toNat)
      (s.modMac fun m => { m with assoc := true, assocRes := 0 })
  else s.modMac fun m => { m with assocRes := 4 }

def execAssoc (p : Port) (s : State) : Host.Outcome State Fault Refusal := .next (atSlot0 p 0x1404 assocGo s)

/-- No ASSOC_RSP came. -/
def assocNoReply (s : State) : State := if s.mac.assoc then s.modMac fun m => { m with assoc := false, assocRes := 3 } else s

def execAssocNoReply (s : State) : Host.Outcome State Fault Refusal := .next (assocNoReply s)

/-- `MAC_MODE.LEAVE`: LEAVE to the coordinator; its reason is not given (log entry 55).  The manual does not say when the action completes: the
model ends it once the command is queued, so that the bit never reads 1 and a second write queues a second LEAVE (DESIGN CHOICE, log entry 186). -/
def leaveGo (s : State) : State :=
  match s.nbOf fun n => n.coord with
  | none => s
  | some i => s.draw fun v s => commandTo i 6 [v.setWidth 8] s

def execMacLeave (p : Port) (s : State) : Host.Outcome State Fault Refusal := .next (atSlot0 p 0x1404 leaveGo s)

end Sys2Proof.Machine
end

