-- ==== Sys2Proof/Machine/Tally.lean ====
section
/-! DEFINITION. The burn of a limited change and what it sets, ownership transfer, the end of a purge (R41, R43, R46, R48 to R50, R54, R100, R161,
R184, R234, R245, R312, R336, R362, R379, R409, R415, R427). -/

namespace Sys2Proof.Machine

/-! ## The end of a purge (R48, R234) -/

/-- Granules of a slot. -/
def State.slotGranules (s : State) (n : Fin 8) : List (Fin 64) := (List.finRange 64).filter fun g => s.mram.part[g].owner.toNat = n.val

/-- Skeins in the blocks of a slot. -/
def State.slotSkeins (s : State) (n : Fin 8) : List (BitVec 16) :=
  (s.skn.skeins.map fun x => (BitVec.ofNat 16 x.1 : BitVec 16)).filter fun sk => s.skeinOwner sk = some n

/-- A partition entry that no slot owns. -/
def freeEntry : PartEntry := { owner := 0xF, pos := 0, zeroFill := false, st := .free }

/-- Skein blocks and lane contexts of a slot return to the pool (R184). -/
def returnSkeins (n : Fin 8) (s : State) : State :=
  let s := (s.slotSkeins n).foldl (fun s sk => removeSkein sk s) s
  let gone := s.skn.blocks.filter fun b => decide (b.2 = n)
  gone.foldl (fun s b => sysPlain (blockIdx b.1) 0 s) (s.modSkn fun k => { k with blocks := k.blocks.filter fun b => !decide (b.2 = n) })

/-- Step 3 of R234: entries FREE, the seal word reset, skeins returned, the slot's state from its new owner, PURGE_DONE. -/
def finishPurge (n : Fin 8) (s : State) : State :=
  let gs := s.slotGranules n
  let map : Word64 := orAll (gs.map fun g => bitAt g.val true)
  let s := gs.foldl (fun s g => pairWrite 1 g.val 0 (fun s => s.modPart g fun _ => freeEntry) s) s
  let s := if gs.isEmpty && !s.damaged 2 n.val then s
    else pairWrite 2 n.val 0 (fun s => s.modTen n fun t => { t with granules := 0, sealCheck := 0 }) s
  let s := (returnSkeins n s).modTen n fun t => { t with used := 0, st := if t.owner = 0 then .free else .owned }
  raise .purgeDone 0 ([snap32 n.val] ++ snap64 map) s

/-- Step 1 of R234: every granule of the slot PURGING, one pair write for each, and in the purge record. -/
def startPurge (n : Fin 8) (s : State) : State :=
  let gs := s.slotGranules n
  if gs.isEmpty then s
  else
    let s := gs.foldl (fun s g => pairWrite 1 g.val 0 (fun s => s.modPart g fun e => { e with st := .purging }) s) s
    pairWrite 0xB 0 0 (fun s => s.modInt fun i => { i with pMap := i.pMap ||| orAll (gs.map fun g => bitAt g.val true) }) s

/-! ## Purge (R234 to R237, R241) -/

/-- Granules still to overwrite. -/
def State.toPurge (s : State) (g : Fin 64) : Bool := s.int.pMap.getLsbD g.val && decide (s.mram.part[g].st = .purging)

/-- The lowest such granule of each array: the round's granules. -/
def State.roundOf (s : State) : List (Fin 64) :=
  (((List.finRange 64).find? fun g => g.val < 32 && s.toPurge g).toList) ++ (((List.finRange 64).find? fun g => 32 ≤ g.val && s.toPurge g).toList)

/-- A write to the granule is accepted or waits: the overwrite follows it in the array's order. -/
def State.granPending (s : State) (g : Fin 64) : Bool :=
  (s.mram.arrA.queue ++ s.mram.arrB.queue ++ s.mram.fhb ++ s.mram.waitq).any fun e => match e.tgt with
    | .word k _ _ => keyGran k = some g
    | .sys _ => false

/-- The array may overwrite the granule now: it is on, admitted, has had a magnitude, no swatch runs on it, and no other write of the granule comes
before (R236). -/
def State.mayBlank (s : State) (g : Fin 64) : Bool :=
  let a := granArr g
  s.domOn (arrDom a) && s.power.isAdmitted (arrUnit a) && (s.mram.arr a).sampled && !(s.int.swRun && s.int.swTest = a) && !s.granPending g

/-- A purge round is under way: the overwrite waits under field deferral and while it is suspended (R236, R237). -/
def State.purging (s : State) : Bool :=
  s.running && !s.int.pSusp && !s.mram.defer && !s.roundOf.isEmpty && s.roundOf.all s.mayBlank

/-- m words stored to a slot's charge. -/
def chargeWords (m : Nat) (n : Fin 8) (s : State) : State :=
  (if s.tenants[n].st = .free then s
    else s.modSns fun q => { q with run := upd q.run n fun w => { w with writes := satNat 24 (w.writes + m) } }).chargeEnergy n (84 * m)

/-- m words of one row, m at most 4,096, stored: at most one sample of R205. -/
def sampleWords (a : Arr) (row m : Nat) (s : State) : State :=
  let c := (s.mram.arr a).stored
  if c + m < 4096 then s.modArr a fun q => { q with stored := c + m, total := q.total + m }
  else
    (sampleRow a row (s.modArr a fun q => { q with stored := 4095, total := q.total + m - 1 })).modArr a fun q => { q with stored := c + m - 4096 }

/-- Words of an array written in a burst (R70). -/
def countBurst (a : Arr) (m : Nat) (s : State) : State :=
  s.modPower fun p => match a with
    | .A => { p with burstA := p.burstA + m }
    | .B => { p with burstB := p.burstB + m }

/-- The words of a row become blank, and their repairs are cancelled (R221, R234). -/
def blankRow (a : Arr) (row : Nat) (s : State) : State :=
  let of (k : Nat) : Bool := wordKey a (32 * row) ≤ k && decide (k < wordKey a (32 * row) + 32)
  (s.modMram fun m => { m with
    words := m.words.filter fun w => !of w.1
    waitq := m.waitq.filter fun e => !(e.writer = .integrity && match e.tgt with
      | .word k _ _ => of k
      | .sys _ => false) }).modInt fun i => { i with repairs := i.repairs.filter fun k => !of k }

/-- Overwrite a row with blank words through the write path, charged to slot 0.  Which words exhaust their attempts is free, and so is whether the
remap onto the lowest free spare row holds; a word that fails is handled as any other (R201, R202, R236, R241; log entry 196). -/
def overwriteRow (a : Arr) (row : Nat) (s : State) : State :=
  s.draw fun v s =>
    let s := countBurst a 32 (sampleWords a row 32 (chargeWords 32 0 (blankRow a row s)))
    let bad := (List.range 32).filter fun i => v.getLsbD i
    let fails (cause : Nat) (s : State) : State :=
      bad.foldl (fun s i => wordFails a (32 * row + i) cause true (leaveFailed (wordKey a (32 * row + i))) s) s
    match bad, (s.mram.arr a).spares with
    | [], _ => s
    | _, [] => fails wfailNoSpare s
    | _, spare :: _ => if v.getLsbD 32 then remapStitch a row spare (remapTo a row spare s) else fails wfailSpareFail s

/-- Overwrite rows i to j − 1 of a granule, in ascending order. -/
def overwriteRows (i j : Nat) (g : Fin 64) (s : State) : State :=
  State.each (List.range' i (j - i)) (fun r s => overwriteRow (granArr g) (g.val % 32 * 128 + r) s) s

/-- The overwrite stops, at a SUSPEND or at a stop of the module, at a row boundary: how many rows of the round's granules it has reached by then is
free (R237). -/
def purgePart (s : State) : State :=
  if s.purging then
    s.draw fun v s =>
      let r := s.int.pRows + v.toNat % (129 - s.int.pRows)
      (s.roundOf.foldl (fun s g => overwriteRows s.int.pRows r g s) s).modInt fun i => { i with pRows := r }
  else s

/-- The slots in state PURGING with no granule left to overwrite: step 3 of R234. -/
def finishPurges (s : State) : State :=
  State.each slots (fun n s =>
    if s.tenants[n].st = .purging && !((s.slotGranules n).any fun g => s.int.pMap.getLsbD g.val) then finishPurge n s else s) s

/-- A round completes (R234): each array's lowest PURGING granule is overwritten, one pair write clears their bits, finished slots follow, and the
arrays give up their charges as after any burst (R70). -/
def purgeRound (s : State) : State :=
  if s.purging then
    let gs := s.roundOf
    let s := gs.foldl (fun s g => overwriteRows s.int.pRows 128 g s) s
    let bits : BitVec 64 := orAll (gs.map fun g => bitAt g.val true)
    let s := pairWrite 0xB 0 0 (fun s => s.modInt fun i => { i with pMap := i.pMap &&& ~~~bits, pRows := 0 }) s
    gs.foldl (fun s g => burstEnd (granArr g) s) (finishPurges s)
  else s

def execPurgeRound (s : State) : Host.Outcome State Fault Refusal := .next (purgeRound s)

/-- `PURGE_CTL.SUSPEND`: the overwrite under way stops at a row boundary. -/
def purgeSuspend (v : Bool) (s : State) : State :=
  (if v then purgePart s else s).modInt fun i => { i with pSusp := v }

def execPurgeSuspend (p : Port) (val : Bool) (s : State) : Host.Outcome State Fault Refusal := .next (atSlot0 p 0xE80 (purgeSuspend val) s)

/-! ## Transfer (R48) -/

/-- The windows open on the slot close (R100). -/
def closeWindows (n : Fin 8) (s : State) : State := State.each [Port.a, Port.b] (fun p s => if s.openOn p n then closePort p s else s) s

/-- Step 2: the slot's key slots, and with slot 0 the site slots, are destroyed in one write; marks and flows bound to them go (R49, R312). -/
def destroyKeys (n : Fin 8) (s : State) : State :=
  let gone (k : Fin 36) : Bool := k.val / 4 = n.val || (n = 0 && 32 ≤ k.val)
  let keep (l : List Mark) : List Mark := l.filter fun m => !gone m.key
  let s := keysWrite ((List.finRange 36).filter gone) 0
    (fun s => { s with keys := Vector.ofFn fun k => if gone k then blankKey s.keys[k] else s.keys[k] }) s
  let s := s.modMac fun m => { m with
    nbs := m.nbs.map fun x => { x with marks := keep x.marks }
    senders := m.senders.map fun e => { e with mark := e.mark.filter fun x => !gone x.key }
    flows := Vector.ofFn fun i => if flowSlot i = n then { m.flows[i] with flow := 0, flowb := 0, fin := none, last := m.v, part := none, wait := false }
      else m.flows[i] }
  if n = 0 then clearMacSite s else s

/-- Step 3: its needles are released with ORPHANED set. -/
def releaseNeedles (n : Fin 8) (s : State) : State :=
  State.each (List.finRange 32) (fun k s => if slotOfNeedle k = n then orphanNeedle k orphanTransfer s else s) s

/-- A ring reset to empty (R161). -/
def emptyRing (r : Ring) : Ring :=
  { ctx := { r.ctx with en := false, prod := 0, cons := 0, llOk := false, mask := 0 }
    dirty := true, halted := false, cause := 0, fetch := 0, fetched := [], held := false }

/-- Step 4: its rings are reset, and what a DISCARD or a RESUME of theirs still waits for goes. -/
def resetRings (n : Fin 8) (s : State) : State :=
  let s := s.modEng fun e => { e with discards := e.discards.filter fun d => !decide (slotOfRing d.1 = n) }
  State.each (List.finRange 64) (fun j s => queueCtx (ringNo n j) (s.modRing (ringNo n j) emptyRing)) s

/-- Step 5: its skeins are emptied (R184). -/
def emptySkeins (n : Fin 8) (s : State) : State :=
  (s.slotSkeins n).foldl (fun s sk =>
    let s := (loadSkein sk s).1
    packetGone n sk (((s.skein sk).map fun k => List.range k.lanes.length).getD [] |>.foldl (fun s l => clearLane sk l s) s)) s

/-- Step 7: the owner and the role; the bucket at 0, the policer at BURST (R336). -/
def replaceOwner (n : Fin 8) (v : Word128) (s : State) : State :=
  let o := ownerOf v
  s.modTen n fun t => { t with
    owner := o.1, role := (roleOf o.2).getD .none, level := 0, polLevel := field t.polCfg 15 8 }

/-- The transfer steps, in order; the claim's key enters site slot 0 ACTIVE (R50).  `done` completes an operation of the slot's own ring that asked
for the change, before its ring is reset (R161). -/
def transfer (n : Fin 8) (v : Word128) (claim : Option (Word128 × Word32)) (done : State → State) (s : State) : State :=
  let wasFree : Bool := s.tenants[n].st = .free
  let s := if n = 0 && s.chainKey.2 then rekey 2 s else s
  let s := if n = 0 then writeHeads s else s
  let s := transferHold n s
  let s := closeWindows n (s.modTen n fun t => { t with st := .purging, susp := false })
  let bare := (s.slotGranules n).isEmpty
  let s := startPurge n (destroyKeys n s)
  let s := transferRecord n wasFree (emptySkeins n (drainWait (resetRings n (done (releaseNeedles n s)))))
  let s := replaceOwner n v s
  let s := match claim with
    | some (k, c) =>
      let before := s.chainKey.2
      afterKArrives before (setKey 0 (siteKey 0) (fun _ => { st := .active, use := 0, key := k, ctr := c }) s)
    | none => s
  if bare then finishPurge n s else s

/-! ## The burn (R43, R46) -/

/-- What the record of a setting holds after the change: the value, or for audit class M. -/
def newRecordValue (c : LcRun) : Word128 := if c.setting = 4 then 1 else c.value

/-- Snapshots of an LC_CHANGE stitch (Table REC-4). -/
def lcSlots (setting : Nat) (target : Fin 8) (old new : Word128) (left burnt : Nat) : List Word32 :=
  let role (v : Word128) : Nat := if setting = 3 then field v 66 64 else 0
  [orAll [at_ 0 setting, at_ 8 target.val, at_ 16 left, at_ 24 (role old), at_ 28 (role new)]] ++ snap64 (old.setWidth 64) ++
    snap64 (new.setWidth 64) ++ [snap32 burnt]

/-- The change stitch of a setting, and what became of it: the record's flag is set once it is written (R46, R51). -/
def lcStitch (setting : Nat) (target : Fin 8) (old new : Word128) (flags : Byte) (s : State) : State × Raised :=
  raiseWith Ev.lcChange.code 0 (lcSlots setting target old new (s.tallyLeft setting target.val) (s.tallies setting target.val))
    (fun st => { st with lc := some (lcIndex setting target), flags := st.flags ||| flags }) s

/-- What a setting does beside its record: the channel of a new region, the tables of a new site, the transfer of a slot, legacy mode. -/
def applySetting (c : LcRun) (s : State) : State :=
  match c.setting.toNat with
  | 1 => enterRegion s
  | 2 => clearMacSite s
  | 3 => transfer c.target c.value c.claim (fun s => match c.op with
    | some id => if ((s.op id).map fun o => decide (o.slot = c.target)).getD false then finishLc id lcDone s else s
    | none => s) s
  | 5 => settleCompat s
  | _ => s

/-- The change is burnt: its record, its effect, its fault cleared, its stitch.  It is complete once the stitch is written (`lcSettle`), or at once when
none was queued (R46, R48, Table TEN-10). -/
def lcCommit (c : LcRun) (s : State) : State :=
  let k := c.setting.toNat
  let old := (s.lcRecord k c.target).value
  let new := newRecordValue c
  let s := pairWrite 6 (lcIndex k c.target) 0 (modRecordAt (lcIndex k c.target) fun _ =>
    { value := new, old := old, count := s.tallies k c.target.val, stitched := false }) s
  let s := applySetting c (s.modLc fun l => { l with run := some { c with burnt? := true } })
  let s := if slots.all fun n => s.lcAgrees k n then clearFault (lcFault k) s else s
  let r := lcStitch k c.target (if k ≤ 3 then old else 0) (if k ≤ 3 then new else 0) 0 s
  if r.2 = .queued then engSweep r.1 else lcComplete c r.1

/-- A refusal after the request had started: TALLY released, fetch of the target goes on, the operation complete. -/
def lcStop (reason : Nat) (c : LcRun) (s : State) : State :=
  let s := lcAbort reason c (releaseUnit .tally s)
  match c.op with
  | some id => engSweep (finishLc id reason s)
  | none => engSweep s

/-- The antifuses of the pair at bit b after a burn. -/
def burnPair (b : Nat) (low high : Bool) (s : State) : State :=
  s.modFuses fun f => { f with antifuses := f.antifuses ||| bitAt b low ||| bitAt (b + 1) high }

/-- The burn of the running change once TALLY is admitted; its conditions are checked again as it begins; the operands say which antifuse of the pair
conducts. -/
def tallyBurn (low high : Bool) (s : State) : State :=
  match s.lc.run with
  | none => s
  | some c =>
    if c.burnt? then s
    else
    let a := lcAsk s
    match a.2 with
    | some id => engSweep (finishLc id lcPower a.1)
    | none =>
      let s := a.1
      if s.lc.run.isNone then engSweep s
      else if !s.power.isAdmitted .tally || !s.burnReady c then s
      else if !c.begun && !s.lcPowerOk then lcStop lcPower c s
      else if !c.begun && s.mram.defer then lcStop lcField c s
      else match s.freePair c.setting.toNat c.target.val with
        | none => lcStop lcExhausted c s
        | some b =>
          if !low && !high then lcStop lcBurnFail c s
          else lcCommit c (releaseUnit .tally (burnPair b low high s))

def execTallyBurn (low : Bool) (high : Bool) (s : State) : Host.Outcome State Fault Refusal := .next (tallyBurn low high s)

end Sys2Proof.Machine
end

