-- ==== Sys2Proof/Machine/Stop.lean ====
section
/-! DEFINITION. Stops: what of the state a stop leaves (R10, R81, R127), the steps of bind-off (R77 to R80, R158, R404, R434), the domains,
and the immediate reset without power loss (R233, R452). -/

namespace Sys2Proof.Machine

/-! ## What a stop leaves (R10) -/

/-- a where AON retention is kept, b where it is lost. -/
def pick {α : Type} (aon : Bool) (a b : α) : α := if aon then a else b

/-- Levels, supply and LAST_STOP stay; the rest reads its reset values. -/
def survivePower (aon : Bool) (p : Power) : Power :=
  { Power.reset with
    supply := p.supply, eb := p.eb, vioOk := p.vioOk, charger := p.charger, vbat := p.vbat, lastStop := p.lastStop
    storeMv := pick aon p.storeMv 0, storeOk := pick aon p.storeOk false }

def surviveLife (aon : Bool) (l : Life) : Life :=
  { Life.reset with
    caston := l.caston, wakeFails := pick aon l.wakeFails 0, mask := pick aon l.mask 0, first := pick aon l.first 0
    valid := pick aon l.valid false, detail := pick aon l.detail 0, domFailed := pick aon l.domFailed false
    aonIntact := pick aon l.aonIntact false, restored := pick aon l.restored false, ms := pick aon l.ms 0 }

/-- The captures of malformed transactions are lost only with AON retention (R127). -/
def survivePort (aon : Bool) (q : PortSt) : PortSt :=
  { PortSt.reset q.nonce with
    malCount := pick aon q.malCount 0, malValid := pick aon q.malValid 0, malFirst := pick aon q.malFirst (PortSt.reset 0).malFirst }

/-- A slot after a stop; `SHP_CFG` is stored as last written, so nothing of it is pending any more (log entry 143). -/
def surviveTenant (aon : Bool) (t : Tenant) : Tenant :=
  { Tenant.reset with
    st := t.st, role := t.role, susp := t.susp, owner := t.owner, granules := t.granules, sealCheck := t.sealCheck
    notSkein := t.notSkein, notEn := t.notEn, quota := t.quota, used := t.used, pulseLen := t.pulseLen, recOwn := t.recOwn
    feed := t.feed, sw := t.sw, fw := t.fw, gate := t.gate, shpRate := (t.shpPend.map (·.1)).getD t.shpRate
    shpBurst := (t.shpPend.map (·.2)).getD t.shpBurst
    polCfg := t.polCfg, iso := pick aon t.iso 0, frogOps := pick aon t.frogOps 0, frogLines := pick aon t.frogLines 0
    unc := pick aon t.unc none, uncLast := pick aon t.uncLast (0, 0), uncAddr := pick aon t.uncAddr 0
    notLost := pick aon t.notLost 0, dropCount := pick aon t.dropCount 0, dropSkein := pick aon t.dropSkein 0
    sknErr := pick aon t.sknErr (0, 0), sknErrV := pick aon t.sknErrV false, cGrant := pick aon t.cGrant 0
    cDeny := pick aon t.cDeny 0, cDefer := pick aon t.cDefer 0, cTrap := pick aon t.cTrap 0, trap := pick aon t.trap (0, 0)
    trapV := pick aon t.trapV false, feedLost := pick aon t.feedLost 0, fitWait := pick aon t.fitWait 0
    abandoned := pick aon t.abandoned 0, level := pick aon t.level 0, clamps := pick aon t.clamps 0
    polLevel := pick aon t.polLevel (field t.polCfg 15 8), polDrops := pick aon t.polDrops 0 }

def surviveLc (aon : Bool) (l : Lc) : Lc :=
  { Lc.reset with
    region := l.region, site := l.site, audit := l.audit, compat := l.compat, owner := l.owner, isoSlot := pick aon l.isoSlot 0
    isoPath := pick aon l.isoPath 0, isoIdx := pick aon l.isoIdx 0, isoV := pick aon l.isoV false }

/-- Stored words and the tables stay, and what AON retention counts. -/
def surviveMram (aon : Bool) (m : Mram) : Mram :=
  { Mram.reset with
    words := m.words, remaps := m.remaps, part := m.part, nextTwin := m.nextTwin
    arrA := { ArrSt.reset with spares := m.arrA.spares }, arrB := { ArrSt.reset with spares := m.arrB.spares }
    wfail := pick aon m.wfail false, mergeBad := pick aon m.mergeBad false, portDrop := pick aon m.portDrop false
    wfailCount := pick aon m.wfailCount 0, wfailWord := pick aon m.wfailWord 0, wfailArr := pick aon m.wfailArr .A
    wfailCause := pick aon m.wfailCause 0, wfailV := pick aon m.wfailV false, hot := pick aon m.hot []
    disturb := pick aon m.disturb false, peak := pick aon m.peak 0, episodes := pick aon m.episodes 0, drops := pick aon m.drops 0
    fwords := pick aon m.fwords 0, stall := pick aon m.stall 0 }

def surviveInt (aon : Bool) (i : Integ) : Integ :=
  { Integ.reset with
    lapsStored := i.lapsStored, damage := i.damage, pMap := i.pMap, pos := pick aon (if i.prio then i.resume else i.pos) 0, laps := pick aon i.laps i.lapsStored
    ceScrub := pick aon i.ceScrub 0, ceDemand := pick aon i.ceDemand 0, ue := pick aon i.ue 0, pairRep := pick aon i.pairRep 0
    pairFail := pick aon i.pairFail 0, ueWord := pick aon i.ueWord 0, ueCause := pick aon i.ueCause 0, ueV := pick aon i.ueV false
    swRes := pick aon i.swRes 0b10, swFail := pick aon i.swFail Integ.reset.swFail, rstCause := pick aon i.rstCause 0
    rstClass := pick aon i.rstClass 0, rstIdx := pick aon i.rstIdx 0, rstV := pick aon i.rstV false }

def survivePhy (aon : Bool) (p : Phy) : Phy :=
  { Phy.reset with
    w2 := p.w2, ctl := p.ctl, fixed := p.fixed, txpwr := p.txpwr, shape := p.shape, load := p.load, hopmask := p.hopmask
    tmaps := p.tmaps, duty := pick aon p.duty Phy.reset.duty, hdrBad := pick aon p.hdrBad 0, lenBad := pick aon p.lenBad 0
    tentDis := pick aon p.tentDis 0, fallback := pick aon p.fallback 0, regDrop := pick aon p.regDrop 0 }

/-- After loss of AON retention each high mark restarts at its stored value with every window bit set (R301). -/
def surviveMark (aon : Bool) (m : Mark) : Mark := pick aon m { m with h := m.stored, win := BitVec.allOnes 24 }

/-- A sender-cache entry: its mark in AON retention, or the one its word gives, with every window bit set; an entry whose word was never stored is
gone (R219, R301). -/
def surviveSender (aon : Bool) (e : Sender) : Option Sender :=
  if aon then some e
  else match e.cell with
    | .good h => some { e with mark := e.mark.map fun m => { m with h := h, win := BitVec.allOnes 24, stored := h } }
    | .corr h => some { e with mark := e.mark.map fun m => { m with h := h, win := BitVec.allOnes 24, stored := h } }
    | .bad => some e
    | .blank => none

def surviveNb (aon : Bool) (n : Neighbour) : Neighbour :=
  { n with marks := n.marks.map (surviveMark aon), since := 0, curSlot := none, prevSlot := none, prevSfn := 0 }

def surviveMac (aon : Bool) (m : Mac) : Mac :=
  { Mac.reset with
    short := m.short, trackEn := m.trackEn, sniffEn := m.sniffEn, skip := m.skip, lostMax := m.lostMax, search := m.search
    slotmask := m.slotmask, wor := m.wor, groups := m.groups, fcStored := m.fcStored, loopCtl := m.loopCtl, loopPwr := m.loopPwr
    loopLoad := m.loopLoad, pool := m.pool, loopThr := m.loopThr, ownSeq := m.ownSeq, fcLow := m.fcLow, fcStop := m.fcStop
    nbs := m.nbs.map (surviveNb aon), senders := m.senders.filterMap (surviveSender aon)
    eps := m.eps.map fun e => { e with deliv := pick aon e.deliv 0, refused := pick aon e.refused 0 }
    flows := m.flows.map fun f => { Flow.reset with flow := f.flow, flowb := f.flowb, sent := pick aon f.sent 0, fail := pick aon f.fail 0 }
    evict := pick aon m.evict 0, dropk := pick aon m.dropk Mac.reset.dropk, raLines := pick aon m.raLines 0
    raFrogs := pick aon m.raFrogs 0, fc := pick aon m.fc m.fcStored, conflict := pick aon m.conflict 0
    starve := pick aon m.starve Mac.reset.starve }

def surviveEva (aon : Bool) (v : Eva) : Eva :=
  { Eva.reset with
    ctl := v.ctl, emerg := v.emerg, emergNo := v.emergNo, emergStored := v.emergStored, holdMs := pick aon v.holdMs 0
    holdOrder := pick aon v.holdOrder 0, holdOwner := pick aon v.holdOwner 0, emergRes := pick aon v.emergRes 0
    lastEnd := pick aon v.lastEnd none, lastPulse := pick aon v.lastPulse none }

/-- What belongs to the open period stays with the stored words (R376, R378). -/
def surviveSns (aon : Bool) (q : Sense) : Sense :=
  { Sense.reset with
    doorPin := q.doorPin, boltPin := q.boltPin, ctl := q.ctl, stCtl := q.stCtl, len := q.len, wb := q.wb, origin := q.origin
    lenPend := q.lenPend, originPend := q.originPend, pwStored := q.pwStored, runStored := q.runStored, backstep := q.backstep
    fwdstep := q.fwdstep, unclean := q.unclean, covered := q.covered, skipped := q.skipped, pw := pick aon q.pw q.pwStored
    run := pick aon q.run q.runStored, sub := pick aon q.sub Sense.reset.sub, chgSub := pick aon q.chgSub 0
    door := pick aon q.door false, bolt := pick aon q.bolt false, time := pick aon q.time 0, frac := pick aon q.frac 0
    holdSec := pick aon q.holdSec 0, trusted := pick aon q.trusted false, source := pick aon q.source 0, ageMs := pick aon q.ageMs 0
    steps := pick aon q.steps 0 }

def surviveChan (aon : Bool) (c : Chan) : Chan :=
  { Chan.reset with stored := c.stored, grans := c.grans, lost := pick aon c.lost 0 }

def surviveRec (aon : Bool) (l : Rec) : Rec :=
  { Rec.reset l.audNonce with
    ctl := l.ctl, seqEnd := l.seqEnd, seqStored := l.seqStored, rl := l.rl, bind := l.bind, chans := l.chans.map (surviveChan aon)
    lost := pick aon l.lost 0, seq := pick aon l.seq l.seqStored, lim := pick aon l.lim [] }

/-- Every field after a stop: the system area, MRAM and fuses always stay, AON retention when `aon`; the rest is at its reset value. -/
def survive (aon : Bool) (s : State) : State :=
  { s with
    power := survivePower aon s.power, life := surviveLife aon s.life, portA := survivePort aon s.portA, portB := survivePort aon s.portB
    needles := pick aon s.needles (Vector.replicate 32 Needle.reset), tenants := s.tenants.map (surviveTenant aon)
    lc := surviveLc aon s.lc, mram := surviveMram aon s.mram, eng := { Engine.reset with stored := s.eng.stored, nextOp := s.eng.nextOp }
    skn := { SkeinSt.reset with blocks := s.skn.blocks, skeins := s.skn.skeins, stored := s.skn.stored, wbEvery := s.skn.wbEvery }
    int := surviveInt aon s.int, phy := survivePhy aon s.phy, mac := surviveMac aon s.mac, eva := surviveEva aon s.eva
    sns := surviveSns aon s.sns, log := surviveRec aon s.log }

/-! ## Steps of a stop -/

/-- Stitches in the wait queue are abandoned and counted as lost, but for those to keep (R404, R452). -/
def abandonBut (keep : Stitch → Bool) (s : State) : State :=
  (s.log.queue.filter fun st => !keep st).foldl (fun s st => loseStitch st.ch s) (s.modLog fun l => { l with queue := l.queue.filter keep })

def abandonQueue (s : State) : State := abandonBut (fun _ => false) s

/-- The stitch of the running change, once it is burnt: bind-off completes the change through it (R51). -/
def State.changeStitch (s : State) (st : Stitch) : Bool :=
  match s.lc.run with
  | some c => c.burnt? && st.lc = some (lcIndex c.setting.toNat c.target)
  | none => false

/-- Staged stitches stay unmarked, their words charged as left by a stop (R25, R399). -/
def leaveStaged (s : State) : State :=
  State.each slots (fun n s =>
    (if s.log.chans[n].staged.isSome then chargeStaged n s else s).modChan n fun c => { c with staged := none, reuse := none }) s

/-- Step 2: the pair in its non-release state, both ports closed; the recorder gives up what waits, but for the stitch of a burnt change (R51, R80,
R404). -/
def stopOuter (s : State) : State :=
  let s := closePort .b (closePort .a (safePair s))
  State.each slots tagDone (leaveStaged (abandonBut s.changeStitch s))

/-- Step 3: a frame on air is cut and charged for the airtime used, which is for the outside world to say: a free part of it (R277, R374). -/
def stopRadio (s : State) : State :=
  match s.phy.air with
  | none => s
  | some a =>
    if s.phy.txPhase ≠ .onAir then s
    else s.draw fun v s => s.draw fun w s =>
      let us := v.toNat % (a.us + 1)
      (countAir us (State.chargeTx a.slot (w.toNat % (a.sym + 1)) 1 us (txCharge a.power) s)).modPhy fun p => { p with txPhase := .idle }

/-- Store what is accepted and what waits, until nothing is left. -/
def flushGo : Nat → State → State
  | 0, s => s
  | n + 1, s =>
    if s.mram.waitq.isEmpty && s.mram.seqEmpty .A && s.mram.seqEmpty .B then s else flushGo n (storeAll (drainWait s))

def flushWrites (s : State) : State := flushGo (s.mram.waitq.length + 600) s

/-- Some of the words of a stop: n turns of both arrays, in acceptance order; a twin that has been started is finished (R63, R453). -/
def storeSome : Nat → State → State
  | 0, s => s
  | n + 1, s => let s := drainWait s; storeSome n (stopTurn .B (stopTurn .A s))

/-- Open lifelines are frogged (R158, R452). -/
def frogAll (s : State) : State := State.each (List.finRange 4) (fun k s => if s.eng.lls[k].isSome then frogLine k s else s) s

/-- The operations that are left are abandoned. -/
def dropOps (s : State) : State := s.modEng fun e => { e with ops := [], hold := [], llDue := [], discards := [] }

/-- The array still has words of step 4 to store: its write queue, or words of the engine behind earlier ones in the field hold buffer (R77,
R214). -/
def State.stepFour (s : State) (a : Arr) : Bool :=
  !(s.mram.arr a).queue.isEmpty || s.mram.fhb.any fun e => e.arr = a && e.writer = .engine

/-- Store what waits, what the queues hold and the engine's words; what else the field hold buffer holds is left for step 6. -/
def flushFour : Nat → State → State
  | 0, s => s
  | n + 1, s =>
    let s := drainWait s
    if s.mram.waitq.isEmpty && !s.stepFour .A && !s.stepFour .B then s
    else
      let go (a : Arr) (s : State) : State := if s.stepFour a || !s.mram.waitq.isEmpty then stopTurn a s else s
      flushFour n (go .B (go .A s))

/-- Step 4, issued: lifelines frogged, resolved operations finish, the rest is abandoned, dirty ring context words follow (R158). -/
def stopEngine (s : State) : State :=
  State.each (List.finRange 512) queueCtx (dropOps (flushFour (s.mram.waitq.length + 600) (frogAll s)))

/-- The running change whose burn has begun, as it was noted when the trigger came, and is not burnt yet (R51). -/
def State.burnBegun (s : State) : Option LcRun :=
  match s.lc.run with
  | some c => if c.begun && !c.burnt? then some c else none
  | none => none

/-- The stitch of the burnt change is written, and with it the change is complete. -/
def finishStitch (s : State) : State := lcSettle (offerAll 8 s)

/-- The burn of a begun change ends, the operands saying which antifuses conduct; one that leaves neither conducting changes nothing more. -/
def burnEnds (low high : Bool) (c : LcRun) (s : State) : State :=
  match s.freePair c.setting.toNat c.target.val with
  | none => s
  | some b => if !low && !high then s else lcCommit c (releaseUnit .tally (burnPair b low high s))

/-- Step 5, issued: a burn already begun is completed through its stitch; which antifuses conduct is a free value (R51, R89).  A change burnt
before the trigger is completed through its stitch too. -/
def finishBurn (s : State) : State :=
  match s.burnBegun with
  | none => finishStitch s
  | some c => s.draw fun v s => finishStitch (burnEnds (v.getLsbD 0) (v.getLsbD 1) c s)

/-- Step 7, issued: every dirty lane context, both copies (R173, R182). -/
def writeContexts (s : State) : State :=
  (s.skn.cache.filter (·.dirty)).foldl (fun s x => writePair (BitVec.ofNat 16 (x.key / 8)) (x.key % 8) s) s

/-- Step 8, issued: running words, period word, channel heads (R377, R396). -/
def writeSummaries (s : State) : State := writeHeads (writePeriod (writeRuns s))

def triggerCode : Trigger → Nat
  | .earlyBreak => 1
  | .supplyLoss => 2
  | .recast => 3

/-- Step 9, issued: the BIND_OFF stitch (Table REC-4). -/
def bindOffStitch (words : Nat) (s : State) : State :=
  let cause := triggerCode (s.power.trigger.getD .earlyBreak)
  let slots : List Word32 :=
    [orAll [at_ 0 cause, at_ 16 s.sns.mag.toNat], orAll [at_ 0 s.power.vbat, at_ 16 s.power.storeMv], snap32 words,
     orAll [at_ 0 s.mram.episodes.toNat, at_ 16 s.mram.drops.toNat], s.mram.fwords, s.mram.stall, s.log.lost.setWidth 32,
     snap32 s.suppSum]
  offerAll 4 (raise .bindOff 0 slots (abandonQueue s))

/-- Step 10, issued: both clean-stop words as one twin (R419). -/
def writeClean (s : State) : State := issueTwin (.stopWords (.clean s.life.caston)) 0 .integrity s

/-- Words stored by both arrays between two states. -/
def storedSince (a b : State) : Nat := b.mram.arrA.total - a.mram.arrA.total + (b.mram.arrB.total - a.mram.arrB.total)

/-- The words of steps 4 to 8 that count as written under field (R79). -/
def underField (a b : State) : Nat := if a.mram.mt ≤ a.sns.mag.toNat then storedSince a b else 0

/-- What step k of bind-off does before its words are stored; `start` is the state at the start of step 4. -/
def bindStep (start : State) (k : Nat) (s : State) : State :=
  match k with
  | 2 => stopOuter s
  | 3 => stopRadio s
  | 4 => stopEngine s
  | 5 => finishBurn s
  | 7 => writeContexts s
  | 8 => writeSummaries s
  | 9 => bindOffStitch (underField start s) s
  | 10 => writeClean s
  | _ => s

/-- `FIELD_WORDS` counts words of a deferral; a stop's own words are none (R79, R210). -/
def keepFwords (old s : State) : State := s.modMram fun m => { m with fwords := old.mram.fwords }

/-- The change of step 5 has words to write, behind what its arrays hold. -/
def State.changeOpen (s : State) : Bool := s.burnBegun.isSome || (s.lc.run.map (·.burnt?)).getD false

/-- A whole step: its words are stored before the next one; what step 4 leaves in the field hold buffer is stored by step 6, or behind it by step 5
(R77, R214). -/
def wholeStep (start : State) (k : Nat) (s : State) : State :=
  let t := bindStep start k s
  keepFwords s <|
    if k = 4 then flushFour (t.mram.waitq.length + 600) t
    else if k = 5 && !s.changeOpen then t
    else flushWrites t

/-- A step that the store does not finish: of its words a free number is stored, each whole; the burn of step 5 may not have ended (R63, R85). -/
def cutStep (start : State) (k : Nat) (s : State) : State :=
  let t := keepFwords s (if k = 4 then frogAll s
    else if k = 5 then s.draw fun v s => if v.getLsbD 0 then s else finishBurn s
    else bindStep start k s)
  t.draw fun v t => keepFwords t (storeSome (v.toNat % 1200) t)

/-- Steps 2 and 3 before anything is written, the field ignored from then on (R77, R79).  A purge stops where it stands (R238). -/
def bindFirst (s : State) : State :=
  (bindStep s 3 (bindStep s 2 ((purgePart s).modLife fun l => { l with state := .bindOff }))).modMram fun m => { m with defer := false }

/-- Steps 4 to k − 1 whole, and step k cut off when it is one of them. -/
def bindWrites (k : Nat) (s : State) : State :=
  let t := (List.range' 4 (min k 11 - 4)).foldl (fun t i => wholeStep s i t) s
  if k ≤ 10 then cutStep s (max k 4) t else t

/-- Bind-off up to step 11: all of it, or before cast-on step 11 only the words already accepted (R434).  k is the step that the store does not
finish, 11 when it finishes all. -/
def bindSteps (k : Nat) (s : State) : State :=
  if k ≤ 3 then bindStep s 2 s
  else if s.life.step.toNat < 11 then
    let t := dropWaiting (bindFirst s)
    if k ≤ 10 then t.draw fun v t => storeAllGo (v.toNat % 545) t else storeAll t
  else bindWrites k (bindFirst s)

/-- Step 11 with the store bleed (R81): every domain but AON stops, the charger stays off; what is not stored is lost. -/
def bleed (s : State) : State :=
  (survive true (loseUnstored s)).modPower fun p => { p with supply := .bleeding, charger := false, storeOk := false }

/-- A trigger that has passed its filter, and a filter under way, outlast a reset without power loss (R76, R88, R428). -/
def keepTrigger (old s : State) : State := s.modPower fun p => { p with trigger := old.power.trigger, ebFilter := old.power.ebFilter }

/-! ## Immediate reset without power loss (R233, R452) -/

def rstPairLost : Nat := 1
def rstSwatch : Nat := 2

/-- The steps of R452; `INT_RST_CAUSE` records why, and cast-on is to start again with AON retention kept. -/
def immediateReset (cause cls idx : Nat) (s : State) : State :=
  let s := stopRadio (closePort .b (closePort .a (safePair (purgePart s))))
  let s := dropWaiting (dropOps (frogAll s))
  let s := leaveStaged (abandonQueue (keepFwords s (storeAll (s.modMram fun m => { m with defer := false }))))
  let s := keepTrigger s (survive true (loseUnstored s))
  let s := s.modInt fun i =>
    { i with rstCause := BitVec.ofNat 4 cause, rstClass := BitVec.ofNat 8 cls, rstIdx := BitVec.ofNat 16 idx, rstV := true }
  (s.modLife fun l => { l with aonIntact := true }).modPower fun p => { p with recasting := true }

/-! ## Domains (R67, R68) -/

/-- Every domain but AON stops; arrays that are on store what they have accepted first. -/
def stopDomains (s : State) : State :=
  let drop (a : Arr) (s : State) : State :=
    if s.domOn (arrDom a) then s
    else
      let lost := ((s.mram.arr a).queue ++ s.mram.fhb).filter fun e => e.arr = a && decide (a = .A)
      loseWrites lost <|
        (s.modArr a fun q => { q with queue := [] }).modMram fun m => { m with fhb := m.fhb.filter fun e => !decide (e.arr = a) }
  keepTrigger s (survive true (loseUnstored (keepFwords s (storeAll (drop .B (drop .A (dropWaiting (safePair s))))))))

end Sys2Proof.Machine
end

