-- ==== Sys2Proof/Machine/Integrity.lean ====
section
/-! DEFINITION. The patrol scrubber, repairs, complement pairs, the swatch (R215, R219 to R226, R229 to R233, R242, R452, R454). -/

namespace Sys2Proof.Machine

/-! ## Complement pairs (R232, R233, Tables INT-9, INT-9a) -/

/-- Lane-wise larger of two running words, the second as Table SNS-4 lays it out. -/
def largerRun (w : LedgerWord) (b : Nat) : LedgerWord :=
  { txSym := max w.txSym (b % 2 ^ 32), txFr := max w.txFr (b / 2 ^ 32 % 2 ^ 24), rxFr := max w.rxFr (b / 2 ^ 56 % 2 ^ 24)
    writes := max w.writes (b / 2 ^ 80 % 2 ^ 24), energy := max w.energy (b / 2 ^ 104 % 2 ^ 24) }

def largerPeriod (w : PeriodWord) (b : Nat) : PeriodWord :=
  { period := max w.period (b % 2 ^ 32), next := max w.next (b / 2 ^ 32 % 2 ^ 32), hwm := max w.hwm (b / 2 ^ 64 % 2 ^ 32)
    chg := max w.chg (b / 2 ^ 96 % 2 ^ 32) }

/-- The larger of two heads is the one further on. -/
def largerHead (w : HeadWord) (b : Nat) : HeadWord :=
  if w.chidx.toNat < b % 2 ^ 24 then { w with pos := b / 2 ^ 24 % 2 ^ 14, chidx := BitVec.ofNat 24 b } else w

def largerWord {w : Nat} (x : BitVec w) (b : Nat) : BitVec w := if x.toNat < b % 2 ^ w then BitVec.ofNat w b else x

/-- A remap entry pair whose halves disagree, b being the row of the half that the table does not show: the tag of the spare row decides.  The row
that it names and one half names is remapped, else none is, and the spare row is free (R203, R215, Table INT-9). -/
def remapByTag (idx b : Nat) (s : State) : State :=
  let a : Arr := if idx < 48 then .A else .B
  let spare := idx % 48
  let cur := s.servedBy a spare
  let back (s : State) : State := match cur with
    | some row => unserveRow a row spare s
    | none => s
  let free (s : State) : State := s.modArr a fun q => { q with
    spares := (List.range 48).filter fun i => i = spare || q.spares.contains i }
  match s.tagRow a spare with
  | some row =>
    if cur = some row then s
    else if row = b && decide (b < 4608) then
      (serveRow a row spare (back s)).modArr a fun q => { q with spares := q.spares.filter fun i => !decide (i = spare) }
    else free (back s)
  | none => free (back s)

/-- The larger reading of a pair that names values, both halves written again (Table INT-9). -/
def useLarger (cls idx b : Nat) (s : State) : State :=
  match cls with
  | 3 => remapByTag idx b s
  | 5 => s.modKey (finOf 36 idx) fun k => { k with ctr := largerWord k.ctr b }
  | 7 => s.modMac fun m => { m with fcStored := upd m.fcStored (finOf 36 idx) fun x => largerWord x b }
  | 8 => s.modNb (finOf 64 (idx / 8)) fun n => { n with
      marks := n.marks.modify (idx % 8) fun m => { m with stored := largerWord m.stored b } }
  | 9 => s.modSns fun q => if idx < 8 then { q with runStored := upd q.runStored (finOf 8 idx) fun w => largerRun w b }
      else { q with pwStored := largerPeriod q.pwStored b }
  | 0xA =>
    if idx = 0 then s.modLog fun l => { l with seqStored := largerWord l.seqStored b }
    else s.modChan (finOf 8 (idx - 1)) fun c => { c with stored := largerHead c.stored b }
  | _ => s

/-- The granule is CLOSED to every owner, its slot SUSPENDED. -/
def closeGranule (g : Fin 64) (s : State) : State :=
  let o := s.mram.part[g].owner.toNat
  let s := s.modPart g fun e => { e with st := .closed }
  if h : o < 8 then s.modTen ⟨o, h⟩ fun t => if t.st = .owned then { t with st := .suspended } else t else s

/-- A key slot is destroyed with its KEY_LOST stitch; a seal so lost is handled as class 0x2. -/
def keyLost (k : Fin 36) (s : State) : State :=
  let s := pairWrite 4 k.val 0 (fun s => s.modKey k blankKey) s
  let s := raise .keyLost (keyChan k) [snap32 (keyName k), bitAt 0 (decide (32 ≤ k.val))] s
  if k.val < 32 && k.val % 4 = 3 then sealLost (keyChan k) s else s

/-- A limited-change record that does not read is a fault of its setting; ownership suspends its slot (R51). -/
def recordFault (idx : Nat) (s : State) : State :=
  let s := stitchFault (lcFault (idx / 8)) (limpFault (lcFault (idx / 8)) (orAll [at_ 0 (idx / 8), at_ 8 (idx % 8)]) s)
  if idx / 8 = 3 then sealLost (finOf 8 idx) s else s

/-- Change a pair's value and rewrite both its halves. -/
def rewritePair (d : PairDamage) (f : State → State) (s : State) : State := pairWrite d.cls d.idx 0 f s

/-- The Mismatch column of Table INT-9; b is what the array B half names. -/
def pairMismatch (d : PairDamage) (b : Nat) (s : State) : State :=
  match d.cls with
  | 1 => closeGranule (finOf 64 d.idx) s
  | 2 => sealLost (finOf 8 d.idx) s
  | 4 => keyLost (finOf 36 d.idx) s
  | 6 => recordFault d.idx s
  | 0xB => rewritePair d (fun s => s.modInt fun i => { i with pMap := i.pMap ||| BitVec.ofNat 64 b, pRows := 0 }) s
  | _ => rewritePair d (useLarger d.cls d.idx b) s

/-- Granules whose entry reads PURGING, as a map. -/
def State.purgingMap (s : State) : BitVec 64 :=
  orAll ((List.finRange 64).map fun g => bitAt g.val (decide (s.mram.part[g].st = .purging)))

/-- The Both lost column of Table INT-9 for the classes that do not reset. -/
def pairLost (d : PairDamage) (s : State) : State :=
  match d.cls with
  | 4 => keyLost (finOf 36 d.idx) s
  | 6 => recordFault d.idx s
  | 8 => clearDamage 8 d.idx (dropNeighbour (finOf 64 (d.idx / 8)) s)
  | 0xB => rewritePair d (fun s => s.modInt fun i => { i with pMap := s.purgingMap, pRows := 0 }) s
  | _ => s

/-- The classes whose loss is a reset (Table INT-9). -/
def lossResets (cls : Nat) : Bool := cls = 1 || cls = 2 || cls = 3 || cls = 5 || cls = 9 || cls = 0xA

/-- The pair's damage has been met. -/
def seePair (d : PairDamage) (s : State) : State :=
  s.modInt fun i => { i with damage := i.damage.map fun e => if e.cls = d.cls && e.idx = d.idx then { e with seen := true } else e }

/-- A read of a pair that does not pass its check, short of the resets (R232). -/
def pairAct (d : PairDamage) (s : State) : State :=
  let snaps := [snap32 d.cls, snap32 d.idx]
  match d.kind with
  | .oneHalf => raise .pairRepair 0 snaps (rewritePair d id (s.modInt fun i => { i with pairRep := satInc i.pairRep, lapPairs := i.lapPairs + 1 }))
  | .differ b => pairMismatch d b (raise .pairMismatch 0 snaps (seePair d (s.modInt fun i => { i with pairFail := satInc i.pairFail })))
  | .lost => pairLost d (raise .pairMismatch 0 snaps (seePair d (s.modInt fun i => { i with pairFail := satInc i.pairFail })))

/-- What follows the read writes: nothing is rewritten of a granule that closes, a seal, a record. -/
def pairWrites (d : PairDamage) : Bool := !(decide (d.kind ≠ .oneHalf) && (d.cls = 1 || d.cls = 2 || d.cls = 6))

/-- A read of a pair by the patrol: a lost pair of a resetting class is an immediate reset (R233).  While the field defers the patrol issues no write,
and leaves a pair that takes one for a later lap (R208). -/
def pairRead (d : PairDamage) (s : State) : State :=
  if d.seen then s
  else if d.kind = .lost && lossResets d.cls then
    immediateReset rstPairLost d.cls d.idx (s.modInt fun i => { i with pairFail := satInc i.pairFail })
  else if s.mram.defer && pairWrites d then s
  else pairAct d s

/-! ## The patrol (R222 to R226) -/

/-- Remapped rows of an array, by spare row: the spare rows in use. -/
def State.usedSpares (s : State) (a : Arr) : List RemapEntry :=
  (List.range 48).filterMap fun i => s.mram.remaps.find? fun e => e.arr = a && e.spare = i

/-- Rows of a lap: 4,608, and a position for each spare row in use of the array that has more of them (log entry 30). -/
def State.lapRows (s : State) : Nat := 4608 + max (s.usedSpares .A).length (s.usedSpares .B).length

/-- The row of an array that the patrol reads at a position: a remapped row is read at its spare row's position. -/
def State.rowAt (s : State) (a : Arr) (pos : Nat) : Option Nat :=
  if pos < 4608 then (if (s.usedSpares a).any fun e => e.row = pos then none else some pos)
  else ((s.usedSpares a)[pos - 4608]?).map (·.row)

/-- A write of the word is accepted and not yet stored. -/
def State.pendingIdx (s : State) (a : Arr) (idx : Nat) : Bool :=
  ((s.mram.arr a).queue ++ s.mram.fhb).any fun e => e.arr = a && targetIdx e.tgt = idx

/-- An uncorrectable find: counted, captured, stitched (R223). -/
def scrubUnc (a : Arr) (idx : Nat) (c : UncCause) (s : State) : State :=
  let s := noteUnc (wordKey a idx) c (s.modInt fun i => { i with lapUe := i.lapUe + 1 })
  raise .scrubUnc 0 [match a with | .A => 0 | .B => 1, snap32 idx, c.code.setWidth 32] s

/-- A corrected find: counted, a repair queued. -/
def scrubCe (k : Nat) (s : State) : State :=
  queueRepair k (s.modInt fun i => { i with ceScrub := satInc i.ceScrub, lapCe := i.lapCe + 1 })

/-- A word of the system area that does not read clean: its array word index, and what a repair of it writes, nothing for one that reads
uncorrectable. -/
structure SysFind where
  idx  : Nat
  item : Option SysItem
  deriving DecidableEq, Repr

/-- What the patrol finds at a word kept as a copy of its value. -/
def findOf {α : Type} (idx : Nat) (item : α → SysItem) : Copy α → List SysFind
  | .bad => [{ idx := idx, item := none }]
  | .corr v => [{ idx := idx, item := some (item v) }]
  | _ => []

/-- Ring and lane contexts, the clean-stop word, the emergency order number and sender-cache entries of an array that do not read clean. -/
def State.sysFinds (s : State) (a : Arr) : List SysFind :=
  let onlyA : List SysFind := if a = .A then
      ((List.finRange 512).flatMap fun r => findOf (132096 + r.val) (SysItem.ring r) s.eng.stored[r]) ++
        findOf emergIdx SysItem.emerg s.eva.emergStored ++
        (s.mac.senders.flatMap fun e => findOf (senderIdx e.no) (SysItem.sender e.no) e.cell)
    else []
  let lanes := s.skn.stored.flatMap fun x => findOf (132640 + x.1 % 13000) (SysItem.lane x.1) (match a with | .A => x.2.1 | .B => x.2.2)
  onlyA ++ lanes ++ findOf 132625 SysItem.stopWords (match a with | .A => s.stopA | .B => s.stopB)

/-- Row 4,607 holds what the swatch last wrote into it, from which the patrol takes no finding (R229, Table LIF-9; log entry 194). -/
def swatchRow : Nat := 4607

/-- The patrol's read of one word (R223): words of a PURGING granule, and words with an accepted write, are skipped. -/
def patrolWord (a : Arr) (idx : Nat) (s : State) : State :=
  let k := wordKey a idx
  let purging : Bool := match keyGran k with
    | some g => decide (s.mram.part[g].st = .purging)
    | none => false
  if purging || s.pendingIdx a idx || idx / 32 = swatchRow then s
  else match readRaw (s.stored k) with
    | .data _ true => scrubCe k s
    | .blank true => scrubCe k s
    | .unc c => scrubUnc a idx c s
    | _ => s

/-- The patrol's read of a copy: corrected, or uncorrectable, of which cause is free (R202, R223). -/
def patrolCopy (a : Arr) (f : SysFind) (s : State) : State :=
  if s.pendingIdx a f.idx then s
  else match f.item with
    | some _ => scrubCe (wordKey a f.idx) s
    | none => s.draw fun v s => scrubUnc a f.idx (if v.getLsbD 0 then .check else .indeterminate) s

/-- The patrol's read of one row of an array: its words, then the copies kept there. -/
def patrolHalf (a : Arr) (pos : Nat) (s : State) : State :=
  match s.rowAt a pos with
  | none => s
  | some r =>
    let s := State.each (List.range 32) (fun i s => patrolWord a (32 * r + i) s) s
    State.each ((s.sysFinds a).filter fun f => f.idx / 32 = r) (patrolCopy a) s

/-- The pairs whose halves lie in a row, without those with a write accepted and not yet stored (R223). -/
def State.pairsAt (s : State) (r : Nat) : List PairDamage :=
  s.int.damage.filter fun d => pairIdx d.cls d.idx / 32 = r && !s.pendingIdx .A (pairIdx d.cls d.idx) && !s.pendingIdx .B (pairIdx d.cls d.idx)

/-- The end of a lap; after a priority lap the ordinary patrol goes on where it stood (R225, R226; log entry 195). -/
def lapEnd (s : State) : State :=
  let prio := s.int.prio
  let s := s.modInt fun i => { i with laps := i.laps + 1, pos := if prio then i.resume else 0, resume := 0 }
  let s := if prio || s.int.laps.toNat % 1024 = 0 then sysPlain lapsIdx 0 (s.modInt fun i => { i with lapsStored := i.laps }) else s
  let i := s.int
  let s := s.modInt fun i => { i with prio := false, lapRows := 0, lapCe := 0, lapUe := 0, lapPairs := 0 }
  if prio then raise .scrubLap 0 [i.reason.setWidth 32, snap32 i.lapCe, snap32 i.lapUe, snap32 i.lapPairs, i.laps, snap32 i.lapRows] s else s

/-- The patrol is on: EN, or a priority lap (R224, R225). -/
def State.patrolOn (s : State) : Bool := flag s.int.ctl 0 || s.int.prio

/-- Both arrays and ENG are on, and no swatch holds an array: the rows of both are read in parallel (R222, R231). -/
def State.patrolReady (s : State) : Bool := s.domOn 2 && s.domOn 3 && s.domOn 4 && !s.int.swRun

/-- The next row of both arrays (R222): its words, its pairs, then the lap's end.  A pair that is lost may have reset the module. -/
def patrolNext (s : State) : State :=
  let pos := s.int.pos
  let s := patrolHalf .B pos (patrolHalf .A pos (s.modInt fun i => { i with lapRows := i.lapRows + 1 }))
  let s := (s.pairsAt pos).foldl (fun s d => if s.power.recasting then s else pairRead d s) s
  if s.power.recasting then s
  else if s.lapRows ≤ pos + 1 then lapEnd s
  else s.modInt fun i => { i with pos := pos + 1 }

/-- The next row, one of those that a scrub wake still has to read. -/
def patrolRow (s : State) : State :=
  if s.running && s.patrolOn && s.patrolReady then patrolNext (s.modInt fun i => { i with batch := i.batch - 1 }) else s

def execPatrolRow (s : State) : Host.Outcome State Fault Refusal := .next (patrolRow s)

/-- Rows of a batch. -/
def State.batchRows (s : State) : Nat := 16 * 2 ^ field s.int.ctl 5 4

/-- A scrub wake (R224): a wake as any, with its TCXO check and its calibration window, for ENG and both arrays; the rows of one batch are read
before the module may sleep again. -/
def scrubWake (s : State) : State :=
  if s.power.asleep && s.patrolOn then wakeUp (s.modInt fun i => { i with batch := s.batchRows }) else s

def execScrubWake (s : State) : Host.Outcome State Fault Refusal := .next (scrubWake s)

/-! ## Repairs (R221) -/

/-- The rewrite of a word as it reads: a corrected blank word stays blank, a word kept as a copy of its value is rewritten as that. -/
def repairWrite (s : State) (k : Nat) : Option WEntry :=
  match (s.sysFinds (keyArr k)).find? fun f => f.idx = keyIdx k with
  | some f => f.item.map fun i => sysHalf i (keyArr k) 0 0
  | none => match readRaw (s.stored k) with
    | .data d _ => some (mkWrite k d 0 .integrity)
    | .blank _ => some { mkWrite k 0 0 .integrity with tgt := .word k 0 true }
    | .unc _ => none

/-- The oldest queued repair is issued; none during field deferral, nor with the array off. -/
def repair (s : State) : State :=
  match s.int.repairs with
  | [] => s
  | k :: rest =>
    if s.mram.defer || !s.domOn (arrDom (keyArr k)) then s
    else issue (repairWrite s k).toList (s.modInt fun i => { i with repairs := rest })

def execRepair (s : State) : Host.Outcome State Fault Refusal := .next (repair s)

/-! ## The swatch (R229, R231, Table INT-7) -/

/-- Data of a pattern word: 0x5555 and so on, and 0xAAAA and so on. -/
def swatchFives : Word128 := 0x55555555555555555555555555555555
def swatchTens : Word128 := 0xAAAAAAAAAAAAAAAAAAAAAAAAAAAAAAAA

/-- A word with these bits flipped. -/
def flipped (r : Raw147) (bits : List Nat) : Raw147 := bits.foldl (fun r i => r ^^^ bitAt i true) r

/-- A word of these state bits, with its check bits. -/
def stateWord (st : Nat) : Raw147 := encode130 (at_ 128 st)

/-- The raw words that group 6 writes into row 4,607, one after another (log entry 194). -/
def swatchRaws : List Raw147 :=
  [encodeData swatchFives, encodeData swatchTens, flipped (encodeData swatchFives) [3, 140], flipped (encodeData swatchFives) [3, 70, 140]]

/-- The raw words of a group of Table INT-7, in order. -/
def swatchWords : Nat → List Raw147
  | 1 => [0, BitVec.allOnes 128, swatchFives, swatchTens].map encodeData
  | 2 => (List.range 147).map fun i => flipped (encodeData swatchFives) [i]
  | 3 => (List.range 73).map fun i => flipped (encodeData swatchFives) [i, 146 - i]
  | 4 => (List.range 49).map fun i => flipped (encodeData swatchFives) [i, i + 49, i + 98]
  | 5 => [blankRaw, stateWord 0, stateWord 3]
  | _ => swatchRaws

/-- What the decoder is to find at the pattern i of a group. -/
def swatchExpect (g i : Nat) : WordRead :=
  match g with
  | 1 => .data ([0, BitVec.allOnes 128, swatchFives, swatchTens].getD i 0) false
  | 2 => .data swatchFives true
  | 3 => .data swatchFives true
  | 4 => .unc .check
  | 5 => if i = 0 then .blank false else .unc .indeterminate
  | _ => if i = 0 then .data swatchFives false else if i = 1 then .data swatchTens false else if i = 2 then .data swatchFives true else .unc .check

/-- The first pattern that the module's own checker does not pass. -/
def swatchLogic : Option (Nat × Nat) :=
  [1, 2, 3, 4, 5, 6].findSome? fun g => (((swatchWords g).zipIdx).find? fun x => readRaw x.1 ≠ swatchExpect g x.2).map fun x => (g, x.2)

/-- The outcome of a swatch: a pattern that the hardware at hand fails, else one that the checker as the model has it fails. -/
def swatchOutcome (hw : Option SwatchFail) (unit : Nat) : Option SwatchFail :=
  match hw with
  | some f => some f
  | none => swatchLogic.map fun x => { unit := BitVec.ofNat 2 unit, group := BitVec.ofNat 3 x.1, index := BitVec.ofNat 8 x.2 }

/-- Group 6 in row 4,607 of an array: the words written before the swatch ends, each counted as stored (R200, R205, R229). -/
def swatchWrites (a : Arr) (f : Option SwatchFail) (s : State) : State :=
  let n : Nat := match f with
    | none => 4
    | some f => if f.group = 6 then min 4 (f.index.toNat + 1) else 0
  State.each ((swatchRaws.take n).zipIdx) (fun x s =>
    sampleRow a swatchRow (State.chargeWord 0 (setStored (wordKey a (32 * swatchRow + x.2)) x.1 s))) s

/-! ## The swatch rerun (R231) -/

/-- A rerun on the array of `SWATCH_CTL.ARRAY`, whose traffic waits until it completes. -/
def swatchStart (s : State) : State := if s.int.swRun then s else s.modInt fun i => { i with swTest := i.swArr, swRun := true }

/-- `SWATCH_CTL` written with GO: ARRAY is held, and a rerun starts unless one runs (R12). -/
def swatchGo (a : Arr) (s : State) : State := swatchStart (s.modInt fun i => { i with swArr := a })

def execSwatchGo (p : Port) (arr : Arr) (s : State) : Host.Outcome State Fault Refusal := .next (atSlot0 p 0xE20 (swatchGo arr) s)

/-- Units of `SWATCH_STAT.UNIT` that a rerun on an array tests: the encoder, and that array's decoder (R231). -/
def swatchUnit : Arr → Nat
  | .A => 1
  | .B => 2

/-- The rerun completes; a failure is recorded and resets the module at once. -/
def swatchDone (result : Option SwatchFail) (s : State) : State :=
  if !s.int.swRun then s
  else
    let out := swatchOutcome result (swatchUnit s.int.swTest)
    let s := swatchWrites s.int.swTest out s
    match out with
    | none => s.modInt fun i => { i with swRun := false, swRes := 0 }
    | some f => immediateReset rstSwatch 0 0 (s.modInt fun i => { i with swRun := false, swRes := 1, swFail := f })

def execSwatchDone (result : Option SwatchFail) (s : State) : Host.Outcome State Fault Refusal := .next (swatchDone result s)

end Sys2Proof.Machine
end

