-- ==== Sys2Proof/Machine/CastOn.lean ====
section
/-! DEFINITION. Cast-on: its twelve steps and what they restore (R418 to R421, R426, R427, R434 to R437, R455; R51, R87, R158, R182, R196,
R203, R225, R229, R232, R237, R300, R301, R364, R372, R377, R380, R387, R396). -/

namespace Sys2Proof.Machine

/-! ## Steps 6 and 7: pairs, seals, settings, LAST_STOP -/

/-- The limited-change settings with their targets. -/
def lcSettings : List (Nat × Fin 8) := [(1, 0), (2, 0)] ++ slots.map (fun n => (3, n)) ++ slots.map (fun n => (4, n)) ++ [(5, 0)]

/-- A pair met at cast-on; a record's fault is reported at step 7. -/
def castPair (d : PairDamage) (s : State) : State :=
  if d.seen then s
  else if d.cls = 6 && d.kind ≠ .oneHalf then
    raise .pairMismatch 0 [snap32 6, snap32 d.idx] (seePair d (s.modInt fun i => { i with pairFail := satInc i.pairFail }))
  else pairAct d s

/-- The damaged pairs in the order of their classes (log entry 170). -/
def Integ.byClass (i : Integ) : List PairDamage := (List.range 12).flatMap fun c => i.damage.filter fun d => d.cls = c

/-- The first lost pair of a class whose loss is a reset: at cast-on it is SYS_TABLE (R233, R436). -/
def State.lostTable (s : State) : Option PairDamage := s.int.byClass.find? fun d => d.kind = .lost && lossResets d.cls

/-- One setting against its tallies (R51): a lost tally is reported and the record brought to the count, a difference is the setting's fault.  The
count that the channels' audit records share is looked at once, with channel 0 (log entry 169). -/
def reconcileOne (k : Nat) (t : Fin 8) (s : State) : State :=
  let c := s.tallies k t.val
  if s.lcAgrees k t || (k = 4 && t ≠ 0 && !s.damaged 6 (lcIndex k t)) then s
  else if c = s.lcCount k t + 1 && !s.damaged 6 (lcIndex k t) then
    raise .tallyOrphan 0 [snap32 k, snap32 t.val, snap32 c] <|
      pairWrite 6 (lcIndex k t) 0 (modRecordAt (lcIndex k t) fun r => { r with count := c }) s
  else
    let s := captureFault (lcFault k) (orAll [at_ 0 k, at_ 8 t.val]) s
    if k = 3 then sealLost t s else s

def reconcile (s : State) : State := lcSettings.foldl (fun s x => reconcileOne x.1 x.2 s) s

/-- A clean-stop word reads CLEAN. -/
def stopClean : Copy StopWord → Bool
  | .good (.clean _) => true
  | .corr (.clean _) => true
  | _ => false

/-- `PWR_STAT.LAST_STOP` (R419). -/
def State.lastStopNow (s : State) : BitVec 2 :=
  if s.life.aonIntact then 0b11
  else if s.stopA = .blank && s.stopB = .blank then 0b00
  else if stopClean s.stopA && stopClean s.stopB then 0b01
  else 0b10

/-- Every rule keyed on LAST_STOP 0b10 applies (R420). -/
def State.uncleanNow (s : State) : Bool :=
  s.lastStopNow = 0b10 || (s.lastStopNow = 0b11 && !(stopClean s.stopA && stopClean s.stopB))

/-- The clean-stop words and CASTON. -/
def countCaston (s : State) : State :=
  let ls := s.lastStopNow
  let u := s.uncleanNow
  (sysPlain castonIdx 0 (s.modLife fun l => { l with caston := l.caston + 1, unclean := u })).modPower fun p => { p with lastStop := ls }

/-! ## Step 8: sequence number and heads (R387, R396) -/

/-- What the head scan finds at a trailer. -/
inductive Trailer where
  | data (t : Word128) (corrected : Bool)
  | blank
  | unc (k : Nat) (c : UncCause)
  | none
  deriving DecidableEq, Repr

def State.trailerAt (s : State) (n : Fin 8) (p : Nat) : Trailer :=
  match s.posKey n p 3 with
  | none => .none
  | some k => match s.readKey k with
    | .data t c => .data t c
    | .blank _ => .blank
    | .unc c => .unc k c

/-- The trailer carries the current epoch and the next channel index. -/
def belongs (epoch : BitVec 8) (chidx : BitVec 24) : Trailer → Bool
  | .data t _ => trailerEpoch t = epoch && trailerChidx t = chidx
  | _ => false

/-- The words of a position, when all four read as data. -/
def State.stitchAt (s : State) (n : Fin 8) (p : Nat) : Option (List Word128) :=
  let ws := (List.range 4).filterMap fun i => (s.posKey n p i).bind fun k => match s.readKey k with
    | .data d _ => some d
    | _ => none
  if ws.length = 4 then some ws else none

/-- A complete class C stitch: MARK 0xA5 and its CRC (R384). -/
def chained (ws : List Word128) : Bool :=
  let w (i : Nat) : Word128 := ws.getD i 0
  trailerMark (w 3) = markDoneByte && !trailerM (w 3) && field (w 3) 31 0 = (stitchCrc (w 0) (w 1) (w 2) (w 3)).toNat

/-- Where a scan stands: next position, its channel index, the last complete class C stitch found, words found uncorrectable. -/
structure HeadScan where
  pos   : Nat
  chidx : BitVec 24
  last  : Option (Nat × List Word128)
  unc   : List (Nat × UncCause)
  fixed : List Nat
  deriving DecidableEq, Repr

/-- The scan goes on past one position, taken as the last chained stitch when it is one. -/
def scanTake (s : State) (n : Fin 8) (h : HeadScan) : HeadScan :=
  let last := match s.stitchAt n h.pos with
    | some ws => if chained ws then some (h.pos, ws) else h.last
    | none => h.last
  let fixed := match s.trailerAt n h.pos, s.posKey n h.pos 3 with
    | .data _ true, some k => h.fixed ++ [k]
    | _, _ => h.fixed
  { h with pos := h.pos + 1, chidx := h.chidx + 1, last := last, fixed := fixed }

/-- Read forward from the stored head: the first position that does not belong ends the scan, but a single uncorrectable trailer is passed over
when the position after it belongs. -/
def scanHead (s : State) (n : Fin 8) (epoch : BitVec 8) : Nat → HeadScan → HeadScan
  | 0, h => h
  | f + 1, h =>
    let t := s.trailerAt n h.pos
    if belongs epoch h.chidx t then scanHead s n epoch f (scanTake s n h)
    else match t with
      | .unc k c =>
        let h := { h with unc := h.unc ++ [(k, c)] }
        if belongs epoch (h.chidx + 1) (s.trailerAt n (h.pos + 1)) then
          scanHead s n epoch f { h with pos := h.pos + 1, chidx := h.chidx + 1 }
        else h
      | _ => h

/-- The head of a channel as the scan finds it, with its chain tag (R396); UNCLEAN is set in the first stitch after an unclean stop (R384). -/
def restoreHead (n : Fin 8) (s : State) : State :=
  let h := s.log.chans[n].stored
  let cap := s.capacity n
  let r := scanHead s n h.epoch (cap - h.pos) { pos := h.pos, chidx := h.chidx, last := none, unc := [], fixed := [] }
  let tag := match r.last with
    | some (p, ws) => (some (s.tagOf ws), p)
    | none => (h.tag, h.tagPos)
  let u := s.life.unclean
  let s := r.unc.foldl (fun s x => noteUnc x.1 x.2 s) s
  let s := r.fixed.foldl (fun s k => noteCorrected k s) s
  s.modChan n fun c => { c with
    head := { h with pos := r.pos, chidx := r.chidx, tag := tag.1, tagPos := tag.2 }, since := r.pos - h.pos
    full := decide (cap ≠ 0 && cap ≤ r.pos), uncleanNext := u }

/-- The live sequence number restarts at the stored one after a loss of AON retention, and the stored one is moved on when it is reached. -/
def restoreSeq (s : State) : State :=
  let s := if s.life.restored then s else s.modLog fun l => { l with seq := l.seqStored }
  if s.log.seqStored.toNat ≤ s.log.seq.toNat then
    pairWrite 0xA 0 0 (fun s => s.modLog fun l => { l with seqStored := satAdd l.seq 256 }) s
  else s

/-- The stitches raised before take their capacity check now, in the order in which they were raised (R455). -/
def requeue (s : State) : State :=
  let q := s.log.queue
  q.foldl (fun s st => (admitStitch st s).1) (s.modLog fun l => { l with queue := [] })

/-! ## Step 9: what is restored -/

/-- A ring of this context: a submit ring with work left comes up HALTED and held, whether or not it is enabled, with its completed descriptors
still marked (R131, R158; log entry 179). -/
def ringOf (unclean : Bool) (v : RingCtx) : Ring :=
  let held := !v.cpl? && decide (v.cons ≠ v.prod)
  { ctx := v, dirty := false, halted := held, cause := if held then BitVec.ofNat 4 (if unclean then causeUnclean else causeRestart) else 0
    fetch := if held then v.cons else v.prod, fetched := [], held := held }

/-- A ring from its context word. -/
def ringFrom (unclean : Bool) (c : Copy RingCtx) : Ring :=
  match c with
  | .good v => ringOf unclean v
  | .corr v => ringOf unclean v
  | .bad => { Ring.reset with cause := BitVec.ofNat 4 causeUnc }
  | .blank => Ring.reset

/-- The read of a context word: a corrected one is repaired; one that does not read is counted, and RING_LOST goes to the owner's channel
(Table INT-2). -/
def ringRead (r : Fin 512) (s : State) : State :=
  let k := wordKey .A (132096 + r.val)
  match s.eng.stored[r] with
  | .corr _ => noteCorrected k s
  | .bad => s.draw fun v s => raise .ringLost (slotOfRing r) [snap32 (localRing r).val]
      (noteUnc k (if v.getLsbD 0 then .check else .indeterminate) s)
  | _ => s

/-- The context word reads neither clean nor blank. -/
def Copy.odd {α : Type} : Copy α → Bool
  | .corr _ => true
  | .bad => true
  | _ => false

def restoreRings (s : State) : State :=
  let u := s.life.unclean
  let s := State.each ((List.finRange 512).filter fun r => s.eng.stored[r].odd) ringRead s
  s.modEng fun e => { e with rings := e.stored.map (ringFrom u) }

/-- The lane that a copy of its pair holds; the checks of R181 run at its first load. -/
def laneFrom (st : Sparse (Copy LaneCtx × Copy LaneCtx)) (sk l : Nat) (c : LaneCtx) : LaneCtx :=
  let p := (lookup (8 * sk + l) st).getD (.blank, .blank)
  match p.1.val?, p.2.val? with
  | some a, _ => a
  | none, some b => b
  | none, none => c

/-- Each lane resumes from its last written pair; an unclean stop sets `SKN_CTL.UNCLEAN` (R182). -/
def restoreSkeins (s : State) : State :=
  let u := s.life.unclean
  s.modSkn fun k => { k with
    unclean := u, skeins := k.skeins.map fun x => (x.1, { lanes := x.2.lanes.zipIdx.map fun c => laneFrom k.stored x.1 c.2 c.1 }) }

/-- The mark of a stop without its clean-stop words: the stored one and an hour (R372). -/
def raisedHwm (stored now : Nat) : Nat := max (min (stored + 3600) (2 ^ 32 - 1)) now

/-- Ledger and site time (R372, R377): from the stored words after an unclean stop, site time from the mark after a loss of AON retention; the charge
counter that AON retention holds stays (R367). -/
def restoreLedger (s : State) : State :=
  let s := if s.life.unclean then
      s.modSns fun q => { q with
        run := q.runStored, unclean := true
        pw := { q.pwStored with chg := if s.life.restored then q.pw.chg else q.pwStored.chg, hwm := raisedHwm q.pwStored.hwm (if s.life.restored then q.time else 0) } }
    else s
  if s.life.restored then s else s.modSns fun q => { q with time := q.pw.hwm, frac := 0, holdSec := 0, trusted := false, source := 0, ageMs := 0 }

/-- The purge as R237 finds it: a BLANK seal beside IN_USE granules starts one; a PURGING slot with nothing left to overwrite is finished, its
owner from the value record. -/
def restorePurge (n : Fin 8) (s : State) : State :=
  let s :=
    if (s.slotGranules n).any (fun g => decide (s.mram.part[g].st = .inUse)) && decide (s.keys[keyNo n 3].st = .blank) then
      startPurge n (s.modTen n fun t => { t with st := .purging })
    else s
  if s.tenants[n].st = .purging then
    let o := ownerOf s.lc.owner[n].value
    let s := s.modTen n fun t => { t with owner := o.1, role := (roleOf o.2).getD .none }
    if (s.slotGranules n).any fun g => s.int.pMap.getLsbD g.val then s else finishPurge n s
  else s

/-- The emergency order mark: one that does not read leaves the number at 0, with EMERG_MARK_LOST (R361). -/
def restoreEmerg (s : State) : State :=
  let k := wordKey .A emergIdx
  let set (v : Word32) (s : State) : State := s.modEva fun e => { e with emergNo := v }
  match s.eva.emergStored with
  | .good v => set v s
  | .corr v => noteCorrected k (set v s)
  | .blank => set 0 s
  | .bad => s.draw fun v s => raise .emergMarkLost 0 [] (noteUnc k (if v.getLsbD 0 then .check else .indeterminate) (set 0 s))

def restoreAll (s : State) : State :=
  State.each slots restorePurge (restoreEmerg (restoreLedger (restoreSkeins (restoreRings s))))

/-! ## Steps 10 to 12 -/

/-- A sensor that fails is FIELD_FAIL, and the magnitude reads as saturated from the first sample on (R380). -/
def castField (ok : Bool) (s : State) : State :=
  if ok then s
  else
    let s := (captureFault faultField 0 s).modSns fun q => { q with mag := 0xFFFF }
    pathSample 0xFFFF s.sns.fx.toInt s.sns.fy.toInt s.sns.fz.toInt s

/-- `SWATCH_STAT` and `INT_RST_CAUSE` as registers (Tables INT-8, INT-10). -/
def swatchStat (i : Integ) : Word32 :=
  orAll [at_ 0 i.swRes.toNat, at_ 4 i.swFail.unit.toNat, at_ 8 i.swFail.group.toNat, at_ 16 i.swFail.index.toNat]

def rstCauseReg (i : Integ) : Word32 :=
  orAll [at_ 0 i.rstCause.toNat, at_ 4 i.rstClass.toNat, at_ 12 i.rstIdx.toNat, bitAt 31 i.rstV]

/-- Snapshots of the CAST_ON stitch (Table LIF-6). -/
def castSlots (e : CastOnEnv) (s : State) : List Word32 :=
  [orAll [at_ 0 s.power.lastStop.toNat, bitAt 2 s.phy.strap, bitAt 3 s.phy.active, at_ 4 s.fuses.variant.toNat, at_ 16 s.life.mask.toNat],
   s.life.caston.setWidth 32, rstCauseReg s.int, swatchStat s.int, snap32 s.sns.pw.hwm, snap32 (satNat 16 e.us),
   orAll [at_ 0 (e.vbat % 65536), at_ 16 e.temp.toNat], s.sns.mag.setWidth 32]

/-- A FAULT stitch for each LIMP fault, FAULT_CLEAR for each fault that has cleared; each is offered before the next is raised. -/
def faultStitches (old : BitVec 16) (s : State) : State :=
  State.each (List.range 16) (fun c s =>
    if s.faulted c then offerAll 2 (stitchFault c s)
    else if old.getLsbD c then offerAll 2 (raise .faultClear 0 [snap32 c] s)
    else s) s

/-- Step 11: clean-stop words RUNNING, the CAST_ON stitch, the fault stitches. -/
def castStitches (e : CastOnEnv) (old : BitVec 16) (s : State) : State :=
  let s := issueTwin (.stopWords (.running s.life.caston)) 0 .integrity s
  faultStitches old (offerAll 9 (raise .castOn 0 (castSlots e s) (offerAll 9 s)))

/-- A change stitch that is still owed is written late, and marked so; for a channel that has returned to class C it is CLASS_CHANGE (R51,
R385). -/
def lateStitch (k : Nat) (t : Fin 8) (s : State) : State :=
  let r := s.lcRecord k t
  if r.stitched || !s.lcAgrees k t then s
  else if k = 4 && r.value = 0 then
    (raiseWith Ev.classChange.code 0 [snap32 t.val, 0] (fun st => { st with lc := some (lcIndex 4 t), flags := st.flags ||| flagLate }) s).1
  else (lcStitch k t (if k ≤ 3 then r.old else 0) (if k ≤ 3 then r.value else 0) flagLate s).1

/-- A spare row out of service that holds something is rewritten blank, 33 words charged to slot 0 (R203; log entry 193). -/
def blankSpare (a : Arr) (j : Nat) (s : State) : State :=
  let of (k : Nat) : Bool := spareKey a j 0 ≤ k && decide (k ≤ spareKey a j 32)
  if s.mram.words.any fun w => of w.1 then
    sampleWords a ((s.tagRow a j).getD 0) 33 (chargeWords 33 0 (s.modMram fun m => { m with words := m.words.filter fun w => !of w.1 }))
  else s

/-- The spare-row clean-up of step 12. -/
def blankSpares (a : Arr) (s : State) : State := State.each (s.mram.arr a).spares (blankSpare a) s

/-- Step 12: the state, READY with what waits for it, and the work in the background. -/
def castReady (e : CastOnEnv) (s : State) : State :=
  let s := s.modLife fun l => { l with
    state := if l.mask = 0 then .run else .limp, step := 12, castonUs := BitVec.ofNat 16 (satNat 16 e.us), retry := false, domFailed := false }
  let s := startLap 1 (resumeHold (openWaiting s))
  blankSpares .B (blankSpares .A (lcSettings.foldl (fun s x => lateStitch x.1 x.2 s) s))

/-! ## The sequence -/

def setStep (k : Nat) (s : State) : State := s.modLife fun l => { l with step := BitVec.ofNat 4 k }

/-- A fault that ends a cast-on in HALT; the faults active before stay active. -/
def castHalt (code : Nat) (detail : Word32) (old : BitVec 16) (s : State) : State :=
  haltFault code detail (s.modLife fun l => { l with mask := old })

/-- Steps 7 to 12. -/
def castTail (e : CastOnEnv) (old : BitVec 16) (s : State) : State :=
  let s := setStep 7 (countCaston (reconcile s))
  let s := setStep 8 (State.each slots restoreHead (restoreSeq s))
  let s := restoreAll (requeue s)
  let s := setStep 9 (s.modLife fun l => { l with restored := true, aonIntact := true })
  let s := setStep 10 (castField e.fieldOk (settleCompat (enterRegion s)))
  castReady e (setStep 11 (castStitches e old s))

/-- A spare row is free at cast-on: no remap entry pair names it, and no row that its tag names has one (R203). -/
def State.spareFree (s : State) (a : Arr) (j : Nat) : Bool :=
  (s.servedBy a j).isNone && match s.tagRow a j with
    | some row => (s.spareOf a row).isNone
    | none => true

/-- Steps 3 to 6 and the rest: fuses and strap, arrays, swatch, pairs and seals. -/
def castBody (e : CastOnEnv) (s : State) : State :=
  let old := s.life.mask
  let s := s.modLife fun l => { l with state := .castOn, mask := 0 }
  let s := s.modPhy fun p => { p with strap := e.strap }
  let s := if s.fuses.variant = 1 || s.fuses.variant = 2 then s else captureFault faultVariant 0 s
  let free (a : Arr) (s : State) : State := s.modArr a fun q => { q with spares := (List.range 48).filter (s.spareFree a) }
  let s := setStep 4 (free .B (free .A s))
  let out := swatchOutcome e.swatch 0
  let s := swatchWrites .B out (swatchWrites .A out s)
  match out with
  | some f => castHalt faultSwatch 0 old (s.modInt fun i => { i with swRes := 1, swFail := f })
  | none =>
    let s := setStep 5 (s.modInt fun i => { i with swRes := 0 })
    match s.lostTable with
    | some d => State.each slots restoreHead (castHalt faultTable (orAll [at_ 0 d.cls, at_ 8 d.idx]) old
        (setStep 6 (s.modInt fun i => { i with pairFail := satInc i.pairFail })))
    | none =>
      let s := State.each slots checkSeal (s.int.byClass.foldl (fun s d => castPair d s) s)
      castTail e old (setStep 6 s)

/-- A failed domain start: nothing but AON runs, the root neither; one repeat after 60 s, a second failure latches (R64, R426). -/
def domainFault (i : Fin 8) (s : State) : State :=
  let again := s.life.domFailed
  let s := s.modPower fun p => { p with domOn := 1, domWant := 0, domStart := none, tcxoOk := false, admitted := [], waiting := [] }
  (haltFault faultDomain (bitAt i.val true) s).modLife fun l => { l with retry := !again, domFailed := true }

/-- Step 2 with VIO there: the domains start, and nothing beyond AON runs when one of them fails. -/
def castDomains (e : CastOnEnv) (s : State) : State :=
  let s := s.modPower fun p => { p with waitVio := none }
  match e.domainFail with
  | some i =>
    if 1 ≤ i.val && i.val ≤ 4 then domainFault i s else castUp e s
  | none => castUp e s
where
  /-- PORT, ENG, MEMA and MEMB are on; ENG is admitted, port B drives PB_RDY, each port has a fresh nonce. -/
  castUp (e : CastOnEnv) (s : State) : State :=
    let s := s.modPort .b fun q => { q with rdy := true }
    let s := requestUnit .eng 24 (s.modPower fun p => { p with domOn := 0x1F, domWant := 0x1F })
    let s := s.draw fun v s => s.modLog fun l => { l with audNonce := v.setWidth 32 }
    castBody e (setStep 2 (newNonce .b (newNonce .a s)))

/-- Cast-on from step 1; PORT waits for VIO at step 2 (R82, R87). -/
def castSequence (e : CastOnEnv) (s : State) : State :=
  let s := s.modPower fun p => { p.follow e.vbat with begun := true, recasting := false, asleep := false }
  let s := s.modLife fun l => { l with state := if l.state = .halt then .halt else .castOn, step := 0, retry := false }
  if !e.tcxoOk then (haltFault faultTcxo 0 (s.modPower fun p => { p with tcxoOk := false })).modLife fun l => { l with retry := true }
  else
    let s := setStep 1 (s.modPower fun p => { p with tcxoOk := true })
    if s.power.vioOk then castDomains e s else s.modPower fun p => { p with waitVio := some e }

/-- Cast-on may begin: the store is charged, no bleed runs, EARLY_BREAK is deasserted, and it has not begun yet; or the module restarts
without power loss (R74, R428, R452). -/
def State.castDue (s : State) : Bool :=
  (s.power.recasting && s.power.trigger.isNone) ||
    (s.power.supply = .holding && !s.power.eb && !s.power.begun && s.power.trigger.isNone && decide (s.life.state ≠ .halt))

/-- The revision this manual holds for (R16). -/
def State.revOk (s : State) : Bool := s.fuses.rev = 0x4341

def castOn (e : CastOnEnv) (s : State) : State := if s.castDue then castSequence e s else s

/-- A module of another revision lies outside the manual (R16). -/
def execCastOn (env : CastOnEnv) (s : State) : Host.Outcome State Fault Refusal :=
  if s.revOk then .next (castOn env s) else .fault .outsideManual

/-- The repeat of cast-on 60 s after TCXO_FAIL or a first DOMAIN_FAIL (R426). -/
def haltRetry (e : CastOnEnv) (s : State) : State := if s.life.retry then castSequence e s else s

def execHaltRetry (env : CastOnEnv) (s : State) : Host.Outcome State Fault Refusal :=
  if s.revOk then .next (haltRetry env s) else .fault .outsideManual

end Sys2Proof.Machine
end

