-- ==== Sys2Proof/Machine/PowerOps.lean ====
section
/-! DEFINITION. Supply, insertion and removal, clocks, wakes and sleep, domains, admission, RECAST (R59 to R90, R105, R424, R428, R429, R434,
R456). -/

namespace Sys2Proof.Machine

/-! ## Insertion (R61, R74, R86) -/

/-- VBAT reaches 1.9 V: the AON power-on reset is released and the store charges. -/
def powerOnReset (vbat : Nat) (s : State) : State :=
  if s.power.supply = .por && 1900 ≤ vbat then s.modPower fun p => { p with supply := .charging, vbat := vbat, charger := true } else s

def execPowerOnReset (vbat : Nat) (s : State) : Host.Outcome State Fault Refusal := .next (powerOnReset vbat s)

/-- The store is charged and the charger holds it at VBAT − D, D free within 120 to 150 mV (R61). -/
def storeCharged (s : State) : State :=
  if s.power.supply = .charging then
    s.draw fun v s => s.modPower fun p =>
      { p with supply := .holding, storeOk := true, storeMv := p.vbat - (120 + v.toNat % 31) }
  else s

def execStoreCharged (s : State) : Host.Outcome State Fault Refusal := .next (storeCharged s)

/-- The supply has come and cast-on has not begun. -/
def State.preCast (s : State) : Bool := (s.power.supply = .charging || s.power.supply = .holding) && !s.power.begun && !s.power.recasting

/-- STORE_FAIL: cast-on does not proceed past AON (R86). -/
def storeFail (s : State) : State := if s.preCast then haltFault faultStore 0 s else s

def execStoreFail (s : State) : Host.Outcome State Fault Refusal := .next (storeFail s)

/-! ## EARLY_BREAK, supply loss and bind-off (R59, R76 to R81, R84, R85, R88, R456) -/

/-- A trigger passes its filter; the first one stands (R88). -/
def takeTrigger (t : Trigger) (s : State) : State := s.modPower fun p => { p with trigger := some (p.trigger.getD t) }

/-- A change of EARLY_BREAK.  After cast-on has begun its assertion starts the 4 us filter, and a deassertion tells whether the pulse lasted that
long; before, it only bears on the count of R74, which CAST_ON carries. -/
def earlyBreak (asserted ge4us : Bool) (s : State) : State :=
  let s := noteBegun s
  let live := s.power.begun || s.power.recasting
  if asserted then s.modPower fun p => { p with eb := true, ebFilter := live }
  else
    let pulse := s.power.ebFilter
    let s := s.modPower fun p => { p with eb := false, ebFilter := false }
    if live && pulse && ge4us then takeTrigger .earlyBreak s else s

def execEarlyBreak (asserted ge4us : Bool) (s : State) : Host.Outcome State Fault Refusal := .next (earlyBreak asserted ge4us s)

/-- A bind-off is due: EARLY_BREAK passes its filter now, or a trigger has passed already. -/
def State.bindDue (s : State) : Bool := (s.power.begun || s.power.recasting) && (s.power.ebFilter || s.power.trigger.isSome)

/-- Bind-off with VBAT as measured at the trigger, from the hold-up store, up to the store bleed; k is the step the store does not finish, 11
when it finishes all.  During a RECAST steps 2 to 10 are done and only step 11 is left (R428). -/
def bindOff (vbat k : Nat) (s : State) : State :=
  if s.bindDue then
    if s.power.recasting then bleed s
    else
      let v := if s.power.trigger = some .supplyLoss then s.power.vbat else vbat
      bleed (bindSteps k ((takeTrigger .earlyBreak s).modPower fun p => if p.charger then p.follow v else { p with vbat := v }))
  else s

def execBindOff (vbat : Nat) (s : State) : Host.Outcome State Fault Refusal := .next (bindOff vbat 11 s)

/-- The store falls below 1.80 V in step k: that step is left unfinished, no word half-written (R63, R85). -/
def execStoreExhausted (step : Fin 12) (s : State) : Host.Outcome State Fault Refusal := .next (bindOff s.power.vbat step.val s)

/-- VBAT falls 100 mV below the store: the charger opens and bind-off is triggered; before cast-on has begun the store bleed runs (R456). -/
def supplyLoss (vbat : Nat) (s : State) : State :=
  if s.power.begun || s.power.recasting then
    let s := noteBegun s
    let first := s.power.trigger.isNone
    (takeTrigger .supplyLoss s).modPower fun p => { p with charger := false, vbat := if first then vbat else p.vbat }
  else if s.preCast then
    s.modPower fun p => { p with supply := .bleeding, charger := false, storeOk := false, vbat := vbat }
  else s

def execSupplyLoss (vbat : Nat) (s : State) : Host.Outcome State Fault Refusal := .next (supplyLoss vbat s)

/-- The store is below 0.3 V: AON retention is lost, and the charger may run once VBAT is there (R81). -/
def storeBleedDone (s : State) : State :=
  if s.power.supply = .bleeding then
    (survive false s).modPower fun p => { p with supply := .por, charger := true, storeMv := 0, vbat := 0 }
  else s

def execStoreBleedDone (s : State) : Host.Outcome State Fault Refusal := .next (storeBleedDone s)

/-! ## VIO (R62, R82, R83) -/

/-- VIO falls: both ports close as under host reset, whether or not PORT is on, PORT stops and drives nothing, and the pair is released from its drive
(R62, R83, R100, R355). -/
def vioLoss (s : State) : State :=
  let s := s.modPower fun p => { p with
    vioOk := false, domStart := if p.domStart = some 1 then none else p.domStart, domOn := p.domOn &&& ~~~(2 : BitVec 8) }
  let s := resetPort .b (resetPort .a s)
  startDomain (if s.running then releaseVio s else s)

def execVioLoss (s : State) : Host.Outcome State Fault Refusal := .next (vioLoss s)

/-- VIO returns: a cast-on that waits at PORT goes on, else PORT restarts. -/
def vioReturn (s : State) : State :=
  let s := s.modPower fun p => { p with vioOk := true }
  match s.power.waitVio with
  | some e => castDomains e s
  | none => startDomain s

def execVioReturn (s : State) : Host.Outcome State Fault Refusal := .next (vioReturn s)

/-! ## Domains (R67, R68) -/

/-- Domain i reports power-good: ENG is admitted with it, port B shows PB_RDY, and an array that comes up awaits its first magnitude (R69, R105,
R206). -/
def powerGood (i : Fin 8) (s : State) : State :=
  let s := s.modPower fun p => { p with domOn := p.domOn ||| bitAt i.val true, domStart := none }
  let s := match i.val with
    | 1 => s.modPort .b fun q => { q with rdy := true }
    | 2 => requestUnit .eng 24 s
    | 3 => s.modArr .A fun q => { q with sampled := false }
    | 4 => s.modArr .B fun q => { q with sampled := false }
    | _ => s
  startDomain s

def domainPowerGood (s : State) : State :=
  match s.power.domStart with
  | none => s
  | some i => powerGood i s

def execDomainPowerGood (s : State) : Host.Outcome State Fault Refusal := .next (domainPowerGood s)

/-- No power-good within 200 us: every domain but AON stops, and the module is in HALT with one repeat (R68, R426). -/
def domainFail (s : State) : State :=
  match s.power.domStart with
  | none => s
  | some i => (domainFault i (stopDomains s)).modPower fun p => { p with begun := true }

def execDomainFail (s : State) : Host.Outcome State Fault Refusal := .next (domainFail s)

/-! ## Clocks, wakes and sleep (R64 to R66, R87, R105, R116, R236, R424, R429) -/

/-- A wake passes: the domains start, a calibration window opens, and failed wakes before it are stitched once (R65, R429). -/
def wakePassed (s : State) : State :=
  let fails := s.life.wakeFails
  let s := s.modPower fun p => { p with tcxoOk := true, tcxoCheck := false, calOpen := true }
  let s := if fails = 0 then s else raise .wakeFail 0 [snap32 fails.toNat] (s.modLife fun l => { l with wakeFails := 0 })
  startDomain s

/-- The TCXO check of a wake ends; a failed one leaves the module asleep as before (R87). -/
def tcxoCheck (ok : Bool) (s : State) : State :=
  if !s.power.tcxoCheck then s
  else if ok then wakePassed s
  else (s.modLife fun l => { l with wakeFails := satInc l.wakeFails }).modPower fun p =>
    { p with tcxoCheck := false, asleep := true, domWant := 0 }

def execTcxoCheck (ok : Bool) (s : State) : Host.Outcome State Fault Refusal := .next (tcxoCheck ok s)

/-- The calibration window ends (R65). -/
def calWindowEnd (period : BitVec 20) (s : State) : State :=
  if s.power.calOpen then s.modPower fun p => { p with rcPeriod := period, calAge := 0, calOpen := false } else s

def execCalWindowEnd (period : BitVec 20) (s : State) : Host.Outcome State Fault Refusal := .next (calWindowEnd period s)

/-- The guard of R66 in ns for a sleep of T us: T · ppm / 1000000 + 61 us, with ppm limited to 16 · GUARD_PPM. -/
def State.guardNs (s : State) (sleepUs : Nat) : Nat :=
  sleepUs * (field s.power.clkCtl 15 4 * min (1 + s.power.calAge.toNat) 16) / 1000 + 61000

/-- Stagger step in us (R67). -/
def State.staggerUs (s : State) : Nat := 40 * (field s.power.pwrCtl 3 0 + 1)

/-- The domains a wake for the module's own work starts: ENG, MEMA and MEMB, and the receiver where it tracks beacons or sniffs. -/
def State.wakeMask (s : State) : BitVec 8 := if s.mac.trackEn || s.mac.sniffEn then 0x7C else 0x1C

def countBits (x : BitVec 8) : Nat := ((List.range 8).filter fun i => x.getLsbD i).length

/-- The wake timer fires a guard, the TCXO start maximum and the starts of the domains before its target (R66).  The manual does not round: the model
cuts G off at whole nanoseconds and counts the lead in whole microseconds, rounded up (DESIGN CHOICE, log entry 197). -/
def wakeTimer (sleepUs : Nat) (s : State) : State :=
  if s.power.asleep then
    let g := s.guardNs sleepUs
    let mask := s.wakeMask
    let lead := (g + 999) / 1000 + 2000 + countBits mask * s.staggerUs
    s.modPower fun p => { p with guardNs := g, wakeLeadUs := lead, asleep := false, tcxoCheck := true, domWant := p.domWant ||| mask }
  else s

def execWakeTimer (sleepUs : Nat) (s : State) : Host.Outcome State Fault Refusal := .next (wakeTimer sleepUs s)

/-- A falling select while PORT is off: the module wakes, and the transaction is neither served nor counted (R105). -/
def selectWake (p : Port) (s : State) : State :=
  if s.domOn 1 || !s.power.vioOk || !s.running then s
  else
    let s := match p with
      | .a => s
      | .b => s.modPort .b fun q => { q with rdy := false }
    startDomain ((wakeUp s).modPower fun q => { q with domWant := q.domWant ||| 0x1E })

def execSelectWake (p : Port) (s : State) : Host.Outcome State Fault Refusal := .next (selectWake p s)

/-- Nothing is left for the write path, the engine, the evaluator and the recorder. -/
def State.storesIdle (s : State) : Bool :=
  s.mram.waitq.isEmpty && s.mram.fhb.isEmpty && s.mram.seqEmpty .A && s.mram.seqEmpty .B && s.mram.arrA.remap.isNone && s.mram.arrB.remap.isNone
    && s.eng.ops.isEmpty && s.eng.hold.isEmpty && s.chooseRing.isNone && s.eva.cur.isNone && s.log.queue.isEmpty && s.log.clrWait.isNone
    && slots.all fun n => s.log.chans[n].staged.isNone && s.log.chans[n].tagging.isNone

/-- Nothing is under way on the radio. -/
def State.radioQuiet (s : State) : Bool :=
  s.phy.txPhase = .idle && s.phy.tx.isNone && s.mac.backoff.isNone && s.mac.ackDue.isNone && s.mac.rxHold.isEmpty && !s.mac.window && !s.mac.listen

/-- Nothing drives the pair, burns a tally, passes over the arrays or starts. -/
def State.workDone (s : State) : Bool :=
  !s.released && s.eva.emergQ.isNone && s.eva.emergHeld.isNone && s.lc.run.isNone && s.int.scans.isEmpty && !s.int.swRun && !s.int.prio
    && (s.int.batch = 0 || !s.patrolOn) && s.power.domStart.isNone && s.power.waiting.isEmpty && !s.power.tcxoCheck && (s.int.pSusp || s.int.pMap = 0)

/-- No enabled interrupt bit is set (R116). -/
def State.irqQuiet (s : State) : Bool := !s.portA.irqLine && !s.portB.irqLine

/-- The module may sleep: awake in RUN or LIMP with nothing left to do. -/
def State.maySleep (s : State) : Bool :=
  s.running && !s.power.asleep && s.power.trigger.isNone && s.storesIdle && s.radioQuiet && s.workDone && s.irqQuiet

/-- Every domain but AON stops and the wake timer counts; an open calibration window is discarded (R64, R65). -/
def sleepEntry (s : State) : State :=
  if s.maySleep then
    s.modPower fun p => { p with
      domOn := 1, domWant := 0, tcxoOk := false, asleep := true, calOpen := false, calAge := if p.calOpen then satInc p.calAge else p.calAge
      admitted := [] }
  else s

def execSleepEntry (s : State) : Host.Outcome State Fault Refusal := .next (sleepEntry s)

/-! ## Admission (R69 to R71, R90) -/

/-- Charge of a unit's request: a frame in service asks at the row of its applied power. -/
def State.chargeFor (s : State) (u : GovUnit) (power : Nat) : Nat :=
  match s.phy.tx with
  | some f => if s.mac.ackDue.isNone then unitCharge u (s.appliedPower (s.requestedPower f.nb)) else unitCharge u (s.appliedPower power)
  | none => unitCharge u (s.appliedPower power)

/-- The array of a unit. -/
def unitArr : GovUnit → Option Arr
  | .mema => some .A
  | .memb => some .B
  | _ => none

/-- A unit requests admission; a frame that no longer fits when RFTX is admitted gives it up (R327).  An array asks only when deferral has ended
(R206). -/
def admission (u : GovUnit) (power : Nat) (s : State) : State :=
  if !s.power.tcxoOk || ((unitArr u).isSome && s.mram.defer) then s else fitCheck (requestUnit u (s.chargeFor u power) s)

def execAdmissionRequest (u : GovUnit) (power : BitVec 6) (s : State) : Host.Outcome State Fault Refusal :=
  .next (admission u power.toNat s)

/-- The array may give its charge up: it has nothing left to write, or the field defers and nothing runs in it (R70, R206). -/
def State.arrMayYield (s : State) (a : Arr) : Bool :=
  let q := s.mram.arr a
  (s.mram.seqEmpty a && !s.purges a) ||
    (s.mram.defer && q.remap.isNone && (q.attempts = 0 || q.attempts = 5) && !s.mram.twinBegun a)

/-- The unit may yield its charge: a transmitter keeps it for a whole frame, ENG while its domain is on, an array while it has words to write, a burn
until it has ended (R69, R70, R71). -/
def State.mayYield (s : State) (u : GovUnit) : Bool :=
  match u with
  | .rftx => decide (s.phy.txPhase ≠ .onAir)
  | .eng => !s.domOn 2
  | .mema => s.arrMayYield .A
  | .memb => s.arrMayYield .B
  | .tally => (s.lc.run.map fun c => c.burnt?).getD true
  | .rfrx => true
  | .bb => true

/-- A unit stops or yields its charge, and waiting requests are reconsidered. -/
def chargeRelease (u : GovUnit) (s : State) : State := if s.mayYield u then fitCheck (releaseUnit u s) else s

def execChargeRelease (u : GovUnit) (s : State) : Host.Outcome State Fault Refusal := .next (chargeRelease u s)

/-! ## RECAST (R428) -/

/-- Step 1: the RECAST stitch is written, whatever holds writes back. -/
def recastStitch (p : Port) (s : State) : State :=
  let s := offerAll 9 (raise .recast 0 [snap32 (portCode p), 0] s)
  if s.log.queue.isEmpty then s
  else
    let d := s.mram.defer
    let s := offerAll 9 (flushWrites (s.modMram fun m => { m with defer := false }))
    s.modMram fun m => { m with defer := d }

/-- Steps 2 and 3 with this cause: bind-off from VBAT without the store bleed; cast-on follows with AON retention kept. -/
def restartFor (cause : Trigger) (s : State) : State :=
  let t := survive true (loseUnstored (bindSteps 11 (s.modPower fun p => { p with trigger := some cause })))
  (t.modLife fun l => { l with aonIntact := true }).modPower fun p => { p with recasting := true }

/-- The restart.  While the filter of EARLY_BREAK runs, its trigger may pass before the BIND_OFF stitch is written, which is for the outside world to
say: the restart is then a full bind-off with that cause, of which the store bleed is left (R88, R428). -/
def restart (s : State) : State :=
  let s := noteBegun s
  if s.power.ebFilter then
    s.draw fun v s =>
      if v.getLsbD 0 then (restartFor .earlyBreak s).modPower fun p => { p with trigger := some .earlyBreak }
      else keepTrigger s (restartFor .recast s)
  else restartFor .recast s

/-- A write of `LIF_CTL.RECAST`: from slot 0 in RUN or LIMP, from any port in HALT with SYS_TABLE.  Once a trigger of R76 has passed, bind-off runs
instead (R88). -/
def recast_ (p : Port) (s : State) : State :=
  if s.power.trigger.isSome then s
  else if s.haltTable then (if s.portWorks then restart s else s)
  else atSlot0 p 0x2410 (fun s => if s.running then restart (recastStitch p s) else s) s

def execRecast (p : Port) (s : State) : Host.Outcome State Fault Refusal := .next (recast_ p s)

end Sys2Proof.Machine
end

