-- ==== Sys2Proof/Machine/RegRead.lean ====
section
/-! DEFINITION. What a read of each setup register returns (R11, R13, R17, R94, R95, R110 and the register tables of every chapter).
Reserved bits, WO fields and unassigned addresses read zero; no read changes the state. -/

namespace Sys2Proof.Machine

/-- Index of a register in an array of `count` registers, `stride` bytes apart from `base`. -/
def idxOf (base stride count off : Nat) : Option Nat :=
  if base ≤ off && (off - base) % stride = 0 && (off - base) / stride < count then some ((off - base) / stride) else none

/-- The value for an index, zero without one. -/
def atIdx (i : Option Nat) (f : Nat → Word32) : Word32 :=
  match i with
  | none => 0
  | some k => f k

/-- Either half of a 64-bit value. -/
def halfReg (x : Word64) (hi : Bool) : Word32 := if hi then (x >>> 32).setWidth 32 else x.setWidth 32

/-- A truth as a bit, a vector's element by a number. -/
def elem {α : Type} {n : Nat} [NeZero n] (v : Vector α n) (i : Nat) : α := v[finOf n i]

/-! ## Identity registers, 0x000 to 0x0FF (Tables PRT-4, PRT-5, PRT-11) -/

/-- Register k of a port's block: PA_CODE_LO at 0.  SLOT names the slot while a window is open (log entry 165). -/
def PortSt.reg (q : PortSt) (k : Nat) : Word32 :=
  match k with
  | 2 => orAll [at_ 0 q.sel.val, bitAt 8 q.openWait.isSome]
  | 3 => q.nonce
  | 4 => orAll [bitAt 0 q.mode8d, at_ 4 q.lat.toNat]
  | 5 => orAll [bitAt 0 q.open?.isSome, at_ 1 (if q.open?.isSome then q.lastSlot.val else 0), bitAt 4 q.keyless, at_ 5 q.result.toNat, at_ 8 q.failRun.toNat,
      bitAt 16 q.poison]
  | 6 => orAll [at_ 0 q.malCount.toNat, at_ 16 q.malValid.toNat]
  | 7 => q.poisonAt
  | _ => 0

/-- `MODULE_ID`. -/
def State.moduleId (s : State) : Word32 := orAll [at_ 0 s.fuses.variant.toNat, at_ 8 s.fuses.rev.toNat, at_ 24 0x28]

def State.rdIdent (s : State) (off : Nat) : Word32 :=
  if off = 0x00 then s.moduleId
  else if off = 0x08 then halfReg s.fuses.longAddr false
  else if off = 0x0C then halfReg s.fuses.longAddr true
  else if 0x10 ≤ off && off < 0x30 then s.portA.reg ((off - 0x10) / 4)
  else if 0x30 ≤ off && off < 0x50 then s.portB.reg ((off - 0x30) / 4)
  else if off = 0x50 then s.portA.irqStat.setWidth 32
  else if off = 0x54 then s.portA.irqEn.setWidth 32
  else if off = 0x58 then s.portB.irqStat.setWidth 32
  else if off = 0x5C then s.portB.irqEn.setWidth 32
  else if 0x80 ≤ off && off < 0xC0 then elem s.portA.malFirst ((off - 0x80) / 4)
  else if 0xC0 ≤ off then elem s.portB.malFirst ((off - 0xC0) / 4)
  else 0

/-! ## Power, clocks, governor, 0x100 to 0x1FF (Tables CON-6, CON-7, CON-9) -/

def State.pwrStat (s : State) : Word32 :=
  orAll [at_ 0 s.power.domOn.toNat, bitAt 8 s.power.eb, bitAt 9 s.power.vioOk, bitAt 10 s.power.storeOk, at_ 12 s.power.lastStop.toNat,
    at_ 16 (satNat 12 s.power.storeMv)]

def State.peakStat (s : State) : Word32 :=
  orAll ([at_ 0 s.power.admittedSum, at_ 20 s.txMax, bitAt 24 s.power.nofit, at_ 25 s.power.nofitUnit.toNat] ++
    s.power.waiting.map fun r => bitAt (12 + govBit r.u) true)

def State.rdPower (s : State) (off : Nat) : Word32 :=
  if off = 0x100 then s.power.pwrCtl
  else if off = 0x104 then s.pwrStat
  else if off = 0x110 then s.power.peakCeil
  else if off = 0x114 then s.peakStat
  else if off = 0x120 then s.power.clkCtl
  else if off = 0x124 then orAll [at_ 0 s.power.rcPeriod.toNat, at_ 24 s.power.calAge.toNat, bitAt 31 s.power.tcxoOk]
  else 0

/-! ## Tenants and limited changes, 0x200 to 0x2FF (Tables TEN-2, TEN-5, TEN-8, TEN-12) -/

def tenStateCode : TenState → Nat
  | .free => 0
  | .owned => 1
  | .suspended => 2
  | .purging => 3

def keyStateCode : KeyState → Nat
  | .blank => 0
  | .loaded => 1
  | .active => 2
  | .retired => 3

def State.tenCtl (s : State) (n : Fin 8) : Word32 :=
  let t := s.tenants[n]
  orAll ([at_ 0 (tenStateCode t.st), at_ 4 (roleCode t.role), bitAt 8 t.susp, at_ 16 (s.tallyLeft 3 n.val)] ++
    (List.range 4).map fun k => at_ (24 + 2 * k) (keyStateCode s.keys[keyNo n k].st))

def State.isoFirst (s : State) : Word32 :=
  orAll [at_ 0 s.lc.isoSlot.val, at_ 4 s.lc.isoPath.toNat, at_ 8 s.lc.isoIdx.toNat, bitAt 31 s.lc.isoV]

def State.lcLeft (s : State) : Word32 :=
  orAll [at_ 0 (s.tallyLeft 1 0), at_ 8 (s.tallyLeft 2 0), at_ 16 (s.tallyLeft 4 0), bitAt 24 (decide (s.tallyLeft 5 0 ≠ 0))]

def State.rdTenant (s : State) (off : Nat) : Word32 :=
  if off < 0x280 then
    let n := finOf 8 ((off - 0x200) / 16)
    match (off - 0x200) % 16 / 4 with
    | 0 => s.tenCtl n
    | 1 => halfReg s.tenants[n].owner false
    | 2 => halfReg s.tenants[n].owner true
    | _ => s.tenants[n].iso.setWidth 32
  else if off = 0x280 then orAll [at_ 0 s.lc.setting.toNat, at_ 8 s.lc.target.val, bitAt 16 s.lc.lastAck]
  else if 0x290 ≤ off && off < 0x2A0 then regOfWord s.lc.val ((off - 0x290) / 4)
  else if off = 0x2A8 then bitAt 0 s.lc.run.isSome
  else if off = 0x2B0 then orAll [at_ 0 s.lc.reason.toNat, at_ 8 s.lc.left.toNat]
  else if off = 0x2C0 then s.lcLeft
  else if off = 0x2D0 then s.isoFirst
  else 0

/-! ## Needles, 0x300 to 0x3FF (Table PRT-12) -/

/-- `NDL_STAT_k` as port p sees it. -/
def State.ndlStat (s : State) (p : Port) (k : Fin 32) : Word32 :=
  let d := s.needles[k]
  let mine : Bool := match d.holder with
    | some (q, _) => q = p
    | none => false
  orAll [bitAt 0 d.holder.isSome, bitAt 1 mine, bitAt 2 d.orphaned, bitAt 3 (d.port = .b), at_ 4 (s.port p).ndlResult[k].toNat,
    at_ 8 d.gen.toNat, at_ 16 d.remain.toNat]

def State.rdNeedle (s : State) (p : Port) (off : Nat) : Word32 :=
  if off % 8 = 4 then s.ndlStat p (finOf 32 ((off - 0x300) / 8)) else 0

/-! ## Rings and engine, 0x400 to 0x7FF (Tables RNG-2, RNG-3, RNG-10) -/

def State.engStat (s : State) : Word32 :=
  orAll ([at_ 0 s.eng.ops.length, at_ 8 s.holdUsed, bitAt 20 s.stallHold,
    bitAt 21 (s.mram.waitq.any fun e => e.writer = .engine)] ++
    (List.finRange 4).map fun k => bitAt (16 + k.val) s.eng.lls[k].isSome)

def Tenant.engUnc (t : Tenant) : Word32 := orAll [at_ 0 t.uncLast.1.val, at_ 8 t.uncLast.2.toNat, bitAt 31 t.unc.isSome]

def State.rdEngine (s : State) (n? : Option (Fin 8)) (off : Nat) : Word32 :=
  if off = 0x700 then s.eng.ctl
  else if off = 0x704 then s.engStat
  else match n? with
  | none => 0
  | some n =>
    if off < 0x600 then
      let r := ringNo n (finOf 64 ((off - 0x400) / 8))
      if off % 8 = 0 then (s.ring r).ctx.cfgReg else s.ringStat r
    else if off < 0x700 then s.ringIdx (ringNo n (finOf 64 ((off - 0x600) / 4)))
    else if off = 0x708 then orAll [at_ 0 s.tenants[n].frogOps.toNat, at_ 16 s.tenants[n].frogLines.toNat]
    else if off = 0x70C then s.tenants[n].engUnc
    else if off = 0x710 then s.tenants[n].uncAddr
    else 0

/-! ## Skeins, 0x800 to 0xBFF (Table SKN-2) -/

def State.rdSknModule (s : State) (off : Nat) : Word32 :=
  if off = 0x800 then orAll [at_ 0 s.skn.alBlock.toNat, at_ 8 s.skn.alSlot.val, at_ 20 s.skn.alRes.toNat]
  else if off = 0x830 then orAll [at_ 0 s.skn.wbEvery.toNat, bitAt 31 s.skn.unclean]
  else atIdx (idxOf 0x810 4 8 off) fun k => let t := elem s.tenants k; orAll [at_ 0 t.quota, at_ 16 t.used]

def Tenant.rdSkn (t : Tenant) (off : Nat) : Word32 :=
  if off = 0x840 then orAll [at_ 0 t.sknSel.toNat, at_ 16 t.sknOp.toNat]
  else if off = 0x844 then t.sknCfg0
  else if off = 0x848 then t.sknCfg1
  else if off = 0x84C then t.sknRes.setWidth 32
  else if off = 0x890 then orAll [at_ 0 t.notSkein.toNat, bitAt 16 t.notEn, at_ 24 t.notLost.toNat]
  else if off = 0x894 then orAll [at_ 0 t.pbRes.1.toNat, at_ 4 t.pbRes.2.toNat]
  else if off = 0x898 then orAll [at_ 0 t.dropCount.toNat, at_ 16 t.dropSkein.toNat]
  else if off = 0x8A0 then orAll [at_ 0 t.sknErr.1.toNat, at_ 16 t.sknErr.2.toNat, bitAt 31 t.sknErrV]
  else if 0x850 ≤ off && off < 0x870 then elem t.sknOcc ((off - 0x850) / 4)
  else if 0x870 ≤ off && off < 0x890 then elem t.sknPkt ((off - 0x870) / 4)
  else 0

def State.rdSkein (s : State) (n? : Option (Fin 8)) (off : Nat) : Word32 :=
  if off < 0x840 then s.rdSknModule off
  else match n? with
  | some n => s.tenants[n].rdSkn off
  | none => 0

/-! ## MRAM, 0xC00 to 0xDFF (Tables MEM-5, MEM-7, MEM-10) -/

def HotRow.reg (h : HotRow) : Word32 := orAll [at_ 0 h.row, bitAt 15 (h.arr = .B), at_ 16 h.samples.toNat]

/-- The row with the most samples, the earliest tracked of those that tie. -/
def mostSamples : List HotRow → Option HotRow
  | [] => none
  | h :: t => match mostSamples t with
    | none => some h
    | some g => if g.samples ≤ h.samples then some h else some g

/-- The k-th row by samples. -/
def hotRow : Nat → List HotRow → Option HotRow
  | 0, l => mostSamples l
  | k + 1, l => match mostSamples l with
    | none => none
    | some h => hotRow k (l.erase h)

def granStateCode : GranState → Nat
  | .free => 0
  | .inUse => 1
  | .purging => 2
  | .closed => 3

/-- A partition entry (Table MEM-4). -/
def PartEntry.reg (e : PartEntry) : Word32 :=
  orAll [at_ 0 e.owner.toNat, at_ 4 e.pos, bitAt 12 e.zeroFill, at_ 13 (granStateCode e.st)]

def Mram.memStat (m : Mram) : Word32 :=
  orAll [at_ 0 m.arrA.spares.length, at_ 8 m.arrB.spares.length, bitAt 16 m.wfail, bitAt 17 m.mergeBad, bitAt 18 m.portDrop,
    at_ 24 m.wfailCount.toNat]

def Mram.fieldStat (m : Mram) : Word32 :=
  orAll [bitAt 0 m.defer, at_ 4 m.fhb.length, bitAt 16 m.disturb, at_ 24 m.peak.toNat]

def State.rdMram (s : State) (n? : Option (Fin 8)) (off : Nat) : Word32 :=
  let m := s.mram
  if off = 0xC00 then m.memStat
  else if off = 0xC04 then wfailReg m
  else if 0xC10 ≤ off && off < 0xC20 then ((hotRow ((off - 0xC10) / 4) m.hot).map HotRow.reg).getD 0
  else if off = 0xC30 then m.partCtl
  else if off = 0xC34 then m.partRes.setWidth 32
  else if off = 0xC38 then (match n? with
    | some n => snap32 s.tenants[n].granules
    | none => 0)
  else if off = 0xC40 then m.limit
  else if off = 0xC44 then m.fieldStat
  else if off = 0xC48 then orAll [at_ 0 m.episodes.toNat, at_ 16 m.drops.toNat]
  else if off = 0xC4C then m.fwords
  else if off = 0xC50 then m.stall
  else if 0xD00 ≤ off then (elem m.part ((off - 0xD00) / 4)).reg
  else 0

/-! ## Integrity, 0xE00 to 0xFFF (Tables INT-3, INT-5, INT-8, INT-10, INT-11) -/

/-- A word of the arrays as `INT_UE_FIRST` names it. -/
def Integ.ueFirst (i : Integ) : Word32 :=
  orAll [at_ 0 (keyIdx i.ueWord), bitAt 20 (keyArr i.ueWord = .B), at_ 24 i.ueCause.toNat, bitAt 31 i.ueV]

/-- `INT_RST_CAUSE`. -/
def Integ.rstReg (i : Integ) : Word32 :=
  orAll [at_ 0 i.rstCause.toNat, at_ 4 i.rstClass.toNat, at_ 12 i.rstIdx.toNat, bitAt 31 i.rstV]

def Integ.swStat (i : Integ) : Word32 :=
  orAll [at_ 0 i.swRes.toNat, at_ 4 i.swFail.unit.toNat, at_ 8 i.swFail.group.toNat, at_ 16 i.swFail.index.toNat]

/-- `PURGE_STAT`: the granule under way is the first of the round. -/
def State.purgeStat (s : State) : Word32 :=
  let left := (List.finRange 64).countP s.toPurge
  let g := s.roundOf.head?
  orAll [bitAt 0 (decide (left ≠ 0)), at_ 1 ((g.map fun g => s.mram.part[g].owner.toNat).getD 0), bitAt 4 s.int.pSusp,
    at_ 8 ((g.map (·.val)).getD 0), at_ 16 left]

/-- `SCAN_STAT.STATE`. -/
def State.scanState (s : State) (n : Fin 8) : Nat :=
  match s.scanOf n with
  | none => 0
  | some (0, _) => 2
  | some _ => 1

def State.rdScan (s : State) (n : Fin 8) (off : Nat) : Word32 :=
  let t := s.tenants[n]
  if off = 0xE40 then t.scanCtl
  else if off = 0xE44 then snap32 t.scanCnt
  else if off = 0xE48 then orAll [at_ 0 (s.scanState n), at_ 4 t.scanRes.toNat]
  else if 0xE50 ≤ off && off < 0xE60 then regOfWord t.scanSum ((off - 0xE50) / 4)
  else 0

def State.rdInteg (s : State) (n? : Option (Fin 8)) (off : Nat) : Word32 :=
  let i := s.int
  if off = 0xE00 then i.ctl
  else if off = 0xE04 then orAll [at_ 0 i.pos, bitAt 16 i.prio, at_ 17 i.reason.toNat]
  else if off = 0xE08 then i.laps
  else if off = 0xE0C then orAll [at_ 0 i.ceScrub.toNat, at_ 16 i.ceDemand.toNat]
  else if off = 0xE10 then orAll [at_ 0 i.ue.toNat, at_ 16 i.pairRep.toNat, at_ 24 i.pairFail.toNat]
  else if off = 0xE14 then i.ueFirst
  else if off = 0xE18 then i.rstReg
  else if off = 0xE20 then orAll [bitAt 0 i.swRun, bitAt 4 (i.swArr = .B)]
  else if off = 0xE24 then i.swStat
  else if off = 0xE80 then bitAt 0 i.pSusp
  else if off = 0xE84 then s.purgeStat
  else if off = 0xE88 then halfReg i.pMap false
  else if off = 0xE8C then halfReg i.pMap true
  else match n? with
  | some n => s.rdScan n off
  | none => 0

/-! ## Radio, 0x1000 to 0x13FF (Tables PHY-4, PHY-8) -/

/-- ms sent in a sub-band in the sliding hour; a part of a millisecond is rounded as the manual leaves open (log entry 46). -/
def State.dutyMs (s : State) (b : Nat) : Nat :=
  let us := s.dutyUsed (finOf 5 b)
  if us % 1000 = 0 || !Config.roundUp us 1000 then us / 1000 else us / 1000 + 1

def State.rdPhy (s : State) (off : Nat) : Word32 :=
  let p := s.phy
  if off = 0x1000 then orAll [bitAt 0 p.w2, bitAt 8 p.strap, bitAt 9 p.active, bitAt 10 s.compatDisabled]
  else if off = 0x1010 then orAll [if s.fuses.variant = 1 then p.ctl else p.ctl &&& ~~~2, at_ 16 s.region, bitAt 24 s.radioOn]
  else if off = 0x1014 then orAll [at_ 0 p.fixed.toNat, at_ 8 p.cur.toNat, bitAt 16 p.maskRef]
  else if off = 0x1018 then p.lbt
  else if off = 0x101C then p.txpwr.setWidth 32
  else if 0x1020 ≤ off && off < 0x1034 then at_ 0 (satNat 22 (s.dutyMs ((off - 0x1020) / 4)))
  else if 0x1040 ≤ off && off < 0x1050 then regOfWord p.shape ((off - 0x1040) / 4)
  else if off = 0x1050 then p.load
  else if off = 0x1060 then snap32 p.gsel.val
  else if 0x1070 ≤ off && off < 0x1080 then regOfWord p.gauge[p.gsel] ((off - 0x1070) / 4)
  else if 0x1080 ≤ off && off < 0x109C then elem p.hopmask ((off - 0x1080) / 4)
  else if off = 0x10A0 then orAll [at_ 0 p.rssi.toNat, at_ 8 p.cfo.toNat, at_ 24 p.applied.toNat]
  else if off = 0x10A4 then orAll [at_ 0 p.hdrBad.toNat, at_ 16 p.lenBad.toNat]
  else if off = 0x10A8 then p.tentDis.setWidth 32
  else if off = 0x10AC then orAll [at_ 0 p.fallback.toNat, at_ 16 p.regDrop.toNat]
  else if 0x1100 ≤ off && off < 0x1200 then regOfWord (elem p.tmaps ((off - 0x1100) / 16)).word (off % 16 / 4)
  else 0

/-! ## MAC, 0x1400 to 0x17FF (Table MAC-11) -/

def macStateCode : MacState → Nat
  | .unsync => 0
  | .search => 1
  | .track => 2

def State.macMode (s : State) : Word32 :=
  orAll [bitAt 0 s.mac.trackEn, bitAt 1 s.mac.sniffEn, at_ 4 (macStateCode s.mac.state), bitAt 8 s.mac.assoc, at_ 12 s.mac.assocRes.toNat]

def State.macSf (s : State) : Word32 :=
  orAll [at_ 0 s.mac.so.toNat, at_ 3 s.mac.capLast.toNat, at_ 8 s.mac.bslots.toNat, at_ 16 s.mac.skip.toNat, at_ 24 s.mac.lostMax.toNat,
    at_ 28 s.mac.search.toNat]

def State.rdMacModule (s : State) (off : Nat) : Word32 :=
  let m := s.mac
  if off = 0x1400 then orAll [at_ 0 m.short.toNat, at_ 16 s.siteId.toNat]
  else if off = 0x1404 then s.macMode
  else if off = 0x1408 then s.macSf
  else if off = 0x140C then m.sfn
  else if off = 0x1410 then m.slotmask
  else if off = 0x1414 then m.csma
  else if off = 0x1418 then m.wor
  else if 0x1440 ≤ off && off < 0x1480 then elem m.groups ((off - 0x1440) / 4)
  else if off = 0x1480 then orAll [at_ 0 m.nbEntry.val, at_ 8 m.nbOp.toNat]
  else if 0x1490 ≤ off && off < 0x14A0 then regOfWord m.nbWord ((off - 0x1490) / 4)
  else if off = 0x14A0 then orAll [at_ 0 m.senders.length, at_ 16 m.evict.toNat]
  else if 0x14C4 ≤ off && off < 0x14F0 then (elem m.dropk ((off - 0x14C4) / 4)).setWidth 32
  else if off = 0x14F0 then orAll [at_ 0 m.raLines.toNat, at_ 16 m.raFrogs.toNat]
  else 0

/-- A tenant's endpoint, flow and counter registers. -/
def State.rdMacTenant (s : State) (n : Fin 8) (off : Nat) : Word32 :=
  let m := s.mac
  let i := flowNo n (finOf 8 (off % 256 / 16))
  let k := off % 16 / 4
  if off < 0x1580 then (match k with
    | 0 => m.eps[i].ep
    | 1 => snap32 m.eps[i].cpl.val
    | 2 => orAll [at_ 0 m.eps[i].deliv.toNat, at_ 16 m.eps[i].refused.toNat]
    | _ => 0)
  else if 0x1600 ≤ off && off < 0x1680 then (match k with
    | 0 => m.flows[i].flow
    | 1 => m.flows[i].flowb
    | 2 => orAll [at_ 0 m.flows[i].sent.toNat, at_ 16 m.flows[i].fail.toNat]
    | _ => 0)
  else if 0x1700 ≤ off && off < 0x170C then m.fc[keyNo n ((off - 0x1700) / 4)]
  else if off = 0x170C && n = 0 then m.fc[netKey]
  else 0

def State.rdMac (s : State) (n? : Option (Fin 8)) (off : Nat) : Word32 :=
  if off < 0x1500 then s.rdMacModule off
  else match n? with
  | some n => s.rdMacTenant n off
  | none => 0

/-! ## Scheduler, 0x1800 to 0x1BFF (Table SCH-3) -/

def Tenant.shpStat (t : Tenant) : Word32 :=
  orAll [at_ 0 (BitVec.ofInt 17 t.level).toNat, bitAt 20 t.shpPend.isSome, at_ 24 t.clamps.toNat]

def State.loopLsel (s : State) : Word32 :=
  let e := s.mac.nbs[s.mac.lsel]
  orAll [at_ 0 s.mac.lsel.val, at_ 8 ((e.curSlot.map (·.val)).getD 0), at_ 12 ((e.prevSlot.map (·.val)).getD 0), bitAt 16 e.curSlot.isSome,
    bitAt 17 e.prevSlot.isSome]

def State.loopStat (s : State) : Word32 :=
  orAll [at_ 0 s.mac.conflict.toNat, at_ 8 s.mac.starve[(0 : Fin 3)].toNat, at_ 16 s.mac.starve[(1 : Fin 3)].toNat,
    at_ 24 s.mac.starve[(2 : Fin 3)].toNat]

def State.rdSched (s : State) (n? : Option (Fin 8)) (off : Nat) : Word32 :=
  let ten (f : Tenant → Word32) : Word32 := match n? with
    | some n => f s.tenants[n]
    | none => 0
  if off < 0x1820 then (elem s.tenants ((off - 0x1800) / 4)).sw.setWidth 32
  else if off = 0x1820 then ten (·.fw)
  else if off = 0x1824 then ten fun t => t.gate.setWidth 32
  else if off = 0x1828 then ten fun t => orAll [at_ 0 t.fitWait.toNat, at_ 16 t.abandoned.toNat]
  else if off = 0x182C then s.mac.v
  else if 0x1840 ≤ off && off < 0x18C0 then
    let t := elem s.tenants ((off - 0x1840) / 16)
    (match off % 16 / 4 with
      | 0 => orAll [at_ 0 t.shpRate, at_ 16 t.shpBurst]
      | 1 => t.shpStat
      | _ => 0)
  else if 0x18C0 ≤ off && off < 0x1900 then
    let t := elem s.tenants ((off - 0x18C0) / 8)
    if off % 8 = 0 then t.polCfg else orAll [at_ 0 t.polLevel, at_ 16 t.polDrops.toNat]
  else if off = 0x1900 then s.mac.loopCtl
  else if off = 0x1904 then s.mac.loopPwr
  else if off = 0x1908 then s.mac.loopLoad
  else if off = 0x190C then s.mac.pool.setWidth 32
  else if off = 0x1910 then s.mac.loopThr
  else if off = 0x1914 then s.loopStat
  else if off = 0x1918 then s.loopLsel
  else 0

/-! ## Evaluator and release, 0x1C00 to 0x1FFF (Table EVA-9) -/

def State.rdEva (s : State) (n? : Option (Fin 8)) (off : Nat) : Word32 :=
  let ten (f : Tenant → Word32) : Word32 := match n? with
    | some n => f s.tenants[n]
    | none => 0
  if off = 0x1C00 then s.eva.ctl
  else if off = 0x1C08 then ten fun t => orAll [at_ 0 t.cGrant.toNat, at_ 16 t.cDeny.toNat]
  else if off = 0x1C0C then ten fun t => orAll [at_ 0 t.cDefer.toNat, at_ 16 t.cTrap.toNat]
  else if off = 0x1C10 then ten fun t => orAll [at_ 0 t.trap.1.toNat, at_ 16 t.trap.2.toNat, bitAt 31 t.trapV]
  else if off = 0x1C14 then ten fun t => t.pulseLen.setWidth 32
  else if off = 0x1C20 then s.relStat
  else if off = 0x1C30 then s.eva.emerg
  else if off = 0x1C34 then s.eva.emergNo
  else if off = 0x1C38 then s.eva.emergRes.setWidth 32
  else 0

/-! ## Sensing, site time, ledger, 0x2000 to 0x21FF (Table SNS-7) -/

/-- A running word (Table SNS-4). -/
def LedgerWord.word (w : LedgerWord) : Word128 :=
  orAll [at_ 0 w.txSym, at_ 32 w.txFr, at_ 56 w.rxFr, at_ 80 w.writes, at_ 104 w.energy]

/-- Hours since the last source value, 12 bits, saturating; 0 before the first. -/
def Sense.ageHours (q : Sense) : Nat := if q.source = 0 then 0 else satNat 12 (q.ageMs / 3600000)

def State.rdSense (s : State) (n? : Option (Fin 8)) (off : Nat) : Word32 :=
  let q := s.sns
  if off = 0x2000 then orAll [at_ 0 q.batMv.toNat, at_ 16 q.minTx.toNat]
  else if off = 0x2004 then snap32 q.pw.chg
  else if off = 0x2008 then q.temp.setWidth 32
  else if off = 0x200C then orAll [at_ 0 q.fx.toNat, at_ 16 q.fy.toNat]
  else if off = 0x2010 then orAll [at_ 0 q.fz.toNat, at_ 16 q.mag.toNat]
  else if off = 0x2014 then orAll [bitAt 0 q.door, bitAt 1 q.bolt, bitAt 4 q.doorPin, bitAt 5 q.boltPin]
  else if off = 0x2020 then q.ctl
  else if off = 0x2040 then snap32 q.time
  else if off = 0x2044 then orAll [bitAt 0 q.trusted, at_ 1 q.source.toNat, at_ 4 q.ageHours, at_ 16 q.steps.toNat]
  else if off = 0x2048 then snap32 q.pw.hwm
  else if off = 0x2050 then q.stCtl
  else if off = 0x2080 then orAll [at_ 0 q.len, at_ 16 q.wb.toNat]
  else if off = 0x2084 then snap32 q.origin
  else if off = 0x2088 then snap32 q.pw.period
  else if off = 0x208C then snap32 q.pw.next
  else if 0x2090 ≤ off && off < 0x20A0 then (match n? with
    | some n => regOfWord q.run[n].word ((off - 0x2090) / 4)
    | none => 0)
  else 0

/-! ## Recorder, 0x2200 to 0x23FF (Tables REC-7, REC-10) -/

def State.rdChan (s : State) (n : Fin 8) (k : Nat) : Word32 :=
  let c := s.log.chans[n]
  match k with
  | 0 => orAll [at_ 0 c.head.pos, at_ 16 (s.capacity n), bitAt 31 c.full]
  | 1 => orAll [at_ 0 c.head.drops.toNat, at_ 16 c.lost.toNat]
  | 2 => orAll [at_ 0 c.head.chidx.toNat, at_ 24 c.head.epoch.toNat]
  | _ => snap32 c.grans.length

def State.rdRecModule (s : State) (off : Nat) : Word32 :=
  let l := s.log
  if off = 0x2200 then l.ctl
  else if off = 0x2204 then orAll [at_ 0 l.queue.length, bitAt 4 l.seqEnd, at_ 16 l.lost.toNat]
  else if off = 0x2208 then l.seq
  else if off = 0x220C then orAll (slots.map fun n => bitAt n.val (s.classM n))
  else if off = 0x2214 then snap32 s.suppSum
  else if 0x2220 ≤ off && off < 0x22A0 then s.rdChan (finOf 8 ((off - 0x2220) / 16)) (off % 16 / 4)
  else if 0x22A4 ≤ off && off < 0x22E0 then let r := elem l.rl ((off - 0x22A0) / 4); orAll [at_ 0 r.1.toNat, at_ 8 r.2.toNat]
  else if off = 0x22E0 then orAll [at_ 0 l.bindCode.toNat, at_ 16 l.bindCls.toNat, bitAt 24 l.bindOp]
  else if off = 0x22E4 then snap32 l.allocCh.val
  else if off = 0x22E8 then orAll [at_ 0 l.clrCh.val, at_ 8 l.clrRes.toNat, bitAt 31 l.clrWait.isSome]
  else if off = 0x235C then l.audNonce
  else 0

/-- The tenant registers of the recorder. -/
def State.rdRecTenant (s : State) (n : Fin 8) (off : Nat) : Word32 :=
  let t := s.tenants[n]
  if off = 0x2210 then t.recOwn
  else if off = 0x2300 then orAll [at_ 0 t.postCode.toNat, at_ 16 t.postRes.toNat, bitAt 31 (s.posting n)]
  else if 0x2310 ≤ off && off < 0x2330 then elem t.postV ((off - 0x2310) / 4)
  else if off = 0x2360 then t.feed
  else if off = 0x2364 then t.feedLost.setWidth 32
  else 0

/-- The port's own read and audit registers. -/
def PortSt.rdRec (q : PortSt) (off : Nat) : Word32 :=
  if off = 0x2340 then q.rdStart
  else if off = 0x2344 then orAll [at_ 0 q.rdCh.val, at_ 4 q.rdMode.toNat, at_ 8 q.rdOp.toNat]
  else if off = 0x2348 then q.rdLimit
  else if off = 0x234C then q.rdResult.setWidth 32
  else if off = 0x2358 then bitAt 1 q.auditOn
  else if 0x2380 ≤ off && off < 0x23C0 then regOfWord (elem q.win ((off - 0x2380) / 16)) (off % 16 / 4)
  else 0

/-- The registers of the recorder that a port, rather than a slot or the module, has its own of. -/
def recPerPort (off : Nat) : Bool := (0x2340 ≤ off && off < 0x235C) || (0x2380 ≤ off && off < 0x23C0)

def recTenant (off : Nat) : Bool := off = 0x2210 || (0x2300 ≤ off && off < 0x2330) || (0x2360 ≤ off && off < 0x2368)

def State.rdRecorder (s : State) (p : Port) (n? : Option (Fin 8)) (off : Nat) : Word32 :=
  if recPerPort off then (s.port p).rdRec off
  else if recTenant off then (match n? with
    | some n => s.rdRecTenant n off
    | none => 0)
  else s.rdRecModule off

/-! ## Start-up and faults, 0x2400 to 0x2FFF (Table LIF-7) -/

def lifCode : LifState → Nat
  | .castOn => 0
  | .run => 1
  | .limp => 2
  | .halt => 3
  | .bindOff => 4

/-- `AUD_TAG`: the head chain tag of the channel chosen, while the audit read is on. -/
def State.audTag (s : State) (p : Port) : Word64 := if (s.port p).auditOn then s.lastTag (s.port p).rdCh else 0

def State.rdLife (s : State) (p : Port) (off : Nat) : Word32 :=
  let l := s.life
  if off = 0x2400 then orAll [at_ 0 (lifCode l.state), at_ 4 l.step.toNat, at_ 8 l.wakeFails.toNat, at_ 16 l.caston.toNat]
  else if off = 0x2404 then orAll [at_ 0 l.mask.toNat, at_ 16 l.first.toNat, bitAt 31 l.valid]
  else if off = 0x2408 then l.detail
  else if off = 0x2414 then l.castonUs.setWidth 32
  else if off = 0x2420 then halfReg (s.audTag p) false
  else if off = 0x2424 then halfReg (s.audTag p) true
  else 0

/-! ## A register, by its offset -/

/-- The value of the setup register at `off` (a multiple of 4) for port p, through slot `n?`; an address no chapter assigns reads zero. -/
def State.regRead (s : State) (p : Port) (n? : Option (Fin 8)) (off : Nat) : Word32 :=
  if off < 0x100 then s.rdIdent off
  else if off < 0x200 then s.rdPower off
  else if off < 0x300 then s.rdTenant off
  else if off < 0x400 then s.rdNeedle p off
  else if off < 0x800 then s.rdEngine n? off
  else if off < 0xC00 then s.rdSkein n? off
  else if off < 0xE00 then s.rdMram n? off
  else if off < 0x1000 then s.rdInteg n? off
  else if off < 0x1400 then s.rdPhy off
  else if off < 0x1800 then s.rdMac n? off
  else if off < 0x1C00 then s.rdSched n? off
  else if off < 0x2000 then s.rdEva n? off
  else if off < 0x2200 then s.rdSense n? off
  else if off < 0x2400 then s.rdRecorder p n? off
  else if off < 0x3000 then s.rdLife p off
  else 0

/-- What a port reads at an offset, and whether the access is refused for want of a window (R94, R96, R230, R425). -/
def State.portRead (s : State) (p : Port) (off : Nat) : Word32 × Bool :=
  match s.reach p off with
  | .ident => (s.regRead p none off, false)
  | .slot n => (s.regRead p (some n) off, false)
  | .readOnly => (s.regRead p none off, false)
  | .none => (0, false)
  | .closed => (0, true)

end Sys2Proof.Machine
end

