-- ==== Sys2Proof/Machine/RegWrite.lean ====
section
/-! DEFINITION. What a committed write of each setup register does (R11 to R13, R17, R94, R109 and the register tables of every chapter):
first every register of the transaction takes its value, then the actions of SC and WO fields start in ascending address order. -/

namespace Sys2Proof.Machine

/-! ## Fields of a written register -/

/-- A RW field: its bits, and which of its encodings are not reserved. -/
structure RwField where
  hi : Nat
  lo : Nat
  ok : Nat → Bool

/-- A field without reserved encodings, and one whose encodings run from a to b. -/
def rw (hi lo : Nat) : RwField := { hi := hi, lo := lo, ok := fun _ => true }
def rwIn (hi lo a b : Nat) : RwField := { hi := hi, lo := lo, ok := fun x => a ≤ x && x ≤ b }

/-- A register after a write: each RW field takes its written value, unless that is a reserved encoding; nothing else changes (R13). -/
def writeFields (l : List RwField) (v old : Word32) : Word32 :=
  l.foldl (fun r f => if f.ok (field v f.hi f.lo) then setField r f.hi f.lo (field v f.hi f.lo) else r) old

/-- An 8-bit signed encoding of a number from a to b. -/
def signedIn (a b : Int) (x : Nat) : Bool := a ≤ (BitVec.ofNat 8 x).toInt && (BitVec.ofNat 8 x).toInt ≤ b

/-- A 64-bit value with one half written. -/
def setHalf (x : Word64) (hi : Bool) (v : Word32) : Word64 := if hi then setField x 63 32 v.toNat else setField x 31 0 v.toNat

/-! ## Identity registers: each port writes its own (R94) -/

/-- Register k of the port's own block. -/
def commitPort (p : Port) (k : Nat) (v : Word32) (s : State) : State :=
  s.modPort p fun q => match k with
    | 0 => { q with code := setHalf q.code false v }
    | 1 => { q with code := setHalf q.code true v }
    | 2 => { q with sel := finOf 8 (field v 2 0) }
    | 4 => { q with mode8d := flag v 0, lat := if 4 ≤ field v 8 4 then BitVec.ofNat 5 (field v 8 4) else q.lat }
    | 5 => { q with poison := q.poison && !flag v 16 }
    | 6 => { q with malValid := q.malValid &&& ~~~((v >>> 16).setWidth 16) }
    | _ => q

/-- `xx_OPEN.GO` before `xx_OPEN.CLOSE`, and `xx_CFG.MAL_CLR`. -/
def actPort (p : Port) (k : Nat) (v : Word32) (s : State) : State :=
  match k with
  | 2 =>
    let s := if flag v 8 then openGo p (s.port p).sel s else s
    if flag v 9 then closePort p s else s
  | 4 => if flag v 31 then malClr p s else s
  | _ => s

/-- Base of the port's own block, and offset of its `IRQ_STAT`. -/
def portBase : Port → Nat
  | .a => 0x10
  | .b => 0x30

def irqBase : Port → Nat
  | .a => 0x50
  | .b => 0x58

def commitIdent (p : Port) (off : Nat) (v : Word32) (s : State) : State :=
  if portBase p ≤ off && off < portBase p + 0x20 then commitPort p ((off - portBase p) / 4) v s
  else if off = irqBase p then s.modPort p fun q => { q with irqStat := q.irqStat &&& ~~~(v.setWidth 9) }
  else if off = irqBase p + 4 then s.modPort p fun q => { q with irqEn := v.setWidth 9 }
  else s

def actIdent (p : Port) (off : Nat) (v : Word32) (s : State) : State :=
  if portBase p ≤ off && off < portBase p + 0x20 then actPort p ((off - portBase p) / 4) v s else s

/-! ## Power, clocks, governor -/

def commitPower (off : Nat) (v : Word32) (s : State) : State :=
  s.modPower fun p =>
    if off = 0x100 then { p with pwrCtl := writeFields [rw 3 0] v p.pwrCtl }
    else if off = 0x110 then { p with peakCeil := writeFields [rwIn 5 0 0 56, rwIn 10 8 0 6] v p.peakCeil }
    else if off = 0x114 then { p with nofit := p.nofit && !flag v 24 }
    else if off = 0x120 then { p with clkCtl := writeFields [rw 1 0, rw 15 4] v p.clkCtl }
    else p

/-! ## Tenants and limited changes -/

def commitTenant (off : Nat) (v : Word32) (s : State) : State :=
  if off < 0x280 then (if off % 16 = 0 then suspend_ (finOf 8 ((off - 0x200) / 16)) (flag v 8) s else s)
  else if off = 0x2D0 then s.modLc fun l => { l with isoV := l.isoV && !flag v 31 }
  else s.modLc fun l =>
    if off = 0x280 then { l with setting := BitVec.ofNat 4 (field v 3 0), target := finOf 8 (field v 10 8), lastAck := flag v 16 }
    else if 0x290 ≤ off && off < 0x2A0 then { l with val := setRegOfWord l.val ((off - 0x290) / 4) v }
    else if off = 0x2A0 then { l with code := setHalf l.code false v }
    else if off = 0x2A4 then { l with code := setHalf l.code true v }
    else if 0x2E0 ≤ off && s.tenants[(0 : Fin 8)].st = .free then
      { l with claim := setField l.claim (8 * (off - 0x2E0) + 31) (8 * (off - 0x2E0)) v.toNat }
    else l

def actTenant (off : Nat) (v : Word32) (s : State) : State :=
  if off < 0x280 then (if off % 16 = 12 && flag v 31 then tenIsoClr (finOf 8 ((off - 0x200) / 16)) s else s)
  else if off = 0x2A8 && flag v 0 then lcGo s
  else s

/-! ## Needles: `NDL_CTL_k.OP` and LEASE -/

def actNeedle (p : Port) (n : Fin 8) (off : Nat) (v : Word32) (s : State) : State :=
  if off % 8 ≠ 0 then s
  else
    let k := finOf 32 ((off - 0x300) / 8)
    let lease := BitVec.ofNat 16 (field v 31 16)
    match field v 3 0 with
    | 1 => acquire p k lease false n s
    | 2 => releaseOp p k n s
    | 3 => renew p k lease n s
    | 4 => clearOrphan p k n s
    | 5 => acquire p k lease true n s
    | _ => s

/-! ## Rings and engine -/

def commitEngine (n : Fin 8) (off : Nat) (v : Word32) (s : State) : State :=
  if off = 0x700 then s.modEng fun e => { e with ctl := writeFields [rw 0 0, rwIn 13 8 1 32] v e.ctl }
  else if off = 0x70C then s.modTen n fun t => { t with unc := if flag v 31 then none else t.unc }
  else if off < 0x600 && off % 8 = 0 then ringCfg n (finOf 64 ((off - 0x400) / 8)) v s
  else s

def actEngine (n : Fin 8) (off : Nat) (v : Word32) (s : State) : State := if off = 0x714 && flag v 0 then engFrogClr n s else s

/-! ## Skeins -/

def commitSknModule (off : Nat) (v : Word32) (s : State) : State :=
  if off = 0x800 then s.modSkn fun k => { k with alBlock := v.setWidth 8, alSlot := finOf 8 (field v 10 8) }
  else if off = 0x830 then s.modSkn fun k => { k with wbEvery := v.setWidth 4, unclean := k.unclean && !flag v 31 }
  else match idxOf 0x810 4 8 off with
    | some k => sknQuota_ (finOf 8 k) (field v 11 0) s
    | none => s

def Tenant.commitSkn (off : Nat) (v : Word32) (t : Tenant) : Tenant :=
  if off = 0x840 then { t with sknSel := v.setWidth 16, sknOp := BitVec.ofNat 4 (field v 19 16) }
  else if off = 0x844 then { t with sknCfg0 := writeFields [rw 17 0, rw 22 18, rw 26 24, rw 30 28] v t.sknCfg0 }
  else if off = 0x848 then { t with sknCfg1 := writeFields [rw 18 0, rw 30 24] v t.sknCfg1 }
  else if off = 0x890 then { t with notSkein := v.setWidth 16, notEn := flag v 16 }
  else if off = 0x8A0 && flag v 31 then { t with sknErrV := false, dropCount := 0 }
  else t

def commitSkein (n : Fin 8) (off : Nat) (v : Word32) (s : State) : State :=
  if off < 0x840 then commitSknModule off v s else s.modTen n (Tenant.commitSkn off v)

def actSkein (n : Fin 8) (off : Nat) (v : Word32) (s : State) : State :=
  if off = 0x800 && flag v 16 then sknAlloc s.skn.alBlock s.skn.alSlot s
  else if off = 0x840 && flag v 31 then sknSelGo n s.tenants[n].sknSel s.tenants[n].sknOp.toNat s
  else s

/-! ## MRAM -/

def commitMram (off : Nat) (v : Word32) (s : State) : State :=
  s.modMram fun m =>
    if off = 0xC00 then
      { m with wfail := m.wfail && !flag v 16, mergeBad := m.mergeBad && !flag v 17, portDrop := m.portDrop && !flag v 18 }
    else if off = 0xC04 then { m with wfailV := m.wfailV && !flag v 31 }
    else if off = 0xC30 then { m with partCtl := partCtlOf (field v 5 0) (field v 11 8) (flag v 12) (field v 17 16) m.partCtl }
    else if off = 0xC40 then { m with limit := writeFields [rwIn 5 0 2 40, rw 9 8, rw 13 12] v m.limit }
    else if off = 0xC44 then { m with disturb := m.disturb && !flag v 16 }
    else m

def actMram (off : Nat) (v : Word32) (s : State) : State :=
  if off = 0xC20 && flag v 0 then memHotClr s
  else if off = 0xC30 && flag v 31 then partRunGo (field v 11 8) s
  else s

/-! ## Integrity -/

def commitInteg (n : Fin 8) (off : Nat) (v : Word32) (s : State) : State :=
  if off = 0xE40 then s.modTen n fun t => { t with scanCtl := scanCtlOf v t.scanCtl }
  else if off = 0xE44 then
    s.modTen n fun t => { t with scanCnt := if 1 ≤ field v 18 0 && field v 18 0 ≤ 262144 then field v 18 0 else t.scanCnt }
  else if off = 0xE80 then purgeSuspend (flag v 0) s
  else s.modInt fun i =>
    if off = 0xE00 then { i with ctl := writeFields [rw 0 0, rw 5 4, rwIn 11 8 0 10] v i.ctl }
    else if off = 0xE14 then { i with ueV := i.ueV && !flag v 31 }
    else if off = 0xE18 then { i with rstV := i.rstV && !flag v 31 }
    else if off = 0xE20 then { i with swArr := if flag v 4 then .B else .A }
    else i

def actInteg (n : Fin 8) (off : Nat) (v : Word32) (s : State) : State :=
  if off = 0xE20 && flag v 0 then swatchStart s
  else if off = 0xE40 then
    let s := if flag v 31 then cutScan n scanStopped s else s
    if flag v 30 then scanGo n s else s
  else s

/-! ## Radio -/

def commitPhy (off : Nat) (v : Word32) (s : State) : State :=
  if off = 0x1000 then w2Write (flag v 0) s
  else if off = 0x1014 then
    (chanWrite (v.setWidth 8) s).modPhy fun p => { p with maskRef := p.maskRef && !flag v 16 }
  else if 0x1080 ≤ off && off < 0x109C then hopmaskWrite (finOf 7 ((off - 0x1080) / 4)) v s
  else s.modPhy fun p =>
    if off = 0x1010 then { p with ctl := writeFields [rw 0 0, rw 1 1, { hi := 15, lo := 8, ok := signedIn (-20) 20 }] v p.ctl }
    else if off = 0x1018 then
      { p with lbt := writeFields [{ hi := 7, lo := 0, ok := signedIn (-110) (-70) }, rwIn 11 8 1 15, rw 15 12, rwIn 27 16 1 360] v p.lbt }
    else if off = 0x101C then { p with txpwr := if field v 5 0 ≤ 52 then v.setWidth 6 else p.txpwr }
    else if 0x1040 ≤ off && off < 0x104C then { p with shape := setRegOfWord p.shape ((off - 0x1040) / 4) v }
    else if off = 0x104C then { p with shape := setRegOfWord p.shape 3 (v &&& 0xFFFF) }
    else if off = 0x1050 then { p with load := writeFields [rw 3 0, rwIn 6 4 0 6] v p.load }
    else if off = 0x1060 then { p with gsel := finOf 64 (field v 5 0) }
    else p

/-- `PHY_CNT_CLR.GO` zeroes the counters of `PHY_RXCNT`, `PHY_RXCNT2` and `PHY_TXCNT`. -/
def phyCntClr (s : State) : State :=
  s.modPhy fun p => { p with hdrBad := 0, lenBad := 0, tentDis := 0, fallback := 0, regDrop := 0 }

def actPhy (off : Nat) (v : Word32) (s : State) : State := if off = 0x10B0 && flag v 0 then phyCntClr s else s

/-- The registers of tone-map slot k among those written, as one line (R256); a pool slot is the loading loop's while it is on (R331). -/
def commitToneMap (k : Fin 16) (regs : List (Nat × Word32)) (s : State) : State :=
  let mine := regs.filter fun r => 0x1100 + 16 * k.val ≤ r.1 && r.1 < 0x1110 + 16 * k.val
  if mine.isEmpty || (s.loopOn loopLoading && s.mac.pool.getLsbD k.val) then s
  else
    let new (t : ToneMap) : ToneMap := toneMapOf (mine.foldl (fun w r => setRegOfWord w (r.1 % 16 / 4) r.2) t.word) t
    sysPlain (tmapIdx k.val) 0 (s.modPhy fun p => { p with tmaps := upd p.tmaps k new })

/-! ## MAC -/

/-- MIN_BE and MAX_BE are 0 to 8 and MIN_BE is not above MAX_BE, else neither is changed; the other fields take effect. -/
def csmaOf (v old : Word32) : Word32 :=
  let be := if field v 3 0 ≤ field v 7 4 && field v 7 4 ≤ 8 then [rw 3 0, rw 7 4] else []
  writeFields (be ++ [rwIn 11 8 0 7, rwIn 15 12 0 7, rwIn 23 16 1 255]) v old

def Mac.commitModule (off : Nat) (v : Word32) (m : Mac) : Mac :=
  if off = 0x1404 then { m with trackEn := flag v 0, sniffEn := flag v 1 }
  else if off = 0x1408 then { m with
    skip := BitVec.ofNat 8 (field v 23 16)
    lostMax := if field v 27 24 = 0 then m.lostMax else BitVec.ofNat 4 (field v 27 24)
    search := if field v 31 28 = 0 then m.search else BitVec.ofNat 4 (field v 31 28) }
  else if off = 0x1414 then { m with csma := csmaOf v m.csma }
  else if off = 0x1418 then { m with wor := writeFields [rwIn 10 0 1 1600, rwIn 23 16 1 255, rwIn 31 24 1 255] v m.wor }
  else if 0x1440 ≤ off && off < 0x1480 then
    { m with groups := upd m.groups (finOf 16 ((off - 0x1440) / 4)) fun g => writeFields [rw 16 0] v g }
  else if off = 0x1480 then { m with nbEntry := finOf 64 (field v 5 0), nbOp := BitVec.ofNat 2 (field v 9 8) }
  else if 0x1490 ≤ off && off < 0x14A0 then { m with nbWord := setRegOfWord m.nbWord ((off - 0x1490) / 4) v }
  else m

/-- A tenant's endpoint and flow registers. -/
def commitMacTenant (n : Fin 8) (off : Nat) (v : Word32) (s : State) : State :=
  let i := flowNo n (finOf 8 (off % 256 / 16))
  let k := off % 16 / 4
  if off < 0x1580 then
    s.modEp i fun e => match k with
      | 0 => { e with ep := writeFields [rw 17 0, rwIn 21 18 4 12, rwIn 23 22 0 2, rw 30 24] v e.ep }
      | 1 => { e with cpl := finOf 64 (field v 5 0) }
      | _ => e
  else if 0x1600 ≤ off && off < 0x1680 then
    match k with
    | 0 => s.modFlow i fun f => { f with flow := v }
    | 1 => flowbWrite i (v &&& 0x8003F3FF) s
    | _ => s
  else s

def commitMac (n : Fin 8) (off : Nat) (v : Word32) (s : State) : State :=
  if off < 0x1500 then s.modMac (Mac.commitModule off v) else commitMacTenant n off v s

/-- `MAC_NBCTL.GO` by its OP. -/
def nbGo (s : State) : State :=
  match s.mac.nbOp.toNat with
  | 1 => nbRead s.mac.nbEntry s
  | 2 => nbWrite s.mac.nbEntry s
  | 3 => nbDelete s.mac.nbEntry s
  | _ => s

def actMac (off : Nat) (v : Word32) (s : State) : State :=
  if off = 0x1404 then
    let s := if flag v 8 then assocGo s else s
    if flag v 9 then leaveGo s else s
  else if off = 0x1480 && flag v 31 then nbGo s
  else s

/-! ## Scheduler -/

/-- The FW nibbles 1 to 15 and the GATE pairs 1 to 3. -/
def fwFields : List RwField := (List.range 8).map fun f => rwIn (4 * f + 3) (4 * f) 1 15
def gateFields : List RwField := (List.range 8).map fun f => rwIn (2 * f + 1) (2 * f) 1 3

/-- `LOOP_THR`: while the threshold loop is on, CUR is clamped into the range (R333). -/
def thrOf (on : Bool) (v old : Word32) : Word32 :=
  let r := writeFields [rw 7 0, rw 15 8, rw 23 16, rwIn 31 24 1 255] v old
  let signed (hi lo : Nat) : Int := (BitVec.ofNat 8 (field r hi lo)).toInt
  if on then setField r 23 16 (BitVec.ofInt 8 (clampInt (signed 7 0) (signed 15 8) (signed 23 16))).toNat else r

def Mac.commitLoops (off : Nat) (v : Word32) (m : Mac) : Mac :=
  if off = 0x1900 then { m with loopCtl := writeFields [rw 2 0, rwIn 15 8 1 255] v m.loopCtl }
  else if off = 0x1904 then { m with loopPwr := writeFields [rwIn 5 0 0 52, rwIn 13 8 0 52, rw 20 16] v m.loopPwr }
  else if off = 0x1908 then { m with loopLoad := writeFields [rwIn 2 0 1 4, rwIn 5 4 0 2, rw 12 8, rwIn 23 16 1 255] v m.loopLoad }
  else if off = 0x190C then { m with pool := v.setWidth 16 }
  else if off = 0x1910 then { m with loopThr := thrOf (flag m.loopCtl 2) v m.loopThr }
  else if off = 0x1914 then { m with conflict := m.conflict &&& ~~~(v.setWidth 3) }
  else if off = 0x1918 then { m with lsel := finOf 64 (field v 5 0) }
  else m

def commitSched (n : Fin 8) (off : Nat) (v : Word32) (s : State) : State :=
  if off < 0x1820 then s.modTen (finOf 8 ((off - 0x1800) / 4)) fun t => { t with sw := v.setWidth 8 }
  else if off = 0x1820 then s.modTen n fun t => { t with fw := writeFields fwFields v t.fw }
  else if off = 0x1824 then s.modTen n fun t => { t with gate := (writeFields gateFields v (t.gate.setWidth 32)).setWidth 16 }
  else if 0x1840 ≤ off && off < 0x18C0 then
    (if off % 16 = 0 then shpWrite (finOf 8 ((off - 0x1840) / 16)) v s else s)
  else if 0x18C0 ≤ off && off < 0x1900 then
    if off % 8 = 0 then
      s.modTen (finOf 8 ((off - 0x18C0) / 8)) fun t => { t with polCfg := writeFields [rw 7 0, rwIn 15 8 1 255, rw 31 31] v t.polCfg }
    else s
  else s.modMac (Mac.commitLoops off v)

/-! ## Evaluator and release -/

def commitEva (n : Fin 8) (off : Nat) (v : Word32) (s : State) : State :=
  if off = 0x1C00 then s.modEva fun e => { e with ctl := writeFields [rw 0 0, rwIn 15 8 1 255, rw 23 16] v e.ctl }
  else if off = 0x1C10 then s.modTen n fun t => { t with trapV := t.trapV && !flag v 31 }
  else if off = 0x1C14 then s.modTen n fun t => { t with pulseLen := if field v 7 0 = 0 then t.pulseLen else v.setWidth 8 }
  else if off = 0x1C20 then (if flag v 8 then s.draw fun x s => relFaultClear (x.getLsbD 0) s else s)
  else if off = 0x1C30 then
    s.modEva fun e => { e with emerg := writeFields [rw 0 0, rw 6 4, rwIn 15 8 1 255, rwIn 31 16 1 65535] v e.emerg }
  else s

/-! ## Sensing, site time, ledger -/

def commitSense (off : Nat) (v : Word32) (s : State) : State :=
  if off = 0x2020 then
    snsCtlWrite (writeFields [rwIn 7 0 1 255, rwIn 11 8 0 10, rwIn 15 12 0 10, rw 19 16, rwIn 23 20 1 15, rw 31 24] v s.sns.ctl) s
  else s.modSns fun q =>
    if off = 0x2050 then { q with stCtl := writeFields [rwIn 7 0 1 255, rwIn 23 8 1 65535] v q.stCtl }
    else if off = 0x2080 then { q with
      lenPend := if 1 ≤ field v 9 0 && field v 9 0 ≤ 744 then some (field v 9 0) else q.lenPend, wb := BitVec.ofNat 8 (field v 23 16) }
    else if off = 0x2084 then { q with originPend := some v.toNat }
    else q

def actSense (off : Nat) (v : Word32) (s : State) : State :=
  if off = 0x2024 && flag v 0 then snsClrChg s
  else if off = 0x204C then sourceValue 2 v.toNat s
  else s

/-! ## Recorder -/

/-- `REC_RL_c`: BURST and INTERVAL, 0 reserved in both. -/
def rateOf (v : Word32) (r : Byte × BitVec 16) : Byte × BitVec 16 :=
  (if field v 7 0 = 0 then r.1 else v.setWidth 8, if field v 23 8 = 0 then r.2 else BitVec.ofNat 16 (field v 23 8))

def commitRecModule (off : Nat) (v : Word32) (s : State) : State :=
  s.modLog fun l =>
    if off = 0x2200 then { l with ctl := writeFields [rwIn 3 0 0 10, rw 11 8] v l.ctl }
    else if 0x22A4 ≤ off && off < 0x22E0 then { l with rl := upd l.rl (finOf 16 ((off - 0x22A0) / 4)) (rateOf v) }
    else if off = 0x22E0 then
      { l with bindCode := v.setWidth 12, bindCls := BitVec.ofNat 4 (field v 19 16), bindOp := flag v 24 }
    else if off = 0x22E4 then { l with allocCh := finOf 8 (field v 2 0) }
    else if off = 0x22E8 then { l with clrCh := finOf 8 (field v 2 0) }
    else if off = 0x22F0 then { l with clrCode := setHalf l.clrCode false v }
    else if off = 0x22F4 then { l with clrCode := setHalf l.clrCode true v }
    else if off = 0x2350 then { l with audCode := setHalf l.audCode false v }
    else if off = 0x2354 then { l with audCode := setHalf l.audCode true v }
    else l

def Tenant.commitRec (off : Nat) (v : Word32) (t : Tenant) : Tenant :=
  if off = 0x2300 then { t with postCode := v.setWidth 12 }
  else if 0x2310 ≤ off && off < 0x2330 then { t with postV := upd t.postV (finOf 8 ((off - 0x2310) / 4)) fun _ => v }
  else if off = 0x2360 then { t with feed := writeFields [rw 16 0, rwIn 18 17 0 2, rw 22 20, rw 26 24] v t.feed }
  else t

def commitRecorder (p : Port) (n : Fin 8) (off : Nat) (v : Word32) (s : State) : State :=
  if off = 0x2340 then s.modPort p fun q => { q with rdStart := v }
  else if off = 0x2344 then s.modPort p fun q => { q with
    rdCh := finOf 8 (field v 2 0), rdMode := BitVec.ofNat 2 (field v 5 4), rdOp := BitVec.ofNat 2 (field v 9 8) }
  else if recTenant off then s.modTen n (Tenant.commitRec off v)
  else commitRecModule off v s

/-- `REC_BIND.GO` by its OP: load the class, or write it. -/
def bindGo (s : State) : State := if s.log.bindOp then bindWrite s.log.bindCode s.log.bindCls s else bindLoad s.log.bindCode s

def actRecorder (p : Port) (n : Fin 8) (off : Nat) (v : Word32) (s : State) : State :=
  if off = 0x220C then recToC (BitVec.ofNat 8 (field v 15 8)) s
  else if off = 0x22E0 && flag v 31 then bindGo s
  else if off = 0x22E8 && flag v 31 then recClr s.log.clrCh s
  else if off = 0x2300 && flag v 31 then recPostGo n s.tenants[n].postCode s
  else if off = 0x2344 && flag v 31 then rdGo p n (s.port p).rdCh (s.port p).rdOp (s.port p).rdMode s
  else if off = 0x2358 && flag v 0 then auditGo p s
  else s

/-! ## One register -/

/-- A module-wide register with a field that a write changes or starts (R94). -/
def moduleWide (off : Nat) : Bool :=
  if off < 0x300 then
    off = 0x100 || off = 0x110 || off = 0x114 || off = 0x120 || (0x200 ≤ off && off < 0x280 && (off % 16 = 0 || off % 16 = 12)) ||
      off = 0x280 || (0x290 ≤ off && off < 0x2AC) || off = 0x2D0 || 0x2E0 ≤ off
  else if off < 0x1000 then
    off = 0x700 || off = 0x800 || (0x810 ≤ off && off ≤ 0x830) || off = 0xC00 || off = 0xC04 || off = 0xC20 || off = 0xC30 || off = 0xC40 ||
      off = 0xC44 || off = 0xE00 || off = 0xE14 || off = 0xE18 || off = 0xE20 || off = 0xE80
  else if off < 0x1500 then
    off = 0x1000 || (0x1010 ≤ off && off < 0x1020) || (0x1040 ≤ off && off < 0x1054) || off = 0x1060 || (0x1080 ≤ off && off < 0x109C) ||
      off = 0x10B0 || (0x1100 ≤ off && off < 0x1200) || off = 0x1404 || off = 0x1408 || off = 0x1414 || off = 0x1418 ||
      (0x1440 ≤ off && off < 0x1484) || (0x1490 ≤ off && off < 0x14A0)
  else if off < 0x2000 then
    (0x1800 ≤ off && off < 0x1820) || (0x1840 ≤ off && off < 0x18C0 && off % 16 = 0) || (0x18C0 ≤ off && off < 0x1900 && off % 8 = 0) ||
      (0x1900 ≤ off && off < 0x191C) || off = 0x1C00 || off = 0x1C20 || off = 0x1C30
  else
    off = 0x2020 || off = 0x2024 || off = 0x204C || off = 0x2050 || off = 0x2080 || off = 0x2084 || off = 0x2200 || off = 0x220C ||
      (0x22A4 ≤ off && off < 0x22EC) || off = 0x22F0 || off = 0x22F4 || off = 0x2350 || off = 0x2354 || off = 0x2358 || off = 0x2404 ||
      off = 0x2410

/-- The value a write leaves in the register at `off`, through slot n; the lines of `TMAP` are committed by `commitToneMap`. -/
def commitReg (p : Port) (n : Fin 8) (off : Nat) (v : Word32) (s : State) : State :=
  if off < 0x100 then s
  else if off < 0x200 then commitPower off v s
  else if off < 0x300 then commitTenant off v s
  else if off < 0x400 then s
  else if off < 0x800 then commitEngine n off v s
  else if off < 0xC00 then commitSkein n off v s
  else if off < 0xE00 then commitMram off v s
  else if off < 0x1000 then commitInteg n off v s
  else if off < 0x1400 then commitPhy off v s
  else if off < 0x1800 then commitMac n off v s
  else if off < 0x1C00 then commitSched n off v s
  else if off < 0x2000 then commitEva n off v s
  else if off < 0x2200 then commitSense off v s
  else if off < 0x2400 then commitRecorder p n off v s
  else if off = 0x2404 then s.modLife fun l => { l with valid := l.valid && !flag v 31 }
  else s

/-- A write of this register writes its word of the system area by itself: it has a row of its own. -/
def ownWord (off : Nat) : Bool :=
  off = 0x1000 || (0x1080 ≤ off && off < 0x109C) || (0x1840 ≤ off && off < 0x18C0) || (0x1600 ≤ off && off < 0x1680 && off % 16 = 4)

/-- A register takes its value, and the word of one marked sys is written (R31, R190). -/
def commitStored (p : Port) (n : Fin 8) (off : Nat) (v : Word32) (s : State) : State :=
  let s := commitReg p n off v s
  if ownWord off then s else sysSetting n off s

/-- The action that a written register starts. -/
def actReg (p : Port) (n : Fin 8) (off : Nat) (v : Word32) (s : State) : State :=
  if off < 0x200 then s
  else if off < 0x300 then actTenant off v s
  else if off < 0x400 then actNeedle p n off v s
  else if off < 0x800 then actEngine n off v s
  else if off < 0xC00 then actSkein n off v s
  else if off < 0xE00 then actMram off v s
  else if off < 0x1000 then actInteg n off v s
  else if off < 0x1400 then actPhy off v s
  else if off < 0x1800 then actMac off v s
  else if off < 0x2000 then s
  else if off < 0x2200 then actSense off v s
  else if off < 0x2400 then actRecorder p n off v s
  else if off = 0x2410 && flag v 0 then recast_ p s
  else s

/-! ## The registers of one transaction -/

/-- Through the window on slot n, `f` on a register it may write; a module-wide one from a slot other than 0 is path 0x7 of R37, once. -/
def throughSlot (n : Fin 8) (off : Nat) (f : State → State) (s : State) : State :=
  if n ≠ 0 && moduleWide off then s else f s

/-- A register takes its value, by what the port reached when the transaction committed. -/
def commitOne (s0 : State) (p : Port) (r : Nat × Word32) (s : State) : State :=
  match s0.reach p r.1 with
  | .ident => commitIdent p r.1 r.2 s
  | .slot n => if n ≠ 0 && moduleWide r.1 then violate n 7 r.1 s else commitStored p n r.1 r.2 s
  | _ => s

/-- Its actions; in HALT with SYS_TABLE a RECAST is reached from any port (R425, R428). -/
def actOne (s0 : State) (p : Port) (r : Nat × Word32) (s : State) : State :=
  match s0.reach p r.1 with
  | .ident => actIdent p r.1 r.2 s
  | .slot n => throughSlot n r.1 (actReg p n r.1 r.2) s
  | .readOnly => if r.1 = 0x2410 && flag r.2 0 && s0.haltTable then recast_ p s else s
  | _ => s

/-- The tone-map lines of the transaction, from a port open on slot 0. -/
def commitToneMaps (s0 : State) (p : Port) (regs : List (Nat × Word32)) (s : State) : State :=
  match s0.reach p 0x1100 with
  | .slot n => if n = 0 then State.each (List.finRange 16) (fun k s => commitToneMap k regs s) s else s
  | _ => s

/-- Commit the registers of one transaction, in ascending address order (R109). -/
def commitRegs (p : Port) (regs : List (Nat × Word32)) (s : State) : State :=
  let s1 := commitToneMaps s p regs (State.each regs (commitOne s p) s)
  State.each regs (actOne s p) s1

/-- The transaction needed a window that is not open. -/
def State.anyClosed (s : State) (p : Port) (regs : List (Nat × Word32)) : Bool := regs.any fun r => s.reach p r.1 = .closed

/-- `REGISTER_WRITE`: one register, written and committed. -/
def registerWrite (p : Port) (off : Nat) (v : Word32) (s : State) : State :=
  if !s.portWorks then s
  else if off % 4 ≠ 0 then malformed p malAlign (setupAddr p off) (s.clocksOf p 4) s
  else if s.anyClosed p [(off, v)] then malformed p malClosed (setupAddr p off) (s.clocksOf p 4) s
  else commitRegs p [(off, v)] s

def execRegisterWrite (p : Port) (off : BitVec 16) (val : Word32) (s : State) : Host.Outcome State Fault Refusal :=
  .next (registerWrite p off.toNat val s)

end Sys2Proof.Machine
end

