-- ==== Sys2Proof/Machine/Trans.lean ====
section
/-! DEFINITION. Whole transactions of the two host ports: reads and writes of every space, port B's commands, and malformed ones
(R91 to R96, R101 to R114, R123, R125, R126, R208 to R212, Tables PRT-7, PRT-7a, PRT-10). -/

namespace Sys2Proof.Machine

/-! ## Spaces of port A (Table PRT-2) -/

/-- Where a port A address lies: the MRAM window, a setup offset, a doorbell offset, or no space. -/
inductive Space where
  | mram (off : Nat)
  | setup (off : Nat)
  | bell (off : Nat)
  | nowhere
  deriving DecidableEq, Repr

def spaceOf (addr : Nat) : Space :=
  if addr < 0x400000 then .mram addr
  else if 0x40000000 ≤ addr && addr < 0x40003000 then .setup (addr - 0x40000000)
  else if 0x50000000 ≤ addr && addr < 0x50002000 then .bell (addr - 0x50000000)
  else .nowhere

/-- What a port reaches of the MRAM window, the doorbells and the addresses of no space: everything that needs a window and is no setup
register. -/
def State.reachWin (s : State) (p : Port) : Reach := s.reach p 0x400

/-- The bytes a port drives out. -/
def driveOut (p : Port) (bytes : List Byte) (s : State) : State := s.modPort p fun q => { q with out := bytes }

def zeroBytes (n : Nat) : List Byte := List.replicate n 0

/-! ## Reads of the MRAM window (R92, R114, R220, R235) -/

/-- A read under way: the state, the bytes so far, and whether an address lay outside the partition. -/
structure MemRd where
  st  : State
  out : List Byte
  iso : Bool

/-- A path 0x1 violation of a transaction, once, with the granule the offset names as index (R37, R92). -/
def outside (n : Fin 8) (off : Nat) (iso : Bool) (s : State) : State := if iso then s else violate n 1 (off / 65536) s

/-- A poisoned word has been returned: POISON is set, and its address captured when POISON was clear (R114). -/
def notePoison (p : Port) (addr : Nat) (s : State) : State :=
  (s.modPort p fun q => { q with poison := true, poisonAt := if q.poison then q.poisonAt else snap32 addr }).irq p irqPoison

/-- Read the word that holds window offset `off` for slot n. -/
def readWindowWord (p : Port) (n : Fin 8) (off : Nat) (r : MemRd) : MemRd :=
  if 0x400000 ≤ off then { r with out := r.out ++ zeroBytes 16 }
  else match r.st.windowKey n (off / 16) with
  | none => { st := outside n off r.iso r.st, out := r.out ++ zeroBytes 16, iso := true }
  | some k => match demandRead k r.st with
    | (s, .ok d _) => { r with st := s, out := r.out ++ bytesOf d }
    | (s, .bad c) => { r with st := notePoison p (off / 16 * 16) s, out := r.out ++ bytesOf (poisonWord c) }

/-- Words touched by `len` bytes from `off`. -/
def wordsTouched (off len : Nat) : Nat := if len = 0 then 0 else (off + len - 1) / 16 - off / 16 + 1

/-- Read `len` bytes from window offset `off`; a late first word is returned as all ones, with no other effect (R102). -/
def readWindow (p : Port) (n : Fin 8) (off len : Nat) (late : Bool) (s : State) : State × List Byte :=
  let m := wordsTouched off len
  let first : MemRd := { st := s, out := if late then List.replicate 16 0xFF else [], iso := false }
  let rest := if late then (List.range m).drop 1 else List.range m
  let r := rest.foldl (fun r i => readWindowWord p n (16 * (off / 16 + i)) r) first
  (r.st, (r.out.drop (off % 16)).take len)

/-! ## Reads of setup registers (R94, R95, R110) -/

/-- The bytes of `len` from setup offset `off`, and whether a register of them needed a window that is not open. -/
def State.readSetup (s : State) (p : Port) (off len : Nat) : List Byte × Bool :=
  let regs := (List.range (if len = 0 then 0 else (off + len - 1) / 4 - off / 4 + 1)).map fun i => s.portRead p (4 * (off / 4 + i))
  (((regs.flatMap fun r => bytesLE 4 r.1).drop (off % 4)).take len, regs.any (·.2))

/-- The first line as all ones when its data were late (R102). -/
def lateLine (off : Nat) (bs : List Byte) : List Byte :=
  List.replicate (min bs.length (16 - off % 16)) 0xFF ++ bs.drop (16 - off % 16)

/-! ## Writes of the MRAM window (R111, R125, R199, R208, R212, R217) -/

/-- Drop a port A word that finds no room: its word keeps its content (R208, R217). -/
def dropPortWord (k : Nat) (s : State) : State :=
  captureWfail (keyArr k) (keyIdx k) wfailPortDrop (s.modMram fun m => { m with portDrop := true, drops := satInc m.drops })

/-- A merge has found a bad old word: it does not write (R212). -/
def mergeFailed (k : Nat) (c : UncCause) (s : State) : State :=
  captureWfail (keyArr k) (keyIdx k) wfailMergeBad ((noteUnc k c s).modMram fun m => { m with mergeBad := true })

/-- Issue a port's word: port A's is accepted or dropped, port B's waits (Table MEM-9). -/
def portWord (p : Port) (n : Fin 8) (k : Nat) (d : Word128) (s : State) : State :=
  match p with
  | .a => (acceptAll [mkWrite k d n (.port .a)] s).getD (dropPortWord k s)
  | .b => issue [mkWrite k d n (.port .b)] (s.modPort .b fun q => { q with staged := q.staged + 1 })

/-- There is room for a port A word in this array, or the port waits for room. -/
def State.portRoom (s : State) (p : Port) (k : Nat) : Bool :=
  match p with
  | .a => s.mram.canAccept (match keyArr k with | .A => 1 | .B => 0) (match keyArr k with | .A => 0 | .B => 1)
  | .b => true

/-- Write `bytes` from byte i of the word of key k: a whole word needs no merge; a merge takes a BLANK word as zeros. -/
def writeBytes (p : Port) (n : Fin 8) (k i : Nat) (bytes : List Byte) (s : State) : State :=
  let put (old : Word128) (s : State) : State := portWord p n k (ofBytesLE 128 (overlay (bytesOf old) i bytes)) s
  if bytes.length = 16 then put 0 s
  else if !s.portRoom p k then dropPortWord k s
  else match s.readKey k with
  | .data d c => put d (if c then noteCorrected k s else s)
  | .blank c => put 0 (if c then noteCorrected k s else s)
  | .unc c => mergeFailed k c s

/-- The words of a burst, each in turn; one outside the partition has no effect. -/
def writeWords (p : Port) (n : Fin 8) : Nat → Nat → List Byte → Bool → State → State
  | 0, _, _, _, s => s
  | m + 1, off, bytes, iso, s =>
    let i := off % 16
    let part := bytes.take (16 - i)
    let rest := bytes.drop (16 - i)
    if 0x400000 ≤ off then s
    else match s.windowKey n (off / 16) with
    | none => writeWords p n m (off - i + 16) rest true (outside n off iso s)
    | some k => writeWords p n m (off - i + 16) rest iso (writeBytes p n k i part s)

def writeWindow (p : Port) (n : Fin 8) (off : Nat) (bytes : List Byte) (s : State) : State :=
  writeWords p n (wordsTouched off bytes.length) off bytes false s

/-! ## Staged register writes (R109) -/

/-- The registers of a write of `bytes` from `off`, complete ones only. -/
def regsOf : Nat → Nat → List Byte → List (Nat × Word32)
  | 0, _, _ => []
  | m + 1, off, bytes => (off, ofBytesLE 32 (bytes.take 4)) :: regsOf m (off + 4) (bytes.drop 4)

/-- The first offset that a transaction from `off` cannot reach: 16 lines on. -/
def stageEnd (off : Nat) : Nat := off / 16 * 16 + 256

/-- What a write from `off` stages, and in which ways it is malformed: bytes past the sixteenth line are LONG, else an incomplete register is
PART_REG. -/
def stage_ (off : Nat) (bytes : List Byte) (extra : Bool) : List (Nat × Word32) × List Nat :=
  let long := stageEnd off < off + bytes.length || (extra && stageEnd off = off + bytes.length)
  let bytes' := bytes.take (stageEnd off - off)
  (regsOf (bytes'.length / 4) off bytes',
    if long then [malLong] else if bytes.length % 4 ≠ 0 || extra then [malPartReg] else [])

/-- A doorbell register committed: the first of its line, at DOORBELL+0x10 × ring. -/
def ringBell (n : Fin 8) (r : Nat × Word32) (s : State) : State :=
  if r.1 % 16 ≠ 0 || 0x2000 ≤ r.1 then s
  else
    let ring := finOf 512 (r.1 / 16)
    if slotOfRing ring = n then doorbell ring r.2 s else violate n 1 ring.val s

/-- A value of the list only when it applies. -/
def onlyIf (b : Bool) (k : Nat) : List Nat := if b then [k] else []

/-! ## Port A transactions (Table PRT-7a) -/

/-- The address at which a transfer starts: in 8D-8D-8D mode an odd one is taken as the even address below (R103). -/
def State.startA (s : State) (addr : Nat) : Nat := if s.portA.mode8d && addr % 2 = 1 then addr - 1 else addr

def State.alignA (s : State) (addr : Nat) : List Nat := onlyIf (s.portA.mode8d && addr % 2 = 1) malAlign

/-- The clock count of a port A transaction: command, address, latency if the command has one, data bytes and odd bits.  In 8D-8D-8D mode, in which
both edges of a cycle carry data, the manual does not say whether a cycle counts as one clock edge or two: the model counts cycles (R113;
DESIGN CHOICE, log entry 183). -/
def State.clocksA (s : State) (latency : Bool) (bytes bits : Nat) : Nat :=
  (if s.portA.mode8d then 3 + (bytes + 1) / 2 else 40 + 8 * bytes + bits) + if latency then s.portA.lat.toNat else 0

/-- What a port A read returns, with its effects and the kinds it counts as. -/
def readA (addr len : Nat) (late : Bool) (s : State) : State × List Byte × List Nat :=
  match spaceOf addr with
  | .mram off => match s.reachWin .a with
    | .slot n => let r := readWindow .a n off len late s; (r.1, r.2, onlyIf late malLate)
    | .closed => (s, zeroBytes len, [malClosed])
    | _ => (s, zeroBytes len, [])
  | .setup off =>
    let r := s.readSetup .a off len
    (s, if late then lateLine off r.1 else r.1, onlyIf r.2 malClosed ++ onlyIf late malLate)
  | .bell off => (s, if late then lateLine off (zeroBytes len) else zeroBytes len,
      onlyIf (s.reachWin .a = .closed) malClosed ++ onlyIf late malLate)
  | .nowhere => (s, zeroBytes len, onlyIf (s.reachWin .a = .closed) malClosed)

def paRead (addr len : Nat) (late : Bool) (s : State) : State :=
  if !s.portWorks then s
  else
    let r := readA (s.startA addr) len late s
    malformedAll .a (s.alignA addr ++ r.2.2) addr (s.clocksA true len 0) (driveOut .a r.2.1 r.1)

def execPaRead (addr : Word32) (len : Nat) (late : Bool) (s : State) : Host.Outcome State Fault Refusal := .next (paRead addr.toNat len late s)

/-- What a port A write does, and the kinds it counts as; `extra` when it ends inside a byte. -/
def writeA (addr : Nat) (data : List Byte) (extra : Bool) (s : State) : State × List Nat :=
  match spaceOf addr with
  | .mram off => match s.reachWin .a with
    | .slot n => (writeWindow .a n off data s, onlyIf extra malPartByte)
    | .closed => (s, malClosed :: onlyIf extra malPartByte)
    | _ => (s, onlyIf extra malPartByte)
  | .setup off =>
    if off % 4 ≠ 0 then (s, [malAlign])
    else
      let st := stage_ off data extra
      (commitRegs .a st.1 s, onlyIf (s.anyClosed .a st.1) malClosed ++ st.2)
  | .bell off =>
    if off % 4 ≠ 0 then (s, [malAlign])
    else
      let st := stage_ off data extra
      match s.reachWin .a with
      | .slot n => (State.each st.1 (ringBell n) s, st.2)
      | .closed => (s, malClosed :: st.2)
      | _ => (s, st.2)
  | .nowhere => (s, onlyIf (s.reachWin .a = .closed) malClosed)

/-- The kinds of a transaction, each once. -/
def kindsOnce (l : List Nat) : List Nat := (List.range 12).filter fun k => l.contains k

def paWrite (addr : Nat) (data : List Byte) (extraBits : Nat) (s : State) : State :=
  if !s.portWorks then s
  else
    let r := writeA (s.startA addr) data (extraBits ≠ 0) s
    malformedAll .a (kindsOnce (s.alignA addr ++ r.2)) addr (s.clocksA false data.length extraBits) r.1

def execPaWrite (addr : Word32) (data : List Byte) (extraBits : Nat) (s : State) : Host.Outcome State Fault Refusal :=
  .next (paWrite addr.toNat data extraBits s)

/-- A word that port A has written is accepted and not yet stored. -/
def State.committingA (s : State) : Bool :=
  (s.mram.arrA.queue ++ s.mram.arrB.queue ++ s.mram.fhb).any fun e => e.writer = .port .a

/-- Read status: bit 0 while a commit from this port runs, bit 1 always 1. -/
def paReadStatus (s : State) : State := if s.portWorks then driveOut .a [orAll [bitAt 0 s.committingA, bitAt 1 true]] s else s

def execPaReadStatus (s : State) : Host.Outcome State Fault Refusal := .next (paReadStatus s)

/-- Write enable: accepted, no effect (Table PRT-7a). -/
def execPaWriteEnable (s : State) : Host.Outcome State Fault Refusal := .next s

/-- The SFDP image: its four signature bytes are those of JESD216; the manual gives no other byte (log entry 5). -/
def sfdpImage (i : Nat) : Byte :=
  match i with
  | 0 => 0x53
  | 1 => 0x46
  | 2 => 0x44
  | 3 => 0x50
  | _ => Config.sfdpByte i

def paReadSfdp (addr len : Nat) (s : State) : State :=
  if !s.portWorks then s
  else malformedAll .a (s.alignA addr) addr (s.clocksA true len 0)
    (driveOut .a ((List.range len).map fun i => sfdpImage (s.startA addr + i)) s)

def execPaReadSfdp (addr : Word32) (len : Nat) (s : State) : Host.Outcome State Fault Refusal := .next (paReadSfdp addr.toNat len s)

/-- Reset enable, then reset: as HRST_A_N (Table PRT-7a, R115). -/
def paReset (s : State) : State := if s.portWorks then resetPort .a s else s

def execPaReset (s : State) : Host.Outcome State Fault Refusal := .next (paReset s)

/-! ## Port B commands (R106 to R108, R112, Table PRT-7) -/

/-- PB_RDY is high: no command under way, and no word of a MEM_WRITE or a SKEIN_PUSH still waits (R107, Table MEM-9). -/
def State.rdyB (s : State) : Bool := s.portB.rdy && !s.mram.waitq.any fun e => e.writer = .port .b

/-- How a port B command with a header stands before its effect. -/
inductive PbStart where
  /-- refused, ignored or aborted: one kind, no effect -/
  | bad (kind : Nat)
  /-- its header and its length are right -/
  | good
  deriving DecidableEq, Repr

/-- The checks of a port B command: PB_RDY, the header's edges, the length's limit and multiple (R112, Table PRT-10). -/
def State.pbStart (s : State) (len mult limit edges : Nat) : PbStart :=
  if !s.rdyB then .bad malNotReady
  else if edges < 56 then .bad malFewEdges
  else if limit < len then .bad malLong
  else if len = 0 || len % mult ≠ 0 then .bad malLength
  else .good

/-- The bytes clocked out of `all` by the edges after a header: zeros past the data phase. -/
def clockedFrom (header : Nat) (all : List Byte) (edges : Nat) : List Byte :=
  let n := (edges - header) / 8
  all.take n ++ zeroBytes (n - all.length)

def clockedOut (all : List Byte) (edges : Nat) : List Byte := clockedFrom 56 all edges

/-- STATUS: four bytes of `PB_STAT`, at any time (Table PRT-7).  Too few and too many edges count as for every command (R112); STATUS carries no
address for the capture, so that is a free value (log entry 185). -/
def pbStatus (edges : Nat) (s : State) : State :=
  if !s.portWorks then s
  else
    let t := driveOut .b (clockedFrom 8 (bytesLE 4 (s.portB.reg 5)) edges) s
    if edges = 40 then t
    else t.draw fun v t => malformed .b (if edges < 40 then malFewEdges else malSurplus) (v.toNat % 2 ^ 32) edges t

def execPbStatus (edges : Nat) (s : State) : Host.Outcome State Fault Refusal := .next (pbStatus edges s)

/-- A read of `len` bytes: short of edges it has no effect but the bytes it drove out; with surplus edges it takes effect. -/
def pbRead (addr len mult edges : Nat) (work : State → State × List Byte × List Nat) (s : State) : State :=
  if !s.portWorks then s
  else match s.pbStart len mult 256 edges with
  | .bad k => malformed .b k addr edges s
  | .good =>
    let r := work s
    if edges < 56 + 8 * len then malformed .b malFewEdges addr edges (driveOut .b (clockedOut r.2.1 edges) s)
    else malformedAll .b (kindsOnce (r.2.2 ++ onlyIf (56 + 8 * len < edges) malSurplus)) addr edges (driveOut .b (clockedOut r.2.1 edges) r.1)

/-- A write of `len` bytes: committed only after a complete data phase. -/
def pbWrite (addr len mult limit edges : Nat) (work : State → State × List Nat) (s : State) : State :=
  if !s.portWorks then s
  else match s.pbStart len mult limit edges with
  | .bad k => malformed .b k addr edges s
  | .good =>
    if edges < 56 + 8 * len then malformed .b malFewEdges addr edges s
    else
      let r := work s
      malformedAll .b (kindsOnce (r.2 ++ onlyIf (56 + 8 * len < edges) malSurplus)) addr edges r.1

/-- What needs the open window of port B: `act` through it, `shut` bytes without it. -/
def throughB (shut : List Byte) (act : Fin 8 → State → State × List Byte) (s : State) : State × List Byte × List Nat :=
  match s.reachWin .b with
  | .slot n => let r := act n s; (r.1, r.2, [])
  | .closed => (s, shut, [malClosed])
  | _ => (s, shut, [])

def throughBW (act : Fin 8 → State → State) (s : State) : State × List Nat :=
  match s.reachWin .b with
  | .slot n => (act n s, [])
  | .closed => (s, [malClosed])
  | _ => (s, [])

def regReadB (addr len : Nat) (s : State) : State × List Byte × List Nat :=
  let r := s.readSetup .b addr len
  (s, r.1, onlyIf r.2 malClosed)

def execPbRegRead (addr : Word32) (len : BitVec 16) (edges : Nat) (s : State) : Host.Outcome State Fault Refusal :=
  .next (pbRead addr.toNat len.toNat 4 edges (regReadB addr.toNat len.toNat) s)

def regWriteB (addr len : Nat) (data : List Byte) (s : State) : State × List Nat :=
  if addr % 4 ≠ 0 then (s, [malAlign])
  else
    let st := stage_ addr (data.take len) false
    (commitRegs .b st.1 s, onlyIf (s.anyClosed .b st.1) malClosed ++ st.2)

def execPbRegWrite (addr : Word32) (len : BitVec 16) (data : List Byte) (edges : Nat) (s : State) : Host.Outcome State Fault Refusal :=
  .next (pbWrite addr.toNat len.toNat 4 256 edges (regWriteB addr.toNat len.toNat data) s)

def memReadB (addr len : Nat) : State → State × List Byte × List Nat :=
  throughB (zeroBytes len) fun n s => if addr < 0x400000 then readWindow .b n addr len false s else (s, zeroBytes len)

def execPbMemRead (addr : Word32) (len : BitVec 16) (edges : Nat) (s : State) : Host.Outcome State Fault Refusal :=
  .next (pbRead addr.toNat len.toNat 1 edges (memReadB addr.toNat len.toNat) s)

def memWriteB (addr len : Nat) (data : List Byte) : State → State × List Nat :=
  throughBW fun n s => writeWindow .b n addr (data.take len) (s.modPort .b fun q => { q with staged := 0 })

def execPbMemWrite (addr : Word32) (len : BitVec 16) (data : List Byte) (edges : Nat) (s : State) : Host.Outcome State Fault Refusal :=
  .next (pbWrite addr.toNat len.toNat 1 256 edges (memWriteB addr.toNat len.toNat data) s)

/-- DOORBELL: a ring number past 511 is no ring, and the write has no effect (R17). -/
def doorbellB (addr : Nat) (data : List Byte) : State → State × List Nat :=
  throughBW fun n s => if addr < 512 then ringBell n (16 * addr, ofBytesLE 32 (data.take 4)) s else s

def execPbDoorbell (addr : Word32) (len : BitVec 16) (data : List Byte) (edges : Nat) (s : State) : Host.Outcome State Fault Refusal :=
  .next (pbWrite addr.toNat len.toNat 4 4 edges (doorbellB addr.toNat data) s)

/-- The skein number of a command: the low 16 bits of its address field (Table PRT-7; DEDUCED, log entry 56). -/
def skeinOf (addr : Nat) : BitVec 16 := BitVec.ofNat 16 addr

def skeinPushB (addr len : Nat) (data : List Byte) : State → State × List Nat :=
  throughBW fun n s => pbPush n (skeinOf addr) (wordsOf (len / 16) data) (s.modPort .b fun q => { q with staged := 0 })

def execPbSkeinPush (addr : Word32) (len : BitVec 16) (data : List Byte) (edges : Nat) (s : State) : Host.Outcome State Fault Refusal :=
  .next (pbWrite addr.toNat len.toNat 16 256 edges (skeinPushB addr.toNat len.toNat data) s)

/-- Window offset of the store word of a bad item, for `PB_POISON`. -/
def State.poisonOff (s : State) (k : Nat) : Nat :=
  match keyGran k with
  | some g => 16 * (s.mram.part[g].pos * 4096 + keyIdx k % 4096)
  | none => 0

/-- Pop m items for port B (R176, R177, R181, R183). -/
def popB (n : Fin 8) (sk : BitVec 16) (m : Nat) (s : State) : State × List Byte :=
  let shut := (List.replicate m notValidItem).flatMap bytesOf
  if s.skeinOwner sk ≠ some n then (setPbRes n sknIsolation 0 (violate n 4 (blockOf sk) s), shut)
  else if (s.skein sk).isNone then (setPbRes n sknState 0 s, shut)
  else
    let l := loadSkein sk s
    if !l.2 then (setPbRes n sknMismatch 0 l.1, (List.replicate m (l.1.emptyRead sk)).flatMap bytesOf)
    else
      let r := pbPopGo n sk m { st := l.1, words := [], data := 0, lanes := [], bad := [] }
      let s := settlePops n sk r.lanes r.st
      let s := State.each r.bad (fun k s => notePoison .b (s.poisonOff k) s) s
      (setPbRes n sknOk r.data s, r.words.flatMap bytesOf)

def skeinPopB (addr len : Nat) : State → State × List Byte × List Nat :=
  throughB ((List.replicate (len / 16) notValidItem).flatMap bytesOf) fun n s => popB n (skeinOf addr) (len / 16) s

def execPbSkeinPop (addr : Word32) (len : BitVec 16) (edges : Nat) (s : State) : Host.Outcome State Fault Refusal :=
  .next (pbRead addr.toNat len.toNat 16 edges (skeinPopB addr.toNat len.toNat) s)

/-! ## Cut and unknown commands (Table PRT-10, kinds 0x0 and 0x1) -/

def flawKind : CmdFlaw → Nat
  | .cut => malCmdShort
  | .unknown => malBadCmd

/-- A transaction that ends within its command, or names none: counted, no effect. -/
def badCmd (p : Port) (flaw : CmdFlaw) (addr edges : Nat) (s : State) : State :=
  if s.portWorks then malformed p (flawKind flaw) addr edges s else s

def execBadCmd (p : Port) (flaw : CmdFlaw) (addr : Word32) (edges : Nat) (s : State) : Host.Outcome State Fault Refusal :=
  .next (badCmd p flaw addr.toNat edges s)

end Sys2Proof.Machine
end

