-- ==== Sys2Proof/Machine/Dispatch.lean ====
section
/-! DEFINITION. The meaning of each command: one direct call for every row of the table. -/

namespace Sys2Proof.Machine

def exec (i : Instr) (s : State) : Host.Outcome State Fault Refusal :=
  match i with
  | .registerWrite p off val => Sys2Proof.Machine.execRegisterWrite p off val s
  | .powerOnReset vbat => Sys2Proof.Machine.execPowerOnReset vbat s
  | .storeCharged => Sys2Proof.Machine.execStoreCharged s
  | .storeFail => Sys2Proof.Machine.execStoreFail s
  | .earlyBreak asserted ge4us => Sys2Proof.Machine.execEarlyBreak asserted ge4us s
  | .castOn env => Sys2Proof.Machine.execCastOn env s
  | .domainPowerGood => Sys2Proof.Machine.execDomainPowerGood s
  | .domainFail => Sys2Proof.Machine.execDomainFail s
  | .tcxoCheck ok => Sys2Proof.Machine.execTcxoCheck ok s
  | .bindOff vbat => Sys2Proof.Machine.execBindOff vbat s
  | .supplyLoss vbat => Sys2Proof.Machine.execSupplyLoss vbat s
  | .storeBleedDone => Sys2Proof.Machine.execStoreBleedDone s
  | .vioLoss => Sys2Proof.Machine.execVioLoss s
  | .vioReturn => Sys2Proof.Machine.execVioReturn s
  | .calWindowEnd period => Sys2Proof.Machine.execCalWindowEnd period s
  | .wakeTimer sleepUs => Sys2Proof.Machine.execWakeTimer sleepUs s
  | .admissionRequest u power => Sys2Proof.Machine.execAdmissionRequest u power s
  | .chargeRelease u => Sys2Proof.Machine.execChargeRelease u s
  | .selectWake p => Sys2Proof.Machine.execSelectWake p s
  | .hostReset p widthNs => Sys2Proof.Machine.execHostReset p widthNs s
  | .paRead addr len late => Sys2Proof.Machine.execPaRead addr len late s
  | .paWrite addr data extraBits => Sys2Proof.Machine.execPaWrite addr data extraBits s
  | .paReadStatus => Sys2Proof.Machine.execPaReadStatus s
  | .paWriteEnable => Sys2Proof.Machine.execPaWriteEnable s
  | .paReadSfdp addr len => Sys2Proof.Machine.execPaReadSfdp addr len s
  | .paReset => Sys2Proof.Machine.execPaReset s
  | .pbStatus edges => Sys2Proof.Machine.execPbStatus edges s
  | .pbRegRead addr len edges => Sys2Proof.Machine.execPbRegRead addr len edges s
  | .pbRegWrite addr len data edges => Sys2Proof.Machine.execPbRegWrite addr len data edges s
  | .pbMemRead addr len edges => Sys2Proof.Machine.execPbMemRead addr len edges s
  | .pbMemWrite addr len data edges => Sys2Proof.Machine.execPbMemWrite addr len data edges s
  | .pbDoorbell addr len data edges => Sys2Proof.Machine.execPbDoorbell addr len data edges s
  | .pbSkeinPush addr len data edges => Sys2Proof.Machine.execPbSkeinPush addr len data edges s
  | .pbSkeinPop addr len edges => Sys2Proof.Machine.execPbSkeinPop addr len edges s
  | .portOpen p slot => Sys2Proof.Machine.execPortOpen p slot s
  | .portClose p => Sys2Proof.Machine.execPortClose p s
  | .openLockExpire p => Sys2Proof.Machine.execOpenLockExpire p s
  | .malClr p => Sys2Proof.Machine.execMalClr p s
  | .acquire p k lease => Sys2Proof.Machine.execAcquire p k lease s
  | .acquireWait p k lease => Sys2Proof.Machine.execAcquireWait p k lease s
  | .renew p k lease => Sys2Proof.Machine.execRenew p k lease s
  | .release p k => Sys2Proof.Machine.execRelease p k s
  | .clearOrphan p k => Sys2Proof.Machine.execClearOrphan p k s
  | .leaseExpire k => Sys2Proof.Machine.execLeaseExpire k s
  | .suspend p slot val => Sys2Proof.Machine.execSuspend p slot val s
  | .tenIsoClr p slot => Sys2Proof.Machine.execTenIsoClr p slot s
  | .lcGo p => Sys2Proof.Machine.execLcGo p s
  | .tallyBurn low high => Sys2Proof.Machine.execTallyBurn low high s
  | .doorbellPost p ring index => Sys2Proof.Machine.execDoorbellPost p ring index s
  | .doorbellResume p ring index => Sys2Proof.Machine.execDoorbellResume p ring index s
  | .doorbellDiscard p ring => Sys2Proof.Machine.execDoorbellDiscard p ring s
  | .doorbellHalt p ring => Sys2Proof.Machine.execDoorbellHalt p ring s
  | .ringCfgWrite p j val => Sys2Proof.Machine.execRingCfgWrite p j val s
  | .descriptorFetch => Sys2Proof.Machine.execDescriptorFetch s
  | .nop id => Sys2Proof.Machine.execNop id s
  | .writeImm id => Sys2Proof.Machine.execWriteImm id s
  | .copy id => Sys2Proof.Machine.execCopy id s
  | .fill id => Sys2Proof.Machine.execFill id s
  | .compare id => Sys2Proof.Machine.execCompare id s
  | .cas id => Sys2Proof.Machine.execCas id s
  | .add id => Sys2Proof.Machine.execAdd id s
  | .cmacCheck id => Sys2Proof.Machine.execCmacCheck id s
  | .ccmOpen id => Sys2Proof.Machine.execCcmOpen id s
  | .ccmSeal id => Sys2Proof.Machine.execCcmSeal id s
  | .evaluate id => Sys2Proof.Machine.execEvaluate id s
  | .skeinPush id => Sys2Proof.Machine.execSkeinPush id s
  | .skeinPop id => Sys2Proof.Machine.execSkeinPop id s
  | .keyLoad id => Sys2Proof.Machine.execKeyLoad id s
  | .keyActivate id => Sys2Proof.Machine.execKeyActivate id s
  | .keyRetire id => Sys2Proof.Machine.execKeyRetire id s
  | .keyDestroy id => Sys2Proof.Machine.execKeyDestroy id s
  | .lcChange id => Sys2Proof.Machine.execLcChange id s
  | .engFrogClr p => Sys2Proof.Machine.execEngFrogClr p s
  | .sknAlloc p block slot => Sys2Proof.Machine.execSknAlloc p block slot s
  | .sknQuotaWrite p slot quota => Sys2Proof.Machine.execSknQuotaWrite p slot quota s
  | .configure p skein => Sys2Proof.Machine.execConfigure p skein s
  | .unconfigure p skein => Sys2Proof.Machine.execUnconfigure p skein s
  | .flush p skein => Sys2Proof.Machine.execFlush p skein s
  | .drop p skein => Sys2Proof.Machine.execDrop p skein s
  | .query p skein => Sys2Proof.Machine.execQuery p skein s
  | .sync p skein => Sys2Proof.Machine.execSync p skein s
  | .allocate p granule owner zeroFill => Sys2Proof.Machine.execAllocate p granule owner zeroFill s
  | .setType p granule owner zeroFill => Sys2Proof.Machine.execSetType p granule owner zeroFill s
  | .writeAttempt arr ok => Sys2Proof.Machine.execWriteAttempt arr ok s
  | .remap arr ok => Sys2Proof.Machine.execRemap arr ok s
  | .memHotClr p => Sys2Proof.Machine.execMemHotClr p s
  | .fieldSample x y z => Sys2Proof.Machine.execFieldSample x y z s
  | .deferralEnd => Sys2Proof.Machine.execDeferralEnd s
  | .patrolRow => Sys2Proof.Machine.execPatrolRow s
  | .scrubWake => Sys2Proof.Machine.execScrubWake s
  | .repair => Sys2Proof.Machine.execRepair s
  | .scanGo p val => Sys2Proof.Machine.execScanGo p val s
  | .scanStop p => Sys2Proof.Machine.execScanStop p s
  | .scanDone => Sys2Proof.Machine.execScanDone s
  | .swatchGo p arr => Sys2Proof.Machine.execSwatchGo p arr s
  | .swatchDone result => Sys2Proof.Machine.execSwatchDone result s
  | .purgeSuspend p val => Sys2Proof.Machine.execPurgeSuspend p val s
  | .purgeRound => Sys2Proof.Machine.execPurgeRound s
  | .superframeBoundary receiving => Sys2Proof.Machine.execSuperframeBoundary receiving s
  | .phyHopmaskWrite p k val => Sys2Proof.Machine.execPhyHopmaskWrite p k val s
  | .phyChanWrite p fixed => Sys2Proof.Machine.execPhyChanWrite p fixed s
  | .compatW2PhyWrite p val => Sys2Proof.Machine.execCompatW2PhyWrite p val s
  | .lbtListenEnd windows gauge => Sys2Proof.Machine.execLbtListenEnd windows gauge s
  | .dutyBucketRoll => Sys2Proof.Machine.execDutyBucketRoll s
  | .frameTxStart => Sys2Proof.Machine.execFrameTxStart s
  | .frameTxEnd => Sys2Proof.Machine.execFrameTxEnd s
  | .beacon f => Sys2Proof.Machine.execBeacon f s
  | .dataFrame f => Sys2Proof.Machine.execDataFrame f s
  | .ackFrame f => Sys2Proof.Machine.execAckFrame f s
  | .wakeFrame f => Sys2Proof.Machine.execWakeFrame f s
  | .assocRsp f => Sys2Proof.Machine.execAssocRsp f s
  | .slotAssign f => Sys2Proof.Machine.execSlotAssign f s
  | .tonemap f => Sys2Proof.Machine.execTonemap f s
  | .tonemapReq f => Sys2Proof.Machine.execTonemapReq f s
  | .leave f => Sys2Proof.Machine.execLeave f s
  | .nbAdd f => Sys2Proof.Machine.execNbAdd f s
  | .nbDel f => Sys2Proof.Machine.execNbDel f s
  | .assoc p => Sys2Proof.Machine.execAssoc p s
  | .macLeave p => Sys2Proof.Machine.execMacLeave p s
  | .beaconWake => Sys2Proof.Machine.execBeaconWake s
  | .beaconWindowEnd => Sys2Proof.Machine.execBeaconWindowEnd s
  | .backoffExpire dbm => Sys2Proof.Machine.execBackoffExpire dbm s
  | .ackSend => Sys2Proof.Machine.execAckSend s
  | .ackTimeout => Sys2Proof.Machine.execAckTimeout s
  | .pendWaitExpire => Sys2Proof.Machine.execPendWaitExpire s
  | .sniffWake dbm => Sys2Proof.Machine.execSniffWake dbm s
  | .sniffListenEnd => Sys2Proof.Machine.execSniffListenEnd s
  | .rdvExpire => Sys2Proof.Machine.execRdvExpire s
  | .nbctlRead p entry => Sys2Proof.Machine.execNbctlRead p entry s
  | .nbctlWrite p entry => Sys2Proof.Machine.execNbctlWrite p entry s
  | .nbctlDelete p entry => Sys2Proof.Machine.execNbctlDelete p entry s
  | .sendOpportunity => Sys2Proof.Machine.execSendOpportunity s
  | .refill => Sys2Proof.Machine.execRefill s
  | .shpCfgWrite p slot val => Sys2Proof.Machine.execShpCfgWrite p slot val s
  | .flowEnable p f => Sys2Proof.Machine.execFlowEnable p f s
  | .tonemapPrevExpire entry => Sys2Proof.Machine.execTonemapPrevExpire entry s
  | .ldi => Sys2Proof.Machine.execLdi s
  | .mov => Sys2Proof.Machine.execMov s
  | .ldw => Sys2Proof.Machine.execLdw s
  | .stw => Sys2Proof.Machine.execStw s
  | .addw => Sys2Proof.Machine.execAddw s
  | .evaAdd => Sys2Proof.Machine.execEvaAdd s
  | .sub => Sys2Proof.Machine.execSub s
  | .and => Sys2Proof.Machine.execAnd s
  | .or => Sys2Proof.Machine.execOr s
  | .xor => Sys2Proof.Machine.execXor s
  | .shl => Sys2Proof.Machine.execShl s
  | .shr => Sys2Proof.Machine.execShr s
  | .addi => Sys2Proof.Machine.execAddi s
  | .beq => Sys2Proof.Machine.execBeq s
  | .bne => Sys2Proof.Machine.execBne s
  | .bltu => Sys2Proof.Machine.execBltu s
  | .bgeu => Sys2Proof.Machine.execBgeu s
  | .bbs => Sys2Proof.Machine.execBbs s
  | .jmp => Sys2Proof.Machine.execJmp s
  | .find => Sys2Proof.Machine.execFind s
  | .sense => Sys2Proof.Machine.execSense s
  | .snap => Sys2Proof.Machine.execSnap s
  | .hint => Sys2Proof.Machine.execHint s
  | .endProg => Sys2Proof.Machine.execEndProg s
  | .grantGroupAccept => Sys2Proof.Machine.execGrantGroupAccept s
  | .markWaitExpire => Sys2Proof.Machine.execMarkWaitExpire s
  | .pairDrive => Sys2Proof.Machine.execPairDrive s
  | .pulseEnd slot => Sys2Proof.Machine.execPulseEnd slot s
  | .holdEnd => Sys2Proof.Machine.execHoldEnd s
  | .releaseFault pins => Sys2Proof.Machine.execReleaseFault pins s
  | .relStatFaultClear p readbackOk => Sys2Proof.Machine.execRelStatFaultClear p readbackOk s
  | .unlockOrder sender w0 w1 => Sys2Proof.Machine.execUnlockOrder sender w0 w1 s
  | .cancelOrder sender w0 w1 => Sys2Proof.Machine.execCancelOrder sender w0 w1 s
  | .emergMarkRetry => Sys2Proof.Machine.execEmergMarkRetry s
  | .batterySample mv => Sys2Proof.Machine.execBatterySample mv s
  | .tempSample t => Sys2Proof.Machine.execTempSample t s
  | .doorChange level => Sys2Proof.Machine.execDoorChange level s
  | .boltChange level => Sys2Proof.Machine.execBoltChange level s
  | .snsClrChg p => Sys2Proof.Machine.execSnsClrChg p s
  | .stSet p val => Sys2Proof.Machine.execStSet p val s
  | .trustExpire => Sys2Proof.Machine.execTrustExpire s
  | .boundaryCrossing => Sys2Proof.Machine.execBoundaryCrossing s
  | .ledgerWriteback => Sys2Proof.Machine.execLedgerWriteback s
  | .periodWordWrite => Sys2Proof.Machine.execPeriodWordWrite s
  | .stitchOffer => Sys2Proof.Machine.execStitchOffer s
  | .chainTagDone ch => Sys2Proof.Machine.execChainTagDone ch s
  | .recClassToC p bits => Sys2Proof.Machine.execRecClassToC p bits s
  | .bindLoad p code => Sys2Proof.Machine.execBindLoad p code s
  | .bindWrite p code cls => Sys2Proof.Machine.execBindWrite p code cls s
  | .recClr p ch => Sys2Proof.Machine.execRecClr p ch s
  | .recPost p code => Sys2Proof.Machine.execRecPost p code s
  | .seek p ch mode => Sys2Proof.Machine.execSeek p ch mode s
  | .next p mode => Sys2Proof.Machine.execNext p mode s
  | .auditGo p => Sys2Proof.Machine.execAuditGo p s
  | .recast p => Sys2Proof.Machine.execRecast p s
  | .haltRetry env => Sys2Proof.Machine.execHaltRetry env s
  | .badCmd p flaw addr edges => Sys2Proof.Machine.execBadCmd p flaw addr edges s
  | .hdrBad f => Sys2Proof.Machine.execHdrBad f s
  | .lenBad f => Sys2Proof.Machine.execLenBad f s
  | .formatFail f => Sys2Proof.Machine.execFormatFail f s
  | .slotEnd => Sys2Proof.Machine.execSlotEnd s
  | .sleepEntry => Sys2Proof.Machine.execSleepEntry s
  | .assocNoReply => Sys2Proof.Machine.execAssocNoReply s
  | .storeExhausted step => Sys2Proof.Machine.execStoreExhausted step s
  | .badInsn => Sys2Proof.Machine.execBadInsn s
  | .sknSelBadOp p skein op => Sys2Proof.Machine.execSknSelBadOp p skein op s
  | .partCtlBadOp p op => Sys2Proof.Machine.execPartCtlBadOp p op s
  | .recRdBadReq p op mode => Sys2Proof.Machine.execRecRdBadReq p op mode s

end Sys2Proof.Machine
end

