-- ==== Sys2Proof/Machine/Tick.lean ====
section
/-! DEFINITION. What a millisecond of TICK_CLK does (DESIGN CHOICE, log entry 10): the counts that run with time, and what happens when one
of them runs out. -/

namespace Sys2Proof.Machine

/-- A held needle's lease counts down, and expires at 0; what the last tick released is a millisecond old (R121). -/
def tickNeedle (k : Fin 32) (s : State) : State :=
  let s := if s.needles[k].lapsed.isSome then s.modNeedle k fun d => { d with lapsed := none } else s
  if s.needles[k].holder.isNone then s
  else if s.needles[k].remain.toNat ≤ 1 then leaseExpire k s
  else s.modNeedle k fun d => { d with remain := d.remain - 1 }

/-- A second of site time: it holds still while it is ahead of its source (R371), else it counts, and the high-water mark rises with it. -/
def tickSecond (q : Sense) : Sense :=
  if q.holdSec ≠ 0 then { q with holdSec := q.holdSec - 1 }
  else
    let t := (q.time + 1) % 2 ^ 32
    { q with time := t, pw := { q.pw with hwm := max q.pw.hwm t } }

/-- A millisecond of site time, and of its age, with which trust ends (R370, R372). -/
def tickSiteTime (q : Sense) : Sense :=
  let q := { q with ageMs := if q.source = 0 then 0 else q.ageMs + 1 }
  let q := { q with trusted := q.trusted && decide (q.ageMs < 3600000 * field q.stCtl 23 8) }
  if q.frac + 1 < 1000 then { q with frac := q.frac + 1 } else tickSecond { q with frac := 0 }

/-- The charge counter integrates what was drawn: a free amount in nC (R367). -/
def tickCharge (s : State) : State :=
  s.draw fun v s => s.modSns fun q =>
    let t := q.chgSub + v.toNat % 2 ^ 20
    { q with chgSub := t % 10000, pw := { q.pw with chg := satNat 32 (q.pw.chg + t / 10000) } }

/-- The hold counts down, and ends at 0 (R356, R364). -/
def tickHold (s : State) : State :=
  if s.eva.holdMs = 0 then s
  else
    let s := s.modEva fun v => { v with holdMs := v.holdMs - 1 }
    if s.eva.hold && s.eva.holdMs = 0 then endHold s else s

/-- The pulses under way count down, and those whose time is over end (R353). -/
def tickPulses (s : State) : State :=
  if s.eva.pulses.isEmpty then s
  else
    let live := (s.eva.pulses.map fun q => { q with left := q.left - 1 }).filter fun q => q.left ≠ 0
    let ended : Bool := live.length ≠ s.eva.pulses.length
    let s := s.modEva fun v => { v with pulses := live }
    if ended then afterDrive true s else s

/-- A GRANT whose group has not been accepted counts its wait, and ends with MARK_WAIT (R351). -/
def tickGrant (s : State) : State :=
  match s.eva.cur with
  | none => s
  | some e => match e.phase with
    | .grantWait _ =>
      let s := s.modEval fun e => { e with waitMs := e.waitMs + 1 }
      if field s.eva.ctl 15 8 ≤ e.waitMs + 1 then markWaitExpire s else s
    | _ => s

/-- An order whose mark waits lapses when its hold would have ended (R356, R400). -/
def tickOrder (s : State) : State :=
  match s.eva.emergQ with
  | none => s
  | some q =>
    if q.hold ≤ 1 then lapse { q with hold := 0 } s
    else s.modEva fun v => { v with emergQ := some { q with hold := q.hold - 1 } }

/-- Time in the superframe; a clear listen has lasted past 200 us without its frame, and repeats (R270). -/
def tickRadio (s : State) : State :=
  let s := s.modMac fun m => { m with sfUs := m.sfUs + 1000 }
  if s.phy.txPhase = .ready && s.lbtOn && s.phy.clear then s.modPhy fun p => { p with txPhase := .listening, clear := false } else s

/-- A GRANT waits for its group to be accepted (R349). -/
def State.grantStalls (s : State) : Bool :=
  match s.eva.cur with
  | none => false
  | some e => match e.phase with
    | .grantWait reason => s.stagingStalls e.staged (grantStitch e reason s) (s.listWrites e.slot (matching verdictGrant e.list))
    | _ => false

/-- An emergency order waits for its mark to be accepted (R356). -/
def State.orderStalls (s : State) : Bool :=
  match s.eva.emergQ with
  | none => false
  | some q => s.stagingStalls q.staged (emergStitch q s) []

/-- Some writer of Table MEM-9 waits for room in the field hold buffer. -/
def State.writerWaits (s : State) : Bool := !s.mram.waitq.isEmpty || s.recorderStalls || s.grantStalls || s.orderStalls

/-- `FIELD_STALL` counts while a writer waits for the field hold buffer, in microseconds (R208). -/
def tickStall (s : State) : State := if s.writerWaits then s.modMram fun m => { m with stall := satAdd m.stall 1000 } else s

/-- A millisecond of TICK_CLK; without a supply nothing counts. -/
def tick (s : State) : State :=
  if s.power.supply = .por then s
  else
    let s := s.modLife fun l => { l with ms := l.ms + 1 }
    let s := State.each (List.finRange 32) tickNeedle s
    tickRadio (tickStall (tickCharge (tickGrant (tickOrder (tickHold (tickPulses (s.modSns tickSiteTime)))))))

end Sys2Proof.Machine
end

