-- ==== Sys2Proof/Safety.lean ====
section
/-! DEFINITION. What counts as a safe step, that it answers a next state, and the one form of the array's words. -/

namespace Sys2Proof.Machine

/-- The step answers a next state: neither a fault nor a refusal. -/
def Safe (s : State) : Prop := ∃ t, step s = .next t

/-- The canonical form of the array's words: keys strictly rising, and none listed that holds what an unlisted key reads as, a blank word. -/
abbrev Memory.wf (m : Sparse Raw147) : Prop := sorted m = true ∧ ∀ c ∈ m, c.2 ≠ blankRaw

end Sys2Proof.Machine
end

