-- ==== Sys2Proof/Certificates/Slice0/Obligations.lean ====
section
/-! DEFINITION. The statements for the provers, family by family.  "Completes" is said by an equation `exec c s = .next t` (or the existence of
such a t) under hypotheses on the state and the operands alone; a frame is said by writing t as s with the named parts replaced. -/

open Sys2Proof Sys2Proof.Machine

namespace Sys2Proof.Machine

/-! ## Words used by the statements -/

/-- The port works, and the register at `off` is reached through its window on slot n. -/
def Reached (p : Port) (off : Nat) (n : Fin 8) (s : State) : Prop := s.portWorks = true ∧ s.reach p off = .slot n

/-- t differs from s at most in what port p holds, and there only in what `f` keeps. -/
def OnlyPort (p : Port) (s t : State) : Prop := t = s.modPort p fun _ => t.port p

/-- The register write that a command stands for: its port, its setup offset, and whether the register is module-wide (R94).  RECAST, which R425
opens to any port in one HALT, has its own statement. -/
def gateOf : Instr → Option (Port × Nat × Bool)
  | .swatchGo p _ => some (p, 0xE20, true)
  | .purgeSuspend p _ => some (p, 0xE80, true)
  | .lcGo p => some (p, 0x2A8, true)
  | .nbctlRead p _ | .nbctlWrite p _ | .nbctlDelete p _ => some (p, 0x1480, true)
  | .assoc p | .macLeave p => some (p, 0x1404, true)
  | .memHotClr p => some (p, 0xC20, true)
  | .allocate p _ _ _ | .setType p _ _ _ | .partCtlBadOp p _ => some (p, 0xC30, true)
  | .phyHopmaskWrite p i _ => some (p, 0x1080 + 4 * i.val, true)
  | .phyChanWrite p _ => some (p, 0x1014, true)
  | .compatW2PhyWrite p _ => some (p, 0x1000, true)
  | .suspend p n _ => some (p, 0x200 + 16 * n.val, true)
  | .tenIsoClr p n => some (p, 0x20C + 16 * n.val, true)
  | .recClr p _ => some (p, 0x22E8, true)
  | .recClassToC p _ => some (p, 0x220C, true)
  | .bindLoad p _ | .bindWrite p _ _ => some (p, 0x22E0, true)
  | .auditGo p => some (p, 0x2358, true)
  | .relStatFaultClear p _ => some (p, 0x1C20, true)
  | .shpCfgWrite p n _ => some (p, 0x1840 + 16 * n.val, true)
  | .snsClrChg p => some (p, 0x2024, true)
  | .stSet p _ => some (p, 0x204C, true)
  | .sknAlloc p _ _ => some (p, 0x800, true)
  | .sknQuotaWrite p n _ => some (p, 0x810 + 4 * n.val, true)
  | .acquire p k _ | .acquireWait p k _ | .renew p k _ | .release p k | .clearOrphan p k => some (p, 0x300 + 8 * k.val, false)
  | .ringCfgWrite p j _ => some (p, 0x400 + 8 * j.val, false)
  | .engFrogClr p => some (p, 0x714, false)
  | .configure p _ | .unconfigure p _ | .flush p _ | .drop p _ | .query p _ | .sync p _ | .sknSelBadOp p _ _ => some (p, 0x840, false)
  | .scanGo p _ | .scanStop p => some (p, 0xE40, false)
  | .flowEnable p f => some (p, 0x1604 + 16 * f.val, false)
  | .recPost p _ => some (p, 0x2300, false)
  | .seek p _ _ | .next p _ | .recRdBadReq p _ _ => some (p, 0x2344, false)
  | _ => none

/-- The array's words are in canonical form, and every word that waits to be stored waits for the array its key lies in. -/
def MemForm (s : State) : Prop := Memory.wf s.mram.words ∧
  ∀ e ∈ s.mram.waitq ++ s.mram.fhb ++ s.mram.arrA.queue ++ s.mram.arrB.queue, ∀ k d b, e.tgt = .word k d b → e.arr = keyArr k

/-- t has issued writes of the system area at most: the stored words, the tables and what a read of each word finds are those of s. -/
def OnlyIssues (s t : State) : Prop :=
  t.mram = { s.mram with
    waitq := t.mram.waitq, fhb := t.mram.fhb, fwords := t.mram.fwords, nextTwin := t.mram.nextTwin
    arrA := { s.mram.arrA with queue := t.mram.arrA.queue }, arrB := { s.mram.arrB with queue := t.mram.arrB.queue } } ∧
  ∀ k, t.readKey k = s.readKey k

/-- A write of this item of the system area to array `a` has been issued and is not stored yet. -/
def WaitsFor (a : Arr) (i : SysItem) (t : State) : Prop :=
  ∃ e ∈ t.mram.waitq ++ t.mram.fhb ++ (t.mram.arr a).queue, e.tgt = .sys i ∧ e.arr = a

/-- The tables of skeins and of cached contexts name each key once, as every step keeps them (StepsKeepTheTablesInForm). -/
def SkeinForm (k : SkeinSt) : Prop := sorted k.skeins = true ∧ sorted k.blocks = true ∧ sorted k.stored = true ∧ (k.cache.map (·.key)).Nodup

end Sys2Proof.Machine

/-! ## The machine -/

/-- A step takes the command at the front of the queue and gives it its meaning with the rest of the queue. -/
def Obligations.StepRunsTheFrontCommand : Prop :=
  ∀ (c : Instr) (rest : List Instr) (s : State), step { s with pending := c :: rest } = exec c { s with pending := rest }

/-- After reset no command waits; the module stands before step 1 of its cast-on with AON alone on, RC_PERIOD 0x77359, PEAK_CEIL 0x610, VIO and the
store not valid; no array word is written and no tally antifuse conducts; every slot is FREE with role NONE, quota 480 and pulse length 25, every
needle free and ORPHANED with GEN 0, every key slot BLANK, every granule FREE without an owner, every ring disabled, both windows closed; the short
address is 0xFFFE, the MAC in UNSYNC, the fixed channel 0x28, the first period boundary 86,400 s, the recorder's queue empty; and the tables are in
canonical form. -/
def Obligations.ResetIsAsTheTablesGive : Prop :=
  let s := State.reset
  s.pending = [] ∧ s.life.state = .castOn ∧ s.power.domOn = 0x01 ∧ s.power.rcPeriod = 0x77359 ∧ s.power.peakCeil = 0x610 ∧
    s.power.vioOk = false ∧ s.power.storeOk = false ∧ s.mram.words = [] ∧ (∀ i, i < 270 → s.fuses.antifuses.getLsbD i = false) ∧
    (∀ n : Fin 8, s.tenants[n].st = .free ∧ s.tenants[n].role = .none ∧ s.tenants[n].quota = 480 ∧ s.tenants[n].pulseLen = 25) ∧
    (∀ k : Fin 32, s.needles[k].holder = none ∧ s.needles[k].orphaned = true ∧ s.needles[k].gen = 0) ∧
    (∀ k : Fin 36, s.keys[k].st = .blank) ∧ (∀ g : Fin 64, s.mram.part[g].st = .free ∧ s.mram.part[g].owner = 0xF) ∧
    (∀ r : Fin 512, (s.eng.rings[r]).ctx.en = false) ∧ s.portA.open? = none ∧ s.portB.open? = none ∧ s.mac.short = 0xFFFE ∧
    s.mac.state = .unsync ∧ s.phy.fixed = 0x28 ∧ s.sns.pw.next = 86400 ∧ s.log.queue = [] ∧ MemForm s ∧ SkeinForm s.skn

/-! ## Needles (R117 to R121) -/

/-- ACQUIRE and ACQUIRE_WAIT of a free needle of the open slot: held by the port with its slot, GEN one more, REMAIN the lease, answer OK; no other
needle and nothing but the port's two needle tables changes (R118, R121).  A held needle answers BUSY to both, whoever holds it, and no needle
changes; ACQUIRE_WAIT arms the port's NEEDLE interrupt, ACQUIRE does not change whether it is armed (R118). -/
def Obligations.NeedlesAreTakenByOneHolder : Prop :=
  (∀ (p : Port) (k : Fin 32) (lease : BitVec 16) (n : Fin 8) (s : State),
      Reached p (ndlOff k) n s → slotOfNeedle k = n → lease ≠ 0 → s.needles[k].holder = none →
      ∀ c ∈ [Instr.acquire p k lease, Instr.acquireWait p k lease], ∃ t, exec c s = .next t ∧
        t.needles[k] = { s.needles[k] with holder := some (p, n), port := p, gen := s.needles[k].gen + 1, remain := lease, lapsed := none } ∧
        (∀ j : Fin 32, j ≠ k → t.needles[j] = s.needles[j]) ∧ (t.port p).ndlResult[k] = 0 ∧ (t.port p).ndlWait[k] = false ∧
        t = ({ s with needles := t.needles }.modPort p fun q =>
          { q with ndlResult := (t.port p).ndlResult, ndlWait := (t.port p).ndlWait })) ∧
  (∀ (p : Port) (k : Fin 32) (lease : BitVec 16) (n : Fin 8) (s : State),
      Reached p (ndlOff k) n s → slotOfNeedle k = n → lease ≠ 0 → s.needles[k].holder ≠ none →
      (∃ t, exec (.acquire p k lease) s = .next t ∧ (t.port p).ndlResult[k] = 1 ∧ (t.port p).ndlWait = (s.port p).ndlWait ∧
        t = (s.modPort p fun q => { q with ndlResult := (t.port p).ndlResult })) ∧
      ∃ t, exec (.acquireWait p k lease) s = .next t ∧ (t.port p).ndlResult[k] = 1 ∧ (t.port p).ndlWait[k] = true ∧
        t = (s.modPort p fun q => { q with ndlResult := (t.port p).ndlResult, ndlWait := (t.port p).ndlWait }))

/-- The holder's RENEW sets REMAIN, CLEAR_ORPHAN clears ORPHANED, RELEASE frees the needle with REMAIN 0 and leaves ORPHANED as it is, each with
answer OK; for anyone else each answers NOT_HOLDER and no needle changes, but that the RENEW of the holder whose lease the last tick took to 0 may
answer EXPIRED (R118 to R121).  At REMAIN 1 the tick frees the needle with ORPHANED set, REMAIN 0 and NEEDLE for its holder's port, and changes no
other needle, no tenant, no key and no word of the arrays; above 1, or with no holder, nothing expires (R116, R119, R121).
Where the spec leaves a choice it takes the model's: log entry 184. -/
def Obligations.NeedlesAreTheHoldersUntilTheyEnd : Prop :=
  (∀ (p : Port) (k : Fin 32) (lease : BitVec 16) (n : Fin 8) (s : State),
      Reached p (ndlOff k) n s → slotOfNeedle k = n → lease ≠ 0 →
      (s.needles[k].lapsed = some (p, n) → ∃ t, exec (.renew p k lease) s = .next t ∧ t.needles = s.needles ∧
        ((t.port p).ndlResult[k] = 2 ∨ (t.port p).ndlResult[k] = 5)) ∧
      (s.needles[k].lapsed ≠ some (p, n) → s.needles[k].holder = some (p, n) →
        (∃ t, exec (.renew p k lease) s = .next t ∧ t.needles[k] = { s.needles[k] with remain := lease } ∧ (t.port p).ndlResult[k] = 0) ∧
        (∃ t, exec (.clearOrphan p k) s = .next t ∧ t.needles[k] = { s.needles[k] with orphaned := false } ∧ (t.port p).ndlResult[k] = 0) ∧
        (∃ t, exec (.release p k) s = .next t ∧ t.needles[k] = { s.needles[k] with holder := none, remain := 0 } ∧
          (t.port p).ndlResult[k] = 0)) ∧
      (s.needles[k].lapsed ≠ some (p, n) → s.needles[k].holder ≠ some (p, n) →
        ∀ c ∈ [Instr.renew p k lease, Instr.clearOrphan p k, Instr.release p k], ∃ t, exec c s = .next t ∧ t.needles = s.needles ∧
          (t.port p).ndlResult[k] = 2 ∧ t = (s.modPort p fun q => { q with ndlResult := (t.port p).ndlResult }))) ∧
  (∀ (k : Fin 32) (p : Port) (n : Fin 8) (s : State),
      (s.needles[k].holder = some (p, n) → s.needles[k].remain.toNat ≤ 1 →
        ∃ t, exec (.leaseExpire k) s = .next t ∧
          t.needles[k] = { s.needles[k] with holder := none, remain := 0, orphaned := true, lapsed := some (p, n) } ∧
          (s.openOn p n = true → (t.port p).irqStat.getLsbD 4 = true) ∧
          (∀ j : Fin 32, j ≠ k → t.needles[j] = s.needles[j]) ∧ t.tenants = s.tenants ∧ t.keys = s.keys ∧ t.mram = s.mram) ∧
      (s.needles[k].holder = none ∨ 1 < s.needles[k].remain.toNat → exec (.leaseExpire k) s = .next s))

/-! ## Windows (R96 to R100, R113, R115) -/

/-- An open of a slot that needs no code, written while the module runs and the port is not locked out: the window is open on the slot, KEYLESS and
OPENED are shown, FAIL_RUN is 0, whatever window was open before; with none open before and the slot's seal verified, nothing but the port's own
registers changes (R97 to R99).  An open with a wrong code leaves the port's window as it is, answers CODE, is counted in FAIL_RUN, and locks the
port out when it is the fourth in a row; while the port is locked out an open is refused LOCKED, leaves its window as it is, and is counted;
the end of the lockout clears it and touches nothing else (R99).
Where the spec leaves a choice it takes the model's: log entry 33. -/
def Obligations.OpensFollowTheSlotAndTheLockout : Prop :=
  (∀ (p : Port) (n : Fin 8) (s : State),
      s.portWorks = true → s.running = true → (s.port p).openWait = none → (s.port p).locked = false →
      (s.tenants[n].owned = true ∨ (n = 0 ∧ s.tenants[n].st = .free)) → s.keylessSlot n = true →
      ∃ t, exec (.portOpen p n) s = .next t ∧ (t.port p).open? = some n ∧ (t.port p).keyless = true ∧ (t.port p).result = 0 ∧
        (t.port p).failRun = 0 ∧ (t.port p).lastSlot = n ∧
        ((s.port p).open? = none → s.tenants[n].granules = 0 ∨ s.sealOk n = true → OnlyPort p { s with freeCtr := s.freeCtr + 1 } t)) ∧
  (∀ (p : Port) (n : Fin 8) (s : State),
      (s.portWorks = true → s.running = true → (s.port p).openWait = none → (s.port p).locked = false →
        (s.tenants[n].owned = true ∨ (n = 0 ∧ s.tenants[n].st = .free)) → s.keylessSlot n = false → s.openCodeOk p n = false →
        ∃ t, exec (.portOpen p n) s = .next t ∧ (t.port p).open? = (s.port p).open? ∧ (t.port p).result = 1 ∧
          (t.port p).failRun = satInc (s.port p).failRun ∧ (t.port p).locked = decide (satInc (s.port p).failRun = 4)) ∧
      (s.portWorks = true → s.running = true → (s.port p).openWait = none → (s.port p).locked = true →
        ∃ t, exec (.portOpen p n) s = .next t ∧ (t.port p).open? = (s.port p).open? ∧ (t.port p).result = 3 ∧
          (t.port p).failRun = satInc (s.port p).failRun ∧ (t.port p).locked = true) ∧
      exec (.openLockExpire p) s = .next (s.modPort p fun q => { q with locked := false }))

/-- Closing a window: the port is open on nothing, KEYLESS is 0, every needle it held for the slot is free and marked ORPHANED, and no needle of
anyone else changes its holder (R100, R119). -/
def Obligations.ClosingAWindowOrphansItsNeedles : Prop :=
  ∀ (p : Port) (n : Fin 8) (s : State), s.portWorks = true → (s.port p).open? = some n →
    ∃ t, exec (.portClose p) s = .next t ∧ (t.port p).open? = none ∧ (t.port p).keyless = false ∧ (t.port p).auditOn = false ∧
      (t.port p).cursor = none ∧
      (∀ k : Fin 32, s.needles[k].holder = some (p, n) → t.needles[k].holder = none ∧ t.needles[k].orphaned = true) ∧
      (∀ k : Fin 32, s.needles[k].holder ≠ some (p, n) → t.needles[k] = s.needles[k])

/-- MAL_CLR zeroes the count of malformed transactions and nothing else (R113).  A reset line pulse under 0.5 us changes nothing; one of 1 us or more
closes the port's window, puts its transfer mode, latency, interrupt enables and interrupt bits at their reset values, and leaves its nonce
(R115); port A's reset command does the same (Table PRT-7a). -/
def Obligations.PortResetsAndClears : Prop :=
  ∀ (p : Port) (w : Nat) (s : State),
    (s.portWorks = true → exec (.malClr p) s = .next (s.modPort p fun q => { q with malCount := 0 })) ∧
    (w < 500 → exec (.hostReset p w) s = .next s) ∧
    (1000 ≤ w → ∃ t, exec (.hostReset p w) s = .next t ∧ (t.port p).open? = none ∧ (t.port p).mode8d = false ∧ (t.port p).lat = 0x14 ∧
      (t.port p).irqEn = 0 ∧ (t.port p).irqStat = 0 ∧ (t.port p).nonce = (s.port p).nonce) ∧
    (s.portWorks = true → ∃ t, exec .paReset s = .next t ∧ exec (.hostReset .a 1000) s = .next t ∧ t.portA.open? = none ∧
      t.portA.mode8d = false ∧ t.portA.lat = 0x14 ∧ t.portA.irqEn = 0 ∧ t.portA.irqStat = 0 ∧ t.portA.nonce = s.portA.nonce)

/-! ## Insertion, cast-on and stops (R59, R61, R62, R68, R74 to R83, R85 to R88, R418 to R428, R434, R456) -/

/-- VBAT at 1.9 V or more releases the AON power-on reset and starts the charger; under it, or once it is released, nothing happens; the charged store
is held 120 to 150 mV under VBAT (R61, R74, R86).  STORE_FAIL before cast-on and a domain without power-good are faults of Table LIF-5: HALT with
the fault's bit in MASK and the first fault captured; after DOMAIN_FAIL every domain but AON is off, both windows are closed and the engine is empty,
and only its first occurrence leaves a repeat due; with no domain starting DOMAIN_FAIL does nothing (R68, R86, R426). -/
def Obligations.InsertionChargesAndFaultsHalt : Prop :=
  (∀ (vbat : Nat) (s : State),
      (s.power.supply = .por → 1900 ≤ vbat →
        exec (.powerOnReset vbat) s = .next { s with power := { s.power with supply := .charging, vbat := vbat, charger := true } }) ∧
      (s.power.supply ≠ .por ∨ vbat < 1900 → exec (.powerOnReset vbat) s = .next s) ∧
      (s.power.supply = .charging → ∃ d, 120 ≤ d ∧ d ≤ 150 ∧ exec .storeCharged s = .next { s with
        freeCtr := s.freeCtr + 1, power := { s.power with supply := .holding, storeOk := true, storeMv := s.power.vbat - d } })) ∧
  (∀ (i : Fin 8) (s : State),
      (s.preCast = true → ∃ t, exec .storeFail s = .next t ∧ t = { s with life := t.life } ∧ t.life.state = .halt ∧
        t.life.mask = s.life.mask ||| 0x0002 ∧ (s.life.valid = false → t.life.valid = true ∧ t.life.first = 1)) ∧
      (s.power.domStart = some i → ∃ t, exec .domainFail s = .next t ∧ t.life.state = .halt ∧ t.life.mask = s.life.mask ||| 0x0008 ∧
        (s.life.valid = false → t.life.valid = true ∧ t.life.first = 3 ∧ t.life.detail = bitAt i.val true) ∧
        t.life.retry = !s.life.domFailed ∧ t.life.domFailed = true ∧ t.power.domOn = 0x01 ∧ t.eng.ops = [] ∧ t.portA.open? = none ∧
        t.portB.open? = none) ∧
      (s.power.domStart = none → exec .domainFail s = .next s))

/-- CAST_ON, when cast-on may begin, goes as far as PORT and waits there while VIO is absent, step 1 done and VBAT as measured, the store as far under it
as before; without a valid TCXO it ends in HALT with TCXO_FAIL, TCXO_OK 0 and a repeat due; when it may not begin nothing happens.  HALT_RETRY with a
repeat due ends in that HALT again while the TCXO is not valid; with none due it does nothing (R61, R76, R82, R87, R418, R426).
Where the spec leaves a choice it takes the model's: log entries 58 and 59. -/
def Obligations.CastOnWaitsForVioAndNeedsTheTcxo : Prop :=
  ∀ (e : CastOnEnv) (s : State), s.revOk = true →
    (s.castDue = true → s.life.state ≠ .halt → e.tcxoOk = true → s.power.vioOk = false → exec (.castOn e) s = .next { s with
      life := { s.life with state := .castOn, step := 1, retry := false }
      power := { s.power with
        begun := true, recasting := false, vbat := e.vbat, asleep := false, tcxoOk := true, waitVio := some e
        storeMv := if s.power.supply = .holding then s.power.storeMv + e.vbat - s.power.vbat else s.power.storeMv } }) ∧
    (∀ c : Instr, (c = .castOn e ∧ s.castDue = true ∨ c = .haltRetry e ∧ s.life.retry = true) → e.tcxoOk = false → ∃ t, exec c s = .next t ∧
      t.life.state = .halt ∧ t.life.mask = s.life.mask ||| 0x0004 ∧ t.life.retry = true ∧ t.power.tcxoOk = false ∧
      t = { s with life := t.life, power := t.power }) ∧
    (s.castDue = false → exec (.castOn e) s = .next s) ∧ (s.life.retry = false → exec (.haltRetry e) s = .next s)

/-- With VIO there, every domain up, no swatch failure and no table lost, CAST_ON when cast-on may begin, HALT_RETRY when a repeat is due, and VIO_RETURN
when a cast-on waits for VIO, run all twelve steps: the module is in RUN, or in LIMP when a fault is active, with its five domains on, the strap
sampled, the swatch passed, CASTON counted and AON retention intact (R82, R418 to R422, R426, R427).
Where the spec leaves a choice it takes the model's: log entries 58 and 59. -/
def Obligations.CastOnReachesRunOrLimp : Prop :=
  ∀ (e : CastOnEnv) (s : State) (c : Instr), s.revOk = true → e.tcxoOk = true → e.domainFail = none → e.swatch = none →
    s.lostTable = none →
    (c = .castOn e ∧ s.castDue = true ∧ s.power.vioOk = true ∨ c = .haltRetry e ∧ s.life.retry = true ∧ s.power.vioOk = true ∨
      c = .vioReturn ∧ s.power.waitVio = some e ∧ s.power.begun = true ∧ s.power.tcxoOk = true) →
    ∃ t, exec c s = .next t ∧ t.life.state = (if t.life.mask = 0 then .run else .limp) ∧ t.life.step = 12 ∧ t.power.begun = true ∧
      t.power.domOn = 0x1F ∧ t.power.tcxoOk = true ∧ t.phy.strap = e.strap ∧ t.int.swRes = 0 ∧ t.life.caston = s.life.caston + 1 ∧
      t.life.aonIntact = true ∧ t.life.restored = true ∧ t.life.retry = false

/-- EARLY_BREAK asserted after cast-on has begun starts the 4 us filter; deasserted sooner it is ignored, later it is a trigger.  A supply loss is
a trigger that opens the charger at once; the first trigger stands.  Before cast-on an assertion starts no filter, and a supply loss starts the store
bleed.  A burn that has begun when EARLY_BREAK or VBAT changes is noted as begun, and nothing else changes (R46, R59, R76, R84, R88, R456).
Where the spec leaves a choice it takes the model's: log entries 62 and 69. -/
def Obligations.TriggersAreFiltered : Prop :=
  ∀ (v : Nat) (long : Bool) (s : State),
    let l := (noteBegun s).lc
    noteBegun s = { s with lc := l } ∧ (s.lc.run = none → l = s.lc) ∧
    (∀ c, s.lc.run = some c → l = { s.lc with run := some { c with begun := c.begun || s.burnStarts c } }) ∧
    (s.power.begun = true →
      exec (.earlyBreak true long) s = .next { s with lc := l, power := { s.power with eb := true, ebFilter := true } } ∧
      exec (.earlyBreak false false) s = .next { s with lc := l, power := { s.power with eb := false, ebFilter := false } } ∧
      (s.power.ebFilter = true → exec (.earlyBreak false true) s = .next { s with lc := l, power := { s.power with
        eb := false, ebFilter := false, trigger := some (s.power.trigger.getD .earlyBreak) } }) ∧
      (s.power.trigger = none → exec (.supplyLoss v) s = .next { s with lc := l, power := { s.power with
        trigger := some .supplyLoss, charger := false, vbat := v } }) ∧
      (s.power.trigger ≠ none → exec (.supplyLoss v) s = .next { s with lc := l, power := { s.power with charger := false } })) ∧
    (s.power.begun = false → s.power.recasting = false →
      exec (.earlyBreak true long) s = .next { s with lc := l, power := { s.power with eb := true, ebFilter := false } }) ∧
    (s.preCast = true → exec (.supplyLoss v) s = .next { s with power := { s.power with
      supply := .bleeding, charger := false, storeOk := false, vbat := v } })

/-- A due bind-off, whole or cut off where the store is exhausted, ends in the store bleed: every domain but AON off, both windows closed, no operation
and no lifeline in the engine, no frame on the radio, no evaluation, no lane context in the cache, the pair not driven, no limited change under way,
nothing left to write; the long address, the transport key and the levels of VIO and EARLY_BREAK stay; one that is not due does nothing (R77 to R81,
R85, R404, R434).  At the end of the bleed AON retention is lost, and the charger may run again: MASK, WAKE_FAILS, the counts of malformed
transactions, of violations and of frogged operations, and the needles are at their reset values, counters and clocks restart from their stored
values, while the stored words, the fuses, the keys, the owners and the tables of the system area stay (R10, R81).
Where the spec leaves a choice it takes the model's: log entries 14, 68 and 69. -/
def Obligations.BindOffEndsInTheBleed : Prop :=
  (∀ (v : Nat) (k : Fin 12) (s : State), s.bindDue = true → s.power.recasting = false →
      ∀ c ∈ [Instr.bindOff v, Instr.storeExhausted k], ∃ t, exec c s = .next t ∧
        t.power.supply = .bleeding ∧ t.power.charger = false ∧ t.power.storeOk = false ∧ t.power.domOn = 0x01 ∧ t.power.begun = false ∧
        t.life.state = .castOn ∧ t.life.step = 0 ∧ t.portA.open? = none ∧ t.portB.open? = none ∧ t.eng.ops = [] ∧ t.eng.hold = [] ∧
        (∀ l : Fin 4, t.eng.lls[l] = none) ∧ t.eva.cur = none ∧ t.eva.pulses = [] ∧ t.eva.hold = false ∧ t.phy.txPhase = .idle ∧ t.phy.tx = none ∧
        t.skn.cache = [] ∧ t.lc.run = none ∧ t.log.queue = [] ∧ t.mram.waitq = [] ∧ t.mram.fhb = [] ∧ t.mram.arrA.queue = [] ∧
        t.mram.arrB.queue = [] ∧ t.fuses.longAddr = s.fuses.longAddr ∧ t.fuses.transport = s.fuses.transport ∧ t.power.vioOk = s.power.vioOk ∧
        t.power.eb = s.power.eb ∧ t.pending = s.pending) ∧
  (∀ (v : Nat) (k : Fin 12) (s : State), s.bindDue = false → ∀ c ∈ [Instr.bindOff v, Instr.storeExhausted k], exec c s = .next s) ∧
  (∀ (s : State), s.power.supply = .bleeding → ∃ t, exec .storeBleedDone s = .next t ∧
      t.power.supply = .por ∧ t.power.charger = true ∧ t.power.storeMv = 0 ∧ t.life.aonIntact = false ∧ t.life.mask = 0 ∧ t.life.valid = false ∧
      t.life.wakeFails = 0 ∧ t.life.caston = s.life.caston ∧ t.power.lastStop = s.power.lastStop ∧
      (∀ k : Fin 32, t.needles[k] = Needle.reset) ∧ t.portA.malCount = 0 ∧ t.portB.malCount = 0 ∧
      (∀ n : Fin 8, t.tenants[n].iso = 0 ∧ t.tenants[n].frogOps = 0 ∧ t.tenants[n].st = s.tenants[n].st ∧
        t.tenants[n].owner = s.tenants[n].owner ∧ t.tenants[n].role = s.tenants[n].role) ∧
      t.mram.words = s.mram.words ∧ t.mram.part = s.mram.part ∧ t.mram.remaps = s.mram.remaps ∧ t.fuses = s.fuses ∧ t.keys = s.keys ∧
      t.lc.site = s.lc.site ∧ t.lc.region = s.lc.region ∧ t.stopA = s.stopA ∧ t.stopB = s.stopB ∧ t.log.bind = s.log.bind ∧
      t.mac.fc = s.mac.fcStored ∧ t.log.seq = s.log.seqStored ∧ t.sns.run = s.sns.runStored ∧ t.sns.pw = s.sns.pwStored)

/-- When VIO falls PORT stops, whether or not it was on, and each port is as a host reset leaves it: no window, no needle of the windows that were open,
the transfer mode, the latency, the enables and the interrupt bits at their reset values, PB_RDY not driven; the radio, the MAC, the skeins, the keys,
the limited changes, the module's state and, with no range pass under way, the engine go on as before, and the pair is driven by nothing in RUN and
LIMP (R62, R83, R115, R360).  When VIO returns with no cast-on waiting for it, PORT starts again when it is wanted and the root runs (R62, R83). -/
def Obligations.PortsFollowVio : Prop :=
  ∀ (s : State),
    (∃ t, exec .vioLoss s = .next t ∧ t.power.vioOk = false ∧ t.power.domOn = s.power.domOn &&& ~~~(0x02 : BitVec 8) ∧
      (∀ p : Port, (t.port p).open? = none ∧ (t.port p).mode8d = false ∧ (t.port p).lat = 0x14 ∧ (t.port p).irqEn = 0 ∧
        (t.port p).irqStat = 0 ∧ (t.port p).nonce = (s.port p).nonce ∧ (t.port p).rdy = false ∧
        ∀ (n : Fin 8) (k : Fin 32), (s.port p).open? = some n → s.needles[k].holder = some (p, n) →
          t.needles[k].holder = none ∧ t.needles[k].orphaned = true) ∧
      (s.running = true → t.eva.pulses = [] ∧ t.eva.hold = false) ∧ (s.int.scans = [] → t.eng = s.eng) ∧
      t.mac = s.mac ∧ t.phy = s.phy ∧ t.keys = s.keys ∧ t.lc = s.lc ∧ t.skn = s.skn ∧ t.life = s.life ∧ t.fuses = s.fuses) ∧
    (s.power.waitVio = none → ∃ t, exec .vioReturn s = .next t ∧ t.power.vioOk = true ∧ t.power.domOn = s.power.domOn ∧
      t = { s with power := t.power } ∧
      (s.domOn 0 = true → s.domOn 1 = false → s.power.domWant.getLsbD 1 = true → s.power.domStart = none → s.power.tcxoOk = true →
        t.power.domStart = some 1))

/-- The lowest domain that is wanted and off, PORT only while VIO is valid: the next to start in the order of R67. -/
def NextDomain (want on : BitVec 8) (vio : Bool) (j : Fin 8) : Prop :=
  want.getLsbD j.val = true ∧ on.getLsbD j.val = false ∧ (j = 1 → vio = true) ∧
    ∀ m : Fin 8, m < j → want.getLsbD m.val = true → on.getLsbD m.val = false → m = 1 ∧ vio = false

/-- When a domain reports power-good it is on, PB_RDY is driven with PORT, and the next wanted domain in the fixed order starts while the root runs, one
stagger step later in RUN and LIMP.  A wake whose check passes validates the TCXO, opens a calibration window, leaves no failed wake counted and
starts the first wanted domain; a failed check leaves the module asleep with nothing wanted, and counts the wake (R65, R67, R87, R429).
Where the spec leaves a choice it takes the model's: log entry 63. -/
def Obligations.DomainsAndWakesProceed : Prop :=
  ∀ (i : Fin 8) (s : State),
    (s.power.domStart = some i → ∃ t, exec .domainPowerGood s = .next t ∧ t.power.domOn = s.power.domOn ||| bitAt i.val true ∧
      (i = 1 → t.portB.rdy = true) ∧
      (s.power.tcxoOk = true → ∀ j, t.power.domStart = some j ↔ NextDomain s.power.domWant t.power.domOn s.power.vioOk j) ∧
      (s.power.tcxoOk = false → t.power.domStart = none) ∧
      (s.running = true → t.power.domStart ≠ none → t.power.domStepUs = 40 * (field s.power.pwrCtl 3 0 + 1)) ∧
      t.keys = s.keys ∧ t.eng = s.eng ∧ t.tenants = s.tenants ∧ t.life = s.life) ∧
    (s.power.domStart = none → exec .domainPowerGood s = .next s) ∧
    (s.power.tcxoCheck = true → ∃ t, exec (.tcxoCheck true) s = .next t ∧ t.power.tcxoOk = true ∧ t.power.tcxoCheck = false ∧
      t.power.calOpen = true ∧ t.life = { s.life with wakeFails := 0 } ∧ t.power.asleep = s.power.asleep ∧ t.power.domOn = s.power.domOn ∧
      (s.power.domStart = none → ∀ j, t.power.domStart = some j ↔ NextDomain s.power.domWant s.power.domOn s.power.vioOk j) ∧
      t = { s with power := t.power, life := t.life, log := t.log, portA := t.portA, portB := t.portB }) ∧
    (s.power.tcxoCheck = true → exec (.tcxoCheck false) s = .next { s with
      life := { s.life with wakeFails := satInc s.life.wakeFails }
      power := { s.power with tcxoCheck := false, asleep := true, domWant := 0 } }) ∧
    (s.power.tcxoCheck = false → ∀ ok, exec (.tcxoCheck ok) s = .next s)

/-- With nothing left to do the module sleeps: every domain but AON stops, the TCXO and the admitted charges with them, an open calibration window is
discarded and ages the calibration; nothing outside the power registers changes.  With something left to do it does not (R64, R65, R424).  A calibration
window that ends gives RC_PERIOD and clears CAL_AGE.  The wake timer of a sleeping module wakes it for ENG, both arrays and, where it tracks beacons or
sniffs, the receiver, ahead of its target by the guard G of R66, the 2 ms of the TCXO start and a stagger step for each of these domains (R65 to R67).
A select while PORT is off wakes the module, and nothing of the transaction is served or counted (R105).
Where the spec leaves a choice it takes the model's: log entries 64 and 197. -/
def Obligations.SleepStopsDomainsAndEnds : Prop :=
  (∀ (s : State),
      (s.maySleep = true → ∃ t, exec .sleepEntry s = .next t ∧ t = { s with power := t.power } ∧ t.power.domOn = 0x01 ∧ t.power.asleep = true ∧
        t.power.tcxoOk = false ∧ t.power.admitted = [] ∧ t.power.domWant = 0 ∧ t.power.rcPeriod = s.power.rcPeriod ∧ t.power.calOpen = false ∧
        t.power.calAge = (if s.power.calOpen then satInc s.power.calAge else s.power.calAge)) ∧
      (s.maySleep = false → exec .sleepEntry s = .next s)) ∧
  (∀ (period : BitVec 20) (us : Nat) (p : Port) (s : State),
      (s.power.calOpen = true → exec (.calWindowEnd period) s = .next { s with power := { s.power with
        rcPeriod := period, calAge := 0, calOpen := false } }) ∧
      (s.power.calOpen = false → exec (.calWindowEnd period) s = .next s) ∧
      (s.power.asleep = true →
        let radio := s.mac.trackEn || s.mac.sniffEn
        let g := us * (field s.power.clkCtl 15 4 * min (1 + s.power.calAge.toNat) 16) / 1000 + 61000
        exec (.wakeTimer us) s = .next { s with power := { s.power with
          asleep := false, tcxoCheck := true, guardNs := g, domWant := s.power.domWant ||| (if radio then 0x7C else 0x1C)
          wakeLeadUs := (g + 999) / 1000 + 2000 + (if radio then 5 else 3) * (40 * (field s.power.pwrCtl 3 0 + 1)) } }) ∧
      (s.power.asleep = false → exec (.wakeTimer us) s = .next s) ∧
      (s.power.asleep = true → s.domOn 1 = false → s.power.vioOk = true → s.running = true →
        ∃ t, exec (.selectWake p) s = .next t ∧ t.power.asleep = false ∧ t.power.tcxoCheck = true ∧
          t.power.domWant = s.power.domWant ||| 0x1E ∧
          t = { s with power := t.power, portB := { s.portB with rdy := s.portB.rdy && decide (p = .a) } }) ∧
      (s.domOn 1 = true ∨ s.power.vioOk = false ∨ s.running = false → exec (.selectWake p) s = .next s))

/-- With the root running, no frame in service and nothing waiting, a unit that is not admitted is admitted at once when its charge fits under the
ceiling, waits when it does not fit now, and is refused with NOFIT when it cannot fit beside ENG; an array asks for nothing while the field defers
writes (R69 to R71, R206).  A unit that may yield leaves the admitted and the waiting units; of the others a request that can no longer fit beside
ENG is refused with NOFIT, and the rest are admitted in arrival order until one does not fit; one that may not yield keeps its charge, and neither
a transmitter on air nor ENG while its domain is on may (R69 to R71).
Where the spec leaves a choice it takes the model's: log entry 66. -/
def Obligations.GovernorAdmitsInArrivalOrder : Prop :=
  (∀ (u : GovUnit) (pw : BitVec 6) (s : State), s.power.tcxoOk = true → s.phy.tx = none → s.power.isAdmitted u = false →
      s.power.waiting = [] → (u = .mema ∨ u = .memb → s.mram.defer = false) →
      let c := unitCharge u (s.appliedPower pw.toNat)
      let eng := if u = .eng then 0 else 24
      (s.power.admittedSum + c ≤ s.ceiling → c + eng ≤ s.ceiling → ∃ t, exec (.admissionRequest u pw) s = .next t ∧
        t.power.admitted = s.power.admitted ++ [{ u := u, charge := c }] ∧ t.power.waiting = [] ∧ t = { s with power := t.power }) ∧
      (s.ceiling < s.power.admittedSum + c → c + eng ≤ s.ceiling → ∃ t, exec (.admissionRequest u pw) s = .next t ∧
        t.power.admitted = s.power.admitted ∧ t.power.waiting = [{ u := u, charge := c }] ∧ t = { s with power := t.power }) ∧
      (s.ceiling < c + eng → ∃ t, exec (.admissionRequest u pw) s = .next t ∧ t.power.nofit = true ∧ t.power.admitted = s.power.admitted ∧
        t.power.waiting = [] ∧ t = { s with power := t.power, log := t.log, portA := t.portA, portB := t.portB })) ∧
  (∀ (u : GovUnit) (pw : BitVec 6) (s : State), u = .mema ∨ u = .memb → s.mram.defer = true → exec (.admissionRequest u pw) s = .next s) ∧
  (∀ (u : GovUnit) (s : State),
      (s.phy.tx = none → s.mayYield u = true → ∃ t, exec (.chargeRelease u) s = .next t ∧
        t = { s with power := t.power, log := t.log, portA := t.portA, portB := t.portB } ∧
        let rest := s.power.waiting.filter fun r => !decide (r.u = u)
        ((∀ r ∈ rest, s.noFit r.u r.charge = false) → t = { s with power := t.power } ∧ t.power.nofit = s.power.nofit) ∧
        ((∃ r ∈ rest, s.noFit r.u r.charge = true) → t.power.nofit = true) ∧
        (∃ served, (rest.filter fun r => !s.noFit r.u r.charge) = served ++ t.power.waiting ∧
          t.power.admitted = (s.power.admitted.filter fun r => !decide (r.u = u)) ++ served ∧
          (served ≠ [] → t.power.admittedSum ≤ s.ceiling) ∧
          ∀ r, t.power.waiting.head? = some r → s.ceiling < t.power.admittedSum + r.charge)) ∧
      (s.mayYield u = false → exec (.chargeRelease u) s = .next s) ∧
      (u = .rftx → s.phy.txPhase = .onAir → s.mayYield u = false) ∧ (u = .eng → s.domOn 2 = true → s.mayYield u = false))

/-- RECAST from slot 0 in RUN or LIMP, and from any port in a HALT by SYS_TABLE, with no trigger passed and no filter of EARLY_BREAK running: the
module has stopped, every domain but AON off, both windows closed, the engine and the recorder's queue empty, and is about to cast on again with AON
retention kept and nothing bled; while the filter runs the stop may be a whole bind-off instead, of which only the bleed is left (R88, R425, R428).
Once a trigger has passed RECAST does nothing (R88).
Where the spec leaves a choice it takes the model's: log entry 71. -/
def Obligations.RecastStopsAndKeepsAon : Prop :=
  ∀ (p : Port) (s : State),
    (s.power.trigger ≠ none → exec (.recast p) s = .next s) ∧
    (s.power.trigger = none → (Reached p 0x2410 0 s ∧ s.running = true ∨ s.portWorks = true ∧ s.haltTable = true) →
    ∃ t, exec (.recast p) s = .next t ∧ t.power.recasting = true ∧ t.life.aonIntact = true ∧ t.power.supply = s.power.supply ∧
      t.power.domOn = 0x01 ∧ t.life.state = .castOn ∧ t.portA.open? = none ∧ t.portB.open? = none ∧ t.eng.ops = [] ∧ t.log.queue = [] ∧
      (t.castDue = true ∨ t.bindDue = true ∧ s.power.ebFilter = true) ∧ (s.power.ebFilter = false → t.castDue = true))

/-! ## What a port reaches (R17, R37, R62, R94, R96, R113, R425) -/

/-- A module-wide register written from a slot other than 0: the write has no effect of its own, the slot's violation is counted, the first one is
captured with path 0x7 and the register's offset, and nothing but the recorder's and the interrupt bits' news of it changes (R37, R94).  A register
that needs a window, written from a port that has none: one malformed transaction of kind CLOSED on that port and no other effect; with PORT or VIO
down, or in a HALT that leaves only FAULT_N, nothing at all (R62, R96, R113, R425).
Where the spec leaves a choice it takes the model's: log entries 96, 98 and 155. -/
def Obligations.RegistersNeedTheirWindow : Prop :=
  (∀ (c : Instr) (p : Port) (off : Nat) (n : Fin 8) (s : State), gateOf c = some (p, off, true) → Reached p off n s → n ≠ 0 →
      ∃ t, exec c s = .next t ∧ t.tenants[n] = { s.tenants[n] with iso := satInc s.tenants[n].iso } ∧
        (∀ m : Fin 8, m ≠ n → t.tenants[m] = s.tenants[m]) ∧
        (s.lc.isoV = true → t.lc = s.lc) ∧
        (s.lc.isoV = false → t.lc = { s.lc with isoSlot := n, isoPath := 7, isoIdx := BitVec.ofNat 16 off, isoV := true }) ∧
        t = { s with tenants := t.tenants, lc := t.lc, log := t.log, portA := t.portA, portB := t.portB }) ∧
  (∀ (c : Instr) (p : Port) (off : Nat) (m : Bool) (s : State), gateOf c = some (p, off, m) →
      (s.portWorks = true → s.reach p off = .closed → ∃ t, exec c s = .next t ∧ (t.port p).malCount = satInc (s.port p).malCount ∧
        (t.port p).malValid = (s.port p).malValid ||| 0x0080 ∧ (t.port p).irqStat = (s.port p).irqStat ||| 0x040 ∧
        t = { s with freeCtr := t.freeCtr, log := t.log, portA := t.portA, portB := t.portB } ∧
        t.port (otherPort p) = { s.port (otherPort p) with irqStat := (t.port (otherPort p)).irqStat }) ∧
      (s.portWorks = false → exec c s = .next s))

/-- A transaction that ends within its command or names no command has no effect; it is counted once, the first of its kind is captured with its
address, and MAL is set (R113, Table PRT-10).
Where the spec leaves a choice it takes the model's: log entries 89 and 145. -/
def Obligations.MalformedCommandsAreCounted : Prop :=
  ∀ (p : Port) (w : CmdFlaw) (addr : Word32) (edges : Nat) (s : State), s.portWorks = true →
    ∃ t, exec (.badCmd p w addr edges) s = .next t ∧ (t.port p).malCount = satInc (s.port p).malCount ∧
      (t.port p).malValid = (s.port p).malValid ||| (match w with | .cut => 1 | .unknown => 2) ∧
      (t.port p).irqStat.getLsbD 6 = true ∧
      ((s.port p).malValid.getLsbD (match w with | .cut => 0 | .unknown => 1) = false →
        (t.port p).malFirst[(match w with | .cut => 0 | .unknown => 1 : Fin 16)] = addr) ∧
      ((s.port p).malValid.getLsbD (match w with | .cut => 0 | .unknown => 1) = true →
        (t.port p).malFirst = (s.port p).malFirst ∧ t.log = s.log) ∧
      t = { s with freeCtr := t.freeCtr, log := t.log, portA := t.portA, portB := t.portB }

/-! ## Transactions (R92, R101, R106 to R114, R116, R198, R212) -/

/-- A committed write sets the register's RW fields and nothing else: PWR_CTL takes STAGGER from slot 0 only in its bits [3:0]; a reserved value
leaves PEAK_CEIL.LIMIT as it was; IRQ_STAT is cleared by ones and IRQ_EN written whole, by each port its own
(R13, R72, R94, R116, Table CON-7).  TEN_CTL.SUSPEND suspends an owned slot and lets it go on where nothing else keeps it suspended, its word of the
system area being written, and does nothing to a slot that is not owned; TEN_ISO.CLR and ENG_FROG_CLR zero their counts (R32, R37, R190). -/
def Obligations.RegisterWritesSetTheirFields : Prop :=
  (∀ (p : Port) (v : Word32) (s : State),
      (Reached p 0x100 0 s → exec (.registerWrite p 0x100 v) s = .next { s with power := { s.power with
        pwrCtl := (s.power.pwrCtl &&& ~~~0xF) ||| (v &&& 0xF) } }) ∧
      (Reached p 0x110 0 s → ∃ t, exec (.registerWrite p 0x110 v) s = .next t ∧
        t = { s with power := { s.power with peakCeil := t.power.peakCeil } } ∧
        field t.power.peakCeil 5 0 = (if field v 5 0 ≤ 56 then field v 5 0 else field s.power.peakCeil 5 0) ∧
        field t.power.peakCeil 10 8 = (if field v 10 8 ≤ 6 then field v 10 8 else field s.power.peakCeil 10 8) ∧
        t.power.peakCeil &&& ~~~0x73F = s.power.peakCeil &&& ~~~0x73F) ∧
      (s.portWorks = true →
        exec (.registerWrite p (match p with | .a => 0x50 | .b => 0x58) v) s =
          .next (s.modPort p fun q => { q with irqStat := q.irqStat &&& ~~~(v.setWidth 9) }) ∧
        exec (.registerWrite p (match p with | .a => 0x54 | .b => 0x5C) v) s = .next (s.modPort p fun q => { q with irqEn := v.setWidth 9 }) ∧
        exec (.registerWrite p (match p with | .a => 0x58 | .b => 0x50) v) s = .next s)) ∧
  (∀ (p : Port) (n : Fin 8) (v : Bool) (s : State),
      (Reached p (0x200 + 16 * n.val) 0 s → s.tenants[n].owned = true → ∃ t, exec (.suspend p n v) s = .next t ∧
        t.tenants[n] = { s.tenants[n] with susp := v, st := if v || s.forcedSusp n then .suspended else .owned } ∧
        (∀ m : Fin 8, m ≠ n → t.tenants[m] = s.tenants[m]) ∧ t = { s with tenants := t.tenants, mram := t.mram } ∧ OnlyIssues s t ∧
        WaitsFor .A (.plain (suspIdx n.val)) t) ∧
      (Reached p (0x200 + 16 * n.val) 0 s → s.tenants[n].owned = false → exec (.suspend p n v) s = .next s) ∧
      (Reached p (0x20C + 16 * n.val) 0 s → exec (.tenIsoClr p n) s = .next { s with tenants := s.tenants.set n ({ s.tenants[n] with iso := 0 }) }) ∧
      (Reached p 0x714 n s → exec (.engFrogClr p) s =
        .next { s with tenants := s.tenants.set n ({ s.tenants[n] with frogOps := 0, frogLines := 0 }) }))

/-- A whole register written by a transaction of either port, port A at the setup base, is the same as its committed register write; a whole register
read returns its value and changes nothing but the bytes driven out (R9, R106, R109, R110).  The commands without a window: port A's status byte shows
a commit of its own in bit 0 and 1 in bit 1, its write enable has no effect, the SFDP image begins with its signature; STATUS returns PB_STAT at any
time, and with other than its 40 edges is counted as malformed; else each changes nothing but the bytes driven out (Tables PRT-7, PRT-7a, R101, R107,
R112).
Where the spec leaves a choice it takes the model's: log entries 5, 94, 148 and 185. -/
def Obligations.TransactionsReachTheRegisters : Prop :=
  (∀ (off : BitVec 16) (v : Word32) (data : List Byte) (s : State), off.toNat % 4 = 0 → off.toNat < 0x3000 → data = bytesLE 4 v →
      s.portWorks = true →
      exec (.paWrite (0x40000000 + off.setWidth 32) data 0) s = exec (.registerWrite .a off v) s ∧
      (s.rdyB = true → exec (.pbRegWrite (off.setWidth 32) 4 data 88) s = exec (.registerWrite .b off v) s) ∧
      (s.reach .a off.toNat ≠ .closed → exec (.paRead (0x40000000 + off.setWidth 32) 4 false) s =
        .next { s with portA := { s.portA with out := bytesLE 4 (s.portRead .a off.toNat).1 } }) ∧
      (s.rdyB = true → s.reach .b off.toNat ≠ .closed → exec (.pbRegRead (off.setWidth 32) 4 88) s =
        .next { s with portB := { s.portB with out := bytesLE 4 (s.portRead .b off.toNat).1 } })) ∧
  (∀ (len : Nat) (s : State), s.portWorks = true →
      exec .paReadStatus s = .next { s with portA := { s.portA with out := [if s.committingA then 3 else 2] } } ∧
      exec .paWriteEnable s = .next s ∧
      exec (.pbStatus 40) s = .next { s with portB := { s.portB with out := bytesLE 4 (s.portB.reg 5) } } ∧
      (len ≠ 40 → ∃ t, exec (.pbStatus len) s = .next t ∧ t.portB.malCount = satInc s.portB.malCount ∧
        t.portB.malValid = s.portB.malValid ||| (if len < 40 then 0x0100 else 0x0200)) ∧
      (∃ t, exec (.paReadSfdp 0 len) s = .next t ∧ OnlyPort .a s t ∧ t.portA.out.length = len ∧
        t.portA.out.take 4 = ([0x53, 0x46, 0x44, 0x50] : List Byte).take len ∧ t = { s with portA := { s.portA with out := t.portA.out } }))

/-- A word of the open slot's window, written whole and accepted, reads back as written at once, and no other word changes
what it reads as; nothing is stored yet (R92, R198, R199, R207).
Where the spec leaves a choice it takes the model's: log entry 94. -/
def Obligations.WrittenWordsReadBack : Prop :=
  ∀ (n : Fin 8) (w k : Nat) (d : Word128) (s : State), s.portWorks = true → w < 0x40000 → s.windowKey n w = some k →
    s.portRoom .a k = true → s.mram.waitq = [] → (∀ e ∈ s.mram.fhb, ∀ j x b, e.tgt = .word j x b → e.arr = keyArr j) →
    ∀ c : Instr, (c = .paWrite (BitVec.ofNat 32 (16 * w)) (bytesOf d) 0 ∧ s.reachWin .a = .slot n ∨
        c = .pbMemWrite (BitVec.ofNat 32 (16 * w)) 16 (bytesOf d) 184 ∧ s.reachWin .b = .slot n ∧ s.rdyB = true) →
      ∃ t, exec c s = .next t ∧ t.readKey k = .data d false ∧ (∀ j, j ≠ k → t.readKey j = s.readKey j) ∧
        t.mram.words = s.mram.words ∧ t.mram.waitq = [] ∧ t = { s with mram := t.mram, int := t.int, portB := t.portB } ∧
        t.int = { s.int with repairs := t.int.repairs } ∧ t.portB = { s.portB with staged := t.portB.staged }

/-- A word of the window that is deliverable is returned to either port with no other effect than a correction's count and repair; one that is not
is returned as the poison word of its cause, with POISON, its address where none was held, and the count of uncorrectable words (R114, R194, R220). -/
def Obligations.WindowReadsDeliverOrPoison : Prop :=
  ∀ (p : Port) (n : Fin 8) (w k : Nat) (s : State), s.portWorks = true → w < 0x40000 → s.windowKey n w = some k →
    s.reachWin p = .slot n → (p = .b → s.rdyB = true) →
    let c : Instr := match p with
      | .a => .paRead (BitVec.ofNat 32 (16 * w)) 16 false
      | .b => .pbMemRead (BitVec.ofNat 32 (16 * w)) 16 184
    (∀ d, s.deliver k = .ok d false → exec c s = .next (s.modPort p fun q => { q with out := bytesOf d })) ∧
    (∀ d, s.deliver k = .ok d true → ∃ t, exec c s = .next t ∧ (t.port p).out = bytesOf d ∧ t.int.ceDemand = satInc s.int.ceDemand ∧
      (s.int.repairs.length < 8 → k ∈ t.int.repairs) ∧ t = ({ s with int := t.int }.modPort p fun q => { q with out := bytesOf d })) ∧
    (∀ u, s.deliver k = .bad u → ∃ t, exec c s = .next t ∧ (t.port p).out = bytesOf (poisonWord u) ∧ (t.port p).poison = true ∧
      (t.port p).poisonAt = (if (s.port p).poison then (s.port p).poisonAt else BitVec.ofNat 32 (16 * w)) ∧
      t.int.ue = satInc s.int.ue ∧ (s.int.ueV = false → t.int.ueV = true ∧ t.int.ueWord = k ∧ t.int.ueCause = u.code) ∧
      (t.port p).irqStat.getLsbD 5 = true ∧ t = ({ s with int := t.int }.modPort p fun _ => t.port p))

/-! ## Rings and fetching (R93, R129 to R134, R145, R163) -/

/-- The doorbell of ring r is reached from a window on the slot that owns the ring. -/
def OwnRing (p : Port) (r : Fin 512) (s : State) : Prop := Reached p 0x400 (slotOfRing r) s

/-- The ring is as it was, but that its context word may have been written. -/
def SameButDirty (r : Fin 512) (s t : State) : Prop := t.ring r = { s.ring r with dirty := (t.ring r).dirty }

/-- POST to a submit ring moves PROD when the index is at most a ring ahead of CONS and of PROD, and else halts an enabled ring with cause 6 and leaves
PROD; POST to a completion ring moves CONS; another slot's ring is a violation of path 0x1 (R93, R133): each while no discarding waits for completion
slots and no issued write for room. -/
def Obligations.PostMovesTheIndex : Prop :=
  ∀ (p : Port) (r : Fin 512) (i : BitVec 16) (n : Fin 8) (s : State), s.mram.waitq = [] → s.eng.discards = [] →
    let c := (s.ring r).ctx
    (OwnRing p r s → c.cpl? = false → (i - c.cons).toNat ≤ c.slots → (i - c.prod).toNat ≤ c.slots →
      ∃ t, exec (.doorbellPost p r i) s = .next t ∧ (t.ring r).ctx = { c with prod := i } ∧ (t.ring r).halted = (s.ring r).halted ∧
        (t.ring r).fetch = (s.ring r).fetch ∧ t.eng.nextOp = s.eng.nextOp ∧ (i = c.prod → t = s) ∧
        (∀ x, x ≠ r → SameButDirty x s t) ∧ t.tenants = s.tenants ∧ t.keys = s.keys) ∧
    (OwnRing p r s → c.cpl? = false → c.slots < (i - c.cons).toNat ∨ c.slots < (i - c.prod).toNat →
      ∃ t, exec (.doorbellPost p r i) s = .next t ∧ (t.ring r).ctx = c ∧ (t.ring r).halted = c.en ∧ (t.ring r).cause = 6 ∧
        (∀ x, x ≠ r → t.ring x = s.ring x) ∧ t.tenants = s.tenants ∧ t.keys = s.keys) ∧
    (OwnRing p r s → c.cpl? = true →
      ∃ t, exec (.doorbellPost p r i) s = .next t ∧ (t.ring r).ctx = { c with cons := i } ∧ (t.ring r).halted = (s.ring r).halted ∧
        (t.ring r).fetch = (s.ring r).fetch ∧ t.eng.nextOp = s.eng.nextOp ∧ (∀ x, x ≠ r → SameButDirty x s t) ∧
        t.tenants = s.tenants ∧ t.keys = s.keys) ∧
    (Reached p 0x400 n s → slotOfRing r ≠ n →
      ∀ d ∈ [Instr.doorbellPost p r i, Instr.doorbellResume p r i, Instr.doorbellDiscard p r, Instr.doorbellHalt p r],
        ∃ t, exec d s = .next t ∧ t.eng = s.eng ∧ t.tenants[n] = { s.tenants[n] with iso := satInc s.tenants[n].iso } ∧
          (s.lc.isoV = false → t.lc = { s.lc with isoSlot := n, isoPath := 1, isoIdx := BitVec.ofNat 16 r.val, isoV := true }))

/-- HALT of an enabled running submit ring halts it with cause 1 and its indices unchanged, and leaves a halted or a disabled one; RESUME at CONS of a
halted one runs it again from there with nothing discarded; HALT, RESUME and DISCARD leave a completion ring alone (R134).  DISCARD of a halted ring that holds one descriptor, not
fetched, with a completion slot free: the descriptor completes with status DISCARDED, its record reads back from the completion ring, no other word
changes what it reads as, and the ring runs with CONS at PROD.  Discarding is charged to no slot (R134, R374, Table RNG-9).
Where the spec leaves a choice it takes the model's: log entries 27, 166 and 178. -/
def Obligations.RingsHaltResumeAndDiscard : Prop :=
  (∀ (p : Port) (r : Fin 512) (i : BitVec 16) (s : State), OwnRing p r s → s.mram.waitq = [] → s.eng.discards = [] →
      let q := s.ring r
      (q.ctx.cpl? = false → q.ctx.en = true → q.halted = false → ∃ t, exec (.doorbellHalt p r) s = .next t ∧
        (t.ring r).halted = true ∧ (t.ring r).cause = 1 ∧ (t.ring r).ctx = q.ctx ∧ (t.ring r).fetch = q.fetch ∧
        (∀ x, x ≠ r → t.ring x = s.ring x) ∧ t.eng.hold = s.eng.hold ∧ t.tenants = s.tenants) ∧
      (q.ctx.cpl? = false → q.halted = true → i = q.ctx.cons → q.fetched = [] → q.ctx.mask = 0 → ∃ t, exec (.doorbellResume p r i) s = .next t ∧
        (t.ring r).halted = false ∧ (t.ring r).cause = q.cause ∧ (t.ring r).fetch = i ∧ (t.ring r).ctx = q.ctx ∧
        (∀ x, x ≠ r → SameButDirty x s t) ∧ t.tenants = s.tenants) ∧
      (q.ctx.en = false ∨ q.halted = true → exec (.doorbellHalt p r) s = .next s) ∧
      (q.ctx.cpl? = true → ∀ c ∈ [Instr.doorbellHalt p r, Instr.doorbellResume p r i, Instr.doorbellDiscard p r], exec c s = .next s) ∧
      (q.halted = false → ∀ c ∈ [Instr.doorbellResume p r i, Instr.doorbellDiscard p r], exec c s = .next s)) ∧
  (∀ (p : Port) (r : Fin 512) (s : State) (w : Word128) (x : Bool) (l : List Delivered) (k : Nat), OwnRing p r s → s.mram.waitq = [] →
      s.mram.fhb.length ≤ 254 → (∀ e ∈ s.mram.fhb, ∀ j y b, e.tgt = .word j y b → e.arr = keyArr j) → s.eng.ops = [] → s.eng.discards = [] →
      let q := s.ring r
      let cr := s.cplOf r
      let c := (s.ring cr).ctx
      q.ctx.cpl? = false → q.halted = true → q.ctx.en = true → q.fetched = [] → q.ctx.mask = 0 → s.cplFree r = true → cr ≠ r →
      s.descAt r q.ctx.cons = .ok w x :: l → q.ctx.prod = q.ctx.cons + BitVec.ofNat 16 (field w 9 8 + 1) →
      s.windowKey (slotOfRing r) (c.word c.prod) = some k →
      ∃ t, exec (.doorbellDiscard p r) s = .next t ∧ (t.ring r).halted = false ∧ (t.ring r).cause = q.cause ∧ (t.ring r).ctx.cons = q.ctx.prod ∧
        (t.ring r).ctx.prod = q.ctx.prod ∧ (t.ring r).fetch = q.ctx.prod ∧ (t.ring cr).ctx.prod = c.prod + 1 ∧ t.eng.ops = [] ∧
        (∃ rec, t.readKey k = .data rec false ∧ field rec 47 40 = 0x0C ∧ field rec 15 0 = field w 31 16 ∧ field rec 31 16 = q.ctx.cons.toNat ∧
          field rec 37 32 = r.val % 64 ∧ field rec 127 127 = (if c.prod.toNat / c.slots % 2 = 0 then 1 else 0)) ∧
        (∀ j, j ≠ k → t.readKey j = s.readKey j) ∧ t.tenants = s.tenants ∧ t.keys = s.keys ∧ t.sns = s.sns)

/-- RING_CFG: a disabled ring with a whole body in the partition and SIZE 4 to 12 becomes enabled with the written fields, and not halted but where
cast-on halted it; with a body that is not, it stays disabled with cause 5; while it is enabled a write with EN 1 changes nothing, and one with EN 0
clears EN, and the ring is halted no longer (R130, R158, Table RNG-2).
Where the spec leaves a choice it takes the model's: log entries 109 and 179. -/
def Obligations.RingConfigurationEnablesOnlyWhatFits : Prop :=
  ∀ (p : Port) (n : Fin 8) (j : Fin 64) (v : Word32) (s : State), Reached p (0x400 + 8 * j.val) n s → s.mram.waitq = [] → s.eng.discards = [] →
    let r := ringNo n j
    let old := (s.ring r).ctx
    let new := cfgOf v old
    (old.en = false → flag v 31 = true → s.cfgOk n new = true → ∃ t, exec (.ringCfgWrite p j v) s = .next t ∧
      (t.ring r).ctx = { new with en := true } ∧ (t.ring r).halted = ((s.ring r).held && !new.cpl?) ∧
      (t.ring r).cause = (if (s.ring r).held && !new.cpl? then (s.ring r).cause else 0) ∧ (∀ x, x ≠ r → SameButDirty x s t)) ∧
    (old.en = false → flag v 31 = true → s.cfgOk n new = false → ∃ t, exec (.ringCfgWrite p j v) s = .next t ∧
      (t.ring r).ctx = { new with en := false } ∧ (t.ring r).cause = 5 ∧ (∀ x, x ≠ r → SameButDirty x s t)) ∧
    (old.en = true → flag v 31 = true → exec (.ringCfgWrite p j v) s = .next s) ∧
    (old.en = true → flag v 31 = false → ∃ t, exec (.ringCfgWrite p j v) s = .next t ∧ (t.ring r).ctx = { old with en := false } ∧
      (t.ring r).halted = false ∧ (∀ x, x ≠ r → SameButDirty x s t) ∧ t.tenants = s.tenants)

/-- An awake engine with room takes the descriptor whose turn it is: a well-formed one enters flight under a fresh number with its words, behind the
lifelines its ring is behind, and the fetch point moves past it; with nothing to fetch nothing changes (R129, R136, R145, R150). -/
def Obligations.FetchTakesOneDescriptor : Prop :=
  ∀ (r : Fin 512) (i : BitVec 16) (d : List Delivered) (s : State), s.engReady = true → s.mram.waitq = [] → s.eng.discards = [] →
    (∀ o ∈ s.eng.ops, o.id < s.eng.nextOp) →
    (s.chooseRing = some (r, i, d) → badIndex d = none →
      let o : Op := { id := s.eng.nextOp, ring := r, index := i, desc := d.filterMap Delivered.word?, behind := s.behindFor r, own := none
                      ran := false, stuck := false, readOf := [], pin := none }
      o.bad = false → (s.suspended (slotOfRing r) && o.opcode = opEvaluate) = false → ∃ t, exec .descriptorFetch s = .next t ∧
        (∃ q ∈ t.eng.ops, q.id = o.id ∧ q.ring = r ∧ q.index = i ∧ q.desc = o.desc ∧ q.ran = false ∧ ∀ k ∈ s.behindFor r, k ∈ q.behind) ∧ t.eng.nextOp = s.eng.nextOp + 1 ∧
        t.eng.rr = finOf 512 (r.val + 1) ∧ (t.ring r).fetch = i + BitVec.ofNat 16 o.desc.length ∧ (t.ring r).ctx = (s.ring r).ctx ∧
        t.mram.words = s.mram.words ∧ t.tenants = s.tenants ∧ t.keys = s.keys) ∧
    (s.chooseRing = none → exec .descriptorFetch s = .next s)

/-! ## Engine operations (R38 to R40, R46, R135 to R144, R147, R154, R156, R175 to R178) -/

/-- A started operation of this opcode: in flight under `id`, nothing keeps it from running, its DEP does not fail, and every word it names lies in
its slot's partition (R143, R145 to R148, R151, R154). -/
def Runs (id opc : Nat) (o : Op) (s : State) : Prop :=
  s.runnable id opc = some o ∧ (o.dep = true → s.llOkFor o ≠ some false) ∧ s.namesOk o = true

/-- The operation completes with this answer, after this work, having produced these things. -/
def Completes (c : Instr) (id : Nat) (r : Answer) (out : List Held) (s s' : State) : Prop :=
  exec c s = .next (engSweep (finish id r out none s'))

/-- NOP, WRITE_IMM and FILL answer OK and produce nothing, one word, and COUNT equal words; COPY produces the words it has read at DST (Table RNG-6).
COMPARE and CAS answer OK where the word read agrees and MISMATCH where it does not, CAS storing only where it agrees and returning the low half it
found; ADD adds modulo 2^32 to the lane named, or clamps it, keeps the other lanes and returns the lane's old value (Table RNG-6, Table RNG-9). -/
def Obligations.MovesAndTestsProduceTheirWords : Prop :=
  (∀ (id : Nat) (o : Op) (ws : List Word128) (s s' : State),
      (Runs id 0x01 o s → Completes (.nop id) o.id (.of 0) [] s s) ∧
      (Runs id 0x02 o s → Completes (.writeImm id) o.id (.of 0) [.write o.addrA (o.w 1)] s s) ∧
      (Runs id 0x04 o s → Completes (.fill id) o.id (.of 0) ((List.range o.count).map fun j => .write (o.addrA + j) (o.w 1)) s s) ∧
      (Runs id 0x03 o s → opReads o.id o.slot o.addrA o.count s = (s', ws, none) → ws.length = o.count ∧
        Completes (.copy id) o.id (.of 0) (ws.mapIdx fun j w => .write (o.addrB + j) w) s s')) ∧
  (∀ (id : Nat) (o : Op) (w : Word128) (s s' : State), opReads o.id o.slot o.addrA 1 s = (s', [w], none) →
      (Runs id 0x05 o s → w &&& o.w 2 = o.w 1 &&& o.w 2 → Completes (.compare id) o.id (.of 0) [] s s') ∧
      (Runs id 0x05 o s → w &&& o.w 2 ≠ o.w 1 &&& o.w 2 → Completes (.compare id) o.id (.of 1) [] s s') ∧
      (Runs id 0x06 o s → w = o.w 1 →
        Completes (.cas id) o.id { Answer.of 0 with a := w.setWidth 32 } [.write o.addrA (o.w 2)] s s') ∧
      (Runs id 0x06 o s → w ≠ o.w 1 → Completes (.cas id) o.id { Answer.of 1 with a := w.setWidth 32 } [] s s') ∧
      (Runs id 0x07 o s →
        let lane := field (o.w 0) 65 64
        let old := regOfWord w lane
        let by32 : Word32 := (o.w 0 >>> 96).setWidth 32
        let sum : Int := old.toNat + by32.toInt
        (flag (o.w 0) 66 = false →
          Completes (.add id) o.id { Answer.of 0 with a := old } [.write o.addrA (setRegOfWord w lane (old + by32))] s s') ∧
        (flag (o.w 0) 66 = true → sum < 0 →
          Completes (.add id) o.id { Answer.of 0 with a := old, extra := 1 } [.write o.addrA (setRegOfWord w lane 0)] s s') ∧
        (flag (o.w 0) 66 = true → 0xFFFFFFFF < sum →
          Completes (.add id) o.id { Answer.of 0 with a := old, extra := 1 } [.write o.addrA (setRegOfWord w lane 0xFFFFFFFF)] s s') ∧
        (flag (o.w 0) 66 = true → 0 ≤ sum → sum ≤ 0xFFFFFFFF →
          Completes (.add id) o.id { Answer.of 0 with a := old } [.write o.addrA (setRegOfWord w lane (old + by32))] s s')))

/-- CMAC_CHECK and the CCM operations answer KEY_STATE without a key of the right use in a right state; CMAC_CHECK answers by the tag's leftmost 64 bits;
CCM_OPEN delivers the plaintext only where the MIC verifies; CCM_SEAL, which takes an ACTIVE key only, delivers ciphertext and MIC.  Payloads of whole
words, as the destination's other bytes are kept otherwise (R140, Table RNG-6).
Where the spec leaves a choice it takes the model's: log entry 24. -/
def Obligations.KeysServeTheirUse : Prop :=
  ∀ (id : Nat) (o : Op) (k : Word128) (ws : List Word128) (s s' : State),
    (Runs id 0x10 o s → s.useKey o.slot o.keySel 3 false = none → Completes (.cmacCheck id) o.id (.of 5) [] s s) ∧
    (Runs id 0x10 o s → s.useKey o.slot o.keySel 3 false = some k → opReads o.id o.slot o.addrB o.count s = (s', ws, none) →
      Completes (.cmacCheck id) o.id (.of (if cmac64 k (ws.flatMap bytesOf) = (o.w 1).setWidth 64 then 0 else 2)) [] s s') ∧
    (Runs id 0x11 o s → s.useKey o.slot o.keySel 4 false = none → Completes (.ccmOpen id) o.id (.of 5) [] s s) ∧
    (Runs id 0x11 o s → s.useKey o.slot o.keySel 4 false = some k → o.payLen % 16 = 0 →
      opReads o.id o.slot o.addrB (wordsFor (o.aadLen + o.payLen + o.micLen)) s = (s', ws, none) →
      let bytes := ws.flatMap bytesOf
      let plain := ccmCrypt k o.nonce ((bytes.drop o.aadLen).take o.payLen)
      if ccmTag k o.nonce (bytes.take o.aadLen) plain o.micLen = (bytes.drop (o.aadLen + o.payLen)).take o.micLen then
        Completes (.ccmOpen id) o.id (.of 0) ((wordsOf (o.payLen / 16) plain).mapIdx fun j w => .write (o.addrC + j) w) s s'
      else Completes (.ccmOpen id) o.id (.of 2) [] s s') ∧
    (Runs id 0x12 o s → s.useKey o.slot o.keySel 4 true = none → Completes (.ccmSeal id) o.id (.of 5) [] s s) ∧
    (Runs id 0x12 o s → s.useKey o.slot o.keySel 4 true = some k → (o.payLen + o.micLen) % 16 = 0 →
      opReads o.id o.slot o.addrB (wordsFor (o.aadLen + o.payLen)) s = (s', ws, none) →
      let bytes := ws.flatMap bytesOf
      let plain := (bytes.drop o.aadLen).take o.payLen
      Completes (.ccmSeal id) o.id (.of 0)
        ((wordsOf ((o.payLen + o.micLen) / 16)
          (ccmCrypt k o.nonce plain ++ ccmTag k o.nonce (bytes.take o.aadLen) plain o.micLen)).mapIdx fun j w => .write (o.addrC + j) w) s s')

/-- KEY_LOAD fills a BLANK key slot of the ring's slot as LOADED from a blob that unwraps under the transport key, names that key slot, and carries a
higher load counter; a blob that does not unwrap answers AUTH_FAIL, one with no higher counter COUNTER, one for a slot that is not BLANK KEY_STATE,
and none of these changes a key (R38, R138, R139).  The states of a key slot: KEY_ACTIVATE makes a LOADED tenant key ACTIVE and retires the slot's
other ACTIVE key of the same use, and makes the LOADED key of site slot 0 or 2 ACTIVE; KEY_RETIRE makes an ACTIVE key RETIRED; KEY_DESTROY blanks a key in any state and keeps its load counter; each
answers KEY_STATE and changes nothing from another state; a site slot named from a ring of a slot other than 0 is refused (R38, R39, R138).
Activating site slot 1 moves its key into site slot 0, and site slot 3 into site slot 2, ACTIVE, under the load counter of the place it comes to; the
slot it leaves is BLANK with its own load counter (R40).
Where the spec leaves a choice it takes the model's: log entry 28. -/
def Obligations.KeysMoveThroughTheirStates : Prop :=
  (∀ (id : Nat) (o : Op) (ws : List Word128) (b : List Byte) (s s' : State), Runs id 0x40 o s → (o.keySite = true → o.slot = 0) →
      opReads o.id o.slot o.addrB 3 s = (s', ws, none) →
      (keyUnwrap s.fuses.transport ((ws.flatMap bytesOf).take 40) = none → Completes (.keyLoad id) o.id (.of 2) [] s s') ∧
      (keyUnwrap s.fuses.transport ((ws.flatMap bytesOf).take 40) = some b → b.getD 16 0 = BitVec.ofNat 8 o.slot.val →
        b.getD 17 0 = BitVec.ofNat 8 o.keyIdx → b.getD 18 0 = (if o.keySite then 1 else 0) → (∀ x ∈ b.drop 24, x = 0) →
        (o.keySite = true ∨ 1 ≤ (b.getD 19 0).toNat ∧ (b.getD 19 0).toNat ≤ 6) →
        let ctr : Word32 := ofBytesLE 32 ((b.drop 20).take 4)
        (ctr ≤ s.keys[o.keyNo].ctr → Completes (.keyLoad id) o.id (.of 6) [] s s') ∧
        (s.keys[o.keyNo].ctr < ctr → s.keys[o.keyNo].st ≠ .blank → Completes (.keyLoad id) o.id (.of 5) [] s s') ∧
        (s.keys[o.keyNo].ctr < ctr → s.keys[o.keyNo].st = .blank → s.tenants[o.slot].owned = true → ∃ t,
          Completes (.keyLoad id) o.id (.of 0) [] s t ∧
          t.keys[o.keyNo] = { st := .loaded, use := b.getD 19 0, key := ofBytesLE 128 (b.take 16), ctr := ctr } ∧
          (∀ k, k ≠ o.keyNo → t.keys[k] = s.keys[k]) ∧ t = { s' with keys := t.keys, int := t.int, mac := t.mac, mram := t.mram } ∧
          OnlyIssues s' t))) ∧
  (∀ (id : Nat) (o : Op) (s : State),
      (Runs id 0x41 o s → o.keySite = false → o.keyIdx < 3 → s.keys[o.keyNo].st = .loaded → ∃ t, Completes (.keyActivate id) o.id (.of 0) [] s t ∧
        t.keys[o.keyNo] = { s.keys[o.keyNo] with st := .active } ∧
        (∀ k, k ≠ o.keyNo → t.keys[k] = (if k.val / 4 = o.slot.val ∧ k.val % 4 < 3 ∧ s.keys[k].use = s.keys[o.keyNo].use ∧ s.keys[k].st = .active then
          { s.keys[k] with st := .retired } else s.keys[k])) ∧
        t = { s with keys := t.keys, int := t.int, mram := t.mram } ∧ OnlyIssues s t) ∧
      (Runs id 0x41 o s → (o.keySite = true → o.slot = 0) → s.keys[o.keyNo].st ≠ .loaded → Completes (.keyActivate id) o.id (.of 5) [] s s) ∧
      (Runs id 0x42 o s → (o.keySite = true → o.slot = 0) → s.keys[o.keyNo].st = .active → ∃ t, Completes (.keyRetire id) o.id (.of 0) [] s t ∧
        t.keys[o.keyNo] = { s.keys[o.keyNo] with st := .retired } ∧ (∀ k, k ≠ o.keyNo → t.keys[k] = s.keys[k]) ∧
        t = { s with keys := t.keys, int := t.int, mram := t.mram } ∧ OnlyIssues s t) ∧
      (Runs id 0x42 o s → (o.keySite = true → o.slot = 0) → s.keys[o.keyNo].st ≠ .active → Completes (.keyRetire id) o.id (.of 5) [] s s) ∧
      (Runs id 0x43 o s → (o.keySite = true → o.slot = 0) → (o.keySite = true → o.keyIdx = 0 → s.rekeyReady = true) → ∃ t,
        Completes (.keyDestroy id) o.id (.of 0) [] s t ∧ t.keys[o.keyNo] = { s.keys[o.keyNo] with st := .blank, use := 0, key := 0 } ∧
        (∀ k, k ≠ o.keyNo → t.keys[k] = s.keys[k]) ∧
        (o.keySite = false ∨ o.keyIdx ≠ 0 → t = { s with keys := t.keys, int := t.int, mram := t.mram } ∧ OnlyIssues s t)) ∧
      (Runs id 0x41 o s → o.keySite = true → o.slot = 0 → (o.keyIdx = 0 ∨ o.keyIdx = 2) → s.keys[o.keyNo].st = .loaded →
        (o.keyIdx = 0 → s.rekeyReady = true) → ∃ t, Completes (.keyActivate id) o.id (.of 0) [] s t ∧
        t.keys[o.keyNo] = { s.keys[o.keyNo] with st := .active } ∧ (∀ k, k ≠ o.keyNo → t.keys[k] = s.keys[k])) ∧
      (o.keySite = true → o.slot ≠ 0 →
        (Runs id 0x40 o s → Completes (.keyLoad id) o.id (.of 3) [.violation 3 (BitVec.ofNat 16 (32 + o.keyIdx))] s s) ∧
        (Runs id 0x41 o s → Completes (.keyActivate id) o.id (.of 3) [.violation 3 (BitVec.ofNat 16 (32 + o.keyIdx))] s s) ∧
        (Runs id 0x42 o s → Completes (.keyRetire id) o.id (.of 3) [.violation 3 (BitVec.ofNat 16 (32 + o.keyIdx))] s s) ∧
        (Runs id 0x43 o s → Completes (.keyDestroy id) o.id (.of 3) [.violation 3 (BitVec.ofNat 16 (32 + o.keyIdx))] s s))) ∧
  (∀ (id : Nat) (o : Op) (s : State), Runs id 0x41 o s → o.keySite = true → o.slot = 0 → (o.keyIdx = 1 ∨ o.keyIdx = 3) →
      s.keys[siteKey o.keyIdx].st = .loaded → (o.keyIdx = 1 → s.rekeyReady = true) →
      ∃ t, Completes (.keyActivate id) o.id (.of 0) [] s t ∧
        t.keys[siteKey (o.keyIdx - 1)] = { s.keys[siteKey o.keyIdx] with st := .active, ctr := s.keys[siteKey (o.keyIdx - 1)].ctr } ∧
        t.keys[siteKey o.keyIdx] = { s.keys[siteKey o.keyIdx] with st := .blank, use := 0, key := 0 } ∧
        (∀ k, k ≠ siteKey o.keyIdx → k ≠ siteKey (o.keyIdx - 1) → t.keys[k] = s.keys[k]))

/-- Every word an operation names must lie in its slot's partition: else it answers ISOLATION with a violation of path 0x2 and does nothing; a DEP
operation whose lifeline failed answers LIFELINE_FAIL and does nothing; an operation that may not run yet changes nothing (R37, R56, R154, R155).
Where the spec leaves a choice it takes the model's: log entries 102 and 103. -/
def Obligations.OperationsStayInTheirPartition : Prop :=
  ∀ (id : Nat) (o : Op) (s : State),
    ∀ x ∈ [(Instr.nop id, 0x01), (.writeImm id, 0x02), (.copy id, 0x03), (.fill id, 0x04), (.compare id, 0x05), (.cas id, 0x06), (.add id, 0x07),
        (.cmacCheck id, 0x10), (.ccmOpen id, 0x11), (.ccmSeal id, 0x12), (.skeinPush id, 0x30), (.skeinPop id, 0x31), (.keyLoad id, 0x40),
        (.keyActivate id, 0x41), (.keyRetire id, 0x42), (.keyDestroy id, 0x43), (.lcChange id, 0x50)],
      (s.runnable id x.2 = some o → (o.dep && decide (s.llOkFor o = some false)) = false → s.namesOk o = false →
        Completes x.1 o.id (.of 3) [.violation 2 (BitVec.ofNat 16 o.ring.val)] s s) ∧
      (s.runnable id x.2 = some o → o.dep = true → s.llOkFor o = some false → Completes x.1 o.id (.of 7) [] s s) ∧
      (s.runnable id x.2 = none → exec x.1 s = .next s)

/-- What `Completes` comes to for an operation behind no lifeline: with room its words and then its completion record are accepted, the record at the
completion ring's next place with the ring's lap in its PHASE bit; each reads back at once and no other word changes what it reads as; the
operation has left flight (R131, R142 to R144, R199, Table RNG-8). -/
def Obligations.CompletionsReadBack : Prop :=
  ∀ (id : Nat) (o : Op) (ws : List (Nat × Word128)) (r : Answer) (k : Nat) (s : State), s.op id = some o → o.behind = [] → o.own = none →
    o.ll = false → s.mram.waitq = [] → s.eng.discards = [] → s.mram.fhb.length + ws.length + 2 ≤ 256 →
    (∀ e ∈ s.mram.fhb, ∀ j x b, e.tgt = .word j x b → e.arr = keyArr j) →
    let cr := s.cplOf o.ring
    let c := (s.ring cr).ctx
    let key (w : Nat × Word128) := s.windowKey o.slot w.1
    s.windowKey o.slot (c.word c.prod) = some k → (∀ w ∈ ws, (key w).isSome ∧ key w ≠ some k) → (ws.map key).Nodup → cr ≠ o.ring →
    let t := engSweep (finish id r (ws.map fun w => .write w.1 w.2) none s)
    t.op id = none ∧ (t.ring cr).ctx.prod = c.prod + 1 ∧
      t.readKey k = .data (setField (o.record r) 127 127 (if c.prod.toNat / c.slots % 2 = 0 then 1 else 0)) false ∧
      (∀ w ∈ ws, ∀ j, key w = some j → t.readKey j = .data w.2 false) ∧
      (∀ j, j ≠ k → (∀ w ∈ ws, key w ≠ some j) → t.readKey j = s.readKey j) ∧
      t.mram.words = s.mram.words ∧ t.keys = s.keys ∧ t.tenants = s.tenants

/-! ## Limited changes (R41 to R47, R50 to R53, R141) -/

/-- A request that fails a check is refused with the check's reason, LEFT as it stands and a SITE interrupt; no setting, tally, key or slot changes; a
request made while a change runs is BUSY and has no effect (R45 to R47, R53).  A request that passes every check, from LC_GO or, with the same fields,
from an LC_CHANGE of slot 0's ring, runs: the change is pending with its value and the tallies burnt before it, TALLY is asked for once the slot it
concerns has nothing in flight, and nothing is burnt or changed yet (R46, R52, R141).
Where the spec leaves a choice it takes the model's: log entries 28 and 78. -/
def Obligations.RequestsAreCheckedThenWait : Prop :=
  (∀ (p : Port) (s : State), Reached p 0x2A8 0 s →
      let r : LcReq := { setting := s.lc.setting, target := s.lc.target, lastAck := s.lc.lastAck, value := s.lc.val, code := s.lc.code, op := none }
      (∀ e, lcCheck s r = .error e → e ≠ lcBusy → s.lc.run = none → settingOk r.setting.toNat r.target.val = true → ∃ t, exec (.lcGo p) s = .next t ∧
        t.lc = { s.lc with reason := BitVec.ofNat 4 e, left := BitVec.ofNat 4 (s.tallyLeft r.setting.toNat r.target.val)
                           claim := if s.isClaim r then 0 else s.lc.claim } ∧
        (t.port p).irqStat.getLsbD 8 = true ∧ t = { s with lc := t.lc, log := t.log, portA := t.portA, portB := t.portB }) ∧
      (s.lc.run ≠ none → exec (.lcGo p) s = .next s) ∧
      (s.isClaim r = false → s.lcCodeOk r = false → s.lc.run = none → settingOk r.setting.toNat r.target.val = true → ∃ t,
        exec (.lcGo p) s = .next t ∧ t.lc.reason = 1 ∧ t.lc.run = none ∧ t.fuses = s.fuses ∧ t.keys = s.keys ∧ t.tenants = s.tenants)) ∧
  (∀ (p : Port) (id : Nat) (o : Op) (v : Word128) (k : Option (Word128 × Word32)) (s : State),
      let r : LcReq := { setting := s.lc.setting, target := s.lc.target, lastAck := s.lc.lastAck, value := s.lc.val, code := s.lc.code, op := none }
      let run (r : LcReq) : LcRun := { setting := r.setting, target := r.target, value := v, burnt := s.tallies r.setting.toNat r.target.val
                                       claim := k, op := r.op, asked := true, begun := false, burnt? := false }
      (Reached p 0x2A8 0 s → lcCheck s r = .ok (v, k) → s.slotBusy r.target none = false → s.noFit .tally 90 = false → ∃ t,
        exec (.lcGo p) s = .next t ∧ t.lc = { s.lc with run := some (run r) } ∧
        (t.power.isAdmitted .tally = true ∨ t.power.isWaiting .tally = true) ∧ t = { s with lc := t.lc, power := t.power }) ∧
      (Runs id 0x50 o s → o.slot = 0 → lcCheck s o.lcReq = .ok (v, k) → s.slotBusy o.lcReq.target (some o.id) = false →
        s.noFit .tally 90 = false → ∃ t, exec (.lcChange id) s = .next (engSweep t) ∧ t.lc = { s.lc with run := some (run o.lcReq) } ∧
        (t.power.isAdmitted .tally = true ∨ t.power.isWaiting .tally = true) ∧ t = { s with lc := t.lc, power := t.power }) ∧
      (Runs id 0x50 o s → o.slot ≠ 0 → s.lc.run = none → Completes (.lcChange id) o.id (.of 3) [.violation 7 (BitVec.ofNat 16 o.ring.val)] s s))

/-- The burn of an admitted change whose conditions still hold, or whose burn had begun before they ended: the lowest unburnt pair of the setting's
tallies conducts as the burn left it and no other antifuse changes; the setting's record holds the new value and the tally count, and the change is
DONE, or runs on, burnt, for its stitch to be written.  A burn that leaves neither antifuse conducting ends BURN_FAIL and changes no record; before
the burn a supply or a field that no longer serves ends the change with POWER or FIELD and burns nothing.  A burnt change is not burnt again (R41,
R43, R46, R51).
Where the spec leaves a choice it takes the model's: log entry 69. -/
def Obligations.BurnsAreWitnessedByTheTallies : Prop :=
  ∀ (c : LcRun) (b : Nat) (low high : Bool) (s : State), s.lc.run = some c → c.asked = true → s.power.isAdmitted .tally = true →
    s.burnReady c = true →
    let k := c.setting.toNat
    let serves := c.begun = true ∨ s.lcPowerOk = true ∧ s.mram.defer = false
    (c.burnt? = true → exec (.tallyBurn low high) s = .next s) ∧
    (c.burnt? = false → serves → s.freePair k c.target.val = some b → (low || high) = true → settingOk k c.target.val = true →
      ∃ t, exec (.tallyBurn low high) s = .next t ∧
        t.fuses = { s.fuses with antifuses := s.fuses.antifuses ||| bitAt b low ||| bitAt (b + 1) high } ∧
        (t.lc.run = some { c with burnt? := true } ∨ t.lc.run = none ∧ t.lc.reason = 0) ∧
        (t.lcRecord k c.target).value = newRecordValue c ∧ (t.lcRecord k c.target).count = t.tallies k c.target.val ∧
        t.tallies k c.target.val = s.tallies k c.target.val + 1) ∧
    (c.burnt? = false → serves → s.freePair k c.target.val = some b → settingOk k c.target.val = true → ∃ t,
      exec (.tallyBurn false false) s = .next t ∧ t.fuses = s.fuses ∧ t.lc.run = none ∧ t.lc.reason = 9 ∧
        (t.lcRecord k c.target).value = (s.lcRecord k c.target).value ∧ t.keys = s.keys) ∧
    (c.burnt? = false → c.begun = false → s.lcPowerOk = true → s.mram.defer = true → ∃ t, exec (.tallyBurn low high) s = .next t ∧ t.fuses = s.fuses ∧ t.lc.run = none ∧
      t.lc.reason = 7 ∧ t.keys = s.keys) ∧
    (c.burnt? = false → c.begun = false → s.lcPowerOk = false → ∃ t, exec (.tallyBurn low high) s = .next t ∧ t.fuses = s.fuses ∧ t.lc.run = none ∧ t.lc.reason = 6 ∧ t.keys = s.keys)

/-! ## Skeins (R107, R164 to R187) -/

/-- The skein is configured with these lanes, in a block of slot n, and every lane's context is in the cache (R164, R173). -/
def Cached (n : Fin 8) (sk : BitVec 16) (k : Skein) (s : State) : Prop :=
  SkeinForm s.skn ∧ s.skeinOwner sk = some n ∧ s.skein sk = some k ∧ ∀ l, l < k.lanes.length → ∃ x ∈ s.skn.cache, x.key = laneKey sk l

/-- A push by the engine produces its items for the skein named, all or nothing when it commits; a pop produces the items taken up to the first empty
read at DST and their number; a pop from a block of another slot is a violation of path 0x4, its completion ISOLATION with EXTRA code 1 (R175, R176, R178, R183).
Where the spec leaves a choice it takes the model's: log entries 106 and 107. -/
def Obligations.EngineMovesItems : Prop :=
  ∀ (id : Nat) (o : Op) (s s' : State),
    (Runs id 0x30 o s → Completes (.skeinPush id) o.id (.of 0) [.push o.skein (o.desc.drop 1)] s s) ∧
    (Runs id 0x31 o s → s.skeinOwner o.skein ≠ some o.slot →
      Completes (.skeinPop id) o.id { Answer.of 3 with extra := 1 } [.violation 4 (BitVec.ofNat 16 (blockOf o.skein))] s s) ∧
    (Runs id 0x31 o s → s.skeinOwner o.skein = some o.slot → s.skein o.skein = none →
      Completes (.skeinPop id) o.id { Answer.of 0 with extra := 4 } [] s s) ∧
    (Runs id 0x31 o s → s.skeinOwner o.skein = some o.slot → (s.skein o.skein).isSome → loadSkein o.skein s = (s', true) →
      let r := popGo o.slot o.skein o.count { st := s', items := [], lanes := [], bad := none }
      r.bad = none → Completes (.skeinPop id) o.id { Answer.of 0 with a := BitVec.ofNat 32 r.items.length }
        (r.items.mapIdx fun j w => .write (o.addrB + j) w) s (settlePops o.slot o.skein r.lanes r.st))

/-- A block is granted to a slot that is neither FREE nor PURGING when no slot owns it and it is not block 0x00, else nothing is granted and RESULT says
why; a quota changes only when every quota still fits in 3,840 and the slot's used contexts fit in its own; a reserved OP is held, answers
BAD_OP and does nothing else (R164 to R167, Table SKN-2). -/
def Obligations.BlocksAndQuotasAreGranted : Prop :=
  ∀ (p : Port) (b : Byte) (m : Fin 8) (q : BitVec 12) (n : Fin 8) (sk : BitVec 16) (op : BitVec 4) (s : State),
    (Reached p 0x800 0 s →
      (b ≠ 0 → lookup b.toNat s.skn.blocks = none → s.tenants[m].owned = true → ∃ t, exec (.sknAlloc p b m) s = .next t ∧ t.skn.alRes = 0 ∧
        lookup b.toNat t.skn.blocks = some m ∧ (∀ x, x ≠ b.toNat → lookup x t.skn.blocks = lookup x s.skn.blocks) ∧
        t = { s with skn := { s.skn with blocks := t.skn.blocks, alBlock := b, alSlot := m, alRes := 0 }, mram := t.mram } ∧ OnlyIssues s t ∧
        WaitsFor .A (.plain (blockIdx b.toNat)) t) ∧
      (∀ r : BitVec 3, r = (if b = 0 then 2 else if (lookup b.toNat s.skn.blocks).isSome then 1 else if s.tenants[m].owned then 0 else 3) → r ≠ 0 →
        exec (.sknAlloc p b m) s = .next { s with skn := { s.skn with alBlock := b, alSlot := m, alRes := r } })) ∧
    (Reached p (0x810 + 4 * m.val) 0 s →
      (s.quotaSum - s.tenants[m].quota + q.toNat ≤ 3840 → s.tenants[m].used ≤ q.toNat → ∃ t, exec (.sknQuotaWrite p m q) s = .next t ∧
        t.tenants[m] = { s.tenants[m] with quota := q.toNat } ∧ (∀ i : Fin 8, i ≠ m → t.tenants[i] = s.tenants[i]) ∧
        t = { s with tenants := t.tenants, mram := t.mram } ∧ OnlyIssues s t ∧ WaitsFor .A (.plain (quotaIdx m.val)) t) ∧
      (3840 < s.quotaSum - s.tenants[m].quota + q.toNat ∨ q.toNat < s.tenants[m].used → exec (.sknQuotaWrite p m q) s = .next s)) ∧
    (Reached p 0x840 n s → op = 0 ∨ 7 ≤ op.toNat → ∃ t, exec (.sknSelBadOp p sk op) s = .next t ∧
      t.tenants[n] = { s.tenants[n] with sknSel := sk, sknOp := op, sknRes := 0xC } ∧ (∀ i : Fin 8, i ≠ n → t.tenants[i] = s.tenants[i]) ∧
      t = { s with tenants := t.tenants })

/-- CONFIGURE of an unconfigured skein of the slot with a fitting configuration and contexts left in the quota: the lanes of LANES, each empty, armed and
at GEN 1 with the registers' configuration; else RESULT says STATE, BAD_CFG or QUOTA and no skein changes.  An operation on a skein of another
slot's block answers ISOLATION (R165 to R168).
Where the spec leaves a choice it takes the model's: log entry 29. -/
def Obligations.ConfigureMakesEmptyLanes : Prop :=
  ∀ (p : Port) (n : Fin 8) (sk : BitVec 16) (s : State), Reached p 0x840 n s →
    let t0 := s.tenants[n]
    let lanes := 2 ^ field t0.sknCfg0 25 24
    (s.skeinOwner sk = some n → s.skein sk = none → s.sknCfgOk n t0.sknCfg0 = true → t0.used + lanes ≤ t0.quota → ∃ t,
      exec (.configure p sk) s = .next t ∧ t.tenants[n].sknRes = 0 ∧ t.tenants[n].used = t0.used + lanes ∧
      t.skein sk = some { lanes := (List.range lanes).map fun l => { newLane t0.sknCfg0 t0.sknCfg1 l with gen := 1 } } ∧
      (∀ x, x ≠ sk → t.skein x = s.skein x) ∧ t.mram.words = s.mram.words ∧ t.keys = s.keys) ∧
    (∀ r : BitVec 4, s.skeinOwner sk = some n →
      r = (if (s.skein sk).isSome then 4 else if !s.sknCfgOk n t0.sknCfg0 then 2 else if t0.quota < t0.used + lanes then 3 else 0) → r ≠ 0 → ∃ t,
      exec (.configure p sk) s = .next t ∧ t.tenants[n] = { t0 with sknSel := sk, sknOp := 1, sknRes := r } ∧ t = { s with tenants := t.tenants }) ∧
    (s.skeinOwner sk ≠ some n →
      ∀ c ∈ [Instr.configure p sk, Instr.unconfigure p sk, Instr.flush p sk, Instr.drop p sk, Instr.query p sk, Instr.sync p sk],
        ∃ t, exec c s = .next t ∧ t.skn = s.skn ∧ t.tenants[n].sknRes = 1 ∧ t.tenants[n].iso = satInc t0.iso ∧
          (s.lc.isoV = false → t.lc = { s.lc with isoSlot := n, isoPath := 4, isoIdx := BitVec.ofNat 16 (blockOf sk), isoV := true }))

/-- On a configured skein whose contexts are cached: UNCONFIGURE removes it and frees its contexts when every lane is empty with no open packet, else
answers NOT_EMPTY; QUERY copies counts and configuration and changes no context; SYNC leaves no lane's context dirty; FLUSH with no reader and no
writer inside a packet empties every lane, and DROP does so whatever writer is inside one, which is drained (R165, R167, R173, R180, R187).
Where the spec leaves a choice it takes the model's: log entries 19 and 107. -/
def Obligations.SkeinOperationsOnCachedLanes : Prop :=
  ∀ (p : Port) (n : Fin 8) (sk : BitVec 16) (k : Skein) (s : State), Reached p 0x840 n s → Cached n sk k s →
    ((∀ c ∈ k.lanes, c.count = 0 ∧ c.wopen = none) → ∃ t, exec (.unconfigure p sk) s = .next t ∧ t.skein sk = none ∧
      t.tenants[n].used = s.tenants[n].used - k.lanes.length ∧ t.tenants[n].sknRes = 0 ∧ ∀ x, x ≠ sk → t.skein x = s.skein x) ∧
    ((∃ c ∈ k.lanes, c.count ≠ 0 ∨ c.wopen ≠ none) → ∃ t, exec (.unconfigure p sk) s = .next t ∧ t.tenants[n].sknRes = 5 ∧ t.skein sk = some k ∧
      t.tenants[n].used = s.tenants[n].used) ∧
    (∃ t, exec (.query p sk) s = .next t ∧ t.tenants[n].sknRes = 0 ∧ t.skein sk = some k ∧
      (∀ (l : Fin 8) (c : LaneCtx), k.lanes[l.val]? = some c → t.tenants[n].sknOcc[l] = c.occ ∧ t.tenants[n].sknPkt[l] = BitVec.ofNat 32 c.pkts) ∧
      (∀ c, k.lanes[0]? = some c → t.tenants[n].sknCfg0 = c.cfg0 ∧ t.tenants[n].sknCfg1 = c.cfg1) ∧
      t = { s with tenants := t.tenants, skn := { s.skn with cache := t.skn.cache, skeins := t.skn.skeins } }) ∧
    (∃ t, exec (.sync p sk) s = .next t ∧ t.tenants[n].sknRes = 0 ∧ (∀ l, l < k.lanes.length → t.laneDirty sk l = false) ∧
      ∀ l c, k.lanes[l]? = some c → t.lane sk l = some (if s.laneDirty sk l then { c with gen := c.gen + 1 } else c)) ∧
    (s.tenants[n].notEn = false → (∀ c ∈ k.lanes, c.rlock = false) →
      ((∀ c ∈ k.lanes, c.wopen = none) → ∃ t, exec (.flush p sk) s = .next t ∧ t.tenants[n].sknRes = 0 ∧
        ∀ l, l < k.lanes.length → ∃ c, t.lane sk l = some c ∧ c.count = 0) ∧
      (∃ t, exec (.drop p sk) s = .next t ∧ t.tenants[n].sknRes = 0 ∧
        ∀ l c, k.lanes[l]? = some c → ∃ d, t.lane sk l = some d ∧ d.count = 0 ∧ d.pkts = 0 ∧ d.wopen = c.wopen ∧ d.drain = c.wopen.isSome))

/-- Port B pushes one valid item onto a lane with room: the item is at the lane's tail, the tail and a complete packet are counted, and a packet left
open belongs to the port; a pop takes the item at the head of the lane to read from, which keeps its reader until the packet ends (R107, R168 to R172,
R175, R176).
Where the spec leaves a choice it takes the model's: log entries 56 and 107. -/
def Obligations.PortBPushesAndPopsInOrder : Prop :=
  ∀ (n : Fin 8) (sk : BitVec 16) (k : Skein) (l : Nat) (c : LaneCtx) (w : Word128) (j : Nat) (s : State), s.portWorks = true → s.rdyB = true →
    s.reachWin .b = .slot n → Cached n sk k s → s.tenants[n].notEn = false → k.lanes[l]? = some c →
    (s.tenants[n].st = .owned → itemValid w = true → itemIdle w = 0 → l = prioLane (((s.lane sk 0).map LaneCtx.lanesLog).getD 0) (itemPrio w) →
      l < 8 → c.wopen = none → c.count < c.size → s.windowKey n (c.word c.tail) = some j → s.portRoom .a j = true → s.mram.waitq = [] →
      (∀ e ∈ s.mram.fhb, ∀ i x b, e.tgt = .word i x b → e.arr = keyArr i) →
      ∃ t d, exec (.pbSkeinPush (sk.setWidth 32) 16 (bytesOf w) 184) s = .next t ∧ t.readKey j = .data w false ∧ t.lane sk l = some d ∧
        d.head = c.head ∧ d.tail = (c.tail + 1) % 131072 ∧ d.pkts = c.pkts + (if itemEnd w then 1 else 0) ∧
        d.wopen = (if itemEnd w then none else some 0x40) ∧ t.tenants[n].pbRes = (0, 1)) ∧
    (k.popLane false = some l → s.windowKey n (c.word c.head) = some j → s.itemAt j = .ok w false →
      ∃ t d, exec (.pbSkeinPop (sk.setWidth 32) 16 184) s = .next t ∧ t.portB.out = bytesOf w ∧ t.lane sk l = some d ∧
        d.head = (c.head + 1) % 131072 ∧ d.tail = c.tail ∧ d.rlock = !itemEnd w ∧ t.tenants[n].pbRes = (0, 1))

/-- DOORBELL of a ring of the open slot acts as the doorbell named by its CMD, and one of another slot's ring as a violation (R93, R107, R132, Table
RNG-4).
Where the spec leaves a choice it takes the model's: log entry 160. -/
def Obligations.DoorbellCommandsActByCmd : Prop :=
  ∀ (r : Fin 512) (v : Word32) (data : List Byte) (s : State), s.portWorks = true → s.rdyB = true → data = bytesLE 4 v → s.reachWin .b ≠ .closed →
    let c : Instr := .pbDoorbell (BitVec.ofNat 32 r.val) 4 data 88
    let i : BitVec 16 := v.setWidth 16
    (field v 19 16 = 0 → exec c s = exec (.doorbellPost .b r i) s) ∧ (field v 19 16 = 1 → exec c s = exec (.doorbellResume .b r i) s) ∧
      (field v 19 16 = 2 → exec c s = exec (.doorbellDiscard .b r) s) ∧ (field v 19 16 = 3 → exec c s = exec (.doorbellHalt .b r) s) ∧
      (4 ≤ field v 19 16 → s.reachWin .b = .slot (slotOfRing r) → exec c s = .next s)

/-! ## Arrays, partition, field (R36, R196 to R206, R210, R211, R213, R231, R366, R453) -/

/-- An attempt that verifies stores the word at the head of the array's sequence and no other, charges it to its slot, and takes it off the sequence;
one that fails before the fifth is only counted; with no write ready, and while the field defers writes unless a word's retries or its twin are under
way, nothing is attempted (R198 to R200, R206, R374, R453).  The fifth failed attempt starts a remap while spares are left; the remap on the first spare stores the word,
its row's number in the spare row's tag word, enters the row in the table and takes the spare; a failed first spare gives way to the next; when the
second fails too the word is given up with cause SPARE_FAIL; no word of another row changes (R200 to R202).
Where the spec leaves a choice it takes the model's: log entries 2 and 172. -/
def Obligations.AttemptsStoreOrRemap : Prop :=
  (∀ (a : Arr) (e : WEntry) (k : Nat) (d : Word128) (blank : Bool) (ok : Bool) (s : State), sorted s.mram.words = true → s.mram.waitq = [] →
      (s.attemptOk a = true → s.mram.headOf a = some e → e.tgt = .word k d blank → ∃ t, exec (.writeAttempt a true) s = .next t ∧
        t.stored k = rawOf d blank ∧ (∀ j, j ≠ k → t.stored j = s.stored j) ∧ (t.mram.arr a).attempts = 0 ∧
        (∀ q l, (s.mram.arr a).queue = q :: l → (t.mram.arr a).queue = l ∧ t.mram.fhb = s.mram.fhb) ∧
        (e.charge = true → s.tenants[e.slot].st ≠ .free → t.sns.run[e.slot].writes = satNat 24 (s.sns.run[e.slot].writes + 1)) ∧
        t.keys = s.keys ∧ t.tenants = s.tenants ∧ t.eng = s.eng) ∧
      (s.attemptOk a = true → (s.mram.arr a).attempts < 4 →
        exec (.writeAttempt a false) s = .next (s.modArr a fun q => { q with attempts := q.attempts + 1 })) ∧
      (s.attemptOk a = false → exec (.writeAttempt a ok) s = .next s) ∧
      (s.mram.defer = true → (s.mram.arr a).attempts = 0 → s.mram.twinBegun a = false → exec (.writeAttempt a ok) s = .next s)) ∧
  (∀ (a : Arr) (e : WEntry) (k : Nat) (d : Word128) (blank : Bool) (sp sp' : Nat) (rest : List Nat) (s : State), sorted s.mram.words = true →
      s.mram.waitq = [] → s.mram.headOf a = some e → e.tgt = .word k d blank → (s.mram.arr a).spares = sp :: sp' :: rest →
      let row := keyIdx k / 32
      (s.attemptOk a = true → s.mram.defer = false → (s.mram.arr a).attempts = 4 → ∃ t, exec (.writeAttempt a false) s = .next t ∧
        (t.mram.arr a).remap = some { row := row, tried := 0 } ∧ t.mram.words = s.mram.words ∧ t = { s with mram := t.mram }) ∧
      (s.arrReady a = true → (s.mram.arr a).remap = some { row := row, tried := 0 } →
        (∃ t, exec (.remap a true) s = .next t ∧ t.stored k = rawOf d blank ∧ { arr := a, row := row, spare := sp } ∈ t.mram.remaps ∧
          (t.mram.arr a).spares = (sp :: sp' :: rest).filter (fun x => !decide (x = sp)) ∧ (t.mram.arr a).remap = none ∧
          (k < 294912 → t.stored (spareKey a sp 32) = tagWord row) ∧
          (∀ j, j < 294912 → (∀ i, i < 32 → j ≠ wordKey a (32 * row + i)) → j ≠ k → t.stored j = s.stored j)) ∧
        ∃ t, exec (.remap a false) s = .next t ∧ t.mram.arr a = { s.mram.arr a with remap := some { row := row, tried := 1 } } ∧
          (∀ j, j < 294912 → t.stored j = s.stored j) ∧ t.mram.remaps = s.mram.remaps ∧ t.keys = s.keys ∧ t.tenants = s.tenants) ∧
      (s.arrReady a = true → (s.mram.arr a).remap = some { row := row, tried := 1 } → ∃ t, exec (.remap a false) s = .next t ∧
        t.mram.wfail = true ∧ t.mram.wfailCount = satInc s.mram.wfailCount ∧ (s.mram.wfailV = false → t.mram.wfailV = true ∧
          t.mram.wfailWord = keyIdx k ∧ t.mram.wfailArr = a ∧ t.mram.wfailCause = 2) ∧
        (∀ j, j < 294912 → j ≠ k → t.stored j = s.stored j) ∧ t.mram.remaps = s.mram.remaps))

/-- ALLOCATE gives a FREE granule to an owned slot at its next position, with a fresh seal for its first; SET_TYPE changes ZERO_FILL of a granule its
owner holds and nothing else of the table; GO then reads 1, for both halves of the entry wait to be stored.  Each answers the first failing check with
nothing changed but PART_CTL and its result; a reserved OP is BAD_OP; while an entry waits a GO has no effect but on the fields of PART_CTL.
MEM_HOT_CLR empties the tracker (R12, R36, R196, R197, R205).
Where the spec leaves a choice it takes the model's: log entry 17. -/
def Obligations.GranulesAreAllocatedToOwnedSlots : Prop :=
  ∀ (p : Port) (g : Fin 64) (o : BitVec 4) (z : Bool) (n : Fin 8) (op : BitVec 2) (s : State), Reached p 0xC30 0 s → o.toNat = n.val →
    let go := s.mram.partRun = none
    let entry (t : State) : Prop := t.mram.partRun.isSome ∧ (∀ a, WaitsFor a (.pair 1 g.val (.part s.mram.part[g]) (s.pairDamage 1 g.val)) t) ∧
      ∀ k, t.readKey k = s.readKey k
    (go → s.tenants[n].owned = true → s.mram.part[g].st = .free → ∃ t, exec (.allocate p g o z) s = .next t ∧ t.mram.partRes = 0 ∧
      t.mram.part[g] = { owner := o, pos := s.tenants[n].granules, zeroFill := z, st := .inUse } ∧
      (∀ h : Fin 64, h ≠ g → t.mram.part[h] = s.mram.part[h]) ∧ t.tenants[n].granules = s.tenants[n].granules + 1 ∧
      (s.tenants[n].granules = 0 → t.keys[keyNo n 3].st = .active ∧ t.tenants[n].sealCheck = sealOf t.keys[keyNo n 3].key) ∧
      (s.tenants[n].granules ≠ 0 → t.keys = s.keys ∧ t.tenants[n].sealCheck = s.tenants[n].sealCheck) ∧
      (∀ m : Fin 8, m ≠ n → t.tenants[m] = s.tenants[m]) ∧ t.mram.words = s.mram.words ∧ entry t) ∧
    (go → s.mram.part[g].st = .inUse → s.mram.part[g].owner = o → ∃ t, exec (.setType p g o z) s = .next t ∧ t.mram.partRes = 0 ∧
      t.mram.part[g] = { s.mram.part[g] with zeroFill := z } ∧ (∀ h : Fin 64, h ≠ g → t.mram.part[h] = s.mram.part[h]) ∧
      t = { s with mram := t.mram, int := t.int } ∧ t.mram.words = s.mram.words ∧ t.mram.remaps = s.mram.remaps ∧ entry t) ∧
    (go → s.tenants[n].owned = false → ∃ t, exec (.allocate p g o z) s = .next t ∧
      t = { s with mram := { s.mram with partCtl := t.mram.partCtl, partRes := 2 } }) ∧
    (go → s.tenants[n].owned = true → s.mram.part[g].st ≠ .free → ∃ t, exec (.allocate p g o z) s = .next t ∧
      t = { s with mram := { s.mram with partCtl := t.mram.partCtl, partRes := 1 } }) ∧
    (go → (s.mram.part[g].st ≠ .inUse ∨ s.mram.part[g].owner ≠ o) → ∃ t, exec (.setType p g o z) s = .next t ∧
      t = { s with mram := { s.mram with partCtl := t.mram.partCtl, partRes := 3 } }) ∧
    (s.mram.partRun.isSome → ∀ c ∈ [Instr.allocate p g o z, .setType p g o z, .partCtlBadOp p op], ∃ t, exec c s = .next t ∧
      t = { s with mram := { s.mram with partCtl := t.mram.partCtl } }) ∧
    (go → op = 0 ∨ op = 3 → ∃ t, exec (.partCtlBadOp p op) s = .next t ∧
      t = { s with mram := { s.mram with partCtl := t.mram.partCtl, partRes := 5 } }) ∧
    (Reached p 0xC20 0 s → exec (.memHotClr p) s = .next { s with mram := { s.mram with hot := [] } })

/-- A field sample while an array is on sets the axis and magnitude registers; at MT or above it starts a deferral, counted once, and one under way
goes on until DEFERRAL_END; 100 mT is a disturbance.  A sample in sleep wakes the module at the limit and stores nothing (R206, R210, R211, R365,
R366).  A deferral whose samples have fallen below MT − HYST ends: writes go on, the ports are told, and after a disturbance a priority lap starts;
before that nothing ends it (R206, R210, R211, R225).
Where the spec leaves a choice it takes the model's: log entry 93. -/
def Obligations.FieldDefersWrites : Prop :=
  (∀ (x y z : Int) (s : State), s.faulted 0xC = false →
      let m := magnitude x y z
      (s.power.asleep = false → (s.domOn 3 = true ∨ s.domOn 4 = true) → ∃ t, exec (.fieldSample x y z) s = .next t ∧
        t.sns = { s.sns with fx := BitVec.ofInt 16 x, fy := BitVec.ofInt 16 y, fz := BitVec.ofInt 16 z, mag := BitVec.ofNat 16 m } ∧
        (∀ a, (t.mram.arr a) = { s.mram.arr a with sampled := (s.mram.arr a).sampled || s.domOn (arrDom a) }) ∧ t.mram.defer = (s.mram.defer || decide (s.mram.mt ≤ m)) ∧
        t.mram.episodes = (if s.mram.defer = false ∧ s.mram.mt ≤ m then satInc s.mram.episodes else s.mram.episodes) ∧
        (t.mram.defer = true → t.mram.below = decide (m < s.mram.mtHyst)) ∧ t.mram.disturb = (s.mram.disturb || decide (1000 ≤ m)) ∧
        t.mram.words = s.mram.words ∧ t.mram.fhb = s.mram.fhb ∧ t.keys = s.keys) ∧
      (s.power.asleep = true → ∃ t, exec (.fieldSample x y z) s = .next t ∧ t.mram = s.mram ∧
        t.power.asleep = !decide (s.mram.mt ≤ m) ∧ (s.mram.mt ≤ m → t.power.tcxoCheck = true ∧ t.sns.tamper = true) ∧
        (m < s.mram.mt → m < s.mram.mtHyst → t.sns.tamper = false) ∧ (m < s.mram.mt → s.mram.mtHyst ≤ m → t.sns.tamper = s.sns.tamper))) ∧
  (∀ (p : Port) (s : State),
      (s.mram.defer = true → s.mram.below = true → ∃ t, exec .deferralEnd s = .next t ∧ t.mram.defer = false ∧ t.mram.episodes = s.mram.episodes ∧
        t.mram.words = s.mram.words ∧ ((s.port p).open?.isSome → (t.port p).irqStat.getLsbD 7 = true) ∧
        (s.mram.epDisturb = true → t.int.prio = true ∧ t.int.reason = 2 ∧ t.int.pos = 0) ∧
        (s.mram.epDisturb = false → t.int.prio = s.int.prio ∧ t.int.pos = s.int.pos) ∧ t.keys = s.keys) ∧
      ((s.mram.defer && s.mram.below) = false → exec .deferralEnd s = .next s))

/-! ## Integrity (R219 to R240, R452) -/

/-- The patrol takes one row a time: where no pair of the row is damaged it changes no word, moves on by one row, and starts the next lap after the
last, counted, a priority lap giving way to the ordinary one where that stood; a scrub wake wakes the module for ENG and both arrays, with a batch of
rows to read (R222 to R226).  The oldest queued repair is issued as a write of the word as it reads, which then reads clean; a word that has become
uncorrectable is left as it is, and no repair is issued while the field defers writes (R221).
Where the spec leaves a choice it takes the model's: log entries 30 and 195. -/
def Obligations.PatrolReadsAndRepairsRewrite : Prop :=
  (∀ (s : State), s.patrolOn = true → s.power.recasting = false →
      (s.running = true → s.patrolReady = true → s.pairsAt s.int.pos = [] →
        ∃ t, exec .patrolRow s = .next t ∧ OnlyIssues s t ∧ t.keys = s.keys ∧ t.tenants = s.tenants ∧ t.power = s.power ∧
          t.int.batch = s.int.batch - 1 ∧
          (s.int.pos + 1 < s.lapRows → t.mram = s.mram ∧ t.int.pos = s.int.pos + 1 ∧ t.int.laps = s.int.laps ∧ t.int.prio = s.int.prio) ∧
          (s.lapRows ≤ s.int.pos + 1 → t.int.pos = (if s.int.prio then s.int.resume else 0) ∧ t.int.laps = s.int.laps + 1 ∧
            t.int.prio = false)) ∧
      (s.power.asleep = true → exec .scrubWake s = .next { s with
        int := { s.int with batch := 16 * 2 ^ field s.int.ctl 5 4 }
        power := { s.power with asleep := false, tcxoCheck := true, domWant := s.power.domWant ||| 0x1C } }) ∧
      (s.running = false → exec .patrolRow s = .next s) ∧ (s.power.asleep = false → exec .scrubWake s = .next s)) ∧
  (∀ (k : Nat) (rest : List Nat) (d : Word128) (c : Bool) (u : UncCause) (s : State), s.int.repairs = k :: rest → s.mram.waitq = [] →
      ((s.sysFinds (keyArr k)).find? fun f => f.idx = keyIdx k) = none →
      (s.mram.defer = false → s.domOn (arrDom (keyArr k)) = true → readRaw (s.stored k) = .data d c → s.mram.fhb.length < 256 →
        (∀ e ∈ s.mram.fhb, ∀ j x b, e.tgt = .word j x b → e.arr = keyArr j) → ∃ t, exec .repair s = .next t ∧ t.readKey k = .data d false ∧
          (∀ j, j ≠ k → t.readKey j = s.readKey j) ∧ t.int = { s.int with repairs := rest.filter fun j => !decide (j = k) } ∧
          t = { s with mram := t.mram, int := t.int }) ∧
      (s.mram.defer = false → s.domOn (arrDom (keyArr k)) = true → readRaw (s.stored k) = .blank c → s.mram.fhb.length < 256 →
        (∀ e ∈ s.mram.fhb, ∀ j x b, e.tgt = .word j x b → e.arr = keyArr j) → ∃ t, exec .repair s = .next t ∧ t.readKey k = .blank false ∧
          (∀ j, j ≠ k → t.readKey j = s.readKey j) ∧ t = { s with mram := t.mram, int := t.int }) ∧
      (s.mram.defer = false → s.domOn (arrDom (keyArr k)) = true → readRaw (s.stored k) = .unc u →
        exec .repair s = .next { s with int := { s.int with repairs := rest } }) ∧
      (s.mram.defer = true → exec .repair s = .next s))

/-- GO queues a pass of a range in the partition behind the passes that wait, one at a time for a slot; STOP ends the slot's pass with its outcome, a
queued one unread, and one that is cut in CHECK mode or while the field defers writes changing no word; a CHECK pass that reads its last word, its
arrays being on, changes no word, and counts none where all its words read clean; with an array of it off nothing is read (R222, R227, R228, Table
INT-6).
Where the spec leaves a choice it takes the model's: log entries 31, 87 and 181. -/
def Obligations.RangePassesCountAndReport : Prop :=
  ∀ (p : Port) (n : Fin 8) (v : Word32) (i : Nat) (c : Scan) (rest : List Scan) (s : State),
    let ctl := scanCtlOf v s.tenants[n].scanCtl
    let none' : ScanCount := { corrected := 0, uncorr := 0, blank := 0, rewritten := 0, firstUnc := none }
    (Reached p 0xE40 n s → s.scanOf n = none → s.tenants[n].scanCnt ≠ 0 → s.inPartition n (field ctl 17 0) s.tenants[n].scanCnt = true →
      ∃ t, exec (.scanGo p v) s = .next t ∧ t.tenants[n] = { s.tenants[n] with scanCtl := ctl, scanRes := 0 } ∧
        t.int = { s.int with scans := s.int.scans ++
          [{ slot := n, start := field ctl 17 0, count := s.tenants[n].scanCnt, mode := (ctl >>> 20).setWidth 2, stop := 0 }] } ∧
        t = { s with tenants := t.tenants, int := t.int }) ∧
    (Reached p 0xE40 n s → s.scanOf n ≠ none → ∃ t, exec (.scanGo p v) s = .next t ∧
      t.tenants[n] = { s.tenants[n] with scanCtl := ctl, scanRes := 2 } ∧ t = { s with tenants := t.tenants }) ∧
    (Reached p 0xE40 n s → s.scanOf n = some (i, c) → i ≠ 0 → ∃ t, exec (.scanStop p) s = .next t ∧
      t.tenants[n].scanSum = scanSummary c 1 none' ∧ t.int.scans = (s.int.scans.filter fun d => !decide (d.slot = c.slot)) ∧ t.mram = s.mram) ∧
    (Reached p 0xE40 n s → s.scanOf n = some (0, c) → c.mode = 0 ∨ s.mram.defer = true → ∃ t, exec (.scanStop p) s = .next t ∧
      (∃ m, m ≤ c.count ∧ t.tenants[n].scanSum = scanSummary c 1 (scanGoWords { c with mode := 0 } m s).2) ∧
      t.int.scans = (s.int.scans.filter fun d => !decide (d.slot = c.slot)) ∧ t.mram = s.mram) ∧
    (s.int.scans = c :: rest → (s.scanGranules c).all (fun g => s.scanReads (granArr g)) = false → exec .scanDone s = .next s) ∧
    (s.int.scans = c :: rest → (s.scanGranules c).all (fun g => s.scanReads (granArr g)) = true → c.mode = 0 → ∃ t, exec .scanDone s = .next t ∧ t.mram = s.mram ∧ t.keys = s.keys ∧
      t.int.scans = (s.int.scans.filter fun d => !decide (d.slot = c.slot)) ∧
      t.tenants[c.slot].scanSum = scanSummary c 0 (scanGoWords c c.count s).2 ∧
      ((∀ j, j < c.count → ∃ k d, s.windowKey c.slot (c.start + j) = some k ∧ s.readKey k = .data d false) →
        t.tenants[c.slot].scanSum = scanSummary c 0 none')) ∧
    (s.int.scans = c :: rest → c.mode ≠ 0 → s.mram.defer = true → exec .scanDone s = .next s)

/-- A swatch rerun stops the writes of its array; it writes its four group 6 words into row 4,607 and no other word, and one that passes lets the array
go on; one that fails is recorded and resets the module at once, its cause in INT_RST_CAUSE, with AON retention kept (R229, R231, R233, R452).
Where the spec leaves a choice it takes the model's: log entry 194. -/
def Obligations.SwatchFailureResetsTheModule : Prop :=
  ∀ (p : Port) (a : Arr) (ok : Bool) (f : SwatchFail) (s : State),
    (Reached p 0xE20 0 s → s.int.swRun = false →
      exec (.swatchGo p a) s = .next { s with int := { s.int with swArr := a, swTest := a, swRun := true } }) ∧
    (Reached p 0xE20 0 s → s.int.swRun = true → exec (.swatchGo p a) s = .next { s with int := { s.int with swArr := a } }) ∧
    (s.int.swRun = true → s.int.swTest = a → exec (.writeAttempt a ok) s = .next s) ∧
    (s.int.swRun = true → sorted s.mram.words = true → ∃ t, exec (.swatchDone none) s = .next t ∧
      t.int = { s.int with swRun := false, swRes := 0 } ∧
      (∀ i : Fin 4, t.stored (wordKey s.int.swTest (147424 + i.val)) = swatchRaws.getD i.val blankRaw) ∧
      (∀ k, (∀ i : Fin 4, k ≠ wordKey s.int.swTest (147424 + i.val)) → t.stored k = s.stored k) ∧ t.keys = s.keys ∧ t.tenants = s.tenants ∧
      t.power = s.power ∧ t.eng = s.eng) ∧
    (s.int.swRun = false → exec (.swatchDone none) s = .next s) ∧
    (s.int.swRun = true → s.power.trigger = none → ∃ t, exec (.swatchDone (some f)) s = .next t ∧ t.int.swRes = 1 ∧ t.int.swFail = f ∧ t.int.rstV = true ∧
      t.int.rstCause = 2 ∧ t.power.recasting = true ∧ t.life.aonIntact = true ∧ t.life.state = .castOn ∧ t.power.domOn = 0x01 ∧
      t.portA.open? = none ∧ t.portB.open? = none ∧ t.eng.ops = [] ∧ t.castDue = true)

/-- A purge round overwrites every word left to it of the lowest purging granule of each array with blank words, where no write of it fails, and no other
word; it takes their bits from the purge record, and gives back the granules of a slot that has none left to overwrite.  It waits while it is
suspended, while the field defers writes, and while an array of it is off, not admitted or under a swatch (R231, R234 to R236).  SUSPEND stops the
round at a row boundary and changes no word of another granule; without SUSPEND nothing else of it changes (R237).
Where the spec leaves a choice it takes the model's: log entries 86 and 196. -/
def Obligations.PurgeRoundsBlankTheirGranules : Prop :=
  ∀ (p : Port) (v : Bool) (n : Fin 8) (s : State),
    let gs := s.roundOf
    (Reached p 0xE80 0 s → v = false ∨ s.purging = false → exec (.purgeSuspend p v) s = .next { s with int := { s.int with pSusp := v } }) ∧
    (Reached p 0xE80 0 s → s.purging = true → s.int.pRows ≤ 128 → ∃ t, exec (.purgeSuspend p true) s = .next t ∧ t.int.pSusp = true ∧
      s.int.pRows ≤ t.int.pRows ∧ t.int.pRows ≤ 128 ∧ t.int.pMap = s.int.pMap ∧ t.mram.part = s.mram.part ∧
      (∀ k, k < 294912 → (∀ g ∈ gs, keyGran k ≠ some g) → t.stored k = s.stored k) ∧ t.keys = s.keys ∧ t.tenants = s.tenants) ∧
    (s.purging = true → ∃ t, exec .purgeRound s = .next t ∧
      (t.mram.wfailCount = s.mram.wfailCount → s.mram.wfailCount ≠ BitVec.allOnes _ → ∀ g ∈ gs, ∀ k, keyGran k = some g →
        s.int.pRows ≤ keyIdx k % 4096 / 32 → t.stored k = blankRaw) ∧
      (∀ k, k < 294912 → (∀ g ∈ gs, keyGran k ≠ some g) → t.stored k = s.stored k) ∧
      (∀ g : Fin 64, t.int.pMap.getLsbD g.val = (s.int.pMap.getLsbD g.val && !gs.contains g)) ∧
      (s.tenants[n].st = .purging → s.slotGranules n ≠ [] → (∀ g ∈ s.slotGranules n, t.int.pMap.getLsbD g.val = false) →
        t.tenants[n].st = (if s.tenants[n].owner = 0 then .free else .owned) ∧ t.tenants[n].granules = 0 ∧
        ∀ g ∈ s.slotGranules n, t.mram.part[g].st = .free) ∧
      t.keys = s.keys) ∧
    (s.int.pSusp = true ∨ s.mram.defer = true ∨ gs = [] ∨ (∃ g ∈ gs, s.domOn (arrDom (granArr g)) = false ∨
      s.power.isAdmitted (arrUnit (granArr g)) = false ∨ s.int.swRun = true ∧ s.int.swTest = granArr g) → exec .purgeRound s = .next s)


/-! ## The radio's channels and symbols (R244, R246, R247, R252, R254, R255, R267, R271, R272) -/

/-- A channel of the region is taken, its word of the system area being written, and any other leaves FIXED; in a hopping region a mask that leaves
50 channels is taken, written and rebuilds the list, and any other only shows MASK_REF, as one of the two is done anywhere; W2_PHY, written, takes
the legacy PHY in use while the radio is idle and compatibility is not disabled; a rolled minute leaves at most 60 of them, none in a hopping region.  The hopping list holds each unmasked channel of the region once.  A frame has as many symbols as its airtime
counts, a length word passes its check, and no single changed bit of one does; no frame asks for more power than the region allows (R244, R246,
R247, R254, R255, R261, R262, R267, R271, R272). -/
def Obligations.ChannelsAndSymbolsFollowTheRegion : Prop :=
  (∀ (p : Port) (ch : Byte) (i : Fin 7) (v : Word32) (b : Bool) (s : State),
      (Reached p 0x1014 0 s →
        (s.channelOk ch.toNat = true → ∃ t, exec (.phyChanWrite p ch) s = .next t ∧
          t = { s with phy := { s.phy with fixed := ch }, mram := t.mram } ∧ OnlyIssues s t ∧ WaitsFor .A (.plain channelIdx) t) ∧
        (s.channelOk ch.toNat = false → exec (.phyChanWrite p ch) s = .next s)) ∧
      (Reached p (0x1080 + 4 * i.val) 0 s →
        let left := (regionChannels s.region).filter fun c => !masked (s.phy.hopmask.set i v) c
        let taken (t : State) : Prop := t = { s with phy := { s.phy with hopmask := s.phy.hopmask.set i v, rebuild := true }, mram := t.mram } ∧
          OnlyIssues s t ∧ WaitsFor .A (.plain (147145 + i.val)) t
        let refused (t : State) : Prop := t = { s with phy := { s.phy with maskRef := true } }
        ∃ t, exec (.phyHopmaskWrite p i v) s = .next t ∧ (s.hopping = true → if 50 ≤ left.length then taken t else refused t) ∧
          (taken t ∨ refused t)) ∧
      (Reached p 0x1000 0 s → ∃ t, exec (.compatW2PhyWrite p b) s = .next t ∧
        t = { s with mram := t.mram, phy :=
          { s.phy with w2 := b, active := if s.radioIdle then (s.phy.strap || b) && !s.compatDisabled else s.phy.active } } ∧
        OnlyIssues s t ∧ WaitsFor .A (.plain 147125) t) ∧
      (∃ t, exec .dutyBucketRoll s = .next t ∧ t = { s with phy := { s.phy with duty := t.phy.duty } } ∧ ∀ j : Fin 5,
        t.phy.duty[j].length ≤ 60 ∧ (s.hopping = true → t.dutyUsed j = 0) ∧ t.dutyUsed j ≤ s.dutyUsed j ∧
        (s.hopping = false → s.phy.duty[j].length < 60 → t.dutyUsed j = s.dutyUsed j))) ∧
  (∀ (n : Nat) (j : Nat) (s : State) (shape : Word128) (rate : BitVec 2) (tmap : BitVec 4) (map : BitVec 72) (psdu : List Byte) (req : Nat),
      List.Perm s.buildHop ((regionChannels s.region).filter fun c => !masked s.phy.hopmask c) ∧
      (frameSymbols shape rate tmap map psdu).length = 5 + dataSymbols rate (cbps map) psdu.length ∧
      (∀ x ∈ frameSymbols shape rate tmap map psdu, x.length = 32) ∧
      (let up (a b : Nat) : Nat := a / b + if a % b = 0 then 0 else 1
       0 < cbps map → dataSymbols 0 (cbps map) n = up (2 * (8 * n + 6)) (cbps map) ∧
         dataSymbols 1 (cbps map) n = up (up (3 * (8 * n + 6)) 2) (cbps map) ∧
         dataSymbols 2 (cbps map) n = up (up (4 * (8 * n + 6)) 3) (cbps map) ∧ dataSymbols 3 (cbps map) n = 4 * up (2 * (8 * n + 6)) 24) ∧
      (∀ f : TxFrame, s.phy.active = false → s.frameUs f =
        (5 + dataSymbols (s.txForm f.nb).rate (cbps (s.txForm f.nb).map) f.bytes) * 288) ∧
      lengthOk (lengthWord n) = true ∧ (j < 16 → lengthOk (lengthWord n ^^^ bitAt j true) = false) ∧
      s.appliedPower req ≤ req ∧ 50 * (s.appliedPower req : Int) ≤ max 0 (s.eirp - s.antGain + 1000) ∧ s.appliedPower req ≤ 52)

/-! ## Frames sent (R270, R291, R295 to R297, R304, R318 to R323, R326, R327) -/

/-- The module may put a frame into service now: sending is allowed, no frame is in service and no acknowledgement is due (R285, R320, R321). -/
def MaySend (s : State) : Bool := s.sendOk && s.phy.tx.isNone && decide (s.phy.txPhase = .idle) && s.mac.ackDue.isNone

/-- An opportunity to send puts the module's own frame into service, else the eligible flow's frame with the smallest finish time, ties to the lower
slot and flow; a contention gate starts with a backoff of MIN_BE, an assigned one goes straight to RFTX where no listen is asked for.  A busy
channel, whose power window reaches THR or whose listen finds gauge symbols, doubles the backoff up to MAX_BE until the frame has met more than
MAX_NB of them and goes back to its flow, as does at once one whose listen came first; a clear one takes the frame to RFTX.  With nothing to send, or
nothing to expire, nothing is put into service (R270, R281, R291, R317, R319 to R321, R326, R327).
Where the spec leaves a choice it takes the model's: log entries 51 and 187. -/
def Obligations.FramesEnterServiceByTheirGates : Prop :=
  (∀ (f : TxFrame) (i : Fin 64) (g : Gate) (s : State),
      let s1 := refreshFlows (State.each (List.finRange 64) trimHead s)
      (MaySend s = true → s1.moduleFrame = some (f, g) ∨ (s1.moduleFrame = none ∧ (s1.bestFlow.map (·.1)) = some i ∧
          (loadSkein s1.mac.flows[i].skein s1).2 = true ∧ (∃ x, (loadSkein s1.mac.flows[i].skein s1).1.candidate i = some (x, f)) ∧
          (loadSkein s1.mac.flows[i].skein s1).1.fitGate f = some g ∧ (f.tries = 0 → f.hdr.length = 3)) →
        ∃ t f', exec .sendOpportunity s = .next t ∧ t.phy.tx = some f' ∧ f'.flow = f.flow ∧ f'.payload = f.payload ∧ f'.dst = f.dst ∧
          f'.key = f.key ∧
          (g = .contention → t.phy.txPhase = .idle ∧ ∃ u, u < 2 ^ field s1.mac.csma 3 0 ∧ t.mac.backoff = some (0, field s1.mac.csma 3 0, u)) ∧
          (g = .assigned → s1.lbtOn = true → t.phy.txPhase = .listening) ∧
          (g = .assigned → s1.lbtOn = false → t.phy.txPhase = .ready ∧ (t.power.isAdmitted .rftx = true ∨ t.power.isWaiting .rftx = true)) ∧
          (s1.moduleFrame.isSome → t.mac.modq = s1.mac.modq.drop 1) ∧ t.keys = s.keys) ∧
      (MaySend s = true → s1.moduleFrame = none → s1.bestFlow = none → exec .sendOpportunity s = .next s1) ∧
      (MaySend s = false → exec .sendOpportunity s = .next s) ∧
      ((∀ j t f', s.candidate j = some (t, f') → 0 ≤ (t - s.mac.v).toInt) → s.bestFlow = some (i, f) → ∃ t, s.candidate i = some (t, f) ∧
        ∀ j t' f', s.candidate j = some (t', f') → 0 ≤ (t' - t).toInt ∧ (t' = t → i ≤ j))) ∧
  (∀ (f : TxFrame) (nb be u : Nat) (s : State), s.phy.tx = some f → s.mac.ackDue = none →
      let busyNext (s t : State) : Prop :=
        (nb + 1 ≤ field s.mac.csma 11 8 → t.phy.txPhase = .idle ∧ t.phy.tx = some f ∧ ∃ v, v < 2 ^ min (be + 1) (field s.mac.csma 7 4) ∧
          t.mac.backoff = some (nb + 1, min (be + 1) (field s.mac.csma 7 4), v)) ∧
        (field s.mac.csma 11 8 < nb + 1 → t.phy.tx = none ∧ t.phy.txPhase = .idle ∧ t.mac.backoff = none ∧
          (∀ n k, f.flow = some (n, k) → t.mac.flows[flowNo n k].wait = true) ∧ (f.flow = none → t.mac.modq = f :: s.mac.modq))
      let clearNext (t : State) : Prop := t.phy.tx = some f ∧ t.phy.txPhase = .ready ∧ t.mac.backoff = none ∧
        (t.power.isAdmitted .rftx = true ∨ t.power.isWaiting .rftx = true)
      (s.phy.txPhase = .idle → s.mac.backoff = some (nb, be, u) →
        (s.lbtOn = true → ∀ dbm, ∃ t, exec (.backoffExpire dbm) s = .next t ∧ t.phy.txPhase = .listening ∧ t.phy.tx = some f ∧
          t.phy.lbtHeard = false ∧ t.mac = s.mac) ∧
        (s.lbtOn = false → ∀ dbm, s.powerBusy dbm = true ∨ s.rxRefused = true → ∃ t, exec (.backoffExpire dbm) s = .next t ∧ busyNext s t) ∧
        (s.lbtOn = false → s.rxRefused = false → s.frameOk f = true → (s.fitGate f).isSome → ∀ dbm, s.powerBusy dbm = false →
          ∃ t, exec (.backoffExpire dbm) s = .next t ∧ clearNext t)) ∧
      (s.phy.txPhase = .listening → ∀ w g,
        (s.phy.lbtHeard = true ∨ g = true ∨ (∃ x ∈ w.take (s.phy.lbtUs / 288), s.powerBusy x.toInt = true) → s.listenBusy w g = true) ∧
        (s.listenBusy w g = true ∨ s.rxRefused = true → ∃ t, exec (.lbtListenEnd w g) s = .next t ∧
          (s.mac.backoff = some (nb, be, u) → busyNext s t) ∧
          (s.mac.backoff = none → t.phy.tx = none ∧ t.phy.txPhase = .idle ∧ ∀ n k, f.flow = some (n, k) →
            t.mac.flows[flowNo n k].wait = true)) ∧
        (s.rxRefused = false → s.frameOk f = true → (s.fitGate f).isSome → s.listenBusy w g = false →
          ∃ t, exec (.lbtListenEnd w g) s = .next t ∧ t.phy.clear = true ∧ clearNext t)) ∧
      (s.phy.txPhase ≠ .listening → ∀ w g, exec (.lbtListenEnd w g) s = .next s) ∧
      (s.phy.txPhase ≠ .idle ∨ s.mac.backoff = none → ∀ dbm, exec (.backoffExpire dbm) s = .next s))

/-- A frame that RFTX is admitted for, that fits, is allowed and paid, goes on air from the module's address under its key's next counter, no other
key's being touched, at its airtime and within the region's power, and its first attempt costs the slot its symbols; no word reads otherwise for it.  At its end its airtime counts against the region's
limit, and it waits for its acknowledgement or has been sent; a missed one is tried again through its gate up to the retries, then is counted as
failed; a matching one is counted as sent.  A due acknowledgement goes out when RFTX is admitted and is dropped, counted at step 11, when it is
not (R252, R271, R295 to R297, R300, R304, R320 to R323, R327).
Where the spec leaves a choice it takes the model's: log entries 51, 129 and 132. -/
def Obligations.FramesAreSentAndAcknowledged : Prop :=
  (∀ (f : TxFrame) (s : State), s.phy.tx = some f → s.phy.txPhase = .ready → s.mac.ackDue = none → s.power.isAdmitted .rftx = true →
      let f1 := s.sourced f
      (s.lbtOn = true → s.phy.clear = true) → (s.fitGate f1).isSome → s.frameOk f1 = true → s.firstPaid f1 = true → s.mac.fc[f.key] ≠ 0xFFFFFFFF →
      ∃ t a f', exec .frameTxStart s = .next t ∧ t.phy.txPhase = .onAir ∧ t.phy.air = some a ∧ a.ack = false ∧ a.us = s.frameUs f1 ∧
        a.sym = s.frameCost f1 ∧ a.power = s.appliedPower (s.requestedPower f.nb) ∧ t.phy.applied.toNat = a.power ∧ t.phy.tx = some f' ∧
        f'.payload = f.payload ∧ f'.hdr = f.hdr ∧ f'.dst = f.dst ∧ f'.src = f1.src ∧ f'.key = f.key ∧ flag f'.fc 9 = decide (f.tries ≠ 0) ∧
        (s.phy.active = false → a.psdu = psduOf s f' s.mac.fc[f.key]) ∧ t.mac.fc[f.key] = s.mac.fc[f.key] + 1 ∧
        t.mac.fc[f.key] ≤ t.mac.fcStored[f.key] ∧ (∀ k : Fin 36, k ≠ f.key → t.mac.fc[k] = s.mac.fc[k]) ∧
        (∀ n k, f.flow = some (n, k) → t.tenants[n].level = s.tenants[n].level - (if f.tries = 0 then (s.frameCost f1 : Int) else 0)) ∧
        OnlyIssues s t ∧ t.keys = s.keys ∧ t.skn = s.skn) ∧
  (∀ (f : TxFrame) (a : AirFrame) (s : State), s.phy.txPhase = .onAir → s.phy.air = some a → ∃ t, exec .frameTxEnd s = .next t ∧
      (if s.hopping then t.mac.dwell = s.mac.dwell + a.us else t.dutyUsed (subBand s.channel) = s.dutyUsed (subBand s.channel) + a.us) ∧
      (a.ack = false → s.phy.tx = some f → f.ar = true → t.phy.txPhase = .awaitAck ∧ t.phy.tx = some { f with tries := f.tries + 1 } ∧
        t.power.isAdmitted .rftx = false) ∧
      (a.ack = false → s.phy.tx = some f → f.ar = false → t.phy.txPhase = .idle ∧ t.phy.tx = none ∧ ∀ n k, f.flow = some (n, k) →
        f.gone = false → t.mac.flows[flowNo n k].sent = satInc s.mac.flows[flowNo n k].sent)) ∧
  (∀ (f : TxFrame) (s : State), s.phy.tx = some f → s.phy.txPhase = .awaitAck →
      (f.gone = true ∨ field s.mac.csma 15 12 < f.tries → ∃ t, exec .ackTimeout s = .next t ∧ t.phy.tx = none ∧ t.phy.txPhase = .idle ∧
        ∀ n k, f.flow = some (n, k) → f.gone = false → s.mac.flows[flowNo n k].requeue = false →
          t.mac.flows[flowNo n k].fail = satInc s.mac.flows[flowNo n k].fail) ∧
      (f.gone = false → f.tries ≤ field s.mac.csma 15 12 → (∀ n k, f.flow = some (n, k) → s.retryPaid n (s.frameCost f) = true) →
        s.frameOk f = true → s.fitGate (s.sourced f) = some .contention →
        ∃ t, exec .ackTimeout s = .next t ∧ t.phy.tx = some (s.sourced f) ∧ t.phy.txPhase = .idle ∧
          ∃ u, u < 2 ^ field s.mac.csma 3 0 ∧ t.mac.backoff = some (0, field s.mac.csma 3 0, u)) ∧
      (∀ (f0 : RxFrame) (h : Hdr), let r := s.heard f0
        s.rxReady = true → s.headerOk r = true → s.tentOk r = true → s.parsed r = some h → h.typ = typAck →
        s.ackMatches h r f = true → ∃ t, exec (.ackFrame f0) s = .next t ∧ t.phy.tx = none ∧ t.phy.txPhase = .idle ∧ ∀ n k,
          f.flow = some (n, k) → f.gone = false → t.mac.flows[flowNo n k].sent = satInc s.mac.flows[flowNo n k].sent)) ∧
  (∀ (a : AckDue) (s : State), s.mac.ackDue = some a → s.radioOn = true → s.mac.state ≠ .unsync → s.faulted 8 = false →
      (s.power.isAdmitted .rftx = true → s.timeAllows (s.ackUs a) = true → (s.hopping = true → s.mac.sfUs + s.ackUs a ≤ s.tSf) →
        ∃ t b, exec .ackSend s = .next t ∧ t.mac.ackDue = none ∧ t.phy.txPhase = .onAir ∧ t.phy.air = some b ∧ b.ack = true ∧
          b.us = s.ackUs a ∧ t.phy.tx = s.phy.tx ∧ t.mac = { s.mac with ackDue := none }) ∧
      (s.power.isAdmitted .rftx = false → ∃ t, exec .ackSend s = .next t ∧ t.mac.ackDue = none ∧ t.mac.dropk[10] = satInc s.mac.dropk[10] ∧
        t.phy.air = s.phy.air)) ∧
  (∀ s : State, (s.mac.ackDue = none → exec .ackSend s = .next s) ∧ (s.phy.txPhase ≠ .onAir → exec .frameTxEnd s = .next s) ∧
      (s.phy.txPhase ≠ .awaitAck → exec .ackTimeout s = .next s) ∧ (s.phy.txPhase ≠ .ready → exec .frameTxStart s = .next s))

/-! ## Superframes, beacons expected, sniffing (R246, R289, R290, R305, R330) -/

/-- A superframe boundary counts the superframe, starts its time and its dwell at 0, brings an announced slot mask and, at its superframe, an
announced channel into force, ends what kept the receiver on but a rendezvous still under way, and takes the superframe's channel, which a frame in
reception keeps from it; a slot's end moves its time to the next slot, a rendezvous that ends before it to its own end.  In TRACK without sniffing
the receiver opens for one beacon of every SKIP + 1 superframes.  A window without a beacon counts a miss and goes from TRACK to SEARCH at LOST_MAX
and from SEARCH to UNSYNC at 4 times SEARCH (R246, R247, R276, R289, R290).  A sniff at or above the threshold listens, any other does not; a listen
that ends in nothing is a false wake, counted with its time, and moves an adaptive threshold up by 1 dB; a threshold in force stays within its
bounds.  A rendezvous keeps the receiver on for one slot length; a wait for pending data that runs out ends one hold (R297, R305, R330).
Where the spec leaves a choice it takes the model's: log entries 188 and 192. -/
def Obligations.SuperframesAndSniffsKeepTime : Prop :=
  (∀ (rx : Bool) (s : State),
      (s.running = true → ∃ t, exec (.superframeBoundary rx) s = .next t ∧ t.mac.sfn = s.mac.sfn + 1 ∧ t.mac.sfUs = 0 ∧ t.mac.dwell = 0 ∧
        t.mac.slotmask = s.mac.maskNext.getD s.mac.slotmask ∧ t.mac.maskNext = none ∧
        t.mac.rxHold = (s.mac.rxHold.filterMap fun h => match h with
          | .rendezvous u => if u ≤ s.tSf then none else some (.rendezvous (u - s.tSf))
          | _ => none) ∧
        (rx = false ∨ s.rxReady = false → t.phy.cur = BitVec.ofNat 8 t.channel) ∧
        (rx = true → s.rxReady = true → t.phy.cur = s.phy.cur ∧ t.phy.rxHeld = true) ∧
        t.phy.rebuild = false ∧ (s.phy.rebuild = true → t.phy.hopList = s.buildHop) ∧
        (s.phy.rebuild = false → t.phy.hopList = s.phy.hopList) ∧ (∀ i : Fin 64, t.mac.flows[i] = { s.mac.flows[i] with wait := false }) ∧
        (∀ c a, s.mac.chsw = some (c, a) → (s.mac.sfn + 1).setWidth 8 = a → s.channelOk c.toNat = true → t.phy.fixed = c ∧ t.mac.chsw = none) ∧
        (∀ c a, s.mac.chsw = some (c, a) → (s.mac.sfn + 1).setWidth 8 ≠ a → t.phy.fixed = s.phy.fixed ∧ t.mac.chsw = s.mac.chsw) ∧
        t.keys = s.keys ∧ OnlyIssues s t ∧ t.tenants = s.tenants) ∧
      (s.running = true → ∃ t, exec .slotEnd s = .next t ∧ t.mac.sfn = s.mac.sfn ∧ t.phy = s.phy ∧ t.keys = s.keys ∧ t.mram = s.mram ∧
        (s.rdvEnd = none → t.mac.sfUs = (s.slotNow + 1) * s.tSlot) ∧
        (∀ u, s.rdvEnd = some u → t.mac.sfUs = max s.mac.sfUs u ∧ ∀ v, v ≤ u → RxHold.rendezvous v ∉ t.mac.rxHold)) ∧
      (s.running = false → exec (.superframeBoundary rx) s = .next s ∧ exec .slotEnd s = .next s)) ∧
  (∀ s : State,
      (s.beaconDue = true → s.running = true → ∃ t, exec .beaconWake s = .next t ∧ t.mac = { s.mac with window := true } ∧
        t.power.domWant = (if s.power.asleep then s.power.domWant ||| 0x1C else s.power.domWant) ||| 0x60 ∧ t.power.asleep = false ∧
        t = { s with mac := t.mac, power := t.power }) ∧
      ((s.beaconDue && s.running) = false → exec .beaconWake s = .next s) ∧
      (s.mac.sniffEn = false → s.mac.trackEn = false → s.beaconDue = false) ∧
      (s.mac.sniffEn = false → s.mac.trackEn = true → s.mac.state = .track →
        s.beaconDue = decide ((s.mac.sfn + 1 - s.mac.trackRef).toNat % (s.mac.skip.toNat + 1) = 0)) ∧
      (s.mac.window = true → ∃ t, exec .beaconWindowEnd s = .next t ∧ t.mac.window = false ∧
        (s.mac.state = .track → t.mac.miss = s.mac.miss + 1 ∧
          t.mac.state = if s.mac.lostMax.toNat ≤ s.mac.miss + 1 then .search else .track) ∧
        (s.mac.state = .search → t.mac.searched = s.mac.searched + 1 ∧
          t.mac.state = if 4 * s.mac.search.toNat ≤ s.mac.searched + 1 then .unsync else .search) ∧
        (s.mac.state = .unsync → t.mac.state = .unsync) ∧ t.mac.short = s.mac.short ∧ t.mac.nbs = s.mac.nbs ∧ t.keys = s.keys) ∧
      (s.mac.window = false → exec .beaconWindowEnd s = .next s)) ∧
  (∀ (dbm : Int) (s : State),
      (s.mac.sniffEn = true → s.mac.rdv = none → s.radioOn = true → ∃ t, exec (.sniffWake dbm) s = .next t ∧
        (s.sniffThr ≤ dbm → s.rxRefused = false → t.mac.listen = true ∧ t.mac.wakeHit = false ∧ t.mac.loopThr = s.mac.loopThr ∧
          t.power.domWant = s.power.domWant ||| 0x60 ∧ t.power.asleep = false) ∧
        (dbm < s.sniffThr → t.mac.listen = s.mac.listen ∧ t.power.asleep = false ∧
          (s.loopOn loopThreshold = true → s.thrMin ≤ s.thrMax → s.thrMin ≤ t.sniffThr ∧ t.sniffThr ≤ s.thrMax) ∧
          (s.loopOn loopThreshold = false → t.mac.loopThr = s.mac.loopThr))) ∧
      ((s.mac.sniffEn = false ∨ s.mac.rdv ≠ none ∨ s.radioOn = false) → exec (.sniffWake dbm) s = .next s) ∧
      (s.mac.listen = true → ∃ t, exec .sniffListenEnd s = .next t ∧ t.mac.listen = false ∧ t.mac.worWakes = s.life.ms :: s.recentWakes ∧
        (s.loopOn loopThreshold = true → s.thrMin ≤ s.thrMax → t.sniffThr = min s.thrMax (max (s.sniffThr + 1) s.thrMin)) ∧
        (s.loopOn loopThreshold = false → t.mac.loopThr = s.mac.loopThr) ∧ t.keys = s.keys ∧ t.mram = s.mram) ∧
      (s.mac.listen = false → exec .sniffListenEnd s = .next s) ∧
      (s.mac.rdv ≠ none → ∃ t, exec .rdvExpire s = .next t ∧ t.mac = { s.mac with
        rdv := none, rxHold := s.mac.rxHold ++ [.rendezvous (s.mac.sfUs + s.tSlot)], wakeHit := false }) ∧
      (s.mac.rdv = none → exec .rdvExpire s = .next s) ∧
      exec .pendWaitExpire s = .next { s with mac := { s.mac with rxHold := eraseFirst RxHold.isPend s.mac.rxHold } } ∧
      ((∀ h ∈ s.mac.rxHold, h.isPend = false) → exec .pendWaitExpire s = .next s))

/-! ## Shapers, flows, association, neighbours (R292, R293, R319, R324, R328, R331, R333) -/

/-- A refill brings a pending shaper configuration into force, lifts a level under −BURST to it with a count, adds RATE up to BURST, and refills the
policer; a configuration written waits for it.  Enabling a flow starts its time at V (R319, R324, R328).  ASSOC asks the beacon's source in TRACK
while association is open, else it answers NOT OPEN; without a reply it ends; LEAVE tells the coordinator.  MAC_NBCTL reads, writes and deletes one
entry, PWR clamped while the power loop is on.  Sixteen superframes after a handover the old slot is free (R292, R293, R331, R333, R338).
Where the spec leaves a choice it takes the model's: log entries 49, 50, 138 and 142. -/
def Obligations.MacRegistersAndRefillsAct : Prop :=
  (∀ (n : Fin 8) (s : State), ∃ t, exec .refill s = .next t ∧
      (let o := s.tenants[n]
       let rate := (o.shpPend.map (·.1)).getD o.shpRate
       let burst := (o.shpPend.map (·.2)).getD o.shpBurst
       t.tenants[n] = { o with
         shpRate := rate, shpBurst := burst, shpPend := none
         level := min (burst : Int) (max o.level (-(burst : Int)) + rate)
         clamps := if o.level < -(burst : Int) then satInc o.clamps else o.clamps
         polLevel := min (field o.polCfg 15 8) (o.polLevel + field o.polCfg 7 0) }) ∧
      t = { s with tenants := t.tenants, log := t.log, portA := t.portA, portB := t.portB }) ∧
  (∀ (p : Port) (n : Fin 8) (f : Fin 8) (v : Word32) (s : State),
      (Reached p (0x1840 + 16 * n.val) 0 s → ∃ t, exec (.shpCfgWrite p n v) s = .next t ∧
        t.tenants[n] = { s.tenants[n] with shpPend := some (field v 11 0, if field v 31 16 = 0 then
          (s.tenants[n].shpPend.map (·.2)).getD s.tenants[n].shpBurst else field v 31 16) } ∧
        (∀ m : Fin 8, m ≠ n → t.tenants[m] = s.tenants[m]) ∧ t = { s with tenants := t.tenants, mram := t.mram } ∧ OnlyIssues s t) ∧
      (Reached p (0x1604 + 16 * f.val) n s → ∃ t, exec (.flowEnable p f) s = .next t ∧
        t.mac.flows[flowNo n f] = (let q := s.mac.flows[flowNo n f]
          if q.en then q else { q with flowb := q.flowb ||| 0x80000000, last := s.mac.v, fin := none }) ∧
        (∀ j : Fin 64, j ≠ flowNo n f → t.mac.flows[j] = s.mac.flows[j]) ∧
        t = { s with mac := { s.mac with flows := t.mac.flows }, mram := t.mram } ∧ OnlyIssues s t)) ∧
  (∀ (p : Port) (s : State),
      (Reached p 0x1404 0 s →
        (s.mac.assoc = true → exec (.assoc p) s = .next s) ∧
        (s.mac.assoc = false → s.mac.state = .track → s.mac.assocOpen = true → ∃ t fr, exec (.assoc p) s = .next t ∧
          t.mac = { s.mac with assoc := true, assocRes := 0, modq := s.mac.modq ++ [fr] } ∧ fr.flow = none ∧ fr.hdr = [1] ∧
          fr.dst = bytesLE 2 s.mac.beaconSrc ∧ fr.src = s.longBytes ∧ fr.key = netKey ∧ levelOk fr.level = true ∧
          t = { s with mac := t.mac, freeCtr := s.freeCtr + 1 }) ∧
        (s.mac.assoc = false → s.mac.state ≠ .track ∨ s.mac.assocOpen = false →
          exec (.assoc p) s = .next { s with mac := { s.mac with assocRes := 4 } }) ∧
        (∀ i, (s.nbOf fun n => n.coord) = some i → ∃ t fr, exec (.macLeave p) s = .next t ∧
          t.mac = { s.mac with modq := s.mac.modq ++ [fr] } ∧ fr.flow = none ∧ fr.hdr = [6] ∧ fr.dst = bytesLE 2 s.mac.nbs[i].short ∧
          fr.payload.length = 1 ∧ fr.nb = some i) ∧
        ((s.nbOf fun n => n.coord) = none → exec (.macLeave p) s = .next s)) ∧
      (s.mac.assoc = true → exec .assocNoReply s = .next { s with mac := { s.mac with assoc := false, assocRes := 3 } }) ∧
      (s.mac.assoc = false → exec .assocNoReply s = .next s)) ∧
  (∀ (p : Port) (e : Fin 64) (k : Fin 16) (s : State),
      (Reached p 0x1480 0 s →
        exec (.nbctlRead p e) s = .next { s with mac := { s.mac with nbEntry := e, nbOp := 1, nbWord := s.mac.nbs[e].word } } ∧
        (∃ t, exec (.nbctlWrite p e) s = .next t ∧ t.mac.nbs[e].long = s.mac.nbWord.setWidth 64 ∧
          t.mac.nbs[e].short.toNat = field s.mac.nbWord 79 64 ∧ t.mac.nbs[e].valid = flag s.mac.nbWord 80 ∧
          t.mac.nbs[e].coord = flag s.mac.nbWord 81 ∧ t.mac.nbs[e].txmap.toNat = field s.mac.nbWord 87 84 ∧
          t.mac.nbs[e].pwr = BitVec.ofNat 6 (if flag s.mac.loopCtl 0 then s.clampPower (field s.mac.nbWord 95 90) else
            field s.mac.nbWord 95 90) ∧
          (∀ j : Fin 64, j ≠ e → t.mac.nbs[j] = s.mac.nbs[j] ∧ t.phy.gauge[j] = s.phy.gauge[j]) ∧
          ((s.mac.nbs[e].valid && decide (s.mac.nbs[e].long = s.mac.nbWord.setWidth 64)) = true →
            t.mac.nbs[e].marks = s.mac.nbs[e].marks ∧ t.phy.gauge[e] = s.phy.gauge[e]) ∧
          ((s.mac.nbs[e].valid && decide (s.mac.nbs[e].long = s.mac.nbWord.setWidth 64)) = false →
            t.mac.nbs[e].marks = [] ∧ t.phy.gauge[e] = 0)) ∧
        (∃ t, exec (.nbctlDelete p e) s = .next t ∧ t.mac.nbs[e] = Neighbour.reset ∧ t.phy.gauge[e] = 0 ∧ (∀ j : Fin 64, j ≠ e →
          t.mac.nbs[j] = s.mac.nbs[j] ∧ t.phy.gauge[j] = s.phy.gauge[j]) ∧ t.keys = s.keys)) ∧
      (s.loopOn loopLoading = true → 16 ≤ s.mac.sfn.toNat - s.mac.nbs[e].prevSfn → s.mac.nbs[e].prevSlot = some k → ∃ t,
        exec (.tonemapPrevExpire e) s = .next t ∧ t.phy.tmaps[k] = { s.phy.tmaps[k] with valid := false } ∧
        (∀ j : Fin 16, j ≠ k → t.phy.tmaps[j] = s.phy.tmaps[j]) ∧ t.mac.nbs[e] = { s.mac.nbs[e] with prevSlot := none }) ∧
      (s.loopOn loopLoading = false → exec (.tonemapPrevExpire e) s = .next s))

/-! ## Frames received (R258, R264, R265, R283, R285 to R289, R292, R293, R301 to R303, R305, R314) -/

/-- The receiver takes the frame as one whose header reads as `h`, of this type, has ended a wait that it ends and, but for a wake frame, has read
the cache entry of its source: `s'` is the module then. -/
def Arrives (f : RxFrame) (typ : Nat) (h : Hdr) (s s' : State) : Prop :=
  let r := s.heard f
  let a := missedAck (arrive r s)
  s.rxReady = true ∧ s.headerOk r = true ∧ s.tentOk r = true ∧ s.parsed r = some h ∧ h.typ = typ ∧
    s' = if typ = typWake then a else a.sourceRead h

/-- It has passed the filter's steps 2 to 10, is no duplicate, and reads as `b` in clear. -/
def Clear (h : Hdr) (p : Passed) (b : List Byte) (s' : State) : Prop :=
  s'.headSteps h = .ok p ∧ p.dup = false ∧ s'.endSteps h p = .ok b

/-- Each received frame, as the receiver's decisions read it from its carriers, goes through the address filter: one that fails a step is counted at
that step and, past the read of its source's cache entry, has no other effect on the site's tables, the keys and the memory; nothing is taken while
the receiver cannot receive.  A beacon of the site gives the superframe, its number and time, ends
the misses and takes its channel; a data frame for a window or a skein is delivered and counted, its payload and its completion record reading back
at once; the site's commands set what they carry when they come from whom they must; a wake frame gives its rendezvous.  A counter that a replay mark has taken, or
has refused, is refused from then on (R258, R264, R265, R283, R285 to R289, R292, R293, R301 to R303, R305, R314).
Where the spec leaves a choice it takes the model's: log entries 52, 54, 117, 127, 128, 130, 189 and 190. -/
def Obligations.ReceivedFramesPassTheFilter : Prop :=
  (∀ (m : Mark) (c x : Word32), (m.passes c = true → (m.commit c).1.passes c = false ∧ (m.passes x = false → (m.commit c).1.passes x = false)) ∧
      (m.passes c = true → m.h ≤ (m.commit c).1.h ∧ (m.commit c).1.key = m.key)) ∧
  (∀ (f : RxFrame) (s : State), s.rxReady = false → ∀ c ∈ [Instr.beacon f, .dataFrame f, .ackFrame f, .wakeFrame f, .assocRsp f, .slotAssign f,
      .tonemap f, .tonemapReq f, .leave f, .nbAdd f, .nbDel f, .hdrBad f, .lenBad f, .formatFail f], exec c s = .next s) ∧
  (∀ (f : RxFrame) (s : State), s.rxReady = true →
      let r := s.heard f
      let s' := missedAck (arrive r s)
      (s.headerOk r = false → ∃ t, exec (.hdrBad f) s = .next t ∧ t.phy.hdrBad = satInc s'.phy.hdrBad ∧ t.mac.dropk = s'.mac.dropk) ∧
      (s.headerOk r = true → s.tentOk r = false → ∃ t, exec (.lenBad f) s = .next t ∧ t.phy.lenBad = satInc s'.phy.lenBad ∧
        t.mac.dropk = s'.mac.dropk) ∧
      (s.headerOk r = true → s.tentOk r = true → s.parsed r = none → ∃ t, exec (.formatFail f) s = .next t ∧
        t.mac.dropk[0] = satInc s'.mac.dropk[0] ∧ t.mac.nbs = s'.mac.nbs ∧ t.mram = s'.mram)) ∧
  (∀ (f : RxFrame) (h : Hdr) (p : Passed) (k : Nat) (s s' : State),
      ∀ x ∈ [(Instr.beacon f, typBeacon, 0), (.dataFrame f, typData, 0), (.assocRsp f, typCommand, 2), (.slotAssign f, typCommand, 3),
          (.tonemap f, typCommand, 4), (.tonemapReq f, typCommand, 5), (.leave f, typCommand, 6), (.nbAdd f, typCommand, 7),
          (.nbDel f, typCommand, 8)], Arrives f x.2.1 h s s' → (x.2.2 ≠ 0 → h.cmd = x.2.2) →
        (s'.headSteps h = .error k ∨ s'.headSteps h = .ok p ∧ s'.endSteps h p = .error k) → ∃ t, exec x.1 s = .next t ∧
          t.mac.dropk[(k + 10) % 11]? = (s'.mac.dropk[(k + 10) % 11]?).map satInc ∧ t.mac.nbs = s'.mac.nbs ∧ t.mac.short = s'.mac.short ∧
          t.mac.eps = s'.mac.eps ∧ t.mac.sfn = s'.mac.sfn ∧ t.mram = s'.mram ∧ t.keys = s'.keys) ∧
  (∀ (f : RxFrame) (h : Hdr) (p : Passed) (b : List Byte) (s s' : State), Arrives f typBeacon h s s' → Clear h p b s' → beaconBodyOk b = true →
      ∃ t, exec (.beacon f) s = .next t ∧ t.mac.state = .track ∧ t.mac.miss = 0 ∧ t.mac.searched = 0 ∧ t.mac.window = false ∧
        t.mac.sfn = BitVec.ofNat 32 (leNat ((b.drop 2).take 4)) ∧ t.mac.sfUs = s'.rxUs (s.heard f) ∧ t.mac.so.toNat = field (sfspec b) 2 0 ∧
        t.mac.capLast.toNat = field (sfspec b) 7 3 ∧ t.mac.bslots.toNat = field (sfspec b) 9 8 ∧ t.mac.assocOpen = flag (sfspec b) 14 ∧
        t.mac.alert = flag (sfspec b) 15 ∧ t.phy.cur = BitVec.ofNat 8 t.channel ∧ t.mac.short = s'.mac.short ∧ t.keys = s'.keys) ∧
  (∀ (f : RxFrame) (h : Hdr) (p : Passed) (b : List Byte) (s s' : State), Arrives f typData h s s' → Clear h p b s' →
      ¬(s'.safetySlot = some h.epSlot ∧ h.ep % 8 = emergEp s'.eva.emerg) →
      let e := s'.mac.eps[h.epNo]
      let n := h.epSlot
      let cr := ringNo n e.cpl
      let c := (s'.ring cr).ctx
      let ws := wordsOf (wordsFor b.length) b
      let key (j : Nat) := s'.windowKey n (e.base + h.xfer + j)
      (e.kind = 1 → s'.windowOk h b = true → (s'.toGroup h = true → e.groupOk = true) → s'.mram.waitq = [] →
        s'.mram.fhb.length + ws.length + 3 ≤ 256 → (∀ x ∈ s'.mram.fhb, ∀ j y z, x.tgt = .word j y z → x.arr = keyArr j) → ∀ k,
        s'.windowKey n (c.word c.prod) = some k → (∀ j < ws.length, (key j).isSome ∧ key j ≠ some k) → ((List.range ws.length).map key).Nodup →
        ∃ t r, exec (.dataFrame f) s = .next t ∧ t.mac.eps[h.epNo] = { e with deliv := satInc e.deliv } ∧ (t.ring cr).ctx.prod = c.prod + 1 ∧
          (∀ j i w, key j = some i → ws[j]? = some w → t.readKey i = .data w false) ∧ t.readKey k = .data r false ∧ field r 15 0 = h.xfer % 65536 ∧
          field r 47 40 = 0 ∧ field r 55 48 = 0x60 ∧ field r 95 64 = h.ctr.toNat ∧
          field r 127 127 = (if c.prod.toNat / c.slots % 2 = 0 then 1 else 0) ∧
          (∀ i, i ≠ k → (∀ j < ws.length, key j ≠ some i) → t.readKey i = s'.readKey i) ∧ t.keys = s'.keys) ∧
      (deliverData h p (commitMark h p s').2 b (commitMark h p s').1 = none → ∃ t, exec (.dataFrame f) s = .next t ∧
        t.mac.eps[h.epNo] = { e with refused := satInc e.refused } ∧ t.mac.dropk[10] = satInc s'.mac.dropk[10] ∧ t.mac.nbs = s'.mac.nbs)) ∧
  (∀ (f : RxFrame) (h : Hdr) (p : Passed) (b : List Byte) (i : Fin 64) (k : Fin 16) (s s' : State), Arrives f typCommand h s s' → Clear h p b s' →
      (h.cmd = 2 → s'.mac.assoc = true → s'.fromBeaconSrc h p = true → ∃ t, exec (.assocRsp f) s = .next t ∧ t.mac.assoc = false ∧
        (b.getD 0 0 = 0 → leNat ((b.drop 1).take 2) < 0xFFFE → t.mac.short.toNat = leNat ((b.drop 1).take 2) ∧ t.mac.assocRes = 1 ∧
          t.mac.slotmask = BitVec.ofNat 32 (leNat ((b.drop 3).take 4))) ∧
        (b.getD 0 0 ≠ 0 ∨ 0xFFFE ≤ leNat ((b.drop 1).take 2) → t.mac.short = s'.mac.short ∧ t.mac.assocRes = 2)) ∧
      (h.cmd = 3 → s'.fromCoord p = true → ∃ t, exec (.slotAssign f) s = .next t ∧
        t.mac.maskNext = some (BitVec.ofNat 32 (leNat (b.take 4))) ∧ t.mac.slotmask = s'.mac.slotmask) ∧
      (h.cmd = 4 → p.nb? = some i → s'.txSlotFor i = some k → (b.getD 0 0).toNat < 16 → (b.getD 1 0).toNat < 3 → ∃ t,
        exec (.tonemap f) s = .next t ∧ t.mac.nbs[i].txmap.toNat = k.val ∧ t.phy.tmaps[k] = storedMap
          { map := BitVec.ofNat 72 (leNat ((b.drop 2).take 9)), rate := (b.getD 1 0).setWidth 2, tx := true, index := (b.getD 0 0).setWidth 4
            valid := true }) ∧
      (h.cmd = 5 → p.nb? = some i → ∃ t, exec (.tonemapReq f) s = .next t ∧ (s'.loopOn loopLoading = false → s'.mac.nbs[i].curSlot = some k →
        ∃ fr, t.mac.modq = s'.mac.modq ++ [fr] ∧ fr.hdr = [4] ∧ fr.payload = toneBody k.val s'.phy.tmaps[k] ∧
          fr.dst = bytesLE 2 s'.mac.nbs[i].short)) ∧
      (h.cmd = 6 → ∃ t, exec (.leave f) s = .next t ∧ t.mac.short = if s'.fromCoord p then 0xFFFE else s'.mac.short) ∧
      (h.cmd = 7 → s'.fromCoord p = true → s'.nbByLong (ofBytesLE 64 (b.take 8)) = none → (∃ j : Fin 64, s'.mac.nbs[j].valid = false) →
        ∃ t j, exec (.nbAdd f) s = .next t ∧ s'.mac.nbs[(j : Fin 64)].valid = false ∧ t.mac.nbs[j].valid = true ∧
          t.mac.nbs[j].long = ofBytesLE 64 (b.take 8) ∧ t.mac.nbs[j].short = BitVec.ofNat 16 (leNat ((b.drop 8).take 2)) ∧
          t.mac.nbs[j].marks = [] ∧ t.mac.nbs[j].coord = false) ∧
      (h.cmd = 8 → s'.fromCoord p = true → s'.nbByShort (leNat (b.take 2)) = some i → ∃ t, exec (.nbDel f) s = .next t ∧
        t.mac.nbs[i] = Neighbour.reset ∧ t.phy.gauge[i] = 0) ∧
      (∀ x ∈ [(Instr.slotAssign f, 3), (.nbAdd f, 7), (.nbDel f, 8)], h.cmd = x.2 → s'.fromCoord p = false → ∃ t, exec x.1 s = .next t ∧
        t.mac.dropk[10] = satInc s'.mac.dropk[10] ∧ t.mac.nbs = s'.mac.nbs ∧ t.mac.maskNext = s'.mac.maskNext)) ∧
  (∀ (f : RxFrame) (h : Hdr) (s s' : State), Arrives f typWake h s s' →
      (s'.siteId ≠ 0 → h.site = s'.siteId.toNat → s'.dstOk h = true → s'.mac.sniffEn = true → leNat h.dst ≠ 0xFFFF → s'.wakeCapped = false →
        ∃ t, exec (.wakeFrame f) s = .next t ∧
          t.mac = { s'.mac with rdv := some (leNat h.body), raLines := t.mac.raLines, raFrogs := t.mac.raFrogs }) ∧
      ((s'.siteId = 0 ∨ h.site ≠ s'.siteId.toNat) → ∃ t, exec (.wakeFrame f) s = .next t ∧ t.mac.dropk[1] = satInc s'.mac.dropk[1] ∧
        t.mac.rdv = s'.mac.rdv))

/-! ## Rule programs (R343 to R349, Tables EVA-3 to EVA-6) -/

/-- The evaluation under way runs, has steps and instructions left, the word at its index is readable and a valid instruction of this opcode, and no
word that it reads is held under a lifeline not its own. -/
def Fetches (op : Nat) (e : Eval) (w : Word128) (s : State) : Prop :=
  s.eva.cur = some e ∧ e.phase = .running ∧ e.steps < 2048 ∧ e.pc ≤ 4095 ∧ field w 7 0 = op ∧ insOk w = true ∧
    s.heldBack e.slot e.ll ((e.prog + e.pc) % 262144) = false ∧ s.insnWaits w e = false ∧
    ∃ k c, s.windowKey e.slot ((e.prog + e.pc) % 262144) = some k ∧ s.deliver k = .ok w c

/-- The evaluation goes on as `e` and nothing else changes, but for a corrected word's count and repair. -/
def Goes (e : Eval) (s t : State) : Prop := t = { s with eva := { s.eva with cur := some e }, int := t.int }

/-- An instruction of `e` reads this word there: the newest listed value, else the word as a consumer reads it (R346). -/
def ReadsAs (e : Eval) (a : Nat) (d : Word128) (s : State) : Prop :=
  ∃ k, s.windowKey e.slot a = some k ∧ (listedAt e.list a = some d ∨ listedAt e.list a = none ∧ ∃ c, s.deliver k = .ok d c)

/-- The evaluation has ended with this verdict and trap: counted, the slot's first trap captured with the instruction's index, nothing listed is left,
the pair is as it was and the driver disarmed unless the pair is in its release state. -/
def Ends (v : BitVec 2) (trap : BitVec 12) (e : Eval) (s t : State) : Prop :=
  let a := s.tenants[e.slot]
  let b := t.tenants[e.slot]
  b.cGrant = a.cGrant ∧ b.cDeny = (if v = 2 then satInc a.cDeny else a.cDeny) ∧ b.cDefer = (if v = 3 then satInc a.cDefer else a.cDefer) ∧
    b.cTrap = (if trap = 0 then a.cTrap else satInc a.cTrap) ∧
    (trap ≠ 0 → a.trapV = false → b.trapV = true ∧ b.trap = (trap, BitVec.ofNat 12 e.pc)) ∧ (trap ≠ 0 → a.trapV = true → b.trap = a.trap) ∧
    (∀ e', t.eva.cur = some e' → e'.verdict = v ∧ e'.trap = trap ∧ e'.list = [] ∧ e'.ll = none ∧ e'.phase ≠ .running) ∧
    t.eva.pulses = s.eva.pulses ∧ t.eva.hold = s.eva.hold ∧ (s.released = false → t.eva.armed = false) ∧ t.keys = s.keys ∧ t.mac = s.mac ∧
    t.phy = s.phy ∧ t.power = s.power

/-- The instruction commands and their opcodes. -/
def evaInsns : List (Instr × Nat) :=
  [(.ldi, 0x01), (.mov, 0x02), (.ldw, 0x03), (.stw, 0x04), (.addw, 0x05), (.evaAdd, 0x10), (.sub, 0x11), (.and, 0x12), (.or, 0x13), (.xor, 0x14),
    (.shl, 0x15), (.shr, 0x16), (.addi, 0x17), (.beq, 0x20), (.bne, 0x21), (.bltu, 0x22), (.bgeu, 0x23), (.bbs, 0x24), (.jmp, 0x25), (.find, 0x30),
    (.sense, 0x31), (.snap, 0x32), (.hint, 0x33), (.endProg, 0x3F)]

/-- Each instruction counts a step and moves the index on, or to A where a branch is taken.  A register instruction writes RD alone; LDW reads a word's
half; STW and ADDW add one word to the list, a ninth being a trap, and store nothing yet; FIND finds a key in a sorted table in at most 13 probes,
each a step; SENSE and SNAP read and keep what they name; the first HINT opens the pre-arm lifeline, arms the driver and stages the GRANT stitch; END
of a GRANT waits for its group, of a DENY or DEFER ends the evaluation.  A program that runs out of steps, of instructions or of its partition, an
unreadable or invalid word, end in DENY with the trap's code.  An instruction of another opcode, with none running, or whose word is held under a
lifeline that is not the evaluation's, changes nothing (R343 to R349, R359, Tables EVA-3 to EVA-6).
Where the spec leaves a choice it takes the model's: log entries 41, 115 and 116. -/
def Obligations.InstructionsActOnTheProgram : Prop :=
  (∀ (e : Eval) (w : Word128) (s : State),
      let a := e.wr[insRa w]
      let b := e.wr[insRb w]
      let e1 := { e with steps := e.steps + 1, pc := e.pc + 1 }
      (∀ x ∈ [(Instr.ldi, 0x01, insImm w), (.mov, 0x02, a), (.evaAdd, 0x10, a + b), (.sub, 0x11, a - b), (.and, 0x12, a &&& b),
          (.or, 0x13, a ||| b), (.xor, 0x14, a ^^^ b), (.shl, 0x15, a <<< field w 37 32), (.shr, 0x16, a >>> field w 37 32),
          (.addi, 0x17, a + insImm w)], Fetches x.2.1 e w s → ∃ t, exec x.1 s = .next t ∧ Goes { e1 with wr := e.wr.set (insRd w) x.2.2 } s t) ∧
      (∀ x ∈ [(Instr.beq, 0x20, decide (a = b)), (.bne, 0x21, decide (a ≠ b)), (.bltu, 0x22, decide (a.toNat < b.toNat)),
          (.bgeu, 0x23, decide (b.toNat ≤ a.toNat)), (.bbs, 0x24, a.getLsbD (field w 69 64)), (.jmp, 0x25, true)], Fetches x.2.1 e w s →
        ∃ t, exec x.1 s = .next t ∧ Goes { e1 with pc := if x.2.2 then field w 43 32 else e.pc + 1 } s t) ∧
      (∀ d, Fetches 0x03 e w s → ReadsAs e (effAddr w e) d s → ∃ t, exec .ldw s = .next t ∧
        Goes { e1 with wr := e.wr.set (insRd w) (half d (insF0 w)) } s t) ∧
      (Fetches 0x04 e w s → (s.windowKey e.slot (effAddr w e)).isSome →
        (e.list.length < 8 → ∃ t, exec .stw s = .next t ∧
          Goes { e1 with list := e.list ++ [{ addr := effAddr w e, data := b ++ e.wr[insRd w], cond := insCond w }] } s t) ∧
        (8 ≤ e.list.length → ∃ t, exec .stw s = .next t ∧ Ends 2 0x007 e s t)) ∧
      (∀ d, Fetches 0x05 e w s → ReadsAs e (effAddr w e) d s → e.list.length < 8 →
        let lane := field w 65 64
        let old := regOfWord d lane
        let by32 : Word32 := (w >>> 96).setWidth 32
        let sum : Int := old.toNat + by32.toInt
        let new : Word32 := if flag w 66 then BitVec.ofInt 32 (max 0 (min 0xFFFFFFFF sum)) else old + by32
        ∃ t, exec .addw s = .next t ∧ Goes { e1 with
          wr := e.wr.set (insRd w) (old.setWidth 64)
          list := e.list ++ [{ addr := effAddr w e, data := setRegOfWord d lane new, cond := insCond w }] } s t) ∧
      (∀ v, Fetches 0x31 e w s → s.senseItem (e.steps + 1) (insA w) = some v → ∃ t, exec .sense s = .next t ∧
        Goes { e1 with wr := e.wr.set (insRd w) v } s t) ∧
      (Fetches 0x32 e w s → ∃ t z, exec .snap s = .next t ∧ Goes { e1 with snap := z } s t ∧ ∀ i : Fin 3,
        z[i] = (if i.val + 5 = insA w then a.setWidth 32
          else if insF0 w = true ∧ i.val + 4 = insA w then (a >>> 32).setWidth 32 else e.snap[i]))) ∧
  (∀ (e : Eval) (w : Word128) (s : State) (ks : Nat → Word64), Fetches 0x30 e w s →
      let n := field e.wr[insRb w] 12 0
      let key := e.wr[insRa w]
      n ≤ 4096 → e.steps + 12 < 2048 →
      (∀ j < n, ∃ d, ReadsAs e ((field w 49 32 + j) % 262144) d s ∧ d.setWidth 64 = ks j) → (∀ i j, i < j → j < n → ks i < ks j) →
      ∃ t e' r, exec .find s = .next t ∧ Goes e' s t ∧ e' = { e with steps := e'.steps, pc := e.pc + 1, wr := e.wr.set (insRd w) r } ∧
        e.steps + 1 ≤ e'.steps ∧ e'.steps ≤ e.steps + 13 ∧ (∀ j < n, ks j = key → r = 0x8000000000000000 + BitVec.ofNat 64 j) ∧
        ((∀ j < n, ks j ≠ key) → r = 0)) ∧
  (∀ (e : Eval) (w : Word128) (k : Fin 4) (s : State), Fetches 0x33 e w s →
      let e1 := { e with steps := e.steps + 1, pc := e.pc + 1 }
      let off := e.hinted || !flag s.eva.ctl 0 || !flag s.eng.ctl 0 || s.eva.fault
      let c := s.log.chans[e.slot]
      (off = true ∨ s.freeLine = none → ∃ t, exec .hint s = .next t ∧ Goes { e1 with hinted := true } s t) ∧
      (off = false → s.freeLine = some k → c.full = true → ∃ t, exec .hint s = .next t ∧ t.eva.armed = true ∧
        t.eva.cur = some { e1 with hinted := true, ll := some k } ∧ (t.eng.lls[k]).isSome ∧ t.eva.pulses = s.eva.pulses ∧ t.log = s.log) ∧
      (off = false → s.freeLine = some k → c.full = false → 1 < s.freePos e.slot → s.log.seqEnd = false →
        (s.queueRoom = false → exec .hint s = .next s) ∧
        (s.queueRoom = true → c.staged = none → c.tagging = none → c.reuse = none → (∀ q ∈ s.log.queue, q.ch ≠ e.slot) → s.mram.waitq = [] →
          s.mram.fhb.length + 4 ≤ 256 → ∃ t p, exec .hint s = .next t ∧ t.eva.armed = true ∧ t.eva.pulses = s.eva.pulses ∧
            t.eva.cur = some { e1 with hinted := true, ll := some k, staged := true, seq := s.log.seq } ∧ t.log.chans[e.slot].staged = some p ∧
            p.pos = c.head.pos ∧ p.seq = s.log.seq ∧ field (p.words.getD 3 0) 95 88 = 0x3C ∧ t.log.seq = s.log.seq + 1 ∧
            t.log.chans[e.slot].head.pos = c.head.pos + 1))) ∧
  (∀ (e : Eval) (w : Word128) (s : State), Fetches 0x3F e w s →
      let v : BitVec 2 := (w >>> 20).setWidth 2
      (v = 1 → s.eva.fault = false → ∃ t, exec .endProg s = .next t ∧
        Goes { e with steps := e.steps + 1, phase := .grantWait (BitVec.ofNat 16 (field w 47 32)) } s t) ∧
      (v = 1 → s.eva.fault = true → ∃ t, exec .endProg s = .next t ∧ Ends 3 0x00B e s t) ∧
      (v = 2 ∨ v = 3 → ∃ t, exec .endProg s = .next t ∧ Ends v 0 e s t)) ∧
  (∀ (e : Eval) (w : Word128) (op : Nat) (s : State), ∀ x ∈ evaInsns,
      (Fetches op e w s → op ≠ x.2 → exec x.1 s = .next s ∧ exec .badInsn s = .next s) ∧
      (s.eva.cur = none ∨ (s.eva.cur = some e ∧ e.phase ≠ .running) → exec x.1 s = .next s ∧ exec .badInsn s = .next s) ∧
      (s.eva.cur = some e → e.phase = .running →
        (2048 ≤ e.steps → ∃ t, exec x.1 s = .next t ∧ Ends 2 0x004 e s t ∧ exec .badInsn s = .next t) ∧
        (e.steps < 2048 → 4095 < e.pc → ∃ t, exec x.1 s = .next t ∧ Ends 2 0x006 e s t ∧ exec .badInsn s = .next t) ∧
        (e.steps < 2048 → e.pc ≤ 4095 → s.heldBack e.slot e.ll ((e.prog + e.pc) % 262144) = true →
          exec x.1 s = .next s ∧ exec .badInsn s = .next s) ∧
        let free := s.heldBack e.slot e.ll ((e.prog + e.pc) % 262144) = false
        (free → e.steps < 2048 → e.pc ≤ 4095 → s.windowKey e.slot ((e.prog + e.pc) % 262144) = none → ∃ t, exec x.1 s = .next t ∧
          satInc s.tenants[e.slot].iso ≤ t.tenants[e.slot].iso ∧ Ends 2 0x005 e s t ∧ exec .badInsn s = .next t) ∧
        (∀ k u, free → e.steps < 2048 → e.pc ≤ 4095 → s.windowKey e.slot ((e.prog + e.pc) % 262144) = some k → s.deliver k = .bad u →
          ∃ t, exec x.1 s = .next t ∧ Ends 2 0x001 e s t ∧ exec .badInsn s = .next t) ∧
        (∀ k c, free → e.steps < 2048 → e.pc ≤ 4095 → s.windowKey e.slot ((e.prog + e.pc) % 262144) = some k → s.deliver k = .ok w c →
          (field w 7 0 = x.2 → insOk w = false → s.insnWaits w e = false → ∃ t, exec x.1 s = .next t ∧ Ends 2 0x003 e s t) ∧
          (knownOp (field w 7 0) = false → ∃ t, exec .badInsn s = .next t ∧ Ends 2 0x003 e s t))))

/-! ## Evaluations and the pair (R340 to R342, R347, R349 to R351, R353 to R357, R360) -/

/-- EVALUATE starts when nothing is under way, no earlier one waits and no word of its credential is held under an open lifeline: with a credential key of its slot and a credential that verifies, it runs from
instruction 0 with its registers loaded; without the key, or with a credential that does not verify, it ends in DENY; outside the partition it
answers ISOLATION with DENY.  A GRANT waits for its group, which is accepted whole with the mark of its staged stitch, or not at all: accepted, it
counts the grant and arms the driver; refused by time or by a fault of the pair, it is a DEFER (R340 to R342, R347, R349 to R351, R354, R359).
Where the spec leaves a choice it takes the model's: log entry 36. -/
def Obligations.EvaluationsAreDecidedOnce : Prop :=
  (∀ (id : Nat) (o : Op) (k : Word128) (ws : List Word128) (s : State), s.runnable id 0x20 = some o → s.eva.cur = none →
      (s.earlier o fun q => q.opcode = 0x20 && !q.ran) = false → (o.dep = true → s.llOkFor o ≠ some false) →
      s.anyHeldBack o.slot none o.cred (wordsFor o.credLen) = false →
      (s.inPartition o.slot o.prog 1 = true → s.inPartition o.slot o.cred (wordsFor o.credLen) = true →
        (s.useKey o.slot o.evaKey 2 false = none → ∃ t e, exec (.evaluate id) s = .next t ∧ e.ring = o.ring ∧ e.pc = 0 ∧ Ends 2 0x009 e s t) ∧
        (s.useKey o.slot o.evaKey 2 false = some k →
          (∀ j < wordsFor o.credLen, ∃ i d, s.windowKey o.slot (o.cred + j) = some i ∧ s.deliver i = .ok d false ∧ ws[j]? = some d) →
          ws.length = wordsFor o.credLen →
          let bytes := (ws.flatMap bytesOf).take o.credLen
          let plain := ccmCrypt k (bytes.take 13) ((bytes.drop 13).take (o.credLen - 21))
          let good := decide (ccmTag k (bytes.take 13) [] plain 8 = (bytes.drop (o.credLen - 8)).take 8)
          (good = true → ∃ t e, exec (.evaluate id) s = .next t ∧ Goes e s t ∧ e.op = o.id ∧ e.ring = o.ring ∧ e.prog = o.prog ∧ e.pc = 0 ∧
            e.steps = 0 ∧ e.list = [] ∧ e.ll = none ∧ e.phase = .running ∧ (∀ i : Fin 16, (i.val < 6 → e.wr[i] =
              half (o.w (1 + i.val / 2)) (i.val % 2 = 1)) ∧ (13 ≤ i.val → e.wr[i] = 0))) ∧
          (good = false → ∃ t e, exec (.evaluate id) s = .next t ∧ e.ring = o.ring ∧ e.pc = 0 ∧ Ends 2 0x008 e s t))) ∧
      ((s.inPartition o.slot o.prog 1 && s.inPartition o.slot o.cred (wordsFor o.credLen)) = false →
        Completes (.evaluate id) o.id { Answer.of 3 with extra := 2 } [.violation 2 (BitVec.ofNat 16 o.ring.val)] s s)) ∧
  (∀ (id : Nat) (s : State), (s.eva.cur ≠ none ∨ s.runnable id 0x20 = none) → exec (.evaluate id) s = .next s) ∧
  (∀ (e : Eval) (r : BitVec 16) (p : Placed) (u : State) (s : State), s.eva.cur = some e → e.phase = .grantWait r →
      (∃ t, exec .markWaitExpire s = .next t ∧ Ends 3 0x00A e s t) ∧
      (s.eva.fault = true → ∃ t, exec .grantGroupAccept s = .next t ∧ Ends 3 0x00B e s t) ∧
      (s.eva.fault = false → e.staged = true → s.log.chans[e.slot].staged = some p →
        (acceptAll (s.listWrites e.slot (matching 1 e.list) ++ (s.markWrite p).2) s = some u → ∃ t, exec .grantGroupAccept s = .next t ∧
          t.eva = { s.eva with armed := true, cur := some { e with
            ll := none, staged := false, list := [], verdict := 1, trap := 0, seq := p.seq, phase := .driveWait } } ∧
          t.tenants[e.slot].cGrant = satInc s.tenants[e.slot].cGrant ∧ t.tenants[e.slot].cDeny = s.tenants[e.slot].cDeny ∧
          t.log.chans[e.slot].staged = none ∧ t.keys = s.keys ∧ t.mac = s.mac) ∧
        (acceptAll (s.listWrites e.slot (matching 1 e.list) ++ (s.markWrite p).2) s = none → exec .grantGroupAccept s = .next s))) ∧
  (∀ s : State, (∀ e r, s.eva.cur = some e → e.phase ≠ .grantWait r) → exec .markWaitExpire s = .next s ∧ exec .grantGroupAccept s = .next s)

/-- The commands that may start the emergency hold. -/
def mayHold : Instr → Bool
  | .unlockOrder _ _ _ | .emergMarkRetry | .stitchOffer | .dataFrame _ | .castOn _ | .haltRetry _ | .vioReturn => true
  | _ => false

/-- No command but PAIR_DRIVE starts a pulse, and none but an emergency order, its mark tried again, a data frame that brings an order and a cast-on
that resumes it starts a hold: PAIR_DRIVE drives the pair for an evaluation whose group has been accepted, with VIO present and no fault of the
pair, once GAP is over, for LEN times 20 ms of its slot, and the evaluation then completes. A pulse that ends leaves the pair to what else drives
it; a fault ends all of it, shows its pins and is cleared only by a write whose readback fits. An UNLOCK that passes every check in order stores
its number and holds the pair for its seconds, limited; a refused order answers the first check that fails and moves nothing, one that comes while
the path is not ready is held for it; a CANCEL ends the hold (R349, R353 to R357, R360, R400, R402).
Where the spec leaves a choice it takes the model's: log entries 37, 38, 39 and 65. -/
def Obligations.ThePairMovesOnlyForItsOrders : Prop :=
  (∀ (c : Instr) (s t : State), exec c s = .next t →
      (∀ n, s.eva.pulseSlots.count n < t.eva.pulseSlots.count n → c = .pairDrive) ∧ (s.eva.hold = false → t.eva.hold = true → mayHold c = true)) ∧
  (∀ (e : Eval) (s : State), s.eva.cur = some e → e.phase = .driveWait →
      (s.power.vioOk = true → s.eva.fault = false → s.gapOver = true → s.eva.armed = true → ∃ t, exec .pairDrive s = .next t ∧
        t.eva = { s.eva with pulses := s.eva.pulses ++ [⟨e.slot, 20 * s.tenants[e.slot].pulseLen.toNat⟩], cur := none }) ∧
      (s.power.vioOk = false ∨ s.eva.fault = true → ∃ t, exec .pairDrive s = .next t ∧ t.eva.cur = none ∧ t.eva.pulses = s.eva.pulses ∧
        t.eva.hold = s.eva.hold ∧ (s.released = false → t.eva.armed = false)) ∧
      (s.power.vioOk = true → s.eva.fault = false → s.gapOver = false ∨ s.eva.armed = false → exec .pairDrive s = .next s)) ∧
  (∀ s : State, (∀ e, s.eva.cur = some e → e.phase ≠ .driveWait) → exec .pairDrive s = .next s) ∧
  (∀ (n : Fin 8) (pins : BitVec 2) (p : Port) (s : State),
      (n ∈ s.eva.pulseSlots → ∃ t, exec (.pulseEnd n) s = .next t ∧ t.eva.pulses.length + 1 = s.eva.pulses.length ∧
        (∀ m, m ≠ n → t.eva.pulses.filter (·.slot = m) = s.eva.pulses.filter (·.slot = m)) ∧ t.eva.lastPulse = some s.life.ms ∧ t.eva.hold = s.eva.hold ∧
        t = { s with eva := t.eva }) ∧
      (n ∉ s.eva.pulseSlots → exec (.pulseEnd n) s = .next s) ∧
      (s.eva.fault = false → pins ≠ 0 → s.running = true → s.power.vioOk = true → ∃ t, exec (.releaseFault pins) s = .next t ∧
        t.eva.fault = true ∧ t.eva.faultPin = pins ∧ t.eva.pulses = [] ∧ t.eva.hold = false ∧ t.eva.holdMs = 0 ∧ t.life.mask ≠ 0 ∧
        t.life.state = .limp ∧ t.eva.cur = s.eva.cur ∧ t.keys = s.keys ∧ t.tenants = s.tenants) ∧
      (s.eva.fault = true ∨ pins = 0 ∨ s.running = false ∨ s.power.vioOk = false → exec (.releaseFault pins) s = .next s) ∧
      (Reached p 0x1C20 0 s → s.eva.fault = true → ∃ t, exec (.relStatFaultClear p true) s = .next t ∧ t.eva.fault = false ∧
        t.eva.faultPin = 0 ∧ t.eva.pulses = s.eva.pulses ∧ t.eva.hold = s.eva.hold) ∧
      (Reached p 0x1C20 0 s → exec (.relStatFaultClear p false) s = .next s)) ∧
  (∀ (n : Fin 8) (w0 w1 : Word128) (s : State), s.running = true → s.tenants[n].st ≠ .suspended →
      (ordKind w0 ≠ 2 → s.orderReady w0 = true → s.orderResult n w0 w1 ≠ 1 → ∃ t, exec (.unlockOrder n w0 w1) s = .next t ∧
        t.eva = { s.eva with emergRes := BitVec.ofNat 4 (s.orderResult n w0 w1) } ∧ t.mram = s.mram ∧ t.keys = s.keys) ∧
      (ordKind w0 = 1 → s.orderReady w0 = true → s.orderResult n w0 w1 = 1 → ∃ t, exec (.unlockOrder n w0 w1) s = .next t ∧
        t.eva.emergRes = 1 ∧ t.eva.emergNo = ordNo w0 ∧ t.eva.pulses = s.eva.pulses ∧ t.eva.cur = s.eva.cur ∧
        (t.eva.hold = true → t.eva.armed = true ∨ s.eva.hold = true) ∧
        (s.power.vioOk = false ∨ s.eva.fault = true → t.eva.hold = s.eva.hold ∧ t.eva.armed = s.eva.armed) ∧
        (s.power.vioOk = true → s.eva.fault = false → s.eva.emergQ = none → t.eva.emergQ = none → s.log.chans[n].full = false →
          1 < s.freePos n → s.log.seqEnd = false →
          t.eva.hold = true ∧ t.eva.armed = true ∧ t.eva.holdMs = max s.eva.holdMs (1000 * min (ordHold w0) (emergMax s.eva.emerg)) ∧
            t.eva.holdOrder = w0)) ∧
      (ordKind w0 = 2 → s.queueRoom = true → s.orderResult n w0 w1 = 1 → s.eva.emergQ = none → ∃ t, exec (.cancelOrder n w0 w1) s = .next t ∧
        t.eva.emergRes = 1 ∧ t.eva.emergNo = ordNo w0 ∧ t.eva.hold = false ∧ t.eva.holdMs = 0 ∧ t.eva.pulses = s.eva.pulses) ∧
      (s.orderReady w0 = false → let t := { s with eva := { s.eva with emergHeld := some (n, w0, w1) } }
        (ordKind w0 ≠ 2 → exec (.unlockOrder n w0 w1) s = .next t) ∧ (ordKind w0 ≠ 1 → exec (.cancelOrder n w0 w1) s = .next t)) ∧
      (ordKind w0 = 2 → exec (.unlockOrder n w0 w1) s = .next s) ∧ (ordKind w0 = 1 → exec (.cancelOrder n w0 w1) s = .next s)) ∧
  (∀ s : State,
      (s.eva.emergQ = none → s.eva.hold = true → ∃ t, exec .holdEnd s = .next t ∧ t.eva.hold = false ∧ t.eva.holdMs = 0 ∧
        t.eva.lastEnd = some s.life.ms ∧ t.eva.pulses = s.eva.pulses ∧ t = { s with eva := t.eva }) ∧
      (s.eva.emergQ = none → s.eva.hold = false → exec .holdEnd s = .next s) ∧
      (∀ q, s.eva.emergQ = some q → s.eva.hold = false → ∃ t, exec .holdEnd s = .next t ∧ t.eva.emergQ = none ∧ t.eva.hold = false ∧
        t.eva.pulses = s.eva.pulses) ∧
      (s.eva.emergQ = none → s.eva.emergHeld = none → exec .emergMarkRetry s = .next s) ∧
      (∀ q p, s.eva.emergQ = some q → q.staged = true → s.log.chans[q.slot].staged = some p → s.mram.fhb.length < 256 → s.power.vioOk = true →
        s.eva.fault = false → s.eva.emergHeld = none → ∃ t, exec .emergMarkRetry s = .next t ∧ t.eva = { s.eva with
          emergQ := none, hold := true, armed := true, holdMs := max s.eva.holdMs q.hold, holdOrder := q.w0, holdOwner := s.tenants[q.slot].owner } ∧
          t.log.chans[q.slot].staged = none) ∧
      (∀ n w0 w1, s.eva.emergQ = none → s.eva.emergHeld = some (n, w0, w1) → s.running = true → s.tenants[n].st ≠ .suspended →
        s.orderReady w0 = true → s.orderResult n w0 w1 ≠ 1 → ∃ t, exec .emergMarkRetry s = .next t ∧
          t.eva = { s.eva with emergHeld := none, emergRes := BitVec.ofNat 4 (s.orderResult n w0 w1) }))

/-! ## Sensing, site time, the ledger (R365 to R368, R370 to R378, R381, R382) -/

/-- A battery sample sets its register and VBAT, the lowest of a frame on air, and BAT_LOW once as it falls below the threshold; a temperature is taken
awake only; a door or bolt level sets its pin and, when its reading changes, its state with a stitch, DOOR_FORCED for a door that opens with the pair
neither in its release state nor recently in it; SNS_CLR.CHG zeroes the charge.  A source value within STEP_MIN of site time sets it when later and
holds it when earlier, any other is a step; the high-water mark never falls; trust ends by its time.  A boundary reached starts the period that its
high-water mark lies in, with the pending configuration, and leaves none due; each owned slot's word starts anew with its record, or is merged into
the next.  The running words and the period word are written to both arrays when due (R365 to R368, R370 to R378, R381, R382).
Where the spec leaves a choice it takes the model's: log entries 43, 44, 45 and 46. -/
def Obligations.SensingKeepsTimeAndLedger : Prop :=
  (∀ (mv : BitVec 16) (x : BitVec 10) (s : State),
      (∃ t, exec (.batterySample mv) s = .next t ∧ t.sns.batMv = mv ∧ t.power.vbat = mv.toNat ∧
        (mv.toNat < s.batLowMv → t.sns.batArm = false ∧ (s.sns.batArm = true → t.power.asleep = false)) ∧
        (s.batLowMv ≤ mv.toNat → mv.toNat < s.batLowMv + 100 → t.sns.batArm = s.sns.batArm) ∧ (s.batLowMv + 100 ≤ mv.toNat → t.sns.batArm = true) ∧
        (s.phy.txPhase = .onAir → ∃ m, t.sns.txMin = some m ∧ m ≤ mv ∧ (∀ y, s.sns.txMin = some y → m ≤ y ∧ (m = mv ∨ m = y)) ∧
          (s.sns.txMin = none → m = mv)) ∧
        (s.phy.txPhase ≠ .onAir → t.sns.txMin = s.sns.txMin) ∧
        (s.lc.run = none → t.lc = s.lc) ∧ t = { s with
          lc := { s.lc with run := t.lc.run }, power := t.power, sns := t.sns, log := t.log, portA := t.portA, portB := t.portB }) ∧
      exec (.tempSample x) s = .next (if s.power.asleep then s else { s with sns := { s.sns with temp := x } })) ∧
  (∀ (level : Bool) (p : Port) (s : State),
      let open' := level != flag s.sns.ctl 16
      let thrown := decide (level = flag s.sns.ctl 17)
      (open' = s.sns.door → exec (.doorChange level) s = .next { s with sns := { s.sns with doorPin := level } }) ∧
      (open' ≠ s.sns.door → ∃ u, u = { s with sns := { s.sns with doorPin := level, door := open' }, power := u.power } ∧
        u.power.asleep = (s.power.asleep && !flag s.sns.ctl 18) ∧ exec (.doorChange level) s = .next
          (raise (if open' = true ∧ s.released = false ∧ s.noRecentEnd = true then .doorForced else .door) 0 (ioSlots s open') u)) ∧
      (thrown = s.sns.bolt → exec (.boltChange level) s = .next { s with sns := { s.sns with boltPin := level } }) ∧
      (thrown ≠ s.sns.bolt → ∃ u, u = { s with sns := { s.sns with boltPin := level, bolt := thrown }, power := u.power } ∧
        u.power.asleep = (s.power.asleep && !flag s.sns.ctl 19) ∧ exec (.boltChange level) s = .next (raise .bolt 0 (ioSlots s thrown) u)) ∧
      (Reached p 0x2024 0 s → exec (.snsClrChg p) s = .next { s with sns := { s.sns with pw := { s.sns.pw with chg := 0 }, chgSub := 0 } })) ∧
  (∀ (p : Port) (v : Word32) (s : State), Reached p 0x204C 0 s →
      let min := field s.sns.stCtl 7 0
      let old := s.sns.time
      ∃ t, exec (.stSet p v) s = .next t ∧ t.sns.trusted = true ∧ t.sns.source = 2 ∧ t.sns.ageMs = 0 ∧ s.sns.pw.hwm ≤ t.sns.pw.hwm ∧
        (old ≤ v.toNat → v.toNat - old < min → t.sns.time = v.toNat ∧ t.sns.holdSec = 0 ∧ t.sns.steps = s.sns.steps ∧
          t.sns.pw.hwm = max s.sns.pw.hwm v.toNat) ∧
        (v.toNat < old → old - v.toNat < min → t.sns.time = old ∧ t.sns.holdSec = old - v.toNat ∧ t.sns.steps = s.sns.steps) ∧
        (min ≤ old - v.toNat + (v.toNat - old) → t.sns.time = v.toNat ∧ t.sns.steps = satInc s.sns.steps ∧ t.sns.holdSec = 0 ∧
          (v.toNat < old → t.sns.backstep = true) ∧ (old < v.toNat → t.sns.fwdstep = true)) ∧ t.keys = s.keys) ∧
  (∀ s : State, exec .trustExpire s = .next { s with sns := { s.sns with trusted := false } } ∧
      (s.boundaryDue = true → s.running = true → ∃ t, exec .boundaryCrossing s = .next t ∧
        t.sns.pw.period = (s.sns.pw.hwm - s.sns.origin) / (s.sns.len * 3600) ∧ t.sns.len = s.sns.lenPend.getD s.sns.len ∧
        t.sns.origin = s.sns.originPend.getD s.sns.origin ∧ t.sns.lenPend = none ∧ t.sns.originPend = none ∧
        t.sns.pw.next = t.sns.origin + (t.sns.pw.period + 1) * t.sns.len * 3600 ∧ t.sns.pw.hwm = s.sns.pw.hwm ∧
        (1 ≤ s.sns.len → s.sns.lenPend = none → s.sns.originPend = none → t.boundaryDue = false) ∧ t.sns.time = s.sns.time ∧
        t.sns.unclean = false ∧ t.sns.backstep = false ∧ t.sns.fwdstep = false ∧
        (s.mram.waitq = [] → ∀ n : Fin 8,
          (s.tenants[n].owned = true → (t.sns.run[n] = LedgerWord.reset ∧ t.sns.covered[n] = 0 ∧ t.sns.skipped[n] = 0) ∨
            (t.sns.run[n] = s.sns.run[n] ∧ t.sns.covered[n] = s.sns.covered[n] + 1)) ∧
          (s.tenants[n].owned = false → t.sns.run[n] = s.sns.run[n] ∧ t.sns.covered[n] = s.sns.covered[n])) ∧
        t.keys = s.keys ∧ t.tenants = s.tenants) ∧
      ((s.boundaryDue && s.running) = false → exec .boundaryCrossing s = .next s) ∧
      ((s.sns.wb = 0 ∨ s.running = false) → exec .ledgerWriteback s = .next s) ∧
      (s.sns.wb ≠ 0 → s.running = true → s.mram.waitq = [] → s.mram.fhb.length + 16 ≤ 256 → ∃ t, exec .ledgerWriteback s = .next t ∧
        t = { s with mram := t.mram } ∧ t.mram.words = s.mram.words ∧
        ∀ n : Fin 8, ∀ a, WaitsFor a (.ledger n s.sns.run[n]) t) ∧
      (s.running = true → s.mram.waitq = [] → s.mram.fhb.length + 2 ≤ 256 → ∃ t, exec .periodWordWrite s = .next t ∧
        t = { s with mram := t.mram } ∧ t.mram.words = s.mram.words ∧ ∀ a, WaitsFor a (.period s.sns.pw) t) ∧
      (s.running = false → exec .periodWordWrite s = .next s))

/-! ## The recorder (R384, R385, R391, R396, R397, R402, R405 to R408, R413, R414) -/

/-- The stitch whose turn it is takes the next position of its channel and the next sequence number, and its four words, marked, read back at once; a
class C stitch's chain tag follows, and then the channel goes on.  Bits of TO_C return channels to class C; bindings are read, and written where the
code may be bound.  A channel with a staged stitch or under audit is not cleared; a clear with the site's code starts a new epoch at position 0, one
without is refused.  A post of a tenant's code is queued or answers why not.  SEEK finds the first position whose SEQ is START or more, on the slot's
own channel from its ownership on or under an audit read, and else is a violation of path 0x5; NEXT goes one on; each answers END behind the last
stitch; a reserved OP or MODE is BAD_REQ.  An audit read opens by the site's code alone (R384, R385, R391, R396, R397, R402, R405 to R408, R413, R414).
Where the spec leaves a choice it takes the model's: log entries 111, 112 and 113. -/
def Obligations.TheRecorderKeepsOrder : Prop :=
  (∀ (st : Stitch) (s : State), s.recorderUp = true → s.nextStitch s.log.queue [] = some st → s.eva.cur = none → s.eva.emergHeld = none →
      s.log.clrWait = none → s.mram.waitq = [] → s.mram.fhb.length + 4 ≤ 256 → s.log.chans[st.ch].reuse = none →
      (∀ e ∈ s.mram.fhb, ∀ j y z, e.tgt = .word j y z → e.arr = keyArr j) →
      let c := s.log.chans[st.ch]
      let p := s.placed st 0xA5
      let key (i : Nat) := s.posKey st.ch c.head.pos i
      ∃ t, exec .stitchOffer s = .next t ∧ t.log.seq = s.log.seq + 1 ∧ t.log.chans[st.ch].head.pos = c.head.pos + 1 ∧
        t.log.chans[st.ch].head.chidx = c.head.chidx + 1 ∧ t.log.chans[st.ch].tagging = (if st.clsM then none else some p) ∧
        p.pos = c.head.pos ∧ p.seq = s.log.seq ∧ field (p.words.getD 3 0) 95 88 = 0xA5 ∧ (∀ n : Fin 8, n ≠ st.ch →
          t.log.chans[n].head.pos = s.log.chans[n].head.pos) ∧
        (s.lc.run = none → feedEn s.tenants[st.ch].feed = false → (∀ i < 4, (key i).isSome) → ((List.range 4).map key).Nodup →
          ∀ i k, i < 4 → key i = some k → t.readKey k = .data (p.words.getD i 0) false)) ∧
  (∀ s : State, (s.recorderUp = false ∨ s.nextStitch s.log.queue [] = none) → s.log.clrWait = none → exec .stitchOffer s = .next s) ∧
  (∀ (n : Fin 8) (p : Placed) (s : State), s.log.clrWait = none →
      (s.log.chans[n].tagging = some p → ∃ t, exec (.chainTagDone n) s = .next t ∧ t = { s with log := { s.log with chans := t.log.chans } } ∧
        t.log.chans[n] = { s.log.chans[n] with
          tagging := none, head := { s.log.chans[n].head with tag := some (s.tagOf p.words), tagPos := p.pos } } ∧
        ∀ m : Fin 8, m ≠ n → t.log.chans[m] = s.log.chans[m]) ∧
      (s.log.chans[n].tagging = none → exec (.chainTagDone n) s = .next s)) ∧
  (∀ (p : Port) (bits : Byte) (code : BitVec 12) (cls : BitVec 4) (s : State),
      (Reached p 0x220C 0 s → ∃ t, exec (.recClassToC p bits) s = .next t ∧
        t.lc = { s.lc with audit := t.lc.audit } ∧
        (∀ n : Fin 8, bits.getLsbD n.val = true → s.lc.audit[n].value.getLsbD 0 = true → t.lc.audit[n] = {
          value := 0, old := s.lc.audit[n].value, count := s.tallies 4 n.val, stitched := false }) ∧
        (∀ n : Fin 8, (bits.getLsbD n.val && s.lc.audit[n].value.getLsbD 0) = false → t.lc.audit[n] = s.lc.audit[n]) ∧
        ((∀ n : Fin 8, (bits.getLsbD n.val && s.lc.audit[n].value.getLsbD 0) = false) → t = s)) ∧
      (Reached p 0x22E0 0 s → exec (.bindLoad p code) s = .next { s with log := { s.log with
        bindCode := code, bindOp := false, bindCls := if reservedCode code then 0 else s.classOf code } }) ∧
      (Reached p 0x22E0 0 s → (reservedCode code || fixedCode code) = true → exec (.bindWrite p code cls) s = .next { s with log := { s.log with
        bindCode := code, bindOp := true, bindCls := cls } }) ∧
      (Reached p 0x22E0 0 s → (reservedCode code || fixedCode code) = false → ∃ t, exec (.bindWrite p code cls) s = .next t ∧
        t = { s with log := { s.log with bindCode := code, bindOp := true, bindCls := cls, bind := t.log.bind }, mram := t.mram } ∧
        OnlyIssues s t ∧ WaitsFor .A (.plain bindIdx) t ∧
        t.log.bind = store code.toNat (if cls = factoryClass code then none else some cls) s.log.bind)) ∧
  (∀ (p : Port) (n : Fin 8) (s : State), Reached p 0x22E8 0 s →
      (s.log.clrWait ≠ none → exec (.recClr p n) s = .next s) ∧
      (s.log.clrWait = none → s.clearBusy n = true → exec (.recClr p n) s = .next { s with log := { s.log with clrCh := n, clrRes := 2 } }) ∧
      (s.log.clrWait = none → s.clearBusy n = false → s.clearWaits n = true →
        exec (.recClr p n) s = .next { s with log := { s.log with clrCh := n, clrWait := some n } }) ∧
      (s.log.clrWait = none → s.clearBusy n = false → s.clearWaits n = false → s.clearCodeOk n = false →
        exec (.recClr p n) s = .next { s with log := { s.log with clrCh := n, clrRes := 1 } }) ∧
      (s.log.clrWait = none → s.clearBusy n = false → s.clearWaits n = false → s.clearCodeOk n = true → ∃ t,
        exec (.recClr p n) s = .next t ∧ t.log.clrRes = 0 ∧ t.log.chans[n].head.pos = 0 ∧ t.log.chans[n].head.chidx = 0 ∧
        t.log.chans[n].head.epoch = s.log.chans[n].head.epoch + 1 ∧ t.log.chans[n].full = false ∧ t.log.seq = s.log.seq ∧
        (0 < s.capacity n → ∃ st, t.log.queue = st :: s.log.queue ∧ st.ch = n ∧ st.code = Ev.logCleared.code) ∧
        (∀ m : Fin 8, m ≠ n → t.log.chans[m] = s.log.chans[m]) ∧ t.mram.words = s.mram.words ∧ t.keys = s.keys)) ∧
  (∀ (p : Port) (n : Fin 8) (code : BitVec 12) (s : State), Reached p 0x2300 n s →
      (s.posting n = true → exec (.recPost p code) s = .next s) ∧
      (s.posting n = false → code.msb = false → exec (.recPost p code) s = .next
        { s with tenants := s.tenants.set n ({ s.tenants[n] with postCode := code, postRes := 1 }) }) ∧
      (s.posting n = false → code.msb = true → ∃ t, exec (.recPost p code) s = .next t ∧ t.tenants[n].postCode = code ∧
        (let r := raiseWith code n s.tenants[n].postV.toList (fun st => { st with post := some n })
            { s with tenants := s.tenants.set n ({ s.tenants[n] with postCode := code }) }
         t.log = r.1.log ∧ t.tenants[n].postRes = (match r.2 with
           | .queued => s.tenants[n].postRes
           | .suppressed => 2
           | .dropped => 3
           | .lost => 4)) ∧
        (∀ m : Fin 8, m ≠ n → t.tenants[m] = s.tenants[m]) ∧ t.keys = s.keys)) ∧
  (∀ (p : Port) (n ch : Fin 8) (mode op : BitVec 2) (s : State), Reached p 0x2344 n s →
      let c := s.log.chans[ch]
      let may := (s.port p).auditOn || (decide (ch = n) && decide (s.tenants[n].recOwn ≤ (s.port p).rdStart))
      (2 ≤ mode.toNat → ∀ x ∈ [Instr.seek p ch mode, .next p mode, .recRdBadReq p op mode], ∃ t, exec x s = .next t ∧
        (t.port p).rdResult = 6 ∧ (t.port p).cursor = (s.port p).cursor ∧ (t.port p).win = Vector.replicate 4 0 ∧ OnlyPort p s t) ∧
      (op = 0 ∨ op = 3 → ∃ t, exec (.recRdBadReq p op mode) s = .next t ∧ (t.port p).rdResult = 6 ∧ (t.port p).rdOp = op ∧ OnlyPort p s t) ∧
      (op = 1 ∨ op = 2 → mode.toNat < 2 → exec (.recRdBadReq p op mode) s = .next s) ∧
      (mode.toNat < 2 → may = false → ∃ t, exec (.seek p ch mode) s = .next t ∧ (t.port p).rdResult = 5 ∧ (t.port p).cursor = (s.port p).cursor ∧
        t.tenants[n].iso = satInc s.tenants[n].iso ∧ (s.lc.isoV = false → t.lc.isoPath = 5)) ∧
      (mode.toNat < 2 → may = true → ∃ t q, exec (.seek p ch mode) s = .next t ∧ (t.port p).cursor = some (ch, q) ∧ q ≤ c.head.pos ∧
        (∀ j < q, ∀ h, s.seqAt ch j = some h → h < (s.port p).rdStart) ∧
        (q < c.head.pos → s.posKey ch q 0 = none ∨ ∃ h, s.seqAt ch q = some h ∧ (s.port p).rdStart ≤ h) ∧
        (q = c.head.pos → (t.port p).rdResult = 1 ∧ (t.port p).win = Vector.replicate 4 0) ∧ t.log = s.log ∧ t.mram = s.mram ∧
        t.tenants = s.tenants) ∧
      (mode.toNat < 2 → (s.port p).cursor = none → ∃ t, exec (.next p mode) s = .next t ∧ (t.port p).rdResult = 6) ∧
      (∀ q, mode = 0 → (s.port p).cursor = some (ch, q) → ∃ t r, exec (.next p mode) s = .next t ∧ (t.port p).cursor = some (ch, r) ∧
        r = (if (s.port p).rdResult = 1 ∨ (s.port p).rdResult = 2 then q else q + 1) ∧ (c.head.pos ≤ r → (t.port p).rdResult = 1) ∧
        (r < c.head.pos → c.staged = none → c.reuse = none → ∀ (ks : Vector Nat 4) (ws : Vector Word128 4),
          (∀ i : Fin 4, s.posKey ch r i.val = some ks[i] ∧ ∃ z, s.deliver ks[i] = .ok ws[i] z) →
          (t.port p).win = ws ∧ (t.port p).rdResult = positionResult ws.toList) ∧ t.log = s.log ∧ t.mram = s.mram ∧ t.tenants = s.tenants)) ∧
  (∀ (p : Port) (k : Word128) (s : State), Reached p 0x2358 0 s →
      (s.siteAuth = some k → cmac64 k (auditMessage s p) = s.log.audCode → ∃ t, exec (.auditGo p) s = .next t ∧ (t.port p).auditOn = true ∧
        (t.port p).cursor = none ∧ t.freeCtr = s.freeCtr + 1 ∧ t.keys = s.keys ∧ t.tenants = s.tenants) ∧
      ((s.siteAuth = none ∨ s.siteAuth = some k ∧ cmac64 k (auditMessage s p) ≠ s.log.audCode) → ∃ t, exec (.auditGo p) s = .next t ∧
        (t.port p).auditOn = (s.port p).auditOn ∧ t = { s with log := { s.log with audNonce := t.log.audNonce }, freeCtr := s.freeCtr + 1 }))

/-! ## The whole machine (R1, R12, R38, R43, R188) -/

/-- The commands that may make an antifuse conduct: a burn, a stop that cuts one, and register writes that reach RECAST. -/
def mayBurn : Instr → Bool
  | .tallyBurn _ _ | .bindOff _ | .storeExhausted _ | .recast _ | .registerWrite _ _ _ | .paWrite _ _ _ | .pbRegWrite _ _ _ _ => true
  | _ => false

/-- From every state, every step leaves the module's revision, variant, long address and transport key as they are, makes no conducting antifuse open
open again and touches none outside the tallies.  Every command answers a next state from every state, but a cast-on of a module that is not of the
manual's revision; none takes from the queue or adds to it, and none but a burn and a stop that cuts one makes an antifuse conduct (R1, R16, R38, R43).
Where the spec leaves a choice it takes the model's: log entries 7 and 69. -/
def Obligations.FusesOnlyEverBurn : Prop :=
  (∀ s t : State, step s = .next t → t.fuses.rev = s.fuses.rev ∧ t.fuses.variant = s.fuses.variant ∧ t.fuses.longAddr = s.fuses.longAddr ∧
      t.fuses.transport = s.fuses.transport ∧ ∀ i, (s.fuses.antifuses.getLsbD i = true → t.fuses.antifuses.getLsbD i = true) ∧
        (270 ≤ i → t.fuses.antifuses.getLsbD i = s.fuses.antifuses.getLsbD i)) ∧
  (∀ (c : Instr) (s : State), ((∃ e, c = .castOn e ∨ c = .haltRetry e) → s.revOk = true) →
    ∃ t, exec c s = .next t ∧ t.pending = s.pending ∧ (mayBurn c = false → t.fuses = s.fuses))

/-- From every state in which the stored words are in canonical form, every waiting word waits for its own array, and the tables of the skeins name
each key once, every step that goes on leaves them so (R7, R164, R173, R188). -/
def Obligations.StepsKeepTheTablesInForm : Prop :=
  ∀ s t : State, MemForm s → SkeinForm s.skn → step s = .next t → MemForm t ∧ SkeinForm t.skn
end

