-- ==== Sys2Proof/Laws/State.lean ====
section
/-! SUPPORT. What each named update of `Machine/Ops.lean` leaves in each field of the state: one lemma a field and an update, true by
unfolding, so that no later proof unfolds a record update. -/

namespace Sys2Proof.Machine

/-! ### modPower -/

@[simp] theorem State.modPower_pending (s : State) (f : Power → Power) : (s.modPower f).pending = s.pending := rfl
@[simp] theorem State.modPower_power (s : State) (f : Power → Power) : (s.modPower f).power = f s.power := rfl
@[simp] theorem State.modPower_life (s : State) (f : Power → Power) : (s.modPower f).life = s.life := rfl
@[simp] theorem State.modPower_fuses (s : State) (f : Power → Power) : (s.modPower f).fuses = s.fuses := rfl
@[simp] theorem State.modPower_portA (s : State) (f : Power → Power) : (s.modPower f).portA = s.portA := rfl
@[simp] theorem State.modPower_portB (s : State) (f : Power → Power) : (s.modPower f).portB = s.portB := rfl
@[simp] theorem State.modPower_needles (s : State) (f : Power → Power) : (s.modPower f).needles = s.needles := rfl
@[simp] theorem State.modPower_tenants (s : State) (f : Power → Power) : (s.modPower f).tenants = s.tenants := rfl
@[simp] theorem State.modPower_keys (s : State) (f : Power → Power) : (s.modPower f).keys = s.keys := rfl
@[simp] theorem State.modPower_lc (s : State) (f : Power → Power) : (s.modPower f).lc = s.lc := rfl
@[simp] theorem State.modPower_mram (s : State) (f : Power → Power) : (s.modPower f).mram = s.mram := rfl
@[simp] theorem State.modPower_eng (s : State) (f : Power → Power) : (s.modPower f).eng = s.eng := rfl
@[simp] theorem State.modPower_skn (s : State) (f : Power → Power) : (s.modPower f).skn = s.skn := rfl
@[simp] theorem State.modPower_int (s : State) (f : Power → Power) : (s.modPower f).int = s.int := rfl
@[simp] theorem State.modPower_phy (s : State) (f : Power → Power) : (s.modPower f).phy = s.phy := rfl
@[simp] theorem State.modPower_mac (s : State) (f : Power → Power) : (s.modPower f).mac = s.mac := rfl
@[simp] theorem State.modPower_eva (s : State) (f : Power → Power) : (s.modPower f).eva = s.eva := rfl
@[simp] theorem State.modPower_sns (s : State) (f : Power → Power) : (s.modPower f).sns = s.sns := rfl
@[simp] theorem State.modPower_log (s : State) (f : Power → Power) : (s.modPower f).log = s.log := rfl
@[simp] theorem State.modPower_stopA (s : State) (f : Power → Power) : (s.modPower f).stopA = s.stopA := rfl
@[simp] theorem State.modPower_stopB (s : State) (f : Power → Power) : (s.modPower f).stopB = s.stopB := rfl
@[simp] theorem State.modPower_freeCtr (s : State) (f : Power → Power) : (s.modPower f).freeCtr = s.freeCtr := rfl

/-! ### modLife -/

@[simp] theorem State.modLife_pending (s : State) (f : Life → Life) : (s.modLife f).pending = s.pending := rfl
@[simp] theorem State.modLife_power (s : State) (f : Life → Life) : (s.modLife f).power = s.power := rfl
@[simp] theorem State.modLife_life (s : State) (f : Life → Life) : (s.modLife f).life = f s.life := rfl
@[simp] theorem State.modLife_fuses (s : State) (f : Life → Life) : (s.modLife f).fuses = s.fuses := rfl
@[simp] theorem State.modLife_portA (s : State) (f : Life → Life) : (s.modLife f).portA = s.portA := rfl
@[simp] theorem State.modLife_portB (s : State) (f : Life → Life) : (s.modLife f).portB = s.portB := rfl
@[simp] theorem State.modLife_needles (s : State) (f : Life → Life) : (s.modLife f).needles = s.needles := rfl
@[simp] theorem State.modLife_tenants (s : State) (f : Life → Life) : (s.modLife f).tenants = s.tenants := rfl
@[simp] theorem State.modLife_keys (s : State) (f : Life → Life) : (s.modLife f).keys = s.keys := rfl
@[simp] theorem State.modLife_lc (s : State) (f : Life → Life) : (s.modLife f).lc = s.lc := rfl
@[simp] theorem State.modLife_mram (s : State) (f : Life → Life) : (s.modLife f).mram = s.mram := rfl
@[simp] theorem State.modLife_eng (s : State) (f : Life → Life) : (s.modLife f).eng = s.eng := rfl
@[simp] theorem State.modLife_skn (s : State) (f : Life → Life) : (s.modLife f).skn = s.skn := rfl
@[simp] theorem State.modLife_int (s : State) (f : Life → Life) : (s.modLife f).int = s.int := rfl
@[simp] theorem State.modLife_phy (s : State) (f : Life → Life) : (s.modLife f).phy = s.phy := rfl
@[simp] theorem State.modLife_mac (s : State) (f : Life → Life) : (s.modLife f).mac = s.mac := rfl
@[simp] theorem State.modLife_eva (s : State) (f : Life → Life) : (s.modLife f).eva = s.eva := rfl
@[simp] theorem State.modLife_sns (s : State) (f : Life → Life) : (s.modLife f).sns = s.sns := rfl
@[simp] theorem State.modLife_log (s : State) (f : Life → Life) : (s.modLife f).log = s.log := rfl
@[simp] theorem State.modLife_stopA (s : State) (f : Life → Life) : (s.modLife f).stopA = s.stopA := rfl
@[simp] theorem State.modLife_stopB (s : State) (f : Life → Life) : (s.modLife f).stopB = s.stopB := rfl
@[simp] theorem State.modLife_freeCtr (s : State) (f : Life → Life) : (s.modLife f).freeCtr = s.freeCtr := rfl

/-! ### modFuses -/

@[simp] theorem State.modFuses_pending (s : State) (f : Fuses → Fuses) : (s.modFuses f).pending = s.pending := rfl
@[simp] theorem State.modFuses_power (s : State) (f : Fuses → Fuses) : (s.modFuses f).power = s.power := rfl
@[simp] theorem State.modFuses_life (s : State) (f : Fuses → Fuses) : (s.modFuses f).life = s.life := rfl
@[simp] theorem State.modFuses_fuses (s : State) (f : Fuses → Fuses) : (s.modFuses f).fuses = f s.fuses := rfl
@[simp] theorem State.modFuses_portA (s : State) (f : Fuses → Fuses) : (s.modFuses f).portA = s.portA := rfl
@[simp] theorem State.modFuses_portB (s : State) (f : Fuses → Fuses) : (s.modFuses f).portB = s.portB := rfl
@[simp] theorem State.modFuses_needles (s : State) (f : Fuses → Fuses) : (s.modFuses f).needles = s.needles := rfl
@[simp] theorem State.modFuses_tenants (s : State) (f : Fuses → Fuses) : (s.modFuses f).tenants = s.tenants := rfl
@[simp] theorem State.modFuses_keys (s : State) (f : Fuses → Fuses) : (s.modFuses f).keys = s.keys := rfl
@[simp] theorem State.modFuses_lc (s : State) (f : Fuses → Fuses) : (s.modFuses f).lc = s.lc := rfl
@[simp] theorem State.modFuses_mram (s : State) (f : Fuses → Fuses) : (s.modFuses f).mram = s.mram := rfl
@[simp] theorem State.modFuses_eng (s : State) (f : Fuses → Fuses) : (s.modFuses f).eng = s.eng := rfl
@[simp] theorem State.modFuses_skn (s : State) (f : Fuses → Fuses) : (s.modFuses f).skn = s.skn := rfl
@[simp] theorem State.modFuses_int (s : State) (f : Fuses → Fuses) : (s.modFuses f).int = s.int := rfl
@[simp] theorem State.modFuses_phy (s : State) (f : Fuses → Fuses) : (s.modFuses f).phy = s.phy := rfl
@[simp] theorem State.modFuses_mac (s : State) (f : Fuses → Fuses) : (s.modFuses f).mac = s.mac := rfl
@[simp] theorem State.modFuses_eva (s : State) (f : Fuses → Fuses) : (s.modFuses f).eva = s.eva := rfl
@[simp] theorem State.modFuses_sns (s : State) (f : Fuses → Fuses) : (s.modFuses f).sns = s.sns := rfl
@[simp] theorem State.modFuses_log (s : State) (f : Fuses → Fuses) : (s.modFuses f).log = s.log := rfl
@[simp] theorem State.modFuses_stopA (s : State) (f : Fuses → Fuses) : (s.modFuses f).stopA = s.stopA := rfl
@[simp] theorem State.modFuses_stopB (s : State) (f : Fuses → Fuses) : (s.modFuses f).stopB = s.stopB := rfl
@[simp] theorem State.modFuses_freeCtr (s : State) (f : Fuses → Fuses) : (s.modFuses f).freeCtr = s.freeCtr := rfl

/-! ### modLc -/

@[simp] theorem State.modLc_pending (s : State) (f : Lc → Lc) : (s.modLc f).pending = s.pending := rfl
@[simp] theorem State.modLc_power (s : State) (f : Lc → Lc) : (s.modLc f).power = s.power := rfl
@[simp] theorem State.modLc_life (s : State) (f : Lc → Lc) : (s.modLc f).life = s.life := rfl
@[simp] theorem State.modLc_fuses (s : State) (f : Lc → Lc) : (s.modLc f).fuses = s.fuses := rfl
@[simp] theorem State.modLc_portA (s : State) (f : Lc → Lc) : (s.modLc f).portA = s.portA := rfl
@[simp] theorem State.modLc_portB (s : State) (f : Lc → Lc) : (s.modLc f).portB = s.portB := rfl
@[simp] theorem State.modLc_needles (s : State) (f : Lc → Lc) : (s.modLc f).needles = s.needles := rfl
@[simp] theorem State.modLc_tenants (s : State) (f : Lc → Lc) : (s.modLc f).tenants = s.tenants := rfl
@[simp] theorem State.modLc_keys (s : State) (f : Lc → Lc) : (s.modLc f).keys = s.keys := rfl
@[simp] theorem State.modLc_lc (s : State) (f : Lc → Lc) : (s.modLc f).lc = f s.lc := rfl
@[simp] theorem State.modLc_mram (s : State) (f : Lc → Lc) : (s.modLc f).mram = s.mram := rfl
@[simp] theorem State.modLc_eng (s : State) (f : Lc → Lc) : (s.modLc f).eng = s.eng := rfl
@[simp] theorem State.modLc_skn (s : State) (f : Lc → Lc) : (s.modLc f).skn = s.skn := rfl
@[simp] theorem State.modLc_int (s : State) (f : Lc → Lc) : (s.modLc f).int = s.int := rfl
@[simp] theorem State.modLc_phy (s : State) (f : Lc → Lc) : (s.modLc f).phy = s.phy := rfl
@[simp] theorem State.modLc_mac (s : State) (f : Lc → Lc) : (s.modLc f).mac = s.mac := rfl
@[simp] theorem State.modLc_eva (s : State) (f : Lc → Lc) : (s.modLc f).eva = s.eva := rfl
@[simp] theorem State.modLc_sns (s : State) (f : Lc → Lc) : (s.modLc f).sns = s.sns := rfl
@[simp] theorem State.modLc_log (s : State) (f : Lc → Lc) : (s.modLc f).log = s.log := rfl
@[simp] theorem State.modLc_stopA (s : State) (f : Lc → Lc) : (s.modLc f).stopA = s.stopA := rfl
@[simp] theorem State.modLc_stopB (s : State) (f : Lc → Lc) : (s.modLc f).stopB = s.stopB := rfl
@[simp] theorem State.modLc_freeCtr (s : State) (f : Lc → Lc) : (s.modLc f).freeCtr = s.freeCtr := rfl

/-! ### modMram -/

@[simp] theorem State.modMram_pending (s : State) (f : Mram → Mram) : (s.modMram f).pending = s.pending := rfl
@[simp] theorem State.modMram_power (s : State) (f : Mram → Mram) : (s.modMram f).power = s.power := rfl
@[simp] theorem State.modMram_life (s : State) (f : Mram → Mram) : (s.modMram f).life = s.life := rfl
@[simp] theorem State.modMram_fuses (s : State) (f : Mram → Mram) : (s.modMram f).fuses = s.fuses := rfl
@[simp] theorem State.modMram_portA (s : State) (f : Mram → Mram) : (s.modMram f).portA = s.portA := rfl
@[simp] theorem State.modMram_portB (s : State) (f : Mram → Mram) : (s.modMram f).portB = s.portB := rfl
@[simp] theorem State.modMram_needles (s : State) (f : Mram → Mram) : (s.modMram f).needles = s.needles := rfl
@[simp] theorem State.modMram_tenants (s : State) (f : Mram → Mram) : (s.modMram f).tenants = s.tenants := rfl
@[simp] theorem State.modMram_keys (s : State) (f : Mram → Mram) : (s.modMram f).keys = s.keys := rfl
@[simp] theorem State.modMram_lc (s : State) (f : Mram → Mram) : (s.modMram f).lc = s.lc := rfl
@[simp] theorem State.modMram_mram (s : State) (f : Mram → Mram) : (s.modMram f).mram = f s.mram := rfl
@[simp] theorem State.modMram_eng (s : State) (f : Mram → Mram) : (s.modMram f).eng = s.eng := rfl
@[simp] theorem State.modMram_skn (s : State) (f : Mram → Mram) : (s.modMram f).skn = s.skn := rfl
@[simp] theorem State.modMram_int (s : State) (f : Mram → Mram) : (s.modMram f).int = s.int := rfl
@[simp] theorem State.modMram_phy (s : State) (f : Mram → Mram) : (s.modMram f).phy = s.phy := rfl
@[simp] theorem State.modMram_mac (s : State) (f : Mram → Mram) : (s.modMram f).mac = s.mac := rfl
@[simp] theorem State.modMram_eva (s : State) (f : Mram → Mram) : (s.modMram f).eva = s.eva := rfl
@[simp] theorem State.modMram_sns (s : State) (f : Mram → Mram) : (s.modMram f).sns = s.sns := rfl
@[simp] theorem State.modMram_log (s : State) (f : Mram → Mram) : (s.modMram f).log = s.log := rfl
@[simp] theorem State.modMram_stopA (s : State) (f : Mram → Mram) : (s.modMram f).stopA = s.stopA := rfl
@[simp] theorem State.modMram_stopB (s : State) (f : Mram → Mram) : (s.modMram f).stopB = s.stopB := rfl
@[simp] theorem State.modMram_freeCtr (s : State) (f : Mram → Mram) : (s.modMram f).freeCtr = s.freeCtr := rfl

/-! ### modEng -/

@[simp] theorem State.modEng_pending (s : State) (f : Engine → Engine) : (s.modEng f).pending = s.pending := rfl
@[simp] theorem State.modEng_power (s : State) (f : Engine → Engine) : (s.modEng f).power = s.power := rfl
@[simp] theorem State.modEng_life (s : State) (f : Engine → Engine) : (s.modEng f).life = s.life := rfl
@[simp] theorem State.modEng_fuses (s : State) (f : Engine → Engine) : (s.modEng f).fuses = s.fuses := rfl
@[simp] theorem State.modEng_portA (s : State) (f : Engine → Engine) : (s.modEng f).portA = s.portA := rfl
@[simp] theorem State.modEng_portB (s : State) (f : Engine → Engine) : (s.modEng f).portB = s.portB := rfl
@[simp] theorem State.modEng_needles (s : State) (f : Engine → Engine) : (s.modEng f).needles = s.needles := rfl
@[simp] theorem State.modEng_tenants (s : State) (f : Engine → Engine) : (s.modEng f).tenants = s.tenants := rfl
@[simp] theorem State.modEng_keys (s : State) (f : Engine → Engine) : (s.modEng f).keys = s.keys := rfl
@[simp] theorem State.modEng_lc (s : State) (f : Engine → Engine) : (s.modEng f).lc = s.lc := rfl
@[simp] theorem State.modEng_mram (s : State) (f : Engine → Engine) : (s.modEng f).mram = s.mram := rfl
@[simp] theorem State.modEng_eng (s : State) (f : Engine → Engine) : (s.modEng f).eng = f s.eng := rfl
@[simp] theorem State.modEng_skn (s : State) (f : Engine → Engine) : (s.modEng f).skn = s.skn := rfl
@[simp] theorem State.modEng_int (s : State) (f : Engine → Engine) : (s.modEng f).int = s.int := rfl
@[simp] theorem State.modEng_phy (s : State) (f : Engine → Engine) : (s.modEng f).phy = s.phy := rfl
@[simp] theorem State.modEng_mac (s : State) (f : Engine → Engine) : (s.modEng f).mac = s.mac := rfl
@[simp] theorem State.modEng_eva (s : State) (f : Engine → Engine) : (s.modEng f).eva = s.eva := rfl
@[simp] theorem State.modEng_sns (s : State) (f : Engine → Engine) : (s.modEng f).sns = s.sns := rfl
@[simp] theorem State.modEng_log (s : State) (f : Engine → Engine) : (s.modEng f).log = s.log := rfl
@[simp] theorem State.modEng_stopA (s : State) (f : Engine → Engine) : (s.modEng f).stopA = s.stopA := rfl
@[simp] theorem State.modEng_stopB (s : State) (f : Engine → Engine) : (s.modEng f).stopB = s.stopB := rfl
@[simp] theorem State.modEng_freeCtr (s : State) (f : Engine → Engine) : (s.modEng f).freeCtr = s.freeCtr := rfl

/-! ### modSkn -/

@[simp] theorem State.modSkn_pending (s : State) (f : SkeinSt → SkeinSt) : (s.modSkn f).pending = s.pending := rfl
@[simp] theorem State.modSkn_power (s : State) (f : SkeinSt → SkeinSt) : (s.modSkn f).power = s.power := rfl
@[simp] theorem State.modSkn_life (s : State) (f : SkeinSt → SkeinSt) : (s.modSkn f).life = s.life := rfl
@[simp] theorem State.modSkn_fuses (s : State) (f : SkeinSt → SkeinSt) : (s.modSkn f).fuses = s.fuses := rfl
@[simp] theorem State.modSkn_portA (s : State) (f : SkeinSt → SkeinSt) : (s.modSkn f).portA = s.portA := rfl
@[simp] theorem State.modSkn_portB (s : State) (f : SkeinSt → SkeinSt) : (s.modSkn f).portB = s.portB := rfl
@[simp] theorem State.modSkn_needles (s : State) (f : SkeinSt → SkeinSt) : (s.modSkn f).needles = s.needles := rfl
@[simp] theorem State.modSkn_tenants (s : State) (f : SkeinSt → SkeinSt) : (s.modSkn f).tenants = s.tenants := rfl
@[simp] theorem State.modSkn_keys (s : State) (f : SkeinSt → SkeinSt) : (s.modSkn f).keys = s.keys := rfl
@[simp] theorem State.modSkn_lc (s : State) (f : SkeinSt → SkeinSt) : (s.modSkn f).lc = s.lc := rfl
@[simp] theorem State.modSkn_mram (s : State) (f : SkeinSt → SkeinSt) : (s.modSkn f).mram = s.mram := rfl
@[simp] theorem State.modSkn_eng (s : State) (f : SkeinSt → SkeinSt) : (s.modSkn f).eng = s.eng := rfl
@[simp] theorem State.modSkn_skn (s : State) (f : SkeinSt → SkeinSt) : (s.modSkn f).skn = f s.skn := rfl
@[simp] theorem State.modSkn_int (s : State) (f : SkeinSt → SkeinSt) : (s.modSkn f).int = s.int := rfl
@[simp] theorem State.modSkn_phy (s : State) (f : SkeinSt → SkeinSt) : (s.modSkn f).phy = s.phy := rfl
@[simp] theorem State.modSkn_mac (s : State) (f : SkeinSt → SkeinSt) : (s.modSkn f).mac = s.mac := rfl
@[simp] theorem State.modSkn_eva (s : State) (f : SkeinSt → SkeinSt) : (s.modSkn f).eva = s.eva := rfl
@[simp] theorem State.modSkn_sns (s : State) (f : SkeinSt → SkeinSt) : (s.modSkn f).sns = s.sns := rfl
@[simp] theorem State.modSkn_log (s : State) (f : SkeinSt → SkeinSt) : (s.modSkn f).log = s.log := rfl
@[simp] theorem State.modSkn_stopA (s : State) (f : SkeinSt → SkeinSt) : (s.modSkn f).stopA = s.stopA := rfl
@[simp] theorem State.modSkn_stopB (s : State) (f : SkeinSt → SkeinSt) : (s.modSkn f).stopB = s.stopB := rfl
@[simp] theorem State.modSkn_freeCtr (s : State) (f : SkeinSt → SkeinSt) : (s.modSkn f).freeCtr = s.freeCtr := rfl

/-! ### modInt -/

@[simp] theorem State.modInt_pending (s : State) (f : Integ → Integ) : (s.modInt f).pending = s.pending := rfl
@[simp] theorem State.modInt_power (s : State) (f : Integ → Integ) : (s.modInt f).power = s.power := rfl
@[simp] theorem State.modInt_life (s : State) (f : Integ → Integ) : (s.modInt f).life = s.life := rfl
@[simp] theorem State.modInt_fuses (s : State) (f : Integ → Integ) : (s.modInt f).fuses = s.fuses := rfl
@[simp] theorem State.modInt_portA (s : State) (f : Integ → Integ) : (s.modInt f).portA = s.portA := rfl
@[simp] theorem State.modInt_portB (s : State) (f : Integ → Integ) : (s.modInt f).portB = s.portB := rfl
@[simp] theorem State.modInt_needles (s : State) (f : Integ → Integ) : (s.modInt f).needles = s.needles := rfl
@[simp] theorem State.modInt_tenants (s : State) (f : Integ → Integ) : (s.modInt f).tenants = s.tenants := rfl
@[simp] theorem State.modInt_keys (s : State) (f : Integ → Integ) : (s.modInt f).keys = s.keys := rfl
@[simp] theorem State.modInt_lc (s : State) (f : Integ → Integ) : (s.modInt f).lc = s.lc := rfl
@[simp] theorem State.modInt_mram (s : State) (f : Integ → Integ) : (s.modInt f).mram = s.mram := rfl
@[simp] theorem State.modInt_eng (s : State) (f : Integ → Integ) : (s.modInt f).eng = s.eng := rfl
@[simp] theorem State.modInt_skn (s : State) (f : Integ → Integ) : (s.modInt f).skn = s.skn := rfl
@[simp] theorem State.modInt_int (s : State) (f : Integ → Integ) : (s.modInt f).int = f s.int := rfl
@[simp] theorem State.modInt_phy (s : State) (f : Integ → Integ) : (s.modInt f).phy = s.phy := rfl
@[simp] theorem State.modInt_mac (s : State) (f : Integ → Integ) : (s.modInt f).mac = s.mac := rfl
@[simp] theorem State.modInt_eva (s : State) (f : Integ → Integ) : (s.modInt f).eva = s.eva := rfl
@[simp] theorem State.modInt_sns (s : State) (f : Integ → Integ) : (s.modInt f).sns = s.sns := rfl
@[simp] theorem State.modInt_log (s : State) (f : Integ → Integ) : (s.modInt f).log = s.log := rfl
@[simp] theorem State.modInt_stopA (s : State) (f : Integ → Integ) : (s.modInt f).stopA = s.stopA := rfl
@[simp] theorem State.modInt_stopB (s : State) (f : Integ → Integ) : (s.modInt f).stopB = s.stopB := rfl
@[simp] theorem State.modInt_freeCtr (s : State) (f : Integ → Integ) : (s.modInt f).freeCtr = s.freeCtr := rfl

/-! ### modPhy -/

@[simp] theorem State.modPhy_pending (s : State) (f : Phy → Phy) : (s.modPhy f).pending = s.pending := rfl
@[simp] theorem State.modPhy_power (s : State) (f : Phy → Phy) : (s.modPhy f).power = s.power := rfl
@[simp] theorem State.modPhy_life (s : State) (f : Phy → Phy) : (s.modPhy f).life = s.life := rfl
@[simp] theorem State.modPhy_fuses (s : State) (f : Phy → Phy) : (s.modPhy f).fuses = s.fuses := rfl
@[simp] theorem State.modPhy_portA (s : State) (f : Phy → Phy) : (s.modPhy f).portA = s.portA := rfl
@[simp] theorem State.modPhy_portB (s : State) (f : Phy → Phy) : (s.modPhy f).portB = s.portB := rfl
@[simp] theorem State.modPhy_needles (s : State) (f : Phy → Phy) : (s.modPhy f).needles = s.needles := rfl
@[simp] theorem State.modPhy_tenants (s : State) (f : Phy → Phy) : (s.modPhy f).tenants = s.tenants := rfl
@[simp] theorem State.modPhy_keys (s : State) (f : Phy → Phy) : (s.modPhy f).keys = s.keys := rfl
@[simp] theorem State.modPhy_lc (s : State) (f : Phy → Phy) : (s.modPhy f).lc = s.lc := rfl
@[simp] theorem State.modPhy_mram (s : State) (f : Phy → Phy) : (s.modPhy f).mram = s.mram := rfl
@[simp] theorem State.modPhy_eng (s : State) (f : Phy → Phy) : (s.modPhy f).eng = s.eng := rfl
@[simp] theorem State.modPhy_skn (s : State) (f : Phy → Phy) : (s.modPhy f).skn = s.skn := rfl
@[simp] theorem State.modPhy_int (s : State) (f : Phy → Phy) : (s.modPhy f).int = s.int := rfl
@[simp] theorem State.modPhy_phy (s : State) (f : Phy → Phy) : (s.modPhy f).phy = f s.phy := rfl
@[simp] theorem State.modPhy_mac (s : State) (f : Phy → Phy) : (s.modPhy f).mac = s.mac := rfl
@[simp] theorem State.modPhy_eva (s : State) (f : Phy → Phy) : (s.modPhy f).eva = s.eva := rfl
@[simp] theorem State.modPhy_sns (s : State) (f : Phy → Phy) : (s.modPhy f).sns = s.sns := rfl
@[simp] theorem State.modPhy_log (s : State) (f : Phy → Phy) : (s.modPhy f).log = s.log := rfl
@[simp] theorem State.modPhy_stopA (s : State) (f : Phy → Phy) : (s.modPhy f).stopA = s.stopA := rfl
@[simp] theorem State.modPhy_stopB (s : State) (f : Phy → Phy) : (s.modPhy f).stopB = s.stopB := rfl
@[simp] theorem State.modPhy_freeCtr (s : State) (f : Phy → Phy) : (s.modPhy f).freeCtr = s.freeCtr := rfl

/-! ### modMac -/

@[simp] theorem State.modMac_pending (s : State) (f : Mac → Mac) : (s.modMac f).pending = s.pending := rfl
@[simp] theorem State.modMac_power (s : State) (f : Mac → Mac) : (s.modMac f).power = s.power := rfl
@[simp] theorem State.modMac_life (s : State) (f : Mac → Mac) : (s.modMac f).life = s.life := rfl
@[simp] theorem State.modMac_fuses (s : State) (f : Mac → Mac) : (s.modMac f).fuses = s.fuses := rfl
@[simp] theorem State.modMac_portA (s : State) (f : Mac → Mac) : (s.modMac f).portA = s.portA := rfl
@[simp] theorem State.modMac_portB (s : State) (f : Mac → Mac) : (s.modMac f).portB = s.portB := rfl
@[simp] theorem State.modMac_needles (s : State) (f : Mac → Mac) : (s.modMac f).needles = s.needles := rfl
@[simp] theorem State.modMac_tenants (s : State) (f : Mac → Mac) : (s.modMac f).tenants = s.tenants := rfl
@[simp] theorem State.modMac_keys (s : State) (f : Mac → Mac) : (s.modMac f).keys = s.keys := rfl
@[simp] theorem State.modMac_lc (s : State) (f : Mac → Mac) : (s.modMac f).lc = s.lc := rfl
@[simp] theorem State.modMac_mram (s : State) (f : Mac → Mac) : (s.modMac f).mram = s.mram := rfl
@[simp] theorem State.modMac_eng (s : State) (f : Mac → Mac) : (s.modMac f).eng = s.eng := rfl
@[simp] theorem State.modMac_skn (s : State) (f : Mac → Mac) : (s.modMac f).skn = s.skn := rfl
@[simp] theorem State.modMac_int (s : State) (f : Mac → Mac) : (s.modMac f).int = s.int := rfl
@[simp] theorem State.modMac_phy (s : State) (f : Mac → Mac) : (s.modMac f).phy = s.phy := rfl
@[simp] theorem State.modMac_mac (s : State) (f : Mac → Mac) : (s.modMac f).mac = f s.mac := rfl
@[simp] theorem State.modMac_eva (s : State) (f : Mac → Mac) : (s.modMac f).eva = s.eva := rfl
@[simp] theorem State.modMac_sns (s : State) (f : Mac → Mac) : (s.modMac f).sns = s.sns := rfl
@[simp] theorem State.modMac_log (s : State) (f : Mac → Mac) : (s.modMac f).log = s.log := rfl
@[simp] theorem State.modMac_stopA (s : State) (f : Mac → Mac) : (s.modMac f).stopA = s.stopA := rfl
@[simp] theorem State.modMac_stopB (s : State) (f : Mac → Mac) : (s.modMac f).stopB = s.stopB := rfl
@[simp] theorem State.modMac_freeCtr (s : State) (f : Mac → Mac) : (s.modMac f).freeCtr = s.freeCtr := rfl

/-! ### modEva -/

@[simp] theorem State.modEva_pending (s : State) (f : Eva → Eva) : (s.modEva f).pending = s.pending := rfl
@[simp] theorem State.modEva_power (s : State) (f : Eva → Eva) : (s.modEva f).power = s.power := rfl
@[simp] theorem State.modEva_life (s : State) (f : Eva → Eva) : (s.modEva f).life = s.life := rfl
@[simp] theorem State.modEva_fuses (s : State) (f : Eva → Eva) : (s.modEva f).fuses = s.fuses := rfl
@[simp] theorem State.modEva_portA (s : State) (f : Eva → Eva) : (s.modEva f).portA = s.portA := rfl
@[simp] theorem State.modEva_portB (s : State) (f : Eva → Eva) : (s.modEva f).portB = s.portB := rfl
@[simp] theorem State.modEva_needles (s : State) (f : Eva → Eva) : (s.modEva f).needles = s.needles := rfl
@[simp] theorem State.modEva_tenants (s : State) (f : Eva → Eva) : (s.modEva f).tenants = s.tenants := rfl
@[simp] theorem State.modEva_keys (s : State) (f : Eva → Eva) : (s.modEva f).keys = s.keys := rfl
@[simp] theorem State.modEva_lc (s : State) (f : Eva → Eva) : (s.modEva f).lc = s.lc := rfl
@[simp] theorem State.modEva_mram (s : State) (f : Eva → Eva) : (s.modEva f).mram = s.mram := rfl
@[simp] theorem State.modEva_eng (s : State) (f : Eva → Eva) : (s.modEva f).eng = s.eng := rfl
@[simp] theorem State.modEva_skn (s : State) (f : Eva → Eva) : (s.modEva f).skn = s.skn := rfl
@[simp] theorem State.modEva_int (s : State) (f : Eva → Eva) : (s.modEva f).int = s.int := rfl
@[simp] theorem State.modEva_phy (s : State) (f : Eva → Eva) : (s.modEva f).phy = s.phy := rfl
@[simp] theorem State.modEva_mac (s : State) (f : Eva → Eva) : (s.modEva f).mac = s.mac := rfl
@[simp] theorem State.modEva_eva (s : State) (f : Eva → Eva) : (s.modEva f).eva = f s.eva := rfl
@[simp] theorem State.modEva_sns (s : State) (f : Eva → Eva) : (s.modEva f).sns = s.sns := rfl
@[simp] theorem State.modEva_log (s : State) (f : Eva → Eva) : (s.modEva f).log = s.log := rfl
@[simp] theorem State.modEva_stopA (s : State) (f : Eva → Eva) : (s.modEva f).stopA = s.stopA := rfl
@[simp] theorem State.modEva_stopB (s : State) (f : Eva → Eva) : (s.modEva f).stopB = s.stopB := rfl
@[simp] theorem State.modEva_freeCtr (s : State) (f : Eva → Eva) : (s.modEva f).freeCtr = s.freeCtr := rfl

/-! ### modSns -/

@[simp] theorem State.modSns_pending (s : State) (f : Sense → Sense) : (s.modSns f).pending = s.pending := rfl
@[simp] theorem State.modSns_power (s : State) (f : Sense → Sense) : (s.modSns f).power = s.power := rfl
@[simp] theorem State.modSns_life (s : State) (f : Sense → Sense) : (s.modSns f).life = s.life := rfl
@[simp] theorem State.modSns_fuses (s : State) (f : Sense → Sense) : (s.modSns f).fuses = s.fuses := rfl
@[simp] theorem State.modSns_portA (s : State) (f : Sense → Sense) : (s.modSns f).portA = s.portA := rfl
@[simp] theorem State.modSns_portB (s : State) (f : Sense → Sense) : (s.modSns f).portB = s.portB := rfl
@[simp] theorem State.modSns_needles (s : State) (f : Sense → Sense) : (s.modSns f).needles = s.needles := rfl
@[simp] theorem State.modSns_tenants (s : State) (f : Sense → Sense) : (s.modSns f).tenants = s.tenants := rfl
@[simp] theorem State.modSns_keys (s : State) (f : Sense → Sense) : (s.modSns f).keys = s.keys := rfl
@[simp] theorem State.modSns_lc (s : State) (f : Sense → Sense) : (s.modSns f).lc = s.lc := rfl
@[simp] theorem State.modSns_mram (s : State) (f : Sense → Sense) : (s.modSns f).mram = s.mram := rfl
@[simp] theorem State.modSns_eng (s : State) (f : Sense → Sense) : (s.modSns f).eng = s.eng := rfl
@[simp] theorem State.modSns_skn (s : State) (f : Sense → Sense) : (s.modSns f).skn = s.skn := rfl
@[simp] theorem State.modSns_int (s : State) (f : Sense → Sense) : (s.modSns f).int = s.int := rfl
@[simp] theorem State.modSns_phy (s : State) (f : Sense → Sense) : (s.modSns f).phy = s.phy := rfl
@[simp] theorem State.modSns_mac (s : State) (f : Sense → Sense) : (s.modSns f).mac = s.mac := rfl
@[simp] theorem State.modSns_eva (s : State) (f : Sense → Sense) : (s.modSns f).eva = s.eva := rfl
@[simp] theorem State.modSns_sns (s : State) (f : Sense → Sense) : (s.modSns f).sns = f s.sns := rfl
@[simp] theorem State.modSns_log (s : State) (f : Sense → Sense) : (s.modSns f).log = s.log := rfl
@[simp] theorem State.modSns_stopA (s : State) (f : Sense → Sense) : (s.modSns f).stopA = s.stopA := rfl
@[simp] theorem State.modSns_stopB (s : State) (f : Sense → Sense) : (s.modSns f).stopB = s.stopB := rfl
@[simp] theorem State.modSns_freeCtr (s : State) (f : Sense → Sense) : (s.modSns f).freeCtr = s.freeCtr := rfl

/-! ### modLog -/

@[simp] theorem State.modLog_pending (s : State) (f : Rec → Rec) : (s.modLog f).pending = s.pending := rfl
@[simp] theorem State.modLog_power (s : State) (f : Rec → Rec) : (s.modLog f).power = s.power := rfl
@[simp] theorem State.modLog_life (s : State) (f : Rec → Rec) : (s.modLog f).life = s.life := rfl
@[simp] theorem State.modLog_fuses (s : State) (f : Rec → Rec) : (s.modLog f).fuses = s.fuses := rfl
@[simp] theorem State.modLog_portA (s : State) (f : Rec → Rec) : (s.modLog f).portA = s.portA := rfl
@[simp] theorem State.modLog_portB (s : State) (f : Rec → Rec) : (s.modLog f).portB = s.portB := rfl
@[simp] theorem State.modLog_needles (s : State) (f : Rec → Rec) : (s.modLog f).needles = s.needles := rfl
@[simp] theorem State.modLog_tenants (s : State) (f : Rec → Rec) : (s.modLog f).tenants = s.tenants := rfl
@[simp] theorem State.modLog_keys (s : State) (f : Rec → Rec) : (s.modLog f).keys = s.keys := rfl
@[simp] theorem State.modLog_lc (s : State) (f : Rec → Rec) : (s.modLog f).lc = s.lc := rfl
@[simp] theorem State.modLog_mram (s : State) (f : Rec → Rec) : (s.modLog f).mram = s.mram := rfl
@[simp] theorem State.modLog_eng (s : State) (f : Rec → Rec) : (s.modLog f).eng = s.eng := rfl
@[simp] theorem State.modLog_skn (s : State) (f : Rec → Rec) : (s.modLog f).skn = s.skn := rfl
@[simp] theorem State.modLog_int (s : State) (f : Rec → Rec) : (s.modLog f).int = s.int := rfl
@[simp] theorem State.modLog_phy (s : State) (f : Rec → Rec) : (s.modLog f).phy = s.phy := rfl
@[simp] theorem State.modLog_mac (s : State) (f : Rec → Rec) : (s.modLog f).mac = s.mac := rfl
@[simp] theorem State.modLog_eva (s : State) (f : Rec → Rec) : (s.modLog f).eva = s.eva := rfl
@[simp] theorem State.modLog_sns (s : State) (f : Rec → Rec) : (s.modLog f).sns = s.sns := rfl
@[simp] theorem State.modLog_log (s : State) (f : Rec → Rec) : (s.modLog f).log = f s.log := rfl
@[simp] theorem State.modLog_stopA (s : State) (f : Rec → Rec) : (s.modLog f).stopA = s.stopA := rfl
@[simp] theorem State.modLog_stopB (s : State) (f : Rec → Rec) : (s.modLog f).stopB = s.stopB := rfl
@[simp] theorem State.modLog_freeCtr (s : State) (f : Rec → Rec) : (s.modLog f).freeCtr = s.freeCtr := rfl

/-! ### modTen -/

@[simp] theorem State.modTen_pending (s : State) (n : Fin 8) (f : Tenant → Tenant) : (s.modTen n f).pending = s.pending := rfl
@[simp] theorem State.modTen_power (s : State) (n : Fin 8) (f : Tenant → Tenant) : (s.modTen n f).power = s.power := rfl
@[simp] theorem State.modTen_life (s : State) (n : Fin 8) (f : Tenant → Tenant) : (s.modTen n f).life = s.life := rfl
@[simp] theorem State.modTen_fuses (s : State) (n : Fin 8) (f : Tenant → Tenant) : (s.modTen n f).fuses = s.fuses := rfl
@[simp] theorem State.modTen_portA (s : State) (n : Fin 8) (f : Tenant → Tenant) : (s.modTen n f).portA = s.portA := rfl
@[simp] theorem State.modTen_portB (s : State) (n : Fin 8) (f : Tenant → Tenant) : (s.modTen n f).portB = s.portB := rfl
@[simp] theorem State.modTen_needles (s : State) (n : Fin 8) (f : Tenant → Tenant) : (s.modTen n f).needles = s.needles := rfl
@[simp] theorem State.modTen_tenants (s : State) (n : Fin 8) (f : Tenant → Tenant) : (s.modTen n f).tenants = upd s.tenants n f := rfl
@[simp] theorem State.modTen_keys (s : State) (n : Fin 8) (f : Tenant → Tenant) : (s.modTen n f).keys = s.keys := rfl
@[simp] theorem State.modTen_lc (s : State) (n : Fin 8) (f : Tenant → Tenant) : (s.modTen n f).lc = s.lc := rfl
@[simp] theorem State.modTen_mram (s : State) (n : Fin 8) (f : Tenant → Tenant) : (s.modTen n f).mram = s.mram := rfl
@[simp] theorem State.modTen_eng (s : State) (n : Fin 8) (f : Tenant → Tenant) : (s.modTen n f).eng = s.eng := rfl
@[simp] theorem State.modTen_skn (s : State) (n : Fin 8) (f : Tenant → Tenant) : (s.modTen n f).skn = s.skn := rfl
@[simp] theorem State.modTen_int (s : State) (n : Fin 8) (f : Tenant → Tenant) : (s.modTen n f).int = s.int := rfl
@[simp] theorem State.modTen_phy (s : State) (n : Fin 8) (f : Tenant → Tenant) : (s.modTen n f).phy = s.phy := rfl
@[simp] theorem State.modTen_mac (s : State) (n : Fin 8) (f : Tenant → Tenant) : (s.modTen n f).mac = s.mac := rfl
@[simp] theorem State.modTen_eva (s : State) (n : Fin 8) (f : Tenant → Tenant) : (s.modTen n f).eva = s.eva := rfl
@[simp] theorem State.modTen_sns (s : State) (n : Fin 8) (f : Tenant → Tenant) : (s.modTen n f).sns = s.sns := rfl
@[simp] theorem State.modTen_log (s : State) (n : Fin 8) (f : Tenant → Tenant) : (s.modTen n f).log = s.log := rfl
@[simp] theorem State.modTen_stopA (s : State) (n : Fin 8) (f : Tenant → Tenant) : (s.modTen n f).stopA = s.stopA := rfl
@[simp] theorem State.modTen_stopB (s : State) (n : Fin 8) (f : Tenant → Tenant) : (s.modTen n f).stopB = s.stopB := rfl
@[simp] theorem State.modTen_freeCtr (s : State) (n : Fin 8) (f : Tenant → Tenant) : (s.modTen n f).freeCtr = s.freeCtr := rfl

/-! ### modKey -/

@[simp] theorem State.modKey_pending (s : State) (k : Fin 36) (f : Key → Key) : (s.modKey k f).pending = s.pending := rfl
@[simp] theorem State.modKey_power (s : State) (k : Fin 36) (f : Key → Key) : (s.modKey k f).power = s.power := rfl
@[simp] theorem State.modKey_life (s : State) (k : Fin 36) (f : Key → Key) : (s.modKey k f).life = s.life := rfl
@[simp] theorem State.modKey_fuses (s : State) (k : Fin 36) (f : Key → Key) : (s.modKey k f).fuses = s.fuses := rfl
@[simp] theorem State.modKey_portA (s : State) (k : Fin 36) (f : Key → Key) : (s.modKey k f).portA = s.portA := rfl
@[simp] theorem State.modKey_portB (s : State) (k : Fin 36) (f : Key → Key) : (s.modKey k f).portB = s.portB := rfl
@[simp] theorem State.modKey_needles (s : State) (k : Fin 36) (f : Key → Key) : (s.modKey k f).needles = s.needles := rfl
@[simp] theorem State.modKey_tenants (s : State) (k : Fin 36) (f : Key → Key) : (s.modKey k f).tenants = s.tenants := rfl
@[simp] theorem State.modKey_keys (s : State) (k : Fin 36) (f : Key → Key) : (s.modKey k f).keys = upd s.keys k f := rfl
@[simp] theorem State.modKey_lc (s : State) (k : Fin 36) (f : Key → Key) : (s.modKey k f).lc = s.lc := rfl
@[simp] theorem State.modKey_mram (s : State) (k : Fin 36) (f : Key → Key) : (s.modKey k f).mram = s.mram := rfl
@[simp] theorem State.modKey_eng (s : State) (k : Fin 36) (f : Key → Key) : (s.modKey k f).eng = s.eng := rfl
@[simp] theorem State.modKey_skn (s : State) (k : Fin 36) (f : Key → Key) : (s.modKey k f).skn = s.skn := rfl
@[simp] theorem State.modKey_int (s : State) (k : Fin 36) (f : Key → Key) : (s.modKey k f).int = s.int := rfl
@[simp] theorem State.modKey_phy (s : State) (k : Fin 36) (f : Key → Key) : (s.modKey k f).phy = s.phy := rfl
@[simp] theorem State.modKey_mac (s : State) (k : Fin 36) (f : Key → Key) : (s.modKey k f).mac = s.mac := rfl
@[simp] theorem State.modKey_eva (s : State) (k : Fin 36) (f : Key → Key) : (s.modKey k f).eva = s.eva := rfl
@[simp] theorem State.modKey_sns (s : State) (k : Fin 36) (f : Key → Key) : (s.modKey k f).sns = s.sns := rfl
@[simp] theorem State.modKey_log (s : State) (k : Fin 36) (f : Key → Key) : (s.modKey k f).log = s.log := rfl
@[simp] theorem State.modKey_stopA (s : State) (k : Fin 36) (f : Key → Key) : (s.modKey k f).stopA = s.stopA := rfl
@[simp] theorem State.modKey_stopB (s : State) (k : Fin 36) (f : Key → Key) : (s.modKey k f).stopB = s.stopB := rfl
@[simp] theorem State.modKey_freeCtr (s : State) (k : Fin 36) (f : Key → Key) : (s.modKey k f).freeCtr = s.freeCtr := rfl

/-! ### modNeedle -/

@[simp] theorem State.modNeedle_pending (s : State) (k : Fin 32) (f : Needle → Needle) : (s.modNeedle k f).pending = s.pending := rfl
@[simp] theorem State.modNeedle_power (s : State) (k : Fin 32) (f : Needle → Needle) : (s.modNeedle k f).power = s.power := rfl
@[simp] theorem State.modNeedle_life (s : State) (k : Fin 32) (f : Needle → Needle) : (s.modNeedle k f).life = s.life := rfl
@[simp] theorem State.modNeedle_fuses (s : State) (k : Fin 32) (f : Needle → Needle) : (s.modNeedle k f).fuses = s.fuses := rfl
@[simp] theorem State.modNeedle_portA (s : State) (k : Fin 32) (f : Needle → Needle) : (s.modNeedle k f).portA = s.portA := rfl
@[simp] theorem State.modNeedle_portB (s : State) (k : Fin 32) (f : Needle → Needle) : (s.modNeedle k f).portB = s.portB := rfl
@[simp] theorem State.modNeedle_needles (s : State) (k : Fin 32) (f : Needle → Needle) : (s.modNeedle k f).needles = upd s.needles k f := rfl
@[simp] theorem State.modNeedle_tenants (s : State) (k : Fin 32) (f : Needle → Needle) : (s.modNeedle k f).tenants = s.tenants := rfl
@[simp] theorem State.modNeedle_keys (s : State) (k : Fin 32) (f : Needle → Needle) : (s.modNeedle k f).keys = s.keys := rfl
@[simp] theorem State.modNeedle_lc (s : State) (k : Fin 32) (f : Needle → Needle) : (s.modNeedle k f).lc = s.lc := rfl
@[simp] theorem State.modNeedle_mram (s : State) (k : Fin 32) (f : Needle → Needle) : (s.modNeedle k f).mram = s.mram := rfl
@[simp] theorem State.modNeedle_eng (s : State) (k : Fin 32) (f : Needle → Needle) : (s.modNeedle k f).eng = s.eng := rfl
@[simp] theorem State.modNeedle_skn (s : State) (k : Fin 32) (f : Needle → Needle) : (s.modNeedle k f).skn = s.skn := rfl
@[simp] theorem State.modNeedle_int (s : State) (k : Fin 32) (f : Needle → Needle) : (s.modNeedle k f).int = s.int := rfl
@[simp] theorem State.modNeedle_phy (s : State) (k : Fin 32) (f : Needle → Needle) : (s.modNeedle k f).phy = s.phy := rfl
@[simp] theorem State.modNeedle_mac (s : State) (k : Fin 32) (f : Needle → Needle) : (s.modNeedle k f).mac = s.mac := rfl
@[simp] theorem State.modNeedle_eva (s : State) (k : Fin 32) (f : Needle → Needle) : (s.modNeedle k f).eva = s.eva := rfl
@[simp] theorem State.modNeedle_sns (s : State) (k : Fin 32) (f : Needle → Needle) : (s.modNeedle k f).sns = s.sns := rfl
@[simp] theorem State.modNeedle_log (s : State) (k : Fin 32) (f : Needle → Needle) : (s.modNeedle k f).log = s.log := rfl
@[simp] theorem State.modNeedle_stopA (s : State) (k : Fin 32) (f : Needle → Needle) : (s.modNeedle k f).stopA = s.stopA := rfl
@[simp] theorem State.modNeedle_stopB (s : State) (k : Fin 32) (f : Needle → Needle) : (s.modNeedle k f).stopB = s.stopB := rfl
@[simp] theorem State.modNeedle_freeCtr (s : State) (k : Fin 32) (f : Needle → Needle) : (s.modNeedle k f).freeCtr = s.freeCtr := rfl

/-! ### modPort -/

@[simp] theorem State.modPort_pending (s : State) (p : Port) (f : PortSt → PortSt) : (s.modPort p f).pending = s.pending := by cases p <;> rfl
@[simp] theorem State.modPort_power (s : State) (p : Port) (f : PortSt → PortSt) : (s.modPort p f).power = s.power := by cases p <;> rfl
@[simp] theorem State.modPort_life (s : State) (p : Port) (f : PortSt → PortSt) : (s.modPort p f).life = s.life := by cases p <;> rfl
@[simp] theorem State.modPort_fuses (s : State) (p : Port) (f : PortSt → PortSt) : (s.modPort p f).fuses = s.fuses := by cases p <;> rfl
@[simp] theorem State.modPort_needles (s : State) (p : Port) (f : PortSt → PortSt) : (s.modPort p f).needles = s.needles := by cases p <;> rfl
@[simp] theorem State.modPort_tenants (s : State) (p : Port) (f : PortSt → PortSt) : (s.modPort p f).tenants = s.tenants := by cases p <;> rfl
@[simp] theorem State.modPort_keys (s : State) (p : Port) (f : PortSt → PortSt) : (s.modPort p f).keys = s.keys := by cases p <;> rfl
@[simp] theorem State.modPort_lc (s : State) (p : Port) (f : PortSt → PortSt) : (s.modPort p f).lc = s.lc := by cases p <;> rfl
@[simp] theorem State.modPort_mram (s : State) (p : Port) (f : PortSt → PortSt) : (s.modPort p f).mram = s.mram := by cases p <;> rfl
@[simp] theorem State.modPort_eng (s : State) (p : Port) (f : PortSt → PortSt) : (s.modPort p f).eng = s.eng := by cases p <;> rfl
@[simp] theorem State.modPort_skn (s : State) (p : Port) (f : PortSt → PortSt) : (s.modPort p f).skn = s.skn := by cases p <;> rfl
@[simp] theorem State.modPort_int (s : State) (p : Port) (f : PortSt → PortSt) : (s.modPort p f).int = s.int := by cases p <;> rfl
@[simp] theorem State.modPort_phy (s : State) (p : Port) (f : PortSt → PortSt) : (s.modPort p f).phy = s.phy := by cases p <;> rfl
@[simp] theorem State.modPort_mac (s : State) (p : Port) (f : PortSt → PortSt) : (s.modPort p f).mac = s.mac := by cases p <;> rfl
@[simp] theorem State.modPort_eva (s : State) (p : Port) (f : PortSt → PortSt) : (s.modPort p f).eva = s.eva := by cases p <;> rfl
@[simp] theorem State.modPort_sns (s : State) (p : Port) (f : PortSt → PortSt) : (s.modPort p f).sns = s.sns := by cases p <;> rfl
@[simp] theorem State.modPort_log (s : State) (p : Port) (f : PortSt → PortSt) : (s.modPort p f).log = s.log := by cases p <;> rfl
@[simp] theorem State.modPort_stopA (s : State) (p : Port) (f : PortSt → PortSt) : (s.modPort p f).stopA = s.stopA := by cases p <;> rfl
@[simp] theorem State.modPort_stopB (s : State) (p : Port) (f : PortSt → PortSt) : (s.modPort p f).stopB = s.stopB := by cases p <;> rfl
@[simp] theorem State.modPort_freeCtr (s : State) (p : Port) (f : PortSt → PortSt) : (s.modPort p f).freeCtr = s.freeCtr := by cases p <;> rfl
@[simp] theorem State.modPort_port (s : State) (p : Port) (f : PortSt → PortSt) : (s.modPort p f).port p = f (s.port p) := by cases p <;> rfl
@[simp] theorem State.modPort_a_portA (s : State) (f : PortSt → PortSt) : (s.modPort .a f).portA = f s.portA := rfl
@[simp] theorem State.modPort_a_portB (s : State) (f : PortSt → PortSt) : (s.modPort .a f).portB = s.portB := rfl
@[simp] theorem State.modPort_b_portA (s : State) (f : PortSt → PortSt) : (s.modPort .b f).portA = s.portA := rfl
@[simp] theorem State.modPort_b_portB (s : State) (f : PortSt → PortSt) : (s.modPort .b f).portB = f s.portB := rfl
theorem State.modPort_port_ne (s : State) (p q : Port) (f : PortSt → PortSt) (h : q ≠ p) : (s.modPort p f).port q = s.port q := by
  cases p <;> cases q <;> first | rfl | exact absurd rfl h

/-! ### Updates inside a block -/

@[simp] theorem State.modRing_pending (s : State) (r : Fin 512) (f : Ring → Ring) : (s.modRing r f).pending = s.pending := rfl
@[simp] theorem State.modRing_power (s : State) (r : Fin 512) (f : Ring → Ring) : (s.modRing r f).power = s.power := rfl
@[simp] theorem State.modRing_life (s : State) (r : Fin 512) (f : Ring → Ring) : (s.modRing r f).life = s.life := rfl
@[simp] theorem State.modRing_fuses (s : State) (r : Fin 512) (f : Ring → Ring) : (s.modRing r f).fuses = s.fuses := rfl
@[simp] theorem State.modRing_portA (s : State) (r : Fin 512) (f : Ring → Ring) : (s.modRing r f).portA = s.portA := rfl
@[simp] theorem State.modRing_portB (s : State) (r : Fin 512) (f : Ring → Ring) : (s.modRing r f).portB = s.portB := rfl
@[simp] theorem State.modRing_needles (s : State) (r : Fin 512) (f : Ring → Ring) : (s.modRing r f).needles = s.needles := rfl
@[simp] theorem State.modRing_tenants (s : State) (r : Fin 512) (f : Ring → Ring) : (s.modRing r f).tenants = s.tenants := rfl
@[simp] theorem State.modRing_keys (s : State) (r : Fin 512) (f : Ring → Ring) : (s.modRing r f).keys = s.keys := rfl
@[simp] theorem State.modRing_lc (s : State) (r : Fin 512) (f : Ring → Ring) : (s.modRing r f).lc = s.lc := rfl
@[simp] theorem State.modRing_mram (s : State) (r : Fin 512) (f : Ring → Ring) : (s.modRing r f).mram = s.mram := rfl
@[simp] theorem State.modRing_eng (s : State) (r : Fin 512) (f : Ring → Ring) : (s.modRing r f).eng = { s.eng with rings := upd s.eng.rings r f } := rfl
@[simp] theorem State.modRing_skn (s : State) (r : Fin 512) (f : Ring → Ring) : (s.modRing r f).skn = s.skn := rfl
@[simp] theorem State.modRing_int (s : State) (r : Fin 512) (f : Ring → Ring) : (s.modRing r f).int = s.int := rfl
@[simp] theorem State.modRing_phy (s : State) (r : Fin 512) (f : Ring → Ring) : (s.modRing r f).phy = s.phy := rfl
@[simp] theorem State.modRing_mac (s : State) (r : Fin 512) (f : Ring → Ring) : (s.modRing r f).mac = s.mac := rfl
@[simp] theorem State.modRing_eva (s : State) (r : Fin 512) (f : Ring → Ring) : (s.modRing r f).eva = s.eva := rfl
@[simp] theorem State.modRing_sns (s : State) (r : Fin 512) (f : Ring → Ring) : (s.modRing r f).sns = s.sns := rfl
@[simp] theorem State.modRing_log (s : State) (r : Fin 512) (f : Ring → Ring) : (s.modRing r f).log = s.log := rfl
@[simp] theorem State.modRing_stopA (s : State) (r : Fin 512) (f : Ring → Ring) : (s.modRing r f).stopA = s.stopA := rfl
@[simp] theorem State.modRing_stopB (s : State) (r : Fin 512) (f : Ring → Ring) : (s.modRing r f).stopB = s.stopB := rfl
@[simp] theorem State.modRing_freeCtr (s : State) (r : Fin 512) (f : Ring → Ring) : (s.modRing r f).freeCtr = s.freeCtr := rfl

@[simp] theorem State.modPart_pending (s : State) (g : Fin 64) (f : PartEntry → PartEntry) : (s.modPart g f).pending = s.pending := rfl
@[simp] theorem State.modPart_power (s : State) (g : Fin 64) (f : PartEntry → PartEntry) : (s.modPart g f).power = s.power := rfl
@[simp] theorem State.modPart_life (s : State) (g : Fin 64) (f : PartEntry → PartEntry) : (s.modPart g f).life = s.life := rfl
@[simp] theorem State.modPart_fuses (s : State) (g : Fin 64) (f : PartEntry → PartEntry) : (s.modPart g f).fuses = s.fuses := rfl
@[simp] theorem State.modPart_portA (s : State) (g : Fin 64) (f : PartEntry → PartEntry) : (s.modPart g f).portA = s.portA := rfl
@[simp] theorem State.modPart_portB (s : State) (g : Fin 64) (f : PartEntry → PartEntry) : (s.modPart g f).portB = s.portB := rfl
@[simp] theorem State.modPart_needles (s : State) (g : Fin 64) (f : PartEntry → PartEntry) : (s.modPart g f).needles = s.needles := rfl
@[simp] theorem State.modPart_tenants (s : State) (g : Fin 64) (f : PartEntry → PartEntry) : (s.modPart g f).tenants = s.tenants := rfl
@[simp] theorem State.modPart_keys (s : State) (g : Fin 64) (f : PartEntry → PartEntry) : (s.modPart g f).keys = s.keys := rfl
@[simp] theorem State.modPart_lc (s : State) (g : Fin 64) (f : PartEntry → PartEntry) : (s.modPart g f).lc = s.lc := rfl
@[simp] theorem State.modPart_mram (s : State) (g : Fin 64) (f : PartEntry → PartEntry) : (s.modPart g f).mram = { s.mram with part := upd s.mram.part g f } := rfl
@[simp] theorem State.modPart_eng (s : State) (g : Fin 64) (f : PartEntry → PartEntry) : (s.modPart g f).eng = s.eng := rfl
@[simp] theorem State.modPart_skn (s : State) (g : Fin 64) (f : PartEntry → PartEntry) : (s.modPart g f).skn = s.skn := rfl
@[simp] theorem State.modPart_int (s : State) (g : Fin 64) (f : PartEntry → PartEntry) : (s.modPart g f).int = s.int := rfl
@[simp] theorem State.modPart_phy (s : State) (g : Fin 64) (f : PartEntry → PartEntry) : (s.modPart g f).phy = s.phy := rfl
@[simp] theorem State.modPart_mac (s : State) (g : Fin 64) (f : PartEntry → PartEntry) : (s.modPart g f).mac = s.mac := rfl
@[simp] theorem State.modPart_eva (s : State) (g : Fin 64) (f : PartEntry → PartEntry) : (s.modPart g f).eva = s.eva := rfl
@[simp] theorem State.modPart_sns (s : State) (g : Fin 64) (f : PartEntry → PartEntry) : (s.modPart g f).sns = s.sns := rfl
@[simp] theorem State.modPart_log (s : State) (g : Fin 64) (f : PartEntry → PartEntry) : (s.modPart g f).log = s.log := rfl
@[simp] theorem State.modPart_stopA (s : State) (g : Fin 64) (f : PartEntry → PartEntry) : (s.modPart g f).stopA = s.stopA := rfl
@[simp] theorem State.modPart_stopB (s : State) (g : Fin 64) (f : PartEntry → PartEntry) : (s.modPart g f).stopB = s.stopB := rfl
@[simp] theorem State.modPart_freeCtr (s : State) (g : Fin 64) (f : PartEntry → PartEntry) : (s.modPart g f).freeCtr = s.freeCtr := rfl

@[simp] theorem State.modChan_pending (s : State) (n : Fin 8) (f : Chan → Chan) : (s.modChan n f).pending = s.pending := rfl
@[simp] theorem State.modChan_power (s : State) (n : Fin 8) (f : Chan → Chan) : (s.modChan n f).power = s.power := rfl
@[simp] theorem State.modChan_life (s : State) (n : Fin 8) (f : Chan → Chan) : (s.modChan n f).life = s.life := rfl
@[simp] theorem State.modChan_fuses (s : State) (n : Fin 8) (f : Chan → Chan) : (s.modChan n f).fuses = s.fuses := rfl
@[simp] theorem State.modChan_portA (s : State) (n : Fin 8) (f : Chan → Chan) : (s.modChan n f).portA = s.portA := rfl
@[simp] theorem State.modChan_portB (s : State) (n : Fin 8) (f : Chan → Chan) : (s.modChan n f).portB = s.portB := rfl
@[simp] theorem State.modChan_needles (s : State) (n : Fin 8) (f : Chan → Chan) : (s.modChan n f).needles = s.needles := rfl
@[simp] theorem State.modChan_tenants (s : State) (n : Fin 8) (f : Chan → Chan) : (s.modChan n f).tenants = s.tenants := rfl
@[simp] theorem State.modChan_keys (s : State) (n : Fin 8) (f : Chan → Chan) : (s.modChan n f).keys = s.keys := rfl
@[simp] theorem State.modChan_lc (s : State) (n : Fin 8) (f : Chan → Chan) : (s.modChan n f).lc = s.lc := rfl
@[simp] theorem State.modChan_mram (s : State) (n : Fin 8) (f : Chan → Chan) : (s.modChan n f).mram = s.mram := rfl
@[simp] theorem State.modChan_eng (s : State) (n : Fin 8) (f : Chan → Chan) : (s.modChan n f).eng = s.eng := rfl
@[simp] theorem State.modChan_skn (s : State) (n : Fin 8) (f : Chan → Chan) : (s.modChan n f).skn = s.skn := rfl
@[simp] theorem State.modChan_int (s : State) (n : Fin 8) (f : Chan → Chan) : (s.modChan n f).int = s.int := rfl
@[simp] theorem State.modChan_phy (s : State) (n : Fin 8) (f : Chan → Chan) : (s.modChan n f).phy = s.phy := rfl
@[simp] theorem State.modChan_mac (s : State) (n : Fin 8) (f : Chan → Chan) : (s.modChan n f).mac = s.mac := rfl
@[simp] theorem State.modChan_eva (s : State) (n : Fin 8) (f : Chan → Chan) : (s.modChan n f).eva = s.eva := rfl
@[simp] theorem State.modChan_sns (s : State) (n : Fin 8) (f : Chan → Chan) : (s.modChan n f).sns = s.sns := rfl
@[simp] theorem State.modChan_log (s : State) (n : Fin 8) (f : Chan → Chan) : (s.modChan n f).log = { s.log with chans := upd s.log.chans n f } := rfl
@[simp] theorem State.modChan_stopA (s : State) (n : Fin 8) (f : Chan → Chan) : (s.modChan n f).stopA = s.stopA := rfl
@[simp] theorem State.modChan_stopB (s : State) (n : Fin 8) (f : Chan → Chan) : (s.modChan n f).stopB = s.stopB := rfl
@[simp] theorem State.modChan_freeCtr (s : State) (n : Fin 8) (f : Chan → Chan) : (s.modChan n f).freeCtr = s.freeCtr := rfl

@[simp] theorem State.modNb_pending (s : State) (i : Fin 64) (f : Neighbour → Neighbour) : (s.modNb i f).pending = s.pending := rfl
@[simp] theorem State.modNb_power (s : State) (i : Fin 64) (f : Neighbour → Neighbour) : (s.modNb i f).power = s.power := rfl
@[simp] theorem State.modNb_life (s : State) (i : Fin 64) (f : Neighbour → Neighbour) : (s.modNb i f).life = s.life := rfl
@[simp] theorem State.modNb_fuses (s : State) (i : Fin 64) (f : Neighbour → Neighbour) : (s.modNb i f).fuses = s.fuses := rfl
@[simp] theorem State.modNb_portA (s : State) (i : Fin 64) (f : Neighbour → Neighbour) : (s.modNb i f).portA = s.portA := rfl
@[simp] theorem State.modNb_portB (s : State) (i : Fin 64) (f : Neighbour → Neighbour) : (s.modNb i f).portB = s.portB := rfl
@[simp] theorem State.modNb_needles (s : State) (i : Fin 64) (f : Neighbour → Neighbour) : (s.modNb i f).needles = s.needles := rfl
@[simp] theorem State.modNb_tenants (s : State) (i : Fin 64) (f : Neighbour → Neighbour) : (s.modNb i f).tenants = s.tenants := rfl
@[simp] theorem State.modNb_keys (s : State) (i : Fin 64) (f : Neighbour → Neighbour) : (s.modNb i f).keys = s.keys := rfl
@[simp] theorem State.modNb_lc (s : State) (i : Fin 64) (f : Neighbour → Neighbour) : (s.modNb i f).lc = s.lc := rfl
@[simp] theorem State.modNb_mram (s : State) (i : Fin 64) (f : Neighbour → Neighbour) : (s.modNb i f).mram = s.mram := rfl
@[simp] theorem State.modNb_eng (s : State) (i : Fin 64) (f : Neighbour → Neighbour) : (s.modNb i f).eng = s.eng := rfl
@[simp] theorem State.modNb_skn (s : State) (i : Fin 64) (f : Neighbour → Neighbour) : (s.modNb i f).skn = s.skn := rfl
@[simp] theorem State.modNb_int (s : State) (i : Fin 64) (f : Neighbour → Neighbour) : (s.modNb i f).int = s.int := rfl
@[simp] theorem State.modNb_phy (s : State) (i : Fin 64) (f : Neighbour → Neighbour) : (s.modNb i f).phy = s.phy := rfl
@[simp] theorem State.modNb_mac (s : State) (i : Fin 64) (f : Neighbour → Neighbour) : (s.modNb i f).mac = { s.mac with nbs := upd s.mac.nbs i f } := rfl
@[simp] theorem State.modNb_eva (s : State) (i : Fin 64) (f : Neighbour → Neighbour) : (s.modNb i f).eva = s.eva := rfl
@[simp] theorem State.modNb_sns (s : State) (i : Fin 64) (f : Neighbour → Neighbour) : (s.modNb i f).sns = s.sns := rfl
@[simp] theorem State.modNb_log (s : State) (i : Fin 64) (f : Neighbour → Neighbour) : (s.modNb i f).log = s.log := rfl
@[simp] theorem State.modNb_stopA (s : State) (i : Fin 64) (f : Neighbour → Neighbour) : (s.modNb i f).stopA = s.stopA := rfl
@[simp] theorem State.modNb_stopB (s : State) (i : Fin 64) (f : Neighbour → Neighbour) : (s.modNb i f).stopB = s.stopB := rfl
@[simp] theorem State.modNb_freeCtr (s : State) (i : Fin 64) (f : Neighbour → Neighbour) : (s.modNb i f).freeCtr = s.freeCtr := rfl

@[simp] theorem State.modEp_pending (s : State) (i : Fin 64) (f : Endpoint → Endpoint) : (s.modEp i f).pending = s.pending := rfl
@[simp] theorem State.modEp_power (s : State) (i : Fin 64) (f : Endpoint → Endpoint) : (s.modEp i f).power = s.power := rfl
@[simp] theorem State.modEp_life (s : State) (i : Fin 64) (f : Endpoint → Endpoint) : (s.modEp i f).life = s.life := rfl
@[simp] theorem State.modEp_fuses (s : State) (i : Fin 64) (f : Endpoint → Endpoint) : (s.modEp i f).fuses = s.fuses := rfl
@[simp] theorem State.modEp_portA (s : State) (i : Fin 64) (f : Endpoint → Endpoint) : (s.modEp i f).portA = s.portA := rfl
@[simp] theorem State.modEp_portB (s : State) (i : Fin 64) (f : Endpoint → Endpoint) : (s.modEp i f).portB = s.portB := rfl
@[simp] theorem State.modEp_needles (s : State) (i : Fin 64) (f : Endpoint → Endpoint) : (s.modEp i f).needles = s.needles := rfl
@[simp] theorem State.modEp_tenants (s : State) (i : Fin 64) (f : Endpoint → Endpoint) : (s.modEp i f).tenants = s.tenants := rfl
@[simp] theorem State.modEp_keys (s : State) (i : Fin 64) (f : Endpoint → Endpoint) : (s.modEp i f).keys = s.keys := rfl
@[simp] theorem State.modEp_lc (s : State) (i : Fin 64) (f : Endpoint → Endpoint) : (s.modEp i f).lc = s.lc := rfl
@[simp] theorem State.modEp_mram (s : State) (i : Fin 64) (f : Endpoint → Endpoint) : (s.modEp i f).mram = s.mram := rfl
@[simp] theorem State.modEp_eng (s : State) (i : Fin 64) (f : Endpoint → Endpoint) : (s.modEp i f).eng = s.eng := rfl
@[simp] theorem State.modEp_skn (s : State) (i : Fin 64) (f : Endpoint → Endpoint) : (s.modEp i f).skn = s.skn := rfl
@[simp] theorem State.modEp_int (s : State) (i : Fin 64) (f : Endpoint → Endpoint) : (s.modEp i f).int = s.int := rfl
@[simp] theorem State.modEp_phy (s : State) (i : Fin 64) (f : Endpoint → Endpoint) : (s.modEp i f).phy = s.phy := rfl
@[simp] theorem State.modEp_mac (s : State) (i : Fin 64) (f : Endpoint → Endpoint) : (s.modEp i f).mac = { s.mac with eps := upd s.mac.eps i f } := rfl
@[simp] theorem State.modEp_eva (s : State) (i : Fin 64) (f : Endpoint → Endpoint) : (s.modEp i f).eva = s.eva := rfl
@[simp] theorem State.modEp_sns (s : State) (i : Fin 64) (f : Endpoint → Endpoint) : (s.modEp i f).sns = s.sns := rfl
@[simp] theorem State.modEp_log (s : State) (i : Fin 64) (f : Endpoint → Endpoint) : (s.modEp i f).log = s.log := rfl
@[simp] theorem State.modEp_stopA (s : State) (i : Fin 64) (f : Endpoint → Endpoint) : (s.modEp i f).stopA = s.stopA := rfl
@[simp] theorem State.modEp_stopB (s : State) (i : Fin 64) (f : Endpoint → Endpoint) : (s.modEp i f).stopB = s.stopB := rfl
@[simp] theorem State.modEp_freeCtr (s : State) (i : Fin 64) (f : Endpoint → Endpoint) : (s.modEp i f).freeCtr = s.freeCtr := rfl

@[simp] theorem State.modFlow_pending (s : State) (i : Fin 64) (f : Flow → Flow) : (s.modFlow i f).pending = s.pending := rfl
@[simp] theorem State.modFlow_power (s : State) (i : Fin 64) (f : Flow → Flow) : (s.modFlow i f).power = s.power := rfl
@[simp] theorem State.modFlow_life (s : State) (i : Fin 64) (f : Flow → Flow) : (s.modFlow i f).life = s.life := rfl
@[simp] theorem State.modFlow_fuses (s : State) (i : Fin 64) (f : Flow → Flow) : (s.modFlow i f).fuses = s.fuses := rfl
@[simp] theorem State.modFlow_portA (s : State) (i : Fin 64) (f : Flow → Flow) : (s.modFlow i f).portA = s.portA := rfl
@[simp] theorem State.modFlow_portB (s : State) (i : Fin 64) (f : Flow → Flow) : (s.modFlow i f).portB = s.portB := rfl
@[simp] theorem State.modFlow_needles (s : State) (i : Fin 64) (f : Flow → Flow) : (s.modFlow i f).needles = s.needles := rfl
@[simp] theorem State.modFlow_tenants (s : State) (i : Fin 64) (f : Flow → Flow) : (s.modFlow i f).tenants = s.tenants := rfl
@[simp] theorem State.modFlow_keys (s : State) (i : Fin 64) (f : Flow → Flow) : (s.modFlow i f).keys = s.keys := rfl
@[simp] theorem State.modFlow_lc (s : State) (i : Fin 64) (f : Flow → Flow) : (s.modFlow i f).lc = s.lc := rfl
@[simp] theorem State.modFlow_mram (s : State) (i : Fin 64) (f : Flow → Flow) : (s.modFlow i f).mram = s.mram := rfl
@[simp] theorem State.modFlow_eng (s : State) (i : Fin 64) (f : Flow → Flow) : (s.modFlow i f).eng = s.eng := rfl
@[simp] theorem State.modFlow_skn (s : State) (i : Fin 64) (f : Flow → Flow) : (s.modFlow i f).skn = s.skn := rfl
@[simp] theorem State.modFlow_int (s : State) (i : Fin 64) (f : Flow → Flow) : (s.modFlow i f).int = s.int := rfl
@[simp] theorem State.modFlow_phy (s : State) (i : Fin 64) (f : Flow → Flow) : (s.modFlow i f).phy = s.phy := rfl
@[simp] theorem State.modFlow_mac (s : State) (i : Fin 64) (f : Flow → Flow) : (s.modFlow i f).mac = { s.mac with flows := upd s.mac.flows i f } := rfl
@[simp] theorem State.modFlow_eva (s : State) (i : Fin 64) (f : Flow → Flow) : (s.modFlow i f).eva = s.eva := rfl
@[simp] theorem State.modFlow_sns (s : State) (i : Fin 64) (f : Flow → Flow) : (s.modFlow i f).sns = s.sns := rfl
@[simp] theorem State.modFlow_log (s : State) (i : Fin 64) (f : Flow → Flow) : (s.modFlow i f).log = s.log := rfl
@[simp] theorem State.modFlow_stopA (s : State) (i : Fin 64) (f : Flow → Flow) : (s.modFlow i f).stopA = s.stopA := rfl
@[simp] theorem State.modFlow_stopB (s : State) (i : Fin 64) (f : Flow → Flow) : (s.modFlow i f).stopB = s.stopB := rfl
@[simp] theorem State.modFlow_freeCtr (s : State) (i : Fin 64) (f : Flow → Flow) : (s.modFlow i f).freeCtr = s.freeCtr := rfl

/-! ### modArr -/

@[simp] theorem State.modArr_pending (s : State) (a : Arr) (f : ArrSt → ArrSt) : (s.modArr a f).pending = s.pending := rfl
@[simp] theorem State.modArr_power (s : State) (a : Arr) (f : ArrSt → ArrSt) : (s.modArr a f).power = s.power := rfl
@[simp] theorem State.modArr_life (s : State) (a : Arr) (f : ArrSt → ArrSt) : (s.modArr a f).life = s.life := rfl
@[simp] theorem State.modArr_fuses (s : State) (a : Arr) (f : ArrSt → ArrSt) : (s.modArr a f).fuses = s.fuses := rfl
@[simp] theorem State.modArr_portA (s : State) (a : Arr) (f : ArrSt → ArrSt) : (s.modArr a f).portA = s.portA := rfl
@[simp] theorem State.modArr_portB (s : State) (a : Arr) (f : ArrSt → ArrSt) : (s.modArr a f).portB = s.portB := rfl
@[simp] theorem State.modArr_needles (s : State) (a : Arr) (f : ArrSt → ArrSt) : (s.modArr a f).needles = s.needles := rfl
@[simp] theorem State.modArr_tenants (s : State) (a : Arr) (f : ArrSt → ArrSt) : (s.modArr a f).tenants = s.tenants := rfl
@[simp] theorem State.modArr_keys (s : State) (a : Arr) (f : ArrSt → ArrSt) : (s.modArr a f).keys = s.keys := rfl
@[simp] theorem State.modArr_lc (s : State) (a : Arr) (f : ArrSt → ArrSt) : (s.modArr a f).lc = s.lc := rfl
@[simp] theorem State.modArr_eng (s : State) (a : Arr) (f : ArrSt → ArrSt) : (s.modArr a f).eng = s.eng := rfl
@[simp] theorem State.modArr_skn (s : State) (a : Arr) (f : ArrSt → ArrSt) : (s.modArr a f).skn = s.skn := rfl
@[simp] theorem State.modArr_int (s : State) (a : Arr) (f : ArrSt → ArrSt) : (s.modArr a f).int = s.int := rfl
@[simp] theorem State.modArr_phy (s : State) (a : Arr) (f : ArrSt → ArrSt) : (s.modArr a f).phy = s.phy := rfl
@[simp] theorem State.modArr_mac (s : State) (a : Arr) (f : ArrSt → ArrSt) : (s.modArr a f).mac = s.mac := rfl
@[simp] theorem State.modArr_eva (s : State) (a : Arr) (f : ArrSt → ArrSt) : (s.modArr a f).eva = s.eva := rfl
@[simp] theorem State.modArr_sns (s : State) (a : Arr) (f : ArrSt → ArrSt) : (s.modArr a f).sns = s.sns := rfl
@[simp] theorem State.modArr_log (s : State) (a : Arr) (f : ArrSt → ArrSt) : (s.modArr a f).log = s.log := rfl
@[simp] theorem State.modArr_stopA (s : State) (a : Arr) (f : ArrSt → ArrSt) : (s.modArr a f).stopA = s.stopA := rfl
@[simp] theorem State.modArr_stopB (s : State) (a : Arr) (f : ArrSt → ArrSt) : (s.modArr a f).stopB = s.stopB := rfl
@[simp] theorem State.modArr_freeCtr (s : State) (a : Arr) (f : ArrSt → ArrSt) : (s.modArr a f).freeCtr = s.freeCtr := rfl
@[simp] theorem State.modArr_mram_words (s : State) (a : Arr) (f : ArrSt → ArrSt) : (s.modArr a f).mram.words = s.mram.words := by cases a <;> rfl
@[simp] theorem State.modArr_mram_remaps (s : State) (a : Arr) (f : ArrSt → ArrSt) : (s.modArr a f).mram.remaps = s.mram.remaps := by cases a <;> rfl
@[simp] theorem State.modArr_mram_part (s : State) (a : Arr) (f : ArrSt → ArrSt) : (s.modArr a f).mram.part = s.mram.part := by cases a <;> rfl
@[simp] theorem State.modArr_mram_fhb (s : State) (a : Arr) (f : ArrSt → ArrSt) : (s.modArr a f).mram.fhb = s.mram.fhb := by cases a <;> rfl
@[simp] theorem State.modArr_mram_waitq (s : State) (a : Arr) (f : ArrSt → ArrSt) : (s.modArr a f).mram.waitq = s.mram.waitq := by cases a <;> rfl
@[simp] theorem State.modArr_arr (s : State) (a : Arr) (f : ArrSt → ArrSt) : (s.modArr a f).mram.arr a = f (s.mram.arr a) := by cases a <;> rfl

/-! ### Elements of a changed vector -/

@[simp] theorem upd_same {α : Type} {n : Nat} (v : Vector α n) (i : Fin n) (f : α → α) : (upd v i f)[i.val] = f v[i.val] := by
  simp [upd]

theorem upd_ne {α : Type} {n : Nat} (v : Vector α n) (i j : Fin n) (f : α → α) (h : j ≠ i) : (upd v i f)[j.val] = v[j.val] := by
  simp [upd, Fin.val_ne_of_ne h.symm]

theorem upd_get {α : Type} {n : Nat} (v : Vector α n) (i j : Fin n) (f : α → α) :
    (upd v i f)[j.val] = if j = i then f v[j.val] else v[j.val] := by
  by_cases h : j = i
  · subst h; simp
  · rw [if_neg h, upd_ne v i j f h]

end Sys2Proof.Machine
end

