-- ==== Sys2Proof/Laws/Memory.lean ====
section
/-! SUPPORT. The laws of the sparse tables, and of the array's stored words kept in one: what a write leaves at its key and elsewhere, and
that the operations that change the stored words keep their canonical form. -/

namespace Sys2Proof.Machine

variable {α : Type}

/-- The head of a rising table is below every key of its tail. -/
theorem sorted_cons (j : Nat) (a : α) (t : List (Nat × α)) :
    sorted ((j, a) :: t) = true ↔ (∀ c ∈ t, j < c.1) ∧ sorted t = true := by
  induction t generalizing j a with
  | nil => simp [sorted]
  | cons x t ih =>
    obtain ⟨k, b⟩ := x
    simp only [sorted, Bool.and_eq_true, decide_eq_true_eq, List.mem_cons, forall_eq_or_imp]
    rw [ih]
    constructor
    · rintro ⟨h, hall, hs⟩
      exact ⟨⟨h, fun c hc => Nat.lt_trans h (hall c hc)⟩, hall, hs⟩
    · rintro ⟨⟨h, _⟩, hall, hs⟩
      exact ⟨h, hall, hs⟩

theorem sorted_tail {c : Nat × α} {t : List (Nat × α)} (h : sorted (c :: t) = true) : sorted t = true :=
  ((sorted_cons c.1 c.2 t).mp h).2

/-- What a table lists after a store: the new entry, or one it listed before. -/
theorem mem_store {k : Nat} {v : Option α} {l : List (Nat × α)} {c : Nat × α} (h : c ∈ store k v l) :
    (∃ a, v = some a ∧ c = (k, a)) ∨ c ∈ l := by
  induction l with
  | nil => cases v <;> simp_all [store]
  | cons x t ih =>
    obtain ⟨j, a⟩ := x
    unfold store at h
    split at h
    · rcases List.mem_cons.mp h with rfl | h
      · simp
      · rcases ih h with h | h
        · exact .inl h
        · exact .inr (List.mem_cons_of_mem _ h)
    · split at h
      · cases v with
        | none => exact .inr (List.mem_cons_of_mem _ (by simpa using h))
        | some b =>
          rcases List.mem_cons.mp (by simpa using h) with rfl | h
          · simp
          · exact .inr (List.mem_cons_of_mem _ h)
      · cases v with
        | none => exact .inr (by simpa using h)
        | some b =>
          rcases List.mem_cons.mp (show c ∈ (k, b) :: (j, a) :: t by simpa using h) with rfl | h
          · simp
          · exact .inr h

/-- A store keeps the keys strictly rising. -/
theorem sorted_store (k : Nat) (v : Option α) (l : List (Nat × α)) (h : sorted l = true) : sorted (store k v l) = true := by
  induction l with
  | nil => cases v <;> rfl
  | cons x t ih =>
    obtain ⟨j, a⟩ := x
    obtain ⟨hall, hs⟩ := (sorted_cons j a t).mp h
    unfold store
    split
    · rw [sorted_cons]
      refine ⟨fun c hc => ?_, ih hs⟩
      rcases mem_store hc with ⟨b, _, rfl⟩ | hc
      · assumption
      · exact hall c hc
    · split
      · subst_vars
        cases v
        · simpa using hs
        · exact (sorted_cons _ _ _).mpr ⟨hall, hs⟩
      · have hk : k < j := by omega
        cases v
        · simpa using h
        · refine (sorted_cons _ _ _).mpr ⟨fun c hc => ?_, h⟩
          rcases List.mem_cons.mp hc with rfl | hc
          · exact hk
          · exact Nat.lt_trans hk (hall c hc)

/-- No entry of a rising table's tail has a key at or under its head's. -/
theorem lookup_eq_none {k : Nat} {l : List (Nat × α)} (h : ∀ c ∈ l, k < c.1) : lookup k l = none := by
  induction l with
  | nil => rfl
  | cons x t ih =>
    have hx := h x (by simp)
    unfold lookup
    rw [if_neg (by omega)]
    exact ih fun c hc => h c (by simp [hc])

/-- A store is read back at its key. -/
theorem lookup_store_same (k : Nat) (v : Option α) (l : List (Nat × α)) (h : sorted l = true) : lookup k (store k v l) = v := by
  induction l with
  | nil => cases v <;> simp [store, lookup]
  | cons x t ih =>
    obtain ⟨j, a⟩ := x
    obtain ⟨hall, hs⟩ := (sorted_cons j a t).mp h
    unfold store
    split
    · unfold lookup
      rw [if_neg (by omega)]
      exact ih hs
    · split
      · subst_vars
        cases v
        · simpa using lookup_eq_none hall
        · simp [lookup]
      · cases v
        · have : k < j := by omega
          simpa using lookup_eq_none (k := k) (l := (j, a) :: t) fun c hc => by
            rcases List.mem_cons.mp hc with rfl | hc
            · exact this
            · exact Nat.lt_trans this (hall c hc)
        · simp [lookup]

/-- A store leaves every other key as it was. -/
theorem lookup_store_other {k i : Nat} (v : Option α) (l : List (Nat × α)) (h : i ≠ k) : lookup i (store k v l) = lookup i l := by
  induction l with
  | nil => cases v <;> simp [store, lookup, h.symm]
  | cons x t ih =>
    obtain ⟨j, a⟩ := x
    unfold store
    split
    · simp only [lookup, ih]
    · split
      · subst_vars
        cases v <;> simp [lookup, h.symm]
      · cases v <;> simp [lookup, h.symm]

/-- A part of a rising table is rising. -/
theorem sorted_filter (p : Nat × α → Bool) (l : List (Nat × α)) (h : sorted l = true) : sorted (l.filter p) = true := by
  induction l with
  | nil => rfl
  | cons x t ih =>
    obtain ⟨hall, hs⟩ := (sorted_cons x.1 x.2 t).mp h
    rw [List.filter_cons]
    split
    · exact (sorted_cons _ _ _).mpr ⟨fun c hc => hall c ((List.mem_filter.mp hc).1), ih hs⟩
    · exact ih hs

/-- A table without the keys that p drops reads as before where p keeps the key, and as nothing elsewhere. -/
theorem lookup_filter (p : Nat → Bool) (k : Nat) (l : List (Nat × α)) :
    lookup k (l.filter fun c => p c.1) = if p k then lookup k l else none := by
  induction l with
  | nil => simp [lookup]
  | cons x t ih =>
    obtain ⟨j, a⟩ := x
    rw [List.filter_cons]
    by_cases hj : j = k
    · subst hj
      by_cases hp : p j <;> simp_all [lookup]
    · by_cases hp : p j <;> simp_all [lookup]

/-! ## The array's words -/

theorem memory_wf_nil : Memory.wf [] := by simp [Memory.wf, sorted]

/-- At reset no word is listed: every word reads as blank. -/
theorem reset_memory_wf : Memory.wf State.reset.mram.words := memory_wf_nil

/-- Storing a raw word keeps the canonical form. -/
theorem setStored_wf (k : Nat) (r : Raw147) (s : State) (h : Memory.wf s.mram.words) : Memory.wf (setStored k r s).mram.words := by
  refine ⟨sorted_store _ _ _ h.1, fun c hc => ?_⟩
  rcases mem_store hc with ⟨a, ha, rfl⟩ | hc
  · split at ha
    · cases ha
    · injection ha with ha
      subst ha
      assumption
  · exact h.2 c hc

/-- Blanking the words that a test picks keeps the canonical form. -/
theorem blankWords_wf (p : Nat → Bool) (m : Sparse Raw147) (h : Memory.wf m) : Memory.wf (m.filter fun w => !p w.1) :=
  ⟨sorted_filter _ _ h.1, fun c hc => h.2 c ((List.mem_filter.mp hc).1)⟩

/-- A row that a purge overwrites. -/
theorem blankRow_wf (a : Arr) (row : Nat) (s : State) (h : Memory.wf s.mram.words) : Memory.wf (blankRow a row s).mram.words :=
  blankWords_wf (fun k => wordKey a (32 * row) ≤ k && decide (k < wordKey a (32 * row) + 32)) _ h

/-- The stored word at the key written is the one written. -/
theorem stored_setStored_same (k : Nat) (r : Raw147) (s : State) (h : sorted s.mram.words = true) : (setStored k r s).stored k = r := by
  have : lookup k (setStored k r s).mram.words = if r = blankRaw then none else some r := lookup_store_same _ _ _ h
  unfold State.stored
  rw [this]
  split
  · rename_i hr
    exact hr.symm
  · rfl

/-- A stored word leaves every other key as it was. -/
theorem stored_setStored_other {k i : Nat} (r : Raw147) (s : State) (h : i ≠ k) : (setStored k r s).stored i = s.stored i :=
  congrArg (fun o => Option.getD o blankRaw) (lookup_store_other _ _ h)

/-- Blanking the words that a test picks: they read as blank, every other word as before. -/
theorem lookup_blankWords (p : Nat → Bool) (k : Nat) (m : Sparse Raw147) :
    (lookup k (m.filter fun w => !p w.1)).getD blankRaw = if p k then blankRaw else (lookup k m).getD blankRaw := by
  rw [lookup_filter fun j => !p j]
  by_cases h : p k <;> simp [h]

/-- An overwritten row reads as blank, every other word as before. -/
theorem stored_blankRow (a : Arr) (row k : Nat) (s : State) :
    (blankRow a row s).stored k =
      if wordKey a (32 * row) ≤ k ∧ k < wordKey a (32 * row) + 32 then blankRaw else s.stored k := by
  have h := lookup_blankWords (fun k => wordKey a (32 * row) ≤ k && decide (k < wordKey a (32 * row) + 32)) k s.mram.words
  simpa [State.stored, blankRow] using h

end Sys2Proof.Machine
end

