-- ==== Sys2Proof/Laws/Ops.lean ====
section
/-! SUPPORT. What each shared operation may change, said once: news (stitches and interrupt bits), charges, the governor, the domains,
violations, malformed transactions, the acceptance of writes.  A later proof cites these and unfolds none of the operations. -/

namespace Sys2Proof.Machine

/-! ## News: the recorder's part and the ports' interrupt bits -/

/-- t differs from s in the recorder's state and the interrupt bits alone. -/
def News (s t : State) : Prop :=
  ∃ l a b, t = { s with log := l, portA := { s.portA with irqStat := a }, portB := { s.portB with irqStat := b } }

theorem News.refl (s : State) : News s s := ⟨s.log, s.portA.irqStat, s.portB.irqStat, rfl⟩

theorem News.trans {s t u : State} (h : News s t) (g : News t u) : News s u := by
  obtain ⟨l, a, b, rfl⟩ := h
  obtain ⟨l', a', b', rfl⟩ := g
  exact ⟨l', a', b', rfl⟩

theorem modLog_news (s : State) (f : Rec → Rec) : News s (s.modLog f) := ⟨f s.log, s.portA.irqStat, s.portB.irqStat, rfl⟩

theorem modChan_news (s : State) (n : Fin 8) (f : Chan → Chan) : News s (s.modChan n f) := modLog_news s _

theorem irq_news (s : State) (p : Port) (i : Nat) : News s (s.irq p i) := by
  cases p
  · exact ⟨s.log, s.portA.irqStat ||| bitAt i true, s.portB.irqStat, rfl⟩
  · exact ⟨s.log, s.portA.irqStat, s.portB.irqStat ||| bitAt i true, rfl⟩

/-- A relation that each step of a list keeps is kept by the whole list. -/
theorem each_induction {α : Type} {R : State → State → Prop} (refl : ∀ s, R s s) (trans : ∀ {s t u}, R s t → R t u → R s u)
    (l : List α) (f : α → State → State) (h : ∀ a s, R s (f a s)) (s : State) : R s (State.each l f s) := by
  induction l generalizing s with
  | nil => exact refl s
  | cons a t ih => exact trans (h a s) (ih (f a s))

/-- The same of a fold. -/
theorem foldl_induction {β : Type} {R : State → State → Prop} (refl : ∀ s, R s s) (trans : ∀ {s t u}, R s t → R t u → R s u)
    (l : List β) (f : State → β → State) (h : ∀ s b, R s (f s b)) (s : State) : R s (l.foldl f s) := by
  induction l generalizing s with
  | nil => exact refl s
  | cons b t ih => exact trans (h s b) (ih (f s b))

theorem irqSlot_news (s : State) (n : Fin 8) (i : Nat) : News s (s.irqSlot n i) :=
  each_induction News.refl News.trans _ _ (fun p s => by
    split
    · exact irq_news s p i
    · exact .refl s) s

theorem irqOpen_news (s : State) (i : Nat) : News s (s.irqOpen i) :=
  each_induction News.refl News.trans _ _ (fun p s => by
    split
    · exact irq_news s p i
    · exact .refl s) s

theorem dropStitch_news (n : Fin 8) (s : State) : News s (dropStitch n s) := (modChan_news s n _).trans (irqSlot_news _ n _)

theorem loseStitch_news (n : Fin 8) (s : State) : News s (loseStitch n s) :=
  ((modChan_news s n _).trans (modLog_news _ _)).trans (irqSlot_news _ n _)

theorem pushStitch_news (st : Stitch) (s : State) : News s (pushStitch st s) := modLog_news s _

theorem queueStitch_news (st : Stitch) (s : State) : News s (queueStitch st s).1 := by
  unfold queueStitch
  split
  · exact pushStitch_news st s
  · exact loseStitch_news _ s

theorem admitStitch_news (st : Stitch) (s : State) : News s (admitStitch st s).1 := by
  unfold admitStitch
  dsimp only
  split
  · exact dropStitch_news _ s
  · split
    · split
      · exact ((pushStitch_news _ s).trans (modChan_news _ _ _)).trans (dropStitch_news _ _)
      · exact loseStitch_news _ s
    · exact queueStitch_news st s

theorem enterStitch_news (st : Stitch) (s : State) : News s (enterStitch st s).1 := by
  unfold enterStitch
  split
  · exact queueStitch_news st s
  · exact admitStitch_news st s

theorem takeEntry_news (code : BitVec 12) (ch : Fin 8) (burst : Nat) (s : State) : News s (takeEntry code ch burst s).1 := by
  unfold takeEntry
  split
  · dsimp only
    exact modLog_news s _
  · dsimp only
    split
    · exact .refl s
    · split
      · exact .refl s
      · dsimp only
        split
        · exact modLog_news s _
        · exact (enterStitch_news _ s).trans (modLog_news _ _)

theorem limiter_news (code : BitVec 12) (ch : Fin 8) (s : State) : News s (limiter code ch s).1 := by
  unfold limiter
  dsimp only
  split
  · exact .refl s
  · split <;> dsimp only <;> exact (takeEntry_news code ch _ s).trans (modLog_news _ _)

/-- Raising a stitch changes the recorder's part and interrupt bits alone, whatever becomes of it. -/
theorem raiseWith_news (code : BitVec 12) (ch : Fin 8) (slots : List Word32) (f : Stitch → Stitch) (s : State) :
    News s (raiseWith code ch slots f s).1 := by
  have h := limiter_news code ch s
  unfold raiseWith
  split
  · exact .refl s
  · split
    · simp_all
    · exact News.trans (by simp_all) (enterStitch_news _ _)

theorem raise_news (e : Ev) (ch : Fin 8) (slots : List Word32) (s : State) : News s (raise e ch slots s) := raiseWith_news _ _ _ _ s

/-- In HALT no stitch is written. -/
theorem raise_halt (e : Ev) (ch : Fin 8) (slots : List Word32) (s : State) (h : s.life.state = .halt) : raise e ch slots s = s := by
  simp [raise, raiseWith, h]

/-! ## The ledger's charges -/

/-- t differs from s in the sensing part alone. -/
def Charged (s t : State) : Prop := ∃ q, t = { s with sns := q }

theorem Charged.refl (s : State) : Charged s s := ⟨s.sns, rfl⟩

theorem Charged.trans {s t u : State} (h : Charged s t) (g : Charged t u) : Charged s u := by
  obtain ⟨q, rfl⟩ := h
  obtain ⟨q', rfl⟩ := g
  exact ⟨q', rfl⟩

theorem modSns_charged (s : State) (f : Sense → Sense) : Charged s (s.modSns f) := ⟨f s.sns, rfl⟩

theorem chargeEnergy_charged (n : Fin 8) (e : Nat) (s : State) : Charged s (s.chargeEnergy n e) := by
  unfold State.chargeEnergy
  split
  · exact .refl s
  · exact modSns_charged s _

theorem chargeWord_charged (n : Fin 8) (s : State) : Charged s (s.chargeWord n) := by
  unfold State.chargeWord
  split
  · exact chargeEnergy_charged n _ s
  · exact (modSns_charged s _).trans (chargeEnergy_charged n _ _)

theorem chargeOp_charged (n : Fin 8) (s : State) : Charged s (s.chargeOp n) := chargeEnergy_charged n _ s

theorem chargeRx_charged (n : Fin 8) (us : Nat) (s : State) : Charged s (s.chargeRx n us) := chargeEnergy_charged n _ s

theorem chargeTx_charged (n : Fin 8) (symbols frames us charge : Nat) (s : State) : Charged s (s.chargeTx n symbols frames us charge) := by
  unfold State.chargeTx
  split
  · exact chargeEnergy_charged n _ s
  · exact (modSns_charged s _).trans (chargeEnergy_charged n _ _)

theorem chargeRxFrame_charged (n : Fin 8) (us : Nat) (s : State) : Charged s (s.chargeRxFrame n us) := by
  unfold State.chargeRxFrame
  split
  · exact chargeRx_charged n us s
  · exact (modSns_charged s _).trans (chargeRx_charged n us _)

theorem chargeWords_charged (m : Nat) (n : Fin 8) (s : State) : Charged s (chargeWords m n s) := by
  unfold chargeWords
  split
  · exact chargeEnergy_charged n _ s
  · exact (modSns_charged s _).trans (chargeEnergy_charged n _ _)

/-! ## The governor and the domains -/

/-- t differs from s in the power part alone. -/
def Powered (s t : State) : Prop := ∃ p, t = { s with power := p }

theorem Powered.refl (s : State) : Powered s s := ⟨s.power, rfl⟩

theorem Powered.trans {s t u : State} (h : Powered s t) (g : Powered t u) : Powered s u := by
  obtain ⟨p, rfl⟩ := h
  obtain ⟨p', rfl⟩ := g
  exact ⟨p', rfl⟩

theorem modPower_powered (s : State) (f : Power → Power) : Powered s (s.modPower f) := ⟨f s.power, rfl⟩

/-- t differs from s in the power part and the news alone. -/
def Governed (s t : State) : Prop :=
  ∃ p l a b, t = { s with power := p, log := l, portA := { s.portA with irqStat := a }, portB := { s.portB with irqStat := b } }

theorem Powered.governed {s t : State} (h : Powered s t) : Governed s t := by
  obtain ⟨p, rfl⟩ := h
  exact ⟨p, s.log, s.portA.irqStat, s.portB.irqStat, rfl⟩

theorem News.governed {s t : State} (h : News s t) : Governed s t := by
  obtain ⟨l, a, b, rfl⟩ := h
  exact ⟨s.power, l, a, b, rfl⟩

theorem Governed.refl (s : State) : Governed s s := (Powered.refl s).governed

theorem Governed.trans {s t u : State} (h : Governed s t) (g : Governed t u) : Governed s u := by
  obtain ⟨p, l, a, b, rfl⟩ := h
  obtain ⟨p', l', a', b', rfl⟩ := g
  exact ⟨p', l', a', b', rfl⟩

theorem refuseUnit_governed (u : GovUnit) (charge : Nat) (s : State) : Governed s (refuseUnit u charge s) :=
  (modPower_powered s _).governed.trans ((raise_news _ _ _ _).trans (irqSlot_news _ _ _)).governed

theorem refuseWaiting_governed (s : State) : Governed s (refuseWaiting s) := by
  unfold refuseWaiting
  dsimp only
  split
  · exact .refl s
  · exact Governed.trans (modPower_powered s _).governed
      (foldl_induction Governed.refl Governed.trans _ _ (fun _ _ => refuseUnit_governed _ _ _) _)

/-- An admission decision changes the power part, and by what it refuses the news, alone. -/
theorem serveGov_governed (s : State) : Governed s (serveGov s) := by
  unfold serveGov
  dsimp only
  exact (refuseWaiting_governed s).trans (modPower_powered _ _).governed

theorem releaseUnit_governed (u : GovUnit) (s : State) : Governed s (releaseUnit u s) :=
  (modPower_powered s _).governed.trans (serveGov_governed _)

theorem startDomain_powered (s : State) : Powered s (startDomain s) := by
  unfold startDomain
  split
  · exact .refl s
  · split
    · exact .refl s
    · exact modPower_powered s _

theorem wantDoms_powered (mask : BitVec 8) (s : State) : Powered s (wantDoms mask s) := (modPower_powered s _).trans (startDomain_powered _)

/-- A request for admission changes the governor's part, and by its refusal the news, alone. -/
theorem requestUnit_governed (u : GovUnit) (charge : Nat) (s : State) : Governed s (requestUnit u charge s) := by
  unfold requestUnit
  split
  · exact .refl s
  · split
    · exact refuseUnit_governed u charge s
    · exact (modPower_powered s _).governed.trans (serveGov_governed _)

/-- Serving the wait admits requests from its front, in order, each while the sum fits. -/
theorem serveList_append (ceil : Nat) (adm waiting : List GovReq) :
    ∃ served, waiting = served ++ (serveList ceil adm waiting).2 ∧ (serveList ceil adm waiting).1 = adm ++ served ∧
      (served ≠ [] → ((serveList ceil adm waiting).1.map (·.charge)).sum ≤ ceil) ∧
      ∀ r, (serveList ceil adm waiting).2.head? = some r → ceil < ((serveList ceil adm waiting).1.map (·.charge)).sum + r.charge := by
  induction waiting generalizing adm with
  | nil => exact ⟨[], by simp [serveList]⟩
  | cons r rest ih =>
    unfold serveList
    split
    · rename_i h
      obtain ⟨l, hl, ha, hs, hh⟩ := ih (adm ++ [r])
      refine ⟨r :: l, by rw [List.cons_append, ← hl], by rw [ha]; simp, fun _ => ?_, hh⟩
      by_cases hn : l = []
      · subst hn
        rw [ha]
        simpa using h
      · exact hs hn
    · rename_i h
      exact ⟨[], by simp, by simp, by simp, fun x hx => by simp at hx; subst hx; simpa using h⟩

/-! ## Isolation violations and malformed transactions -/

/-- A violation changes the slot's count, the capture and the news alone. -/
theorem violate_changes (n : Fin 8) (path : BitVec 4) (idx : Nat) (s : State) :
    ∃ l, News { s with
      tenants := upd s.tenants n fun t => { t with iso := satInc t.iso }
      lc := l } (violate n path idx s) := by
  unfold violate
  dsimp only
  split
  · exact ⟨s.lc, (raise_news _ _ _ _).trans (irqSlot_news _ _ _)⟩
  · exact ⟨{ s.lc with isoSlot := n, isoPath := path, isoIdx := BitVec.ofNat 16 idx, isoV := true },
      (raise_news _ _ _ _).trans (irqSlot_news _ _ _)⟩

/-! ## The gates of a register action -/

theorem atWindow_slot {p : Port} {off : Nat} {n : Fin 8} {s : State} (act : Fin 8 → State → State) (hw : s.portWorks = true)
    (hr : s.reach p off = .slot n) : atWindow p off act s = act n s := by
  simp [atWindow, hw, hr]

theorem atWindow_off {p : Port} {off : Nat} {s : State} (act : Fin 8 → State → State) (hw : s.portWorks = false) : atWindow p off act s = s := by
  simp [atWindow, hw]

theorem atWindow_closed {p : Port} {off : Nat} {s : State} (act : Fin 8 → State → State) (hw : s.portWorks = true)
    (hr : s.reach p off = .closed) : atWindow p off act s = malformed p malClosed (setupAddr p off) (s.clocksOf p 4) s := by
  simp [atWindow, hw, hr]

theorem atSlot0_zero {p : Port} {off : Nat} {s : State} (act : State → State) (hw : s.portWorks = true) (hr : s.reach p off = .slot 0) :
    atSlot0 p off act s = act s := by
  simp [atSlot0, atWindow_slot _ hw hr]

theorem atSlot0_other {p : Port} {off : Nat} {n : Fin 8} {s : State} (act : State → State) (hw : s.portWorks = true)
    (hr : s.reach p off = .slot n) (hn : n ≠ 0) : atSlot0 p off act s = violate n 7 off s := by
  simp [atSlot0, atWindow_slot _ hw hr, hn]

/-! ## Accepting writes -/

theorem drainOnce_nil (s : State) (h : s.mram.waitq = []) : drainOnce s = s := by
  obtain ⟨⟩ := s
  rename_i m _ _ _ _ _ _ _ _ _ _ _
  obtain ⟨⟩ := m
  simp_all [drainOnce, withoutStale, drainList, State.modMram]

/-- With nothing waiting there is nothing to accept. -/
theorem drainWait_nil (s : State) (h : s.mram.waitq = []) : drainWait s = s := by rw [drainWait, drainOnce_nil s h, drainOnce_nil s h]

/-- t differs from s in what the acceptance of writes reaches: the write path, its repairs, the engine, the ledger and interrupt bits. -/
def Accepts (s t : State) : Prop :=
  ∃ (m : Mram) (i : Integ) (e : Engine) (q : Sense) (a b : BitVec 9), t = { s with
    mram := { m with words := s.mram.words }, int := i, eng := e, sns := q
    portA := { s.portA with irqStat := a }, portB := { s.portB with irqStat := b } }

theorem Accepts.refl (s : State) : Accepts s s := ⟨s.mram, s.int, s.eng, s.sns, s.portA.irqStat, s.portB.irqStat, rfl⟩

theorem Accepts.trans {s t u : State} (h : Accepts s t) (g : Accepts t u) : Accepts s u := by
  obtain ⟨m, i, e, q, a, b, rfl⟩ := h
  obtain ⟨m', i', e', q', a', b', rfl⟩ := g
  exact ⟨m', i', e', q', a', b', rfl⟩

theorem accepts_mram (s : State) (f : Mram → Mram) (h : (f s.mram).words = s.mram.words) : Accepts s (s.modMram f) :=
  ⟨f s.mram, s.int, s.eng, s.sns, s.portA.irqStat, s.portB.irqStat, by rw [← h]; rfl⟩

theorem accepts_int (s : State) (f : Integ → Integ) : Accepts s (s.modInt f) :=
  ⟨s.mram, f s.int, s.eng, s.sns, s.portA.irqStat, s.portB.irqStat, rfl⟩

theorem accepts_eng (s : State) (f : Engine → Engine) : Accepts s (s.modEng f) :=
  ⟨s.mram, s.int, f s.eng, s.sns, s.portA.irqStat, s.portB.irqStat, rfl⟩

theorem accepts_charged {s t : State} (h : Charged s t) : Accepts s t := by
  obtain ⟨q, rfl⟩ := h
  exact ⟨s.mram, s.int, s.eng, q, s.portA.irqStat, s.portB.irqStat, rfl⟩

theorem accepts_irq (s : State) (p : Port) (i : Nat) : Accepts s (s.irq p i) := by
  cases p
  · exact ⟨s.mram, s.int, s.eng, s.sns, s.portA.irqStat ||| bitAt i true, s.portB.irqStat, rfl⟩
  · exact ⟨s.mram, s.int, s.eng, s.sns, s.portA.irqStat, s.portB.irqStat ||| bitAt i true, rfl⟩

theorem accepts_irqSlot (s : State) (n : Fin 8) (i : Nat) : Accepts s (s.irqSlot n i) :=
  each_induction Accepts.refl Accepts.trans _ _ (fun p s => by
    split
    · exact accepts_irq s p i
    · exact .refl s) s

theorem accepts_modArr (s : State) (a : Arr) (f : ArrSt → ArrSt) : Accepts s (s.modArr a f) := by
  cases a <;> exact accepts_mram s _ rfl

theorem queueCtx_accepts (r : Fin 512) (s : State) : Accepts s (queueCtx r s) := by
  unfold queueCtx
  split
  · exact (accepts_mram s _ rfl).trans (accepts_eng _ _)
  · exact .refl s

theorem modCtx_accepts (r : Fin 512) (f : RingCtx → RingCtx) (s : State) : Accepts s (modCtx r f s) := by
  unfold modCtx State.modRing
  exact accepts_eng s _

theorem setLlOk_accepts (r : Fin 512) (id : Nat) (ok : Bool) (s : State) : Accepts s (setLlOk r id ok s) := by
  unfold setLlOk
  dsimp only
  exact (accepts_eng s _).trans (modCtx_accepts _ _ _)

theorem settleLl_accepts (id : Nat) (s : State) : Accepts s (settleLl id s) := by
  unfold settleLl
  dsimp only
  exact Accepts.trans (accepts_eng s _) (foldl_induction Accepts.refl Accepts.trans _ _ (fun _ _ => setLlOk_accepts _ _ _ _) _)

theorem cancelRepairs_accepts (k : Nat) (s : State) : Accepts s (cancelRepairs k s) := (accepts_int s _).trans (accepts_mram _ _ rfl)

theorem opAccepted_accepts (id : Nat) (rec : Word128) (s : State) : Accepts s (opAccepted id rec s) := by
  unfold opAccepted
  split
  · exact .refl s
  · rename_i o _
    have h0 := (accepts_eng s fun e => { e with ops := e.ops.filter fun o => !decide (o.id = id) }).trans
      (accepts_eng _ fun e => { e with rings := upd e.rings o.ring fun r => settleRing { r with fetched := markDone o.index r.fetched } })
    have h1 : ∀ u, Accepts s u → Accepts s (if field rec 47 40 = 0x0C then u else u.chargeOp (slotOfRing o.ring)) := fun u hu => by
      split
      · exact hu
      · exact hu.trans (accepts_charged (chargeOp_charged _ _))
    have h2 : ∀ u, Accepts s u →
        Accepts s (settleLl id (if flag (o.desc.getD 0 0) 14 then u.irqSlot (slotOfRing o.ring) irqCmpl else u)) := fun u hu => by
      refine Accepts.trans ?_ (settleLl_accepts id _)
      split
      · exact hu.trans (accepts_irqSlot _ _ _)
      · exact hu
    have h3 : ∀ u : State, Accepts s u → Accepts s (if u.ringIdle o.ring then queueCtx o.ring u else u) := fun u hu => by
      split
      · exact hu.trans (queueCtx_accepts _ _)
      · exact hu
    exact h3 _ (h2 _ (h1 _ h0))

theorem place_accepts (e : WEntry) (s : State) : Accepts s (place e s) := by
  have ha : ∀ u, Accepts s u → Accepts s (afterAccept e u) := fun u hu => by
    unfold afterAccept
    split
    · exact hu.trans (opAccepted_accepts _ _ _)
    · exact hu
  have hb : ∀ u : State, Accepts s u → Accepts s (if u.mram.toQueue e.arr then u.modArr e.arr fun a => { a with queue := a.queue ++ [e] }
      else u.modMram fun m => { m with fhb := m.fhb ++ [e], fwords := satInc m.fwords }) := fun u hu => by
    split
    · exact hu.trans (accepts_modArr _ _ _)
    · exact hu.trans (accepts_mram _ _ rfl)
  unfold place
  apply ha
  apply hb
  split
  · exact cancelRepairs_accepts _ s
  · exact .refl s

theorem foldl_place_accepts (es : List WEntry) (s : State) : Accepts s (es.foldl (fun s e => place e s) s) := by
  induction es generalizing s with
  | nil => exact .refl s
  | cons e t ih => exact (place_accepts e s).trans (ih _)

theorem acceptAll_accepts {es : List WEntry} {s t : State} (h : acceptAll es s = some t) : Accepts s t := by
  unfold acceptAll at h
  dsimp only at h
  split at h
  · injection h with h
    exact h ▸ foldl_place_accepts es s
  · cases h

theorem drainList_accepts (l : List WEntry) (s : State) : Accepts s (drainList l s).1 := by
  induction l, s using drainList.induct with
  | case1 s => exact .refl s
  | case2 e s t h => simpa [drainList, h] using acceptAll_accepts h
  | case3 e s h => simpa [drainList, h] using Accepts.refl s
  | case4 e e' rest s hc t h ih => rw [drainList, if_pos hc, h]; exact (acceptAll_accepts h).trans ih
  | case5 e e' rest s hc h => rw [drainList, if_pos hc, h]; exact .refl s
  | case6 e e' rest s hc t h ih => rw [drainList, if_neg hc, h]; exact (acceptAll_accepts h).trans ih
  | case7 e e' rest s hc h => rw [drainList, if_neg hc, h]; exact .refl s

theorem drainOnce_accepts (s : State) : Accepts s (drainOnce s) := by
  unfold drainOnce
  dsimp only
  exact ((accepts_mram s _ rfl).trans (drainList_accepts _ _)).trans (accepts_mram _ _ rfl)

/-- Accepting what waits stores nothing: the stored words stay as they are. -/
theorem drainWait_accepts (s : State) : Accepts s (drainWait s) := (drainOnce_accepts s).trans (drainOnce_accepts _)

theorem issue_accepts (es : List WEntry) (s : State) : Accepts s (issue es s) := (accepts_mram s _ rfl).trans (drainWait_accepts _)

theorem haltRing_accepts (r : Fin 512) (cause : Nat) (at? : Option (BitVec 16)) (s : State) : Accepts s (haltRing r cause at? s) :=
  (((modCtx_accepts r _ s).trans (accepts_eng _ _)).trans (queueCtx_accepts r _)).trans (drainWait_accepts _)

end Sys2Proof.Machine
end

