-- ==== Sys2Proof/Laws/Swatch.lean ====
section
/-! SUPPORT. What a read finds in a stored word with no, one, two or three bits in error, and that the module's own checker passes every pattern of
Table INT-7. -/

namespace Sys2Proof.Machine

/-! ## Syndromes of single errors -/

/-- x times a remainder modulo g(x) of R191. -/
def nextSyn (s : Nat) : Nat := if s < 32768 then 2 * s else (2 * s % 65536) ^^^ 0x6F63

def synFrom : Nat → Nat → List Nat
  | 0, _ => []
  | n + 1, s => s :: synFrom n (nextSyn s)

/-- The syndromes of single errors as numbers: of the message bits, of the check bits, and none of the parity bit. -/
def synTable : List Nat := synFrom 130 0x6F63 ++ (List.range 16).map (1 <<< ·) ++ [0]

def synAt (i : Nat) : Nat := synTable.getD i 0

theorem synTable_eq : ((List.range 147).map fun i => (errSyndrome i).toNat) = synTable := by decide +kernel

theorem errSyndrome_toNat {i : Nat} (hi : i < 147) : (errSyndrome i).toNat = synAt i := by
  rw [synAt, ← synTable_eq, List.getD_eq_getElem?_getD, List.getElem?_map, List.getElem?_range hi]
  rfl

/-- The syndromes that one error has, as the bits of one number. -/
def errMap : Nat := synTable.foldl (fun m k => m ||| 1 <<< k) 0

theorem testBit_orShift (l : List Nat) (m k : Nat) :
    (l.foldl (fun m i => m ||| 1 <<< i) m).testBit k = (m.testBit k || l.any fun i => decide (i = k)) := by
  induction l generalizing m with
  | nil => simp
  | cons a t ih =>
    rw [List.foldl_cons, ih, List.any_cons, Nat.testBit_or, Nat.shiftLeft_eq, Nat.one_mul, Nat.testBit_two_pow, Bool.or_assoc]

/-- A syndrome that the map lacks is no single error's. -/
theorem oneError_none {s : BitVec 16} (h : errMap.testBit s.toNat = false) : oneError s = none := by
  unfold errMap at h
  rw [testBit_orShift, ← synTable_eq] at h
  simp only [Nat.zero_testBit, Bool.false_or, List.any_eq_false, decide_eq_true_eq, List.mem_map, forall_exists_index, and_imp,
    forall_apply_eq_imp_iff₂] at h
  unfold oneError
  rw [List.find?_eq_none]
  intro i hi he
  exact h i hi (congrArg BitVec.toNat (of_decide_eq_true he))

/-- The syndromes of single errors are distinct. -/
theorem errSyndrome_nodup : ((List.range 147).map fun i => (errSyndrome i).toNat).Nodup := by
  rw [synTable_eq]
  decide +kernel

theorem errSyndrome_ne {i j : Nat} (hi : i < 147) (hj : j < 147) (h : (errSyndrome i).toNat = (errSyndrome j).toNat) : i = j := by
  have hp := List.pairwise_iff_getElem.mp errSyndrome_nodup
  rcases Nat.lt_trichotomy i j with hl | he | hl
  · exact absurd (by rw [List.getElem_map, List.getElem_map]; simpa using h) (hp i j (by simpa using hi) (by simpa using hj) hl)
  · exact he
  · exact absurd (by rw [List.getElem_map, List.getElem_map]; simpa using h.symm) (hp j i (by simpa using hj) (by simpa using hi) hl)

theorem errSyndrome_inj {i j : Nat} (hi : i < 147) (hj : j < 147) (h : errSyndrome i = errSyndrome j) : i = j :=
  errSyndrome_ne hi hj (congrArg BitVec.toNat h)

/-- A single error is found at its bit. -/
theorem oneError_errSyndrome {i : Nat} (hi : i < 147) : oneError (errSyndrome i) = some i := by
  unfold oneError
  cases h : (List.range 147).find? fun k => errSyndrome k = errSyndrome i with
  | none => exact absurd (by simp) (List.find?_eq_none.mp h i (List.mem_range.mpr hi))
  | some k =>
    have hk := List.mem_range.mp (List.mem_of_find?_eq_some h)
    have he := List.find?_some h
    rw [errSyndrome_inj hk hi (of_decide_eq_true he)]

/-- Two errors are found at their bits, when none below the first leaves a single error's syndrome. -/
theorem twoErrors_pair {i j : Nat} (hj : j < 147) (hij : i < j)
    (h : (List.range i).all (fun k => !errMap.testBit (synAt i ^^^ synAt j ^^^ synAt k)) = true) :
    twoErrors (errSyndrome i ^^^ errSyndrome j) = some (i, j) := by
  have hx : errSyndrome i ^^^ errSyndrome j ^^^ errSyndrome i = errSyndrome j := by
    rw [BitVec.xor_comm (errSyndrome i), BitVec.xor_assoc, BitVec.xor_self, BitVec.xor_zero]
  have hr : List.range 147 = List.range i ++ i :: (List.range' (i + 1) (146 - i)) := by
    rw [List.range_eq_range', List.range_eq_range', ← List.range'_succ, show 146 - i + 1 = 147 - i by omega,
      show 147 = i + (147 - i) by omega, ← List.range'_append_1]
    simp
  unfold twoErrors
  rw [hr, List.findSome?_append]
  have h0 : (List.range i).findSome? (fun k => (oneError (errSyndrome i ^^^ errSyndrome j ^^^ errSyndrome k)).bind
      fun l => if k = l then none else some (k, l)) = none := by
    rw [List.findSome?_eq_none_iff]
    intro k hk
    have hk' := List.mem_range.mp hk
    rw [oneError_none (by
      rw [BitVec.toNat_xor, BitVec.toNat_xor, errSyndrome_toNat (by omega), errSyndrome_toNat hj, errSyndrome_toNat (by omega)]
      simpa using List.all_eq_true.mp h k hk)]
    rfl
  rw [h0, List.findSome?_cons, hx, oneError_errSyndrome hj]
  simp [show i ≠ j by omega]

/-- Three errors are seen as such, whatever others have the same syndrome. -/
theorem threeErrors_triple {i j k : Nat} (hi : i < 147) (hj : j < 147) (hk : k < 147) (hjk : j ≠ k) :
    threeErrors (errSyndrome i ^^^ errSyndrome j ^^^ errSyndrome k) = true := by
  have h1 : errSyndrome i ^^^ errSyndrome j ^^^ errSyndrome k ^^^ errSyndrome i ^^^ errSyndrome j = errSyndrome k := by
    generalize errSyndrome i = x, errSyndrome j = y, errSyndrome k = z
    ext n hn
    simp only [BitVec.getElem_xor]
    cases x[n] <;> cases y[n] <;> cases z[n] <;> rfl
  unfold threeErrors
  rw [List.any_eq_true]
  refine ⟨i, List.mem_range.mpr hi, ?_⟩
  unfold twoErrors
  rw [List.isSome_findSome?, List.any_eq_true]
  refine ⟨j, List.mem_range.mpr hj, ?_⟩
  rw [h1, oneError_errSyndrome hk]
  simp [hjk]

/-! ## Reads of damaged words (R192) -/

theorem readRaw_clean {r : Raw147} (hp : parity r 147 = false) (hs : bchSyndrome r = 0) : readRaw r = readStateBits (r.setWidth 130) false := by
  simp [readRaw, decodeRaw, hp, hs]

theorem readRaw_one {r : Raw147} {i : Nat} (hi : i < 147) (hp : parity r 147 = true) (hs : bchSyndrome r = errSyndrome i) :
    readRaw r = readStateBits ((r ^^^ bitAt i true).setWidth 130) true := by
  simp [readRaw, decodeRaw, hp, hs, oneError_errSyndrome hi]

theorem readRaw_two {r : Raw147} {i j : Nat} (hp : parity r 147 = false) (h0 : bchSyndrome r ≠ 0) (hs : twoErrors (bchSyndrome r) = some (i, j)) :
    readRaw r = readStateBits ((r ^^^ bitAt i true ^^^ bitAt j true).setWidth 130) true := by
  unfold readRaw decodeRaw
  rw [if_neg (by simp [hp]), if_neg h0, hs]

theorem readRaw_three {r : Raw147} (hp : parity r 147 = true) (h1 : oneError (bchSyndrome r) = none) (h3 : threeErrors (bchSyndrome r) = true) :
    readRaw r = .unc .check := by
  simp [readRaw, decodeRaw, hp, h1, h3]

/-! ## The patterns of Table INT-7 -/

/-- What the checker computes of a word without an error. -/
def cleanOk (r : Raw147) (w : WordRead) : Bool :=
  !parity r 147 && decide (bchSyndrome r = 0) && decide (readStateBits (r.setWidth 130) false = w)

theorem cleanOk_read {r : Raw147} {w : WordRead} (h : cleanOk r w = true) : readRaw r = w := by
  simp only [cleanOk, Bool.and_eq_true, Bool.not_eq_true', decide_eq_true_eq] at h
  rw [readRaw_clean h.1.1 h.1.2, h.2]

/-- Of the word with bit i in error. -/
def oneOk (i : Nat) : Bool :=
  let r := flipped (encodeData swatchFives) [i]
  parity r 147 && decide ((bchSyndrome r).toNat = synAt i) &&
    decide (readStateBits ((r ^^^ bitAt i true).setWidth 130) true = .data swatchFives true)

theorem oneOk_read {i : Nat} (hi : i < 147) (h : oneOk i = true) : readRaw (flipped (encodeData swatchFives) [i]) = .data swatchFives true := by
  simp only [oneOk, Bool.and_eq_true, decide_eq_true_eq] at h
  rw [readRaw_one hi h.1.1 (BitVec.eq_of_toNat_eq (h.1.2.trans (errSyndrome_toNat hi).symm)), h.2]

/-- Of the word with bits i and j in error. -/
def twoOk (i j : Nat) : Bool :=
  let r := flipped (encodeData swatchFives) [i, j]
  !parity r 147 && decide ((bchSyndrome r).toNat = synAt i ^^^ synAt j) && decide (synAt i ^^^ synAt j ≠ 0) &&
    ((List.range i).all fun k => !errMap.testBit (synAt i ^^^ synAt j ^^^ synAt k)) &&
    decide (readStateBits ((r ^^^ bitAt i true ^^^ bitAt j true).setWidth 130) true = .data swatchFives true)

theorem twoOk_read {i j : Nat} (hj : j < 147) (hij : i < j) (h : twoOk i j = true) :
    readRaw (flipped (encodeData swatchFives) [i, j]) = .data swatchFives true := by
  simp only [twoOk, Bool.and_eq_true, Bool.not_eq_true', decide_eq_true_eq] at h
  obtain ⟨⟨⟨⟨hp, hs⟩, h0⟩, ha⟩, hd⟩ := h
  have he : bchSyndrome _ = errSyndrome i ^^^ errSyndrome j := BitVec.eq_of_toNat_eq (by
    rw [hs, BitVec.toNat_xor, errSyndrome_toNat (by omega), errSyndrome_toNat hj])
  rw [readRaw_two hp (fun h => h0 (hs ▸ congrArg BitVec.toNat h)) (he ▸ twoErrors_pair hj hij ha), hd]

/-- Of the word with bits i, j and k in error. -/
def threeOk (i j k : Nat) : Bool :=
  let r := flipped (encodeData swatchFives) [i, j, k]
  parity r 147 && decide ((bchSyndrome r).toNat = synAt i ^^^ synAt j ^^^ synAt k) && !errMap.testBit (synAt i ^^^ synAt j ^^^ synAt k)

theorem threeOk_read {i j k : Nat} (hi : i < 147) (hj : j < 147) (hk : k < 147) (hjk : j ≠ k) (h : threeOk i j k = true) :
    readRaw (flipped (encodeData swatchFives) [i, j, k]) = .unc .check := by
  simp only [threeOk, Bool.and_eq_true, Bool.not_eq_true', decide_eq_true_eq] at h
  obtain ⟨⟨hp, hs⟩, hn⟩ := h
  have he : bchSyndrome _ = errSyndrome i ^^^ errSyndrome j ^^^ errSyndrome k := BitVec.eq_of_toNat_eq (by
    rw [hs, BitVec.toNat_xor, BitVec.toNat_xor, errSyndrome_toNat hi, errSyndrome_toNat hj, errSyndrome_toNat hk])
  exact readRaw_three hp (oneError_none (hs ▸ hn)) (he ▸ threeErrors_triple hi hj hk hjk)

theorem one_all : (List.range 147).all oneOk = true := by decide +kernel
theorem two_all : (List.range 73).all (fun i => twoOk i (146 - i)) = true := by decide +kernel
theorem three_all : (List.range 49).all (fun i => threeOk i (i + 49) (i + 98)) = true := by decide +kernel
theorem six_two : twoOk 3 140 = true := by decide +kernel
theorem six_three : threeOk 3 70 140 = true := by decide +kernel
theorem fives_clean : cleanOk (encodeData swatchFives) (.data swatchFives false) = true := by decide +kernel
theorem tens_clean : cleanOk (encodeData swatchTens) (.data swatchTens false) = true := by decide +kernel
theorem zeros_clean : cleanOk (encodeData 0) (.data 0 false) = true := by decide +kernel
theorem ones_clean : cleanOk (encodeData (BitVec.allOnes 128)) (.data (BitVec.allOnes 128) false) = true := by decide +kernel
theorem blank_clean : cleanOk blankRaw (.blank false) = true := by decide +kernel
theorem state0_clean : cleanOk (stateWord 0) (.unc .indeterminate) = true := by decide +kernel
theorem state3_clean : cleanOk (stateWord 3) (.unc .indeterminate) = true := by decide +kernel

/-- Each pattern reads as its group expects. -/
theorem swatchWords_read (g i : Nat) (r : Raw147) (h : (swatchWords g)[i]? = some r) (hg : 1 ≤ g ∧ g ≤ 6) : readRaw r = swatchExpect g i := by
  obtain ⟨h1, h6⟩ := hg
  have cases6 : g = 1 ∨ g = 2 ∨ g = 3 ∨ g = 4 ∨ g = 5 ∨ g = 6 := by omega
  rcases cases6 with rfl | rfl | rfl | rfl | rfl | rfl
  · obtain _ | _ | _ | _ | i := i
    · obtain rfl : encodeData 0 = r := Option.some.inj h; exact cleanOk_read zeros_clean
    · obtain rfl : encodeData (BitVec.allOnes 128) = r := Option.some.inj h; exact cleanOk_read ones_clean
    · obtain rfl : encodeData swatchFives = r := Option.some.inj h; exact cleanOk_read fives_clean
    · obtain rfl : encodeData swatchTens = r := Option.some.inj h; exact cleanOk_read tens_clean
    · simp [swatchWords] at h
  · obtain ⟨_, ⟨hi, rfl⟩, rfl⟩ : ∃ a, (i < 147 ∧ i = a) ∧ flipped (encodeData swatchFives) [a] = r := by simpa [swatchWords, List.getElem?_eq_some_iff] using h
    exact oneOk_read hi (List.all_eq_true.mp one_all i (List.mem_range.mpr hi))
  · obtain ⟨_, ⟨hi, rfl⟩, rfl⟩ : ∃ a, (i < 73 ∧ i = a) ∧ flipped (encodeData swatchFives) [a, 146 - a] = r := by simpa [swatchWords, List.getElem?_eq_some_iff] using h
    exact twoOk_read (by omega) (by omega) (List.all_eq_true.mp two_all i (List.mem_range.mpr hi))
  · obtain ⟨_, ⟨hi, rfl⟩, rfl⟩ : ∃ a, (i < 49 ∧ i = a) ∧ flipped (encodeData swatchFives) [a, a + 49, a + 98] = r := by
      simpa [swatchWords, List.getElem?_eq_some_iff] using h
    exact threeOk_read (by omega) (by omega) (by omega) (by omega) (List.all_eq_true.mp three_all i (List.mem_range.mpr hi))
  · obtain _ | _ | _ | i := i
    · obtain rfl : blankRaw = r := Option.some.inj h; exact cleanOk_read blank_clean
    · obtain rfl : stateWord 0 = r := Option.some.inj h; exact cleanOk_read state0_clean
    · obtain rfl : stateWord 3 = r := Option.some.inj h; exact cleanOk_read state3_clean
    · simp [swatchWords] at h
  · obtain _ | _ | _ | _ | i := i
    · obtain rfl : encodeData swatchFives = r := Option.some.inj h; exact cleanOk_read fives_clean
    · obtain rfl : encodeData swatchTens = r := Option.some.inj h; exact cleanOk_read tens_clean
    · obtain rfl : flipped (encodeData swatchFives) [3, 140] = r := Option.some.inj h; exact twoOk_read (by decide) (by decide) six_two
    · obtain rfl : flipped (encodeData swatchFives) [3, 70, 140] = r := Option.some.inj h; exact threeOk_read (by decide) (by decide) (by decide) (by decide) six_three
    · simp [swatchWords, swatchRaws] at h

/-- The module's own checker passes every pattern: only a fault of the hardware fails a swatch. -/
theorem swatchLogic_none : swatchLogic = none := by
  unfold swatchLogic
  rw [List.findSome?_eq_none_iff]
  intro g hg
  rw [Option.map_eq_none_iff, List.find?_eq_none]
  rintro ⟨r, i⟩ hx
  have h := List.mem_zipIdx_iff_getElem?.mp hx
  simp only [List.mem_cons, List.not_mem_nil, or_false] at hg
  simp [swatchWords_read g i r h (by omega)]

theorem swatchOutcome_none (unit : Nat) : swatchOutcome none unit = none := by rw [swatchOutcome, swatchLogic_none]; rfl

end Sys2Proof.Machine
end

