-- ==== Sys2Proof/Laws/Write.lean ====
section
/-! SUPPORT. A write of one word, from its issue to its storing: it reads back at once, no other word changes what it reads as, and the
stored words change only when it is stored (R198, R199, R207). -/

namespace Sys2Proof.Machine

/-- Every word in the field hold buffer waits for the array that its key lies in. -/
def OwnArrays (s : State) : Prop := ∀ e ∈ s.mram.fhb, ∀ j x b, e.tgt = .word j x b → e.arr = keyArr j

theorem targetAt_other {i k : Nat} {d : Word128} {b : Bool} (h : i ≠ k) : targetAt i (.word k d b) = none := by
  simp [targetAt, h.symm]

/-- In a buffer with no entry of the key's array, no entry is of the key. -/
theorem fhb_none {s : State} {k : Nat} (hf : OwnArrays s) (h : s.mram.fhbFor (keyArr k) = false) :
    (s.mram.fhb.reverse.findSome? fun e => targetAt k e.tgt) = none := by
  rw [List.findSome?_eq_none_iff]
  intro e he
  have he : e ∈ s.mram.fhb := by simpa using he
  have ha : e.arr ≠ keyArr k := by
    simp only [Mram.fhbFor, List.any_eq_false, decide_eq_true_eq] at h
    exact h e he
  cases ht : e.tgt with
  | word j x b =>
    have hk : j ≠ k := by
      rintro rfl
      exact ha (hf e he j x b ht)
    simp [targetAt, hk]
  | sys i => rfl

/-- Where a write of a word is put, but for what its acceptance brings about. -/
theorem place_word {e : WEntry} {k : Nat} {d : Word128} {b : Bool} (he : e.tgt = .word k d b) (ho : e.opDone = none) (s : State) :
    place e s =
      (if s.mram.toQueue e.arr then fun s : State => s.modArr e.arr fun a => { a with queue := a.queue ++ [e] }
        else fun s : State => s.modMram fun m => { m with fhb := m.fhb ++ [e], fwords := satInc m.fwords })
      (cancelRepairs k s) := by
  unfold place afterAccept
  rw [ho, he]
  rw [show s.mram.toQueue e.arr = (cancelRepairs k s).mram.toQueue e.arr from rfl]
  dsimp only
  split <;> rfl

theorem modArr_arr (s : State) (a : Arr) (f : ArrSt → ArrSt) : (s.modArr a f).mram.arr a = f (s.mram.arr a) := by cases a <;> rfl

theorem modArr_other (s : State) {a c : Arr} (f : ArrSt → ArrSt) (h : c ≠ a) : (s.modArr a f).mram.arr c = s.mram.arr c := by
  cases a <;> cases c <;> first | rfl | exact absurd rfl h

theorem modArr_fhb (s : State) (a : Arr) (f : ArrSt → ArrSt) : (s.modArr a f).mram.fhb = s.mram.fhb := by cases a <;> rfl

theorem modArr_stored (s : State) (a : Arr) (f : ArrSt → ArrSt) (k : Nat) : (s.modArr a f).stored k = s.stored k := by cases a <;> rfl

/-- An accepted word reads back at once. -/
theorem readKey_place_same {e : WEntry} {k : Nat} {d : Word128} {b : Bool} (he : e.tgt = .word k d b) (ha : e.arr = keyArr k)
    (ho : e.opDone = none) (s : State) (hf : OwnArrays s) :
    (place e s).readKey k = if b then .blank false else .data d false := by
  rw [place_word he ho]
  by_cases hq : s.mram.toQueue e.arr = true
  · rw [if_pos hq]
    unfold State.readKey State.pendingAt
    have hn : s.mram.fhbFor (keyArr k) = false := by
      simp only [Mram.toQueue, Bool.and_eq_true, Bool.not_eq_true'] at hq
      rw [← ha]
      exact hq.2
    rw [modArr_fhb, ha, modArr_arr]
    have hnone := fhb_none hf hn
    rw [show (cancelRepairs k s).mram.fhb = s.mram.fhb from rfl, hnone]
    simp [he, targetAt]
  · rw [if_neg hq]
    simp [State.readKey, State.pendingAt, State.modMram, he, targetAt]

/-- Accepting a word changes what no other word reads as. -/
theorem readKey_place_other {e : WEntry} {k i : Nat} {d : Word128} {b : Bool} (he : e.tgt = .word k d b) (ho : e.opDone = none) (s : State)
    (h : i ≠ k) : (place e s).readKey i = s.readKey i := by
  rw [place_word he ho]
  by_cases hq : s.mram.toQueue e.arr = true
  · rw [if_pos hq]
    unfold State.readKey State.pendingAt
    rw [modArr_fhb, modArr_stored]
    by_cases hc : keyArr i = e.arr
    · rw [hc, modArr_arr]
      simp [cancelRepairs, State.modMram, State.modInt, he, targetAt_other h, State.stored, Mram.arr]
    · rw [modArr_other _ _ hc]
      simp [cancelRepairs, State.modMram, State.modInt, State.stored, Mram.arr]
  · rw [if_neg hq]
    simp only [State.readKey, State.pendingAt, cancelRepairs, State.modMram, State.modInt, List.reverse_append, List.reverse_cons, List.reverse_nil,
      List.nil_append, List.cons_append, List.findSome?_cons, he, targetAt_other h]
    rfl

/-- A write issued while nothing waits and the buffer has room is accepted at once. -/
theorem issue_one {e : WEntry} {k : Nat} {d : Word128} {b : Bool} (he : e.tgt = .word k d b) (ho : e.opDone = none) (s : State)
    (hw : s.mram.waitq = []) (hroom : s.mram.fhb.length < 256) : issue [e] s = place e s := by
  have hacc : acceptAll [e] s = some (place e s) := by
    unfold acceptAll Mram.canAccept Mram.fhbNeed
    cases hq : e.arr <;> simp [hq] <;> (repeat' split) <;> omega
  have hpw : (place e s).mram.waitq = [] := by
    rw [place_word he ho]
    split
    · cases e.arr <;> simp [cancelRepairs, hw, State.modArr, State.modMram, State.modInt]
    · simp [cancelRepairs, hw, State.modMram, State.modInt]
  have h1 : drainOnce (s.modMram fun m => { m with waitq := m.waitq ++ [e] }) = place e s := by
    have hs : ((s.modMram fun m => { m with waitq := m.waitq ++ [e] }).modMram fun m => { m with waitq := [] }) = s := by
      obtain ⟨⟩ := s
      rename_i m _ _ _ _ _ _ _ _ _ _ _
      obtain ⟨⟩ := m
      simp_all [State.modMram]
    have hq : (s.modMram fun m => { m with waitq := m.waitq ++ [e] }).mram.waitq = [e] := by simp [State.modMram, hw]
    unfold drainOnce
    have hst : withoutStale [e] = [e] := by
      cases hwr : e.writer <;> simp [withoutStale, hwr]
    rw [hs, hq, hst]
    simp only [drainList, hacc]
    rfl
  unfold issue drainWait
  rw [h1, drainOnce_nil _ hpw]

end Sys2Proof.Machine
end

