-- ==== Sys2Proof/WellFormed.lean ====
section
/-! DEFINITION. Which commands the outside world can send: the bounds the manual puts on an operand that its type does not.  The meanings
are total and do not rest on it. -/

namespace Sys2Proof

/-- Data of a received frame: 24 data subcarriers (R249), four gauge symbols (R252), at most four bits a subcarrier (R250). -/
def RxFrame.ok (f : RxFrame) : Bool :=
  f.gauge.length ≤ 24 && (f.gauge.all fun g => g.length ≤ 4) && f.header.length ≤ 24 &&
    f.soft.all fun sym => sym.length ≤ 24 && sym.all fun x => x.length ≤ 4

/-- A field axis fits its 16-bit register field (Table SNS-7). -/
def axisOk (x : Int) : Bool := -32768 ≤ x && x ≤ 32767

/-- Port B data: at least the bytes that the data edges of the command carried, up to its length (R106). -/
def dataOk (len : BitVec 16) (data : List Byte) (edges : Nat) : Bool := min len.toNat ((edges - 56) / 8) ≤ data.length

/-- A command the outside world can send. -/
def Instr.ok : Instr → Bool
  | .paRead _ len _ => 0 < len
  | .paWrite _ _ extraBits => extraBits < 8
  | .pbRegWrite _ len data edges | .pbMemWrite _ len data edges | .pbDoorbell _ len data edges | .pbSkeinPush _ len data edges =>
    dataOk len data edges
  | .fieldSample x y z => axisOk x && axisOk y && axisOk z
  | .storeExhausted step => step ≠ 0
  | .beacon f | .dataFrame f | .ackFrame f | .wakeFrame f | .assocRsp f | .slotAssign f | .tonemap f | .tonemapReq f | .leave f
  | .nbAdd f | .nbDel f | .hdrBad f | .lenBad f | .formatFail f => f.ok
  | _ => true

end Sys2Proof
end

