-- ==== Sys2Proof/Tests/Slice0.lean ====
section
/-! SUPPORT. Tests: an ill-formed command for each check of WellFormed, states and operands that meet the hypotheses of each statement's
clauses together, and small tests of one command each against the manual's own numbers. -/

namespace Sys2Proof.Tests

set_option Elab.async false

open Sys2Proof Sys2Proof.Machine

/-! ## The checks of WellFormed refuse -/

/-- A received frame with nothing in it. -/
def noFrame : RxFrame :=
  { gauge := [], header := [], soft := [], ties := 0, legacy := [], rssi := 0, cfo := 0, afterTxUs := 0 }

theorem test_ok_nop : Instr.ok (.nop 0) = true := by decide
theorem test_bad_read_of_nothing : Instr.ok (.paRead 0 0 false) = false := by decide
theorem test_bad_extra_bits : Instr.ok (.paWrite 0 [] 8) = false := by decide
theorem test_bad_short_data : Instr.ok (.pbRegWrite 0x100 4 [0] 88) = false := by decide
theorem test_bad_axis : Instr.ok (.fieldSample 0 32768 0) = false := by decide
theorem test_bad_step : Instr.ok (.storeExhausted 0) = false := by decide
theorem test_bad_gauge : Instr.ok (.beacon { noFrame with gauge := List.replicate 25 [] }) = false := by decide
theorem test_bad_gauge_symbol : Instr.ok (.dataFrame { noFrame with gauge := [List.replicate 5 (0, 0)] }) = false := by decide
theorem test_bad_header : Instr.ok (.hdrBad { noFrame with header := List.replicate 25 0 }) = false := by decide
theorem test_bad_symbol : Instr.ok (.wakeFrame { noFrame with soft := [List.replicate 25 []] }) = false := by decide
theorem test_bad_bits : Instr.ok (.leave { noFrame with soft := [[List.replicate 5 0]] }) = false := by decide
theorem test_good_frame : Instr.ok (.beacon noFrame) = true := by decide


/-! ## Small states -/

/-- An owned slot with one granule, whose seal is the zero key. -/
def owned : Tenant := { Tenant.reset with st := .owned, owner := 1, granules := 1, sealCheck := 0x3B2C8AEFD44BE966 }

/-- Five domains and the radio on, ENG admitted, nothing to do. -/
def onPower : Power := { Power.reset with
  supply := .holding, begun := true, storeOk := true, vioOk := true, domOn := 0xFF, domWant := 0xFF, tcxoOk := true
  admitted := [{ u := .eng, charge := 24 }] }

/-- In RUN, both ports open on slot n; slots 0, 1 and 2 are owned and hold granules 0, 1 and 2 at position 0 of their windows. -/
def runOn (n : Fin 8) : State := { State.reset with
  power := onPower, life := { Life.reset with state := .run, step := 12, aonIntact := true, restored := true }
  portA := { PortSt.reset 0 with open? := some n }, portB := { PortSt.reset 0 with open? := some n, rdy := true }
  tenants := #v[owned, owned, owned, Tenant.reset, Tenant.reset, Tenant.reset, Tenant.reset, Tenant.reset]
  keys := Vector.ofFn fun k => if k = 3 || k = 7 || k = 11 then { Key.reset with st := .active } else Key.reset
  mram := { Mram.reset with part := Vector.ofFn fun g => if g.val < 3 then
    { owner := BitVec.ofNat 4 g.val, pos := 0, zeroFill := true, st := .inUse } else PartEntry.reset } }

def run0 : State := runOn 0
def run1 : State := runOn 1

/-- A needle held by a port for its slot. -/
def held (p : Port) (n : Fin 8) : Needle := { Needle.reset with holder := some (p, n), port := p, orphaned := false, gen := 1, remain := 100 }

/-- A cast-on that finds nothing amiss. -/
def fairEnv : CastOnEnv := { vbat := 3600, temp := 20, tcxoOk := true, domainFail := none, strap := false, swatch := none, fieldOk := true, us := 9000 }

/-- A charged module before cast-on. -/
def charged : State := { State.reset with power := { Power.reset with supply := .holding, storeOk := true, vbat := 3600, vioOk := true } }

theorem test_seal_is_checked : run1.sealOk 1 = true := by decide +kernel
theorem test_window_of_slot_1 : run1.windowKey 1 4095 = some 8191 ∧ run1.windowKey 1 4096 = none := by decide +kernel

/-! ## The hypotheses of the statements are met: needles, windows -/

theorem hyp_needle_free : Reached .a (ndlOff 7) 1 run1 ∧ slotOfNeedle 7 = 1 ∧ run1.needles[(7 : Fin 32)].holder = none := by
  unfold Reached; decide +kernel

theorem hyp_needle_held : let s := { run1 with needles := run1.needles.set 4 (held .a 1) }
    Reached .a (ndlOff 4) 1 s ∧ Reached .b (ndlOff 4) 1 s ∧ slotOfNeedle 4 = 1 ∧ s.needles[(4 : Fin 32)].remain ≠ 0 ∧
      s.needles[(4 : Fin 32)].holder = some (.a, 1) ∧ s.needles[(4 : Fin 32)].holder ≠ some (.b, 1) ∧ (s.port .a).open? = some 1 ∧
      s.needles[(5 : Fin 32)].holder ≠ some (.a, 1) := by
  unfold Reached; decide +kernel

/-- The holder's lease has just run out; it runs out at the next tick. -/
theorem hyp_needle_ends : let s := { run1 with needles := run1.needles.set 4 { held .a 1 with holder := none, remain := 0, lapsed := some (.a, 1) } }
    Reached .a (ndlOff 4) 1 s ∧ s.needles[(4 : Fin 32)].lapsed = some (.a, 1) ∧ (held .a 1).lapsed ≠ some (.a, 1) ∧
      ({ held .a 1 with remain := 1 } : Needle).remain.toNat ≤ 1 ∧ 1 < (held .a 1).remain.toNat := by
  unfold Reached; decide +kernel

/-- Slot 2 has an opening key, and no code is written. -/
theorem hyp_open_code : let s := { run1 with keys := run1.keys.set 8 { Key.reset with st := .active, use := usePortOpen } }
    s.portWorks = true ∧ s.running = true ∧ (s.port .b).openWait = none ∧ (s.port .b).locked = false ∧ s.tenants[(2 : Fin 8)].owned = true ∧
      s.keylessSlot 2 = false ∧ s.openCodeOk .b 2 = false := by decide +kernel

theorem hyp_open : run1.portWorks = true ∧ run1.running = true ∧ (run1.port .a).openWait = none ∧ (run1.port .a).locked = false ∧
    run1.tenants[(2 : Fin 8)].owned = true ∧ run1.keylessSlot 2 = true := by decide +kernel

theorem hyp_open_slot_0_free : let s := { run0 with tenants := run0.tenants.set 0 Tenant.reset }
    s.tenants[(0 : Fin 8)].st = .free ∧ s.keylessSlot 0 = true ∧ s.portWorks = true := by decide +kernel

theorem hyp_open_locked : let s := run1.modPort .b fun q => { q with locked := true, failRun := 15 }
    s.portWorks = true ∧ s.running = true ∧ (s.port .b).openWait = none ∧ (s.port .b).locked = true := by decide +kernel

/-! ## Insertion, cast-on, stops -/

theorem hyp_power_on : State.reset.power.supply = .por ∧ 1900 ≤ 1900 ∧ 1899 < 1900 := by decide

theorem hyp_charging : { State.reset with power := { Power.reset with supply := .charging } }.power.supply = .charging := by decide

theorem hyp_store_fail : charged.preCast = true ∧ charged.life.valid = false := by decide

theorem hyp_domain_fail : let s := { run0 with power := { onPower with domStart := some 7 } }
    s.power.domStart = some 7 ∧ s.life.valid = false := by decide

theorem hyp_cast_on : charged.revOk = true ∧ charged.castDue = true ∧ charged.life.state ≠ .halt ∧ charged.power.vioOk = true ∧
    charged.lostTable = none ∧ fairEnv.tcxoOk = true ∧ fairEnv.domainFail = none ∧ fairEnv.swatch = none := by decide

theorem hyp_cast_on_waits : let s := { charged with power := { charged.power with vioOk := false } }
    s.revOk = true ∧ s.castDue = true ∧ s.life.state ≠ .halt ∧ s.power.vioOk = false := by decide

theorem hyp_cast_on_after_vio : let s := { charged with power := { charged.power with vioOk := false, waitVio := some fairEnv, begun := true, tcxoOk := true } }
    s.revOk = true ∧ s.lostTable = none ∧ s.power.waitVio = some fairEnv ∧ s.power.begun = true ∧ s.power.tcxoOk = true := by decide

theorem hyp_halt_retry : let s := { charged with life := { Life.reset with state := .halt, mask := 4, retry := true } }
    s.revOk = true ∧ s.power.vioOk = true ∧ s.lostTable = none ∧ s.life.retry = true ∧ s.life.mask ≠ 0 := by decide

theorem hyp_triggers : run0.power.begun = true ∧ run0.power.trigger = none ∧ charged.power.begun = false ∧ charged.power.recasting = false ∧
    charged.preCast = true := by decide

theorem hyp_trigger_filter : { run0 with power := { onPower with ebFilter := true } }.power.ebFilter = true ∧
    { run0 with power := { onPower with trigger := some .earlyBreak } }.power.trigger ≠ none := by decide

theorem hyp_bind_off : let s := { run0 with power := { onPower with trigger := some .supplyLoss } }
    s.bindDue = true ∧ s.power.recasting = false := by decide

theorem hyp_bleed : { State.reset with power := { Power.reset with supply := .bleeding } }.power.supply = .bleeding := by decide

theorem hyp_vio : run0.domOn 1 = true ∧ run0.power.waitVio = none ∧
    (let s := { run0 with power := { onPower with vioOk := false, domOn := 0xFD } }
     s.power.waitVio = none ∧ s.domOn 0 = true ∧ s.domOn 1 = false ∧ s.power.domWant.getLsbD 1 = true ∧ s.power.domStart = none ∧
       s.power.tcxoOk = true) := by decide

theorem hyp_domains : { run0 with power := { onPower with domStart := some 1 } }.power.domStart = some 1 ∧
    { run0 with power := { onPower with tcxoCheck := true } }.power.tcxoCheck = true ∧ run0.power.tcxoCheck = false := by decide

theorem no_ring_enabled (n : Fin 8) (r : Fin 512) : ((runOn n).ring r).ctx.en = false := by
  simp [runOn, State.ring, State.reset, Engine.reset, Ring.reset, RingCtx.reset]

theorem nothing_to_fetch (n : Fin 8) : (runOn n).chooseRing = none := by
  have h : ∀ r, (runOn n).fetchable r = none := fun r => by simp [State.fetchable, no_ring_enabled]
  simp [State.chooseRing, h]

theorem hyp_sleep : run0.maySleep = true ∧ { run0 with power := { onPower with asleep := true } }.maySleep = false := by
  have h : run0.chooseRing = none := nothing_to_fetch 0
  refine ⟨?_, rfl⟩
  unfold State.maySleep State.storesIdle
  rw [h]
  decide +kernel

theorem hyp_asleep : let s := { run0 with power := { onPower with asleep := true, domOn := 1, calOpen := true } }
    s.power.asleep = true ∧ s.domOn 1 = false ∧ s.power.vioOk = true ∧ s.running = true ∧ s.power.calOpen = true := by decide

/-- Admission: TALLY fits beside ENG; does not fit once RFTX at its highest row is admitted under a low ceiling; cannot fit at 8 mA. -/
theorem hyp_governor :
    (run0.power.tcxoOk = true ∧ run0.phy.tx = none ∧ run0.power.isAdmitted .tally = false ∧ run0.power.waiting = [] ∧
      run0.power.admittedSum + 90 ≤ run0.ceiling ∧ 90 + 24 ≤ run0.ceiling) ∧
    (let s := { run0 with power := { onPower with peakCeil := 0x602, admitted := [{ u := .eng, charge := 24 }, { u := .rftx, charge := 90 }] } }
     s.power.isAdmitted .tally = false ∧ s.ceiling < s.power.admittedSum + 90 ∧ 90 + 24 ≤ s.ceiling) ∧
    (let s := { run0 with power := { onPower with peakCeil := 0x600 } }
     s.ceiling < 90 + 24 ∧ s.power.isAdmitted .tally = false) := by decide +kernel

/-- The receiver's charge goes while the baseband waits; while the tallies wait that a lowered ceiling can never admit; nothing else may yield. -/
theorem hyp_release :
    (let s (w : List GovReq) (c : Word32) := { run0 with power := { onPower with
      admitted := [{ u := .eng, charge := 24 }, { u := .rfrx, charge := 58 }], waiting := w, peakCeil := c } }
     (s [] 0).mayYield .rfrx = true ∧ (s [] 0).phy.tx = none ∧ (s [] 0x610).noFit .bb 16 = false ∧ (s [] 0x600).noFit .tally 90 = true) ∧
    (let s := { run0 with phy := { run0.phy with txPhase := .onAir } }
     s.phy.txPhase = .onAir ∧ s.mayYield .rftx = false ∧ s.domOn 2 = true ∧ s.mayYield .eng = false) ∧
    { run0 with mram := { run0.mram with defer := true } }.mram.defer = true := by decide +kernel

theorem hyp_recast : Reached .b 0x2410 0 run0 ∧ run0.running = true ∧ run0.power.trigger = none ∧ run0.power.ebFilter = false ∧
    (let s := { run0 with life := { run0.life with state := .halt, mask := 0x20 } }; s.portWorks = true ∧ s.haltTable = true) := by
  unfold Reached; decide

/-! ## Ports and registers -/

theorem hyp_gate : gateOf (.swatchGo .a .A) = some (.a, 0xE20, true) ∧ Reached .a 0xE20 1 run1 ∧ run1.lc.isoV = false ∧
    { run1 with lc := { run1.lc with isoV := true } }.lc.isoV = true ∧
    (let s := run1.modPort .a fun q => { q with open? := none }; s.portWorks = true ∧ s.reach .a 0xE20 = .closed) ∧
    { run1 with power := { onPower with vioOk := false } }.portWorks = false := by
  unfold Reached; decide

theorem hyp_malformed : run0.portWorks = true ∧ (run0.port .a).malValid.getLsbD 0 = false ∧
    ((run0.modPort .a fun q => { q with malValid := 1 }).port .a).malValid.getLsbD 0 = true := by decide

theorem hyp_registers : Reached .a 0x100 0 run0 ∧ Reached .b 0x110 0 run0 ∧ run0.portWorks = true := by
  unfold Reached; decide

theorem hyp_suspend : Reached .a (0x200 + 16 * 7) 0 run0 ∧ run0.tenants[(7 : Fin 8)].owned = false ∧ Reached .a (0x200 + 16 * 2) 0 run0 ∧
    run0.tenants[(2 : Fin 8)].owned = true ∧ Reached .a (0x20C + 16 * 7) 0 run0 ∧ Reached .b 0x714 1 run1 := by
  unfold Reached; decide +kernel

theorem hyp_transactions : run0.portWorks = true ∧ run0.rdyB = true ∧ run0.reach .a 0x2FFC ≠ .closed ∧ run0.reach .b 0x2FFC ≠ .closed ∧
    (0x2FFC#16).toNat % 4 = 0 ∧ (0x2FFC#16).toNat < 0x3000 := by decide


/-! ## Windows and rings -/

/-- Nothing in the field hold buffer waits for an array that is not its own. -/
theorem hyp_own_arrays {s : State} (h : s.mram.fhb = []) : ∀ e ∈ s.mram.fhb, ∀ j x b, e.tgt = .word j x b → e.arr = keyArr j := by
  simp [h]

theorem hyp_window_write : run1.portWorks = true ∧ run1.windowKey 1 4095 = some 8191 ∧ run1.portRoom .a 8191 = true ∧ run1.mram.waitq = [] ∧
    run1.reachWin .a = .slot 1 ∧ run1.reachWin .b = .slot 1 ∧ run1.rdyB = true := by decide +kernel

/-- Clean, corrected and uncorrectable words at window words 0, 1, 2 of slot 1. -/
def marred : State := { run1 with mram := { run1.mram with
  words := [(4096, encodeData 5), (4097, encodeData 5 ^^^ 1), (4098, encodeData 5 ^^^ 7)] } }

theorem hyp_window_read : marred.windowKey 1 0 = some 4096 ∧ marred.reachWin .a = .slot 1 ∧ marred.reachWin .b = .slot 1 ∧ marred.rdyB = true ∧
    marred.deliver 4096 = .ok 5 false ∧ marred.deliver 4097 = .ok 5 true ∧ marred.int.repairs.length < 8 ∧
    (marred.port .a).poison = false ∧ marred.int.ueV = false := by decide +kernel

theorem hyp_window_poison : (∃ u, { run1 with mram := { run1.mram with part := run1.mram.part.set 1 { owner := 1, pos := 0, zeroFill := false, st := .inUse } } }.deliver
    4096 = .bad u) := ⟨.blank, by decide +kernel⟩

/-- Slot 1's ring 64 submits at window word 1024 and completes into ring 65 at 2048, 16 slots each. -/
def submit : RingCtx := { RingCtx.reset with base := 1024, size := 4, cpl := 1, en := true }
def complete : RingCtx := { RingCtx.reset with base := 2048, size := 4, cpl? := true, en := true }
def rings (st : Ring → Ring) : Vector Ring 512 :=
  (run1.eng.rings.set 64 (st { Ring.reset with ctx := submit })).set 65 { Ring.reset with ctx := complete }
def ringed (d : List Word128) (st : Ring → Ring) : State := { run1 with
  eng := { run1.eng with rings := rings st }
  mram := { run1.mram with words := d.mapIdx fun i w => (4096 + 1024 + i, encodeData w) } }

theorem hyp_post : let s := ringed [] id
    let c := (s.ring 64).ctx
    OwnRing .a 64 s ∧ s.mram.waitq = [] ∧ s.eng.discards = [] ∧ c.cpl? = false ∧ ((16 : BitVec 16) - c.cons).toNat ≤ c.slots ∧ ((16 : BitVec 16) - c.prod).toNat ≤ c.slots ∧
      c.slots < ((17 : BitVec 16) - c.cons).toNat ∧ (s.ring 65).ctx.cpl? = true ∧ OwnRing .b 65 s ∧
      Reached .a 0x400 1 s ∧ slotOfRing 128 ≠ 1 ∧ s.lc.isoV = false := by
  unfold OwnRing Reached; decide +kernel

theorem hyp_halt : let s := ringed [] id
    OwnRing .a 64 s ∧ (s.ring 64).ctx.cpl? = false ∧ (s.ring 64).ctx.en = true ∧ (s.ring 64).halted = false := by
  unfold OwnRing Reached; decide +kernel

theorem hyp_resume : let s := ringed [] fun r => { r with halted := true, cause := 1 }
    OwnRing .a 64 s ∧ (s.ring 64).ctx.cpl? = false ∧ (s.ring 64).halted = true ∧ (0 : BitVec 16) = (s.ring 64).ctx.cons ∧
      (s.ring 64).fetched = [] ∧ (s.ring 64).ctx.mask = 0 ∧ s.mram.waitq = [] ∧ s.eng.discards = [] := by
  unfold OwnRing Reached; decide +kernel

theorem hyp_discard : let s := ringed [0x00070001] fun r => { r with halted := true, ctx := { r.ctx with prod := 1 } }
    let q := s.ring 64
    let c := (s.ring (s.cplOf 64)).ctx
    OwnRing .a 64 s ∧ s.mram.waitq = [] ∧ s.mram.fhb.length ≤ 254 ∧ s.eng.ops = [] ∧ s.eng.discards = [] ∧ q.ctx.cpl? = false ∧ q.halted = true ∧ q.ctx.en = true ∧
      q.fetched = [] ∧ q.ctx.mask = 0 ∧ s.cplFree 64 = true ∧ s.cplOf 64 ≠ 64 ∧ s.descAt 64 q.ctx.cons = [.ok 0x00070001 false] ∧
      q.ctx.prod = q.ctx.cons + BitVec.ofNat 16 (field (0x00070001 : Word128) 9 8 + 1) ∧
      s.windowKey (slotOfRing 64) (c.word c.prod) = some 6144 := by
  unfold OwnRing Reached; decide +kernel

theorem hyp_ring_cfg : Reached .a (0x400 + 8 * 63) 1 run1 ∧ run1.mram.waitq = [] ∧ run1.eng.discards = [] ∧
    (let v : Word32 := orAll [at_ 0 0, at_ 18 12, bitAt 31 true]
     (run1.ring (ringNo 1 63)).ctx.en = false ∧ flag v 31 = true ∧ run1.cfgOk 1 (cfgOf v (run1.ring (ringNo 1 63)).ctx) = true) ∧
    (let v : Word32 := orAll [at_ 0 1, at_ 18 12, bitAt 31 true]; run1.cfgOk 1 (cfgOf v (run1.ring (ringNo 1 63)).ctx) = false) ∧
    ((ringed [] id).ring 64).ctx.en = true := by
  unfold Reached; decide +kernel

/-- One descriptor, not fetched, in ring 64. -/
def posted : State := ringed [0x00070001] fun r => { r with ctx := { r.ctx with prod := 1 } }

theorem posted_other (r : Fin 512) (h : r ≠ 64) : posted.fetchable r = none := by
  have hv : r.val ≠ 64 := fun e => h (Fin.ext e)
  by_cases h5 : r.val = 65
  · have : (posted.ring r).ctx.cpl? = true := by simp [posted, ringed, rings, State.ring, h5, complete]
    simp [State.fetchable, this]
  · have : (posted.ring r).ctx.en = false := by
      simp [posted, ringed, rings, State.ring, Ne.symm hv, Ne.symm h5, run1, runOn, State.reset, Engine.reset,
        Ring.reset, RingCtx.reset]
    simp [State.fetchable, this]

theorem hyp_fetch : posted.engReady = true ∧ posted.mram.waitq = [] ∧ posted.eng.discards = [] ∧ posted.eng.ops = [] ∧
    posted.chooseRing = some (64, 0, [.ok 0x00070001 false]) ∧ badIndex [.ok 0x00070001 false] = none ∧
    (let o : Op := { id := 0, ring := 64, index := 0, desc := [0x00070001], behind := posted.behindFor 64, own := none, ran := false, stuck := false,
                     readOf := [], pin := none }
     o.bad = false ∧ posted.suspended (slotOfRing 64) = false) ∧ run1.chooseRing = none := by
  have hf : (fun r => (posted.fetchable r).map fun d => (r, d.1, d.2)) =
      fun r => if r = 64 then some (64, 0, [.ok 0x00070001 false]) else none := by
    funext r
    by_cases h : r = 64
    · subst h
      decide +kernel
    · simp [posted_other r h, h]
  have hc : posted.chooseRing = some (64, 0, [.ok 0x00070001 false]) := by
    unfold State.chooseRing
    rw [hf]
    decide +kernel
  exact ⟨by decide +kernel, by decide +kernel, by decide +kernel, by decide +kernel, hc, by decide +kernel, by decide +kernel, nothing_to_fetch 1⟩

/-! ## Operations in flight -/

/-- The operation of these descriptor words, in flight from slot 1's ring 64. -/
def opOf (d : List Word128) : Op := { id := 0, ring := 64, index := 0, desc := d, behind := [], own := none, ran := false, stuck := false, readOf := [], pin := none }

def flying (d : List Word128) : State := { ringed [] id with eng := { (ringed [] id).eng with ops := [opOf d], nextOp := 1 } }

theorem hyp_nop : Runs 0 0x01 (opOf [0x01]) (flying [0x01]) := by unfold Runs; decide +kernel
theorem hyp_write_imm : Runs 0 0x02 (opOf [0xFFF00000102, 5]) (flying [0xFFF00000102, 5]) := by unfold Runs; decide +kernel
/-- COPY of 4 words from word 0 to word 16. -/
def copyDesc : List Word128 := [orAll [at_ 0 0x03, at_ 32 0, at_ 64 16, at_ 96 4]]
theorem hyp_copy : Runs 0 0x03 (opOf copyDesc) (flying copyDesc) ∧
    (opReads 0 1 0 4 (flying copyDesc)).2 = (List.replicate 4 0, none) ∧ (opOf copyDesc).count = 4 := by
  unfold Runs; decide +kernel
def fillDesc : List Word128 := [orAll [at_ 0 0x04, at_ 8 1, at_ 32 0, at_ 96 4095], 9]
theorem hyp_fill : Runs 0 0x04 (opOf fillDesc) (flying fillDesc) := by unfold Runs; decide +kernel
def cmpDesc (opc : Nat) (w1 w2 : Word128) : List Word128 := [orAll [at_ 0 opc, at_ 8 2, at_ 32 4095], w1, w2]
/-- The word read is 0: COMPARE and CAS agree with 0 and differ from 1. -/
theorem hyp_compare : Runs 0 0x05 (opOf (cmpDesc 5 0 0xFF)) (flying (cmpDesc 5 0 0xFF)) ∧ Runs 0 0x05 (opOf (cmpDesc 5 1 0xFF)) (flying (cmpDesc 5 1 0xFF)) ∧
    (opReads 0 1 4095 1 (flying (cmpDesc 5 1 0xFF))).2 = ([0], none) := by
  unfold Runs; decide +kernel
theorem hyp_cas : Runs 0 0x06 (opOf (cmpDesc 6 0 7)) (flying (cmpDesc 6 0 7)) ∧ Runs 0 0x06 (opOf (cmpDesc 6 1 7)) (flying (cmpDesc 6 1 7)) := by
  unfold Runs; decide +kernel
/-- ADD by −1 to 0: wraps, or clamps at 0; by +1 it stays in range; 0xFFFFFFFF and 1 clamp above. -/
def addDesc (sat : Bool) (by32 : Nat) : List Word128 := [orAll [at_ 0 7, at_ 32 0, bitAt 66 sat, at_ 96 by32]]
theorem hyp_add : Runs 0 0x07 (opOf (addDesc false 0xFFFFFFFF)) (flying (addDesc false 0xFFFFFFFF)) ∧
    Runs 0 0x07 (opOf (addDesc true 0xFFFFFFFF)) (flying (addDesc true 0xFFFFFFFF)) ∧ (0 : Int) + (0xFFFFFFFF : Word32).toInt < 0 ∧
    Runs 0 0x07 (opOf (addDesc true 1)) (flying (addDesc true 1)) ∧ (0 : Int) + (1 : Word32).toInt ≤ 0xFFFFFFFF ∧
    (0xFFFFFFFF : Int) < 0xFFFFFFFF + (1 : Word32).toInt := by
  unfold Runs; decide +kernel
theorem hyp_add_above : let s := { flying (addDesc true 1) with mram := { run1.mram with words := [(4096, encodeData 0xFFFFFFFF)] } }
    Runs 0 0x07 (opOf (addDesc true 1)) s ∧ (opReads 0 1 0 1 s).2 = ([0xFFFFFFFF], none) := by
  unfold Runs; decide +kernel

/-- Slot 1's local keys 0, 1, 2, as given, its seal as it is. -/
def keysOf (l : List Key) : Vector Key 36 :=
  Vector.ofFn fun k => if 4 ≤ k.val && k.val < 7 then l.getD (k.val - 4) Key.reset else run1.keys[k]
def keyed (d : List Word128) (l : List Key) : State := { flying d with keys := keysOf l }

def cmacDesc : List Word128 := [orAll [at_ 0 0x10, at_ 8 1, at_ 64 0, at_ 96 1], 0]
theorem hyp_cmac : Runs 0 0x10 (opOf cmacDesc) (flying cmacDesc) ∧ (flying cmacDesc).useKey 1 0 3 false = none ∧
    (let s := keyed cmacDesc [{ st := .retired, use := 3, key := 0, ctr := 0 }]
     Runs 0 0x10 (opOf cmacDesc) s ∧ s.useKey 1 0 3 false = some 0 ∧ (opReads 0 1 0 1 s).2 = ([0], none)) := by
  unfold Runs; decide +kernel
/-- One word of payload at word 0 to word 16, MIC of 16 bytes. -/
def ccmDesc (opc : Nat) : List Word128 := [orAll [at_ 0 opc, at_ 8 2, at_ 64 0, at_ 96 16], at_ 104 3, at_ 16 16]
theorem hyp_ccm_open : Runs 0 0x11 (opOf (ccmDesc 0x11)) (flying (ccmDesc 0x11)) ∧ (flying (ccmDesc 0x11)).useKey 1 0 4 false = none ∧
    (let s := keyed (ccmDesc 0x11) [{ st := .active, use := 4, key := 0, ctr := 0 }]
     Runs 0 0x11 (opOf (ccmDesc 0x11)) s ∧ s.useKey 1 0 4 false = some 0 ∧ (opOf (ccmDesc 0x11)).payLen % 16 = 0 ∧ wordsFor (0 + 16 + 16) = 2 ∧
       (opReads 0 1 0 2 s).2 = ([0, 0], none)) := by
  unfold Runs; decide +kernel
theorem hyp_ccm_seal : Runs 0 0x12 (opOf (ccmDesc 0x12)) (flying (ccmDesc 0x12)) ∧ (flying (ccmDesc 0x12)).useKey 1 0 4 true = none ∧
    (let s := keyed (ccmDesc 0x12) [{ st := .active, use := 4, key := 0, ctr := 0 }]
     Runs 0 0x12 (opOf (ccmDesc 0x12)) s ∧ s.useKey 1 0 4 true = some 0 ∧ (opReads 0 1 0 1 s).2 = ([0], none)) := by
  unfold Runs; decide +kernel

/-- A KEY_LOAD of local key 0 of slot 1 from word 0. -/
def loadDesc : List Word128 := [orAll [at_ 0 0x40, at_ 32 0, at_ 64 0]]
/-- The wrapping, under the zero key, of a zero key for slot 1, key slot 0, use 1, load counter 1. -/
def blob : List Word128 := [0x9f19f4314b02db846b3df5cd66ae00aa, 0x48c0b576cbb0d0eff2a5aa16bb9d5c86, 0x0e9cd48dbb2584d3]
def loading (l : List Key) : State := { keyed loadDesc l with mram := { run1.mram with words := blob.mapIdx fun i w => (4096 + i, encodeData w) } }
theorem hyp_key_load_bad : Runs 0 0x40 (opOf loadDesc) (flying loadDesc) ∧ (opReads 0 1 0 3 (flying loadDesc)).2 = ([0, 0, 0], none) ∧
    keyUnwrap 0 (zeros 40) = none := by
  unfold Runs; decide +kernel
theorem hyp_key_load : let s := loading []
    Runs 0 0x40 (opOf loadDesc) s ∧ (opOf loadDesc).keySite = false ∧ (opReads 0 1 0 3 s).2 = (blob, none) ∧
      keyUnwrap s.fuses.transport ((blob.flatMap bytesOf).take 40) = some (zeros 16 ++ [1, 0, 0, 1, 1, 0, 0, 0] ++ zeros 8) ∧
      s.keys[(opOf loadDesc).keyNo].ctr < 1 ∧ s.keys[(opOf loadDesc).keyNo].st = .blank ∧ s.tenants[(1 : Fin 8)].owned = true := by
  unfold Runs; decide +kernel
theorem hyp_key_load_state : let s := loading [{ Key.reset with st := .retired }]
    Runs 0 0x40 (opOf loadDesc) s ∧ s.keys[(opOf loadDesc).keyNo].ctr < 1 ∧ s.keys[(opOf loadDesc).keyNo].st ≠ .blank := by
  unfold Runs; decide +kernel
theorem hyp_key_load_counter : let s := loading [{ Key.reset with ctr := 1 }]
    Runs 0 0x40 (opOf loadDesc) s ∧ (1 : Word32) ≤ s.keys[(opOf loadDesc).keyNo].ctr := by
  unfold Runs; decide +kernel

def keyDesc (opc k : Nat) (site : Bool) : List Word128 := [orAll [at_ 0 opc, at_ 32 k, bitAt 35 site]]
theorem hyp_key_states : let d (opc : Nat) := keyDesc opc 2 false
    let three (st : KeyState) : List Key := [Key.reset, { Key.reset with st := .active, use := 1 }, { Key.reset with st := st, use := 1 }]
    Runs 0 0x41 (opOf (d 0x41)) (keyed (d 0x41) (three .loaded)) ∧ Runs 0 0x41 (opOf (d 0x41)) (keyed (d 0x41) (three .blank)) ∧
      (keyed (d 0x41) (three .loaded)).keys[(opOf (d 0x41)).keyNo].st = .loaded ∧
      (keyed (d 0x41) (three .blank)).keys[(opOf (d 0x41)).keyNo].st ≠ .loaded ∧
      Runs 0 0x42 (opOf (d 0x42)) (keyed (d 0x42) (three .active)) ∧ (keyed (d 0x42) (three .active)).keys[(opOf (d 0x42)).keyNo].st = .active ∧
      Runs 0 0x42 (opOf (d 0x42)) (keyed (d 0x42) (three .loaded)) ∧ Runs 0 0x43 (opOf (d 0x43)) (keyed (d 0x43) (three .retired)) := by
  unfold Runs; decide +kernel
/-- A site slot named from slot 1. -/
theorem hyp_key_site_refused : ∀ x ∈ [0x40, 0x41, 0x42, 0x43], Runs 0 x (opOf (keyDesc x 3 true)) (flying (keyDesc x 3 true)) ∧
    (opOf (keyDesc x 3 true)).keySite = true ∧ (opOf (keyDesc x 3 true)).slot ≠ 0 := by
  unfold Runs; decide +kernel

/-- The same from slot 0's ring 0, with site slots 1 and 3 LOADED. -/
def siteFlying (d : List Word128) : State :=
  { flying d with
    eng := { (flying d).eng with
      rings := ((flying d).eng.rings.set 0 ((flying d).eng.rings[64])).set 1 ((flying d).eng.rings[65])
      ops := [{ opOf d with ring := 0 }] }
    keys := ((flying d).keys.set 33 { Key.reset with st := .loaded, ctr := 5 }).set 35 { Key.reset with st := .loaded } }
theorem hyp_key_site : ∀ k ∈ [1, 3], let d := keyDesc 0x41 k true
    Runs 0 0x41 { opOf d with ring := 0 } (siteFlying d) ∧ (siteFlying d).keys[siteKey k].st = .loaded ∧ (siteFlying d).rekeyReady = true ∧
      ({ opOf d with ring := 0 } : Op).slot = 0 := by
  unfold Runs; decide +kernel

/-- COPY past the partition's last word; a DEP operation whose lifeline failed; an operation not in flight. -/
theorem hyp_partition : let d : List Word128 := [orAll [at_ 0 0x03, at_ 32 4095, at_ 64 16, at_ 96 2]]
    (flying d).runnable 0 0x03 = some (opOf d) ∧ (flying d).namesOk (opOf d) = false ∧ (opOf d).dep = false := by decide +kernel
theorem hyp_dep : let d : List Word128 := [orAll [at_ 0 0x01, bitAt 13 true]]
    (flying d).runnable 0 0x01 = some (opOf d) ∧ (opOf d).dep = true ∧ (flying d).llOkFor (opOf d) = some false := by decide +kernel
theorem hyp_not_in_flight : run1.runnable 0 0x01 = none := by decide +kernel

theorem hyp_completion : let s := flying [0xFFF00000102, 5]
    let c := (s.ring (s.cplOf 64)).ctx
    s.op 0 = some (opOf [0xFFF00000102, 5]) ∧ (opOf [0xFFF00000102, 5]).ll = false ∧ s.mram.fhb.length + 1 + 2 ≤ 256 ∧ s.mram.waitq = [] ∧ s.eng.discards = [] ∧
      s.windowKey 1 (c.word c.prod) = some 6144 ∧ s.windowKey 1 0xFFF = some 8191 ∧ s.cplOf 64 ≠ 64 := by decide +kernel

/-! ## Limited changes -/

/-- An authorization key of zeros in site slot 0; a request for site identifier 5, with its code or another. -/
def asking (value : Word128) (code : Word64) : State := { run0 with
  power := { onPower with vbat := 2400 }
  keys := run0.keys.set 32 { Key.reset with st := .active }
  lc := { run0.lc with setting := 2, val := value, code := code } }
def request (s : State) : LcReq :=
  { setting := s.lc.setting, target := s.lc.target, lastAck := s.lc.lastAck, value := s.lc.val, code := s.lc.code, op := none }
def codeFor (value : Word128) : Word64 := cmac64 0 (lcMessage (asking value 0) (request (asking value 0)))
def asked : State := asking 5 (codeFor 5)

theorem hyp_lc_go : Reached .a 0x2A8 0 asked ∧ (lcCheck asked (request asked)).toOption = some (5, none) ∧ asked.slotBusy 0 none = false ∧
    asked.noFit .tally 90 = false ∧ asked.lc.run = none ∧ settingOk 2 0 = true := by
  unfold Reached; decide +kernel

theorem hyp_lc_refused : let s := asking 5 0
    Reached .a 0x2A8 0 s ∧ s.isClaim (request s) = false ∧ s.lcCodeOk (request s) = false ∧ s.lc.run = none ∧
      (match lcCheck s (request s) with | .error e => e | .ok _ => 0) = 1 ∧ (1 ≠ lcBusy) := by
  unfold Reached; decide +kernel

def burning : LcRun := { setting := 2, target := 0, value := 5, burnt := 0, claim := none, op := none, asked := true, begun := false, burnt? := false }
def burn : State := { asked with
  lc := { asked.lc with run := some burning }
  power := { asked.power with admitted := [{ u := .eng, charge := 24 }, { u := .tally, charge := 90 }] } }

theorem hyp_lc_busy : Reached .b 0x2A8 0 burn ∧ burn.lc.run ≠ none := by unfold Reached; decide

theorem hyp_burn : burn.lc.run = some burning ∧ burn.power.isAdmitted .tally = true ∧ burn.burnReady burning = true ∧ burn.lcPowerOk = true ∧
    burn.mram.defer = false ∧ burn.freePair 2 0 = some 8 ∧ settingOk 2 0 = true ∧
    { burn with mram := { burn.mram with defer := true } }.lcPowerOk = true ∧
    { burn with power := { burn.power with vbat := 2399 } }.lcPowerOk = false ∧
    (∀ c ∈ [{ burning with begun := true }, { burning with burnt? := true }], { burn with lc := { burn.lc with run := some c } }.burnReady c = true) := by
  decide +kernel

def lcDesc : List Word128 := [orAll [at_ 0 0x50, at_ 8 2, at_ 32 2], 5, (codeFor 5).setWidth 128]
def lcOp : Op := { opOf lcDesc with ring := 0 }
def lcFlying : State := { siteFlying lcDesc with power := asked.power, keys := asked.keys }
theorem hyp_lc_change : Runs 0 0x50 lcOp lcFlying ∧ lcOp.slot = 0 ∧ (lcCheck lcFlying lcOp.lcReq).toOption = some (5, none) ∧
    lcFlying.slotBusy 0 (some 0) = false ∧ lcFlying.noFit .tally 90 = false ∧
    Runs 0 0x50 (opOf lcDesc) (flying lcDesc) ∧ (opOf lcDesc).slot ≠ 0 := by
  unfold Runs; decide +kernel

/-! ## Skeins -/

/-- Skein 0x0100, one lane of 16 items at window word 0 of slot 1, its context cached. -/
def cfg16 : Word32 := at_ 18 4
def lane0 : LaneCtx := newLane cfg16 0 0
def skeined (f : LaneCtx → LaneCtx) : State := { run1 with skn := { run1.skn with
  blocks := [(1, 1)], skeins := [(256, { lanes := [f lane0] })], cache := [{ key := laneKey 256 0, dirty := true, updates := 0 }] } }

theorem hyp_engine_push : let d : List Word128 := [orAll [at_ 0 0x30, at_ 8 1, at_ 32 256], bitAt 127 true]
    Runs 0 0x30 (opOf d) (flying d) := by
  unfold Runs; decide +kernel

def popDesc : List Word128 := [orAll [at_ 0 0x31, at_ 32 256, at_ 64 64, at_ 96 1]]
def popping (blocks : Sparse (Fin 8)) (skeins : Sparse Skein) : State := { flying popDesc with skn := { (skeined id).skn with blocks := blocks, skeins := skeins } }
theorem hyp_engine_pop : Runs 0 0x31 (opOf popDesc) (popping [] []) ∧ (popping [] []).skeinOwner (opOf popDesc).skein ≠ some 1 ∧
    Runs 0 0x31 (opOf popDesc) (popping [(1, 1)] []) ∧ (popping [(1, 1)] []).skein 256 = none ∧
    (let s := popping [(1, 1)] [(256, { lanes := [lane0] })]
     Runs 0 0x31 (opOf popDesc) s ∧ s.skeinOwner (opOf popDesc).skein = some 1 ∧ (s.skein 256).isSome = true ∧ (loadSkein 256 s).2 = true ∧
       (popGo 1 256 (opOf popDesc).count { st := (loadSkein 256 s).1, items := [], lanes := [], bad := none }).bad = none) := by
  unfold Runs; decide +kernel

theorem hyp_block : Reached .a 0x800 0 run0 ∧ lookup 0xFF run0.skn.blocks = none ∧ run0.tenants[(2 : Fin 8)].owned = true ∧
    run0.tenants[(7 : Fin 8)].owned = false ∧ Reached .a (0x810 + 4 * 7) 0 run0 ∧
    run0.quotaSum - run0.tenants[(7 : Fin 8)].quota + 480 ≤ 3840 ∧ run0.tenants[(7 : Fin 8)].used ≤ 480 ∧
    3840 < run0.quotaSum - run0.tenants[(7 : Fin 8)].quota + 481 ∧ Reached .b 0x840 1 run1 := by
  unfold Reached; decide +kernel

def configuring (c : Word32) : State := { skeined id with tenants := run1.tenants.set 1 { owned with sknCfg0 := c } }
theorem hyp_configure : let s := configuring cfg16
    Reached .a 0x840 1 s ∧ s.skeinOwner 257 = some 1 ∧ s.skein 257 = none ∧ s.sknCfgOk 1 s.tenants[(1 : Fin 8)].sknCfg0 = true ∧
      s.tenants[(1 : Fin 8)].used + 1 ≤ s.tenants[(1 : Fin 8)].quota ∧ (s.skein 256).isSome = true ∧ s.skeinOwner 512 ≠ some 1 ∧
      (configuring 0).sknCfgOk 1 0 = false := by
  unfold Reached; decide +kernel

theorem hyp_cached : Reached .a 0x840 1 (skeined id) ∧ Cached 1 256 { lanes := [lane0] } (skeined id) ∧ lane0.count = 0 ∧ lane0.wopen = none ∧
    lane0.rlock = false ∧ (skeined id).tenants[(1 : Fin 8)].notEn = false ∧ (skeined id).laneDirty 256 0 = true ∧
    Cached 1 256 { lanes := [{ lane0 with tail := 1 }] } (skeined fun c => { c with tail := 1 }) ∧ ({ lane0 with tail := 1 } : LaneCtx).count ≠ 0 := by
  unfold Reached Cached SkeinForm; decide +kernel

/-- A valid item of priority 7, the last of its packet, with room for it; one item of a complete packet to pop. -/
theorem hyp_port_b_push : let s := skeined id
    let w : Word128 := mkItem true 7 1
    s.portWorks = true ∧ s.rdyB = true ∧ s.reachWin .b = .slot 1 ∧ s.tenants[(1 : Fin 8)].st = .owned ∧ itemValid w = true ∧ itemIdle w = 0 ∧
      0 = prioLane (((s.lane 256 0).map LaneCtx.lanesLog).getD 0) (itemPrio w) ∧ lane0.count < lane0.size ∧
      s.windowKey 1 (lane0.word lane0.tail) = some 4096 ∧ s.portRoom .a 4096 = true ∧ s.mram.waitq = [] ∧ s.mram.fhb = [] := by decide +kernel
theorem hyp_port_b_pop : let c := { lane0 with tail := 1, pkts := 1 }
    let s := skeined fun _ => c
    Skein.popLane { lanes := [c] } false = some 0 ∧ s.windowKey 1 (c.word c.head) = some 4096 ∧ s.itemAt 4096 = .ok 0 false := by decide +kernel

theorem hyp_doorbell : run1.portWorks = true ∧ run1.rdyB = true ∧ run1.reachWin .b ≠ .closed ∧ slotOfRing 127 = 1 ∧ run1.reachWin .b = .slot 1 ∧
    field (0x4FFFF : Word32) 19 16 = 4 ∧ field (0x3FFFF : Word32) 19 16 = 3 := by decide

/-! ## The arrays -/

/-- One word waits in array A's queue. -/
def entry : WEntry := mkWrite 4096 5 1 (.port .a)
def writing (attempts : Nat) (r : Option Remapping) : State := { run1 with
  power := { onPower with admitted := [{ u := .eng, charge := 24 }, { u := .mema, charge := 70 }] }
  mram := { run1.mram with arrA := { ArrSt.reset with queue := [entry], attempts := attempts, remap := r, sampled := true } } }

theorem hyp_attempt : sorted (writing 0 none).mram.words = true ∧ (writing 0 none).mram.waitq = [] ∧ (writing 0 none).attemptOk .A = true ∧
    (writing 0 none).mram.headOf .A = some entry ∧ entry.tgt = .word 4096 5 false ∧ (writing 3 none).attemptOk .A = true ∧
    (writing 4 none).attemptOk .A = true ∧ (writing 4 none).mram.defer = false ∧ run1.attemptOk .A = false ∧
    (writing 4 none).mram.arrA.spares = 0 :: 1 :: (List.range 48).drop 2 ∧ entry.charge = true ∧ run1.tenants[(1 : Fin 8)].st ≠ .free := by
  decide +kernel
theorem hyp_remap : (writing 5 (some { row := 128, tried := 0 })).arrReady .A = true ∧ (writing 5 (some { row := 128, tried := 1 })).arrReady .A = true ∧
    keyIdx 4096 / 32 = 128 := by decide +kernel
theorem hyp_attempt_deferred : let s := { writing 0 none with mram := { (writing 0 none).mram with defer := true } }
    s.mram.defer = true ∧ (s.mram.arr .A).attempts = 0 ∧ s.mram.twinBegun .A = false := by decide

theorem hyp_granules_wait : run0.mram.partRun = none ∧ { run0.mram with partRun := some 1 }.partRun.isSome = true := by decide
theorem hyp_granules : Reached .a 0xC30 0 run0 ∧ (2 : BitVec 4).toNat = (2 : Fin 8).val ∧ run0.tenants[(2 : Fin 8)].owned = true ∧
    run0.mram.part[(63 : Fin 64)].st = .free ∧ run0.mram.part[(2 : Fin 64)].st = .inUse ∧ run0.mram.part[(2 : Fin 64)].owner = 2 ∧
    run0.mram.part[(2 : Fin 64)].owner ≠ 7 ∧ run0.tenants[(7 : Fin 8)].owned = false ∧ Reached .a 0xC20 0 run0 ∧
    { run0 with tenants := run0.tenants.set 2 { owned with granules := 0 } }.tenants[(2 : Fin 8)].granules = 0 := by
  unfold Reached; decide +kernel

theorem hyp_field : run0.faulted 0xC = false ∧ run0.power.asleep = false ∧ run0.domOn 3 = true ∧ run0.mram.defer = false ∧ run0.mram.mt = 100 ∧
    run0.mram.mt ≤ magnitude 100 0 0 ∧ magnitude 0 99 0 < run0.mram.mt ∧ run0.mram.mtHyst ≤ magnitude 0 99 0 ∧
    magnitude 0 0 10 < run0.mram.mtHyst ∧ 1000 ≤ magnitude 1000 0 0 ∧
    { run0 with power := { onPower with asleep := true } }.power.asleep = true := by decide +kernel
theorem hyp_deferral_end : let s := { run0 with mram := { run0.mram with defer := true, below := true, epDisturb := true } }
    s.mram.defer = true ∧ s.mram.below = true ∧ (s.port .a).open?.isSome = true ∧ s.mram.epDisturb = true ∧
      (run0.mram.defer && run0.mram.below) = false := by decide

/-! ## Integrity -/

theorem hyp_patrol : run0.patrolOn = true ∧ run0.power.recasting = false ∧ run0.running = true ∧ run0.patrolReady = true ∧
    run0.pairsAt run0.int.pos = [] ∧ run0.int.pos + 1 < run0.lapRows ∧
    (let s := { run0 with int := { run0.int with pos := 4607 } }; s.pairsAt s.int.pos = [] ∧ s.lapRows ≤ s.int.pos + 1) ∧
    (let s := { run0 with power := { onPower with asleep := true } }
     s.power.asleep = true ∧ s.int.damage = [] ∧ s.int.pos + s.batchRows < s.lapRows) ∧ State.reset.running = false := by decide +kernel
theorem hyp_repair : let s (k : Nat) := { marred with int := { marred.int with repairs := [k] } }
    (s 4097).int.repairs = [4097] ∧ (s 4097).mram.waitq = [] ∧ (s 4097).mram.defer = false ∧ (s 4097).domOn (arrDom (keyArr 4097)) = true ∧
      readRaw ((s 4097).stored 4097) = .data 5 true ∧ (s 4097).mram.fhb.length < 256 := by decide +kernel
theorem hyp_repair_blank : let s := { run1 with int := { run1.int with repairs := [4096] }, mram := { run1.mram with words := [(4096, blankRaw ^^^ 1)] } }
    readRaw (s.stored 4096) = .blank true ∧ s.mram.fhb = [] ∧ ((s.sysFinds (keyArr 4096)).find? fun f => f.idx = keyIdx 4096) = none := by
  decide +kernel
theorem hyp_repair_lost : ∃ u, readRaw (marred.stored 4098) = .unc u := ⟨.check, by decide +kernel⟩

def scan1 : Scan := { slot := 1, start := 0, count := 2, mode := 0, stop := 0 }
def scanning (l : List Scan) (cnt : Nat) : State := { run1 with
  tenants := run1.tenants.set 1 { owned with scanCnt := cnt }, int := { run1.int with scans := l } }
theorem hyp_scan : Reached .a 0xE40 1 (scanning [] 1) ∧ (scanning [] 1).scanOf 1 = none ∧ (scanning [] 1).tenants[(1 : Fin 8)].scanCnt ≠ 0 ∧
    (scanning [] 1).inPartition 1 4095 1 = true ∧ field (scanCtlOf 4095 (scanning [] 1).tenants[(1 : Fin 8)].scanCtl) 17 0 = 4095 ∧
    (scanning [scan1] 2).scanOf 1 = some (0, scan1) ∧ (scanning [{ scan1 with slot := 0 }, scan1] 2).scanOf 1 = some (1, scan1) ∧ scan1.mode = 0 := by
  unfold Reached; decide +kernel
theorem hyp_scan_words : (scanning [scan1] 2).int.scans = [scan1] ∧ ∀ j, j < scan1.count → (scanning [scan1] 2).windowKey 1 (scan1.start + j) = some (4096 + j) ∧
    ({ marred with int := (scanning [scan1] 2).int }.readKey 4096 = .data 5 false) := by decide +kernel
/-- Its array is on, or off. -/
theorem hyp_scan_reads : let s := scanning [scan1] 2
    (s.scanGranules scan1).all (fun g => s.scanReads (granArr g)) = true ∧
      (let s := { s with power := { onPower with domOn := 0xF7 } }; (s.scanGranules scan1).all (fun g => s.scanReads (granArr g)) = false) := by
  decide +kernel
theorem hyp_scan_deferred : let s := { scanning [{ scan1 with mode := 1 }] 2 with mram := { run1.mram with defer := true } }
    s.int.scans = [{ scan1 with mode := 1 }] ∧ s.mram.defer = true := by decide

theorem hyp_swatch : Reached .a 0xE20 0 run0 ∧ run0.int.swRun = false ∧ run0.power.trigger = none ∧ sorted run0.mram.words = true ∧
    (let s := { run0 with int := { run0.int with swRun := true, swTest := .B } }
     Reached .a 0xE20 0 s ∧ s.int.swRun = true ∧ s.int.swTest = .B) := by
  unfold Reached; decide

/-- Slot 2 is purging, its granule still to overwrite. -/
def purging : State := { run0 with
  power := { onPower with admitted := [{ u := .eng, charge := 24 }, { u := .mema, charge := 70 }] }
  tenants := run0.tenants.set 2 { owned with st := .purging, owner := 0 }, int := { run0.int with pMap := 4 }
  mram := { run0.mram with
    arrA := { ArrSt.reset with sampled := true }, part := run0.mram.part.set 2 { owner := 2, pos := 0, zeroFill := true, st := .purging } } }
theorem hyp_purge : Reached .a 0xE80 0 purging ∧ purging.roundOf = [2] ∧ purging.purging = true ∧ purging.int.pRows ≤ 128 ∧
    purging.tenants[(2 : Fin 8)].st = .purging ∧ purging.slotGranules 2 = [2] ∧ purging.mram.wfailCount ≠ BitVec.allOnes _ ∧
    run0.roundOf = [] ∧ run0.purging = false ∧
    (let s := { purging with power := onPower }; s.roundOf = [2] ∧ s.power.isAdmitted (arrUnit (granArr 2)) = false) := by
  unfold Reached; decide +kernel

/-! ## The radio -/

/-- Region 1 and site 5, tracked, in the contention slot 2 of 15; neighbour 0 is the coordinator 0x0002, with the module's own long address. -/
def coordinator : Neighbour := { Neighbour.reset with long := 0x00146E000B2791C5, short := 2, valid := true, coord := true }
def radio : State := { run1 with
  power := { onPower with admitted := [{ u := .eng, charge := 24 }, { u := .rfrx, charge := 58 }, { u := .bb, charge := 16 }] }
  lc := { run1.lc with region := { run1.lc.region with value := 1 }, site := { run1.lc.site with value := 5 } }
  keys := (run1.keys.set 34 { Key.reset with st := .active }).set 4 { Key.reset with st := .active, use := 5 }
  mac := { Mac.reset with short := 0x1234, state := .track, so := 3, capLast := 15, bslots := 1, sfUs := 120000, assocOpen := true, beaconSrc := 2
                          nbs := Mac.reset.nbs.set 0 coordinator } }

def onAirOf (a : AirFrame) (s : State) : State := { s with phy := { s.phy with txPhase := .onAir, air := some a } }

/-- `run0` in region 0x2. -/
def hopper : State := { run0 with lc := { run0.lc with region := { run0.lc.region with value := 2 } } }

theorem hyp_channels : Reached .a 0x1014 0 run0 ∧ Reached .a (0x1080 + 4 * 6) 0 run0 ∧ Reached .b 0x1000 0 run0 ∧ run0.channelOk 0 = true ∧
    run0.channelOk 56 = false ∧ run0.hopping = false ∧ run0.phy.duty[(4 : Fin 5)].length < 60 ∧ 0 < cbps (at_ 0 1) ∧ run0.phy.active = false ∧
    hopper.hopping = true ∧ Reached .a 0x1080 0 hopper ∧
    50 ≤ ((regionChannels hopper.region).filter fun c => !masked (hopper.phy.hopmask.set 0 0xFFFFFFFF) c).length ∧
    (let s := { hopper with phy := { hopper.phy with hopmask := Vector.replicate 7 0xFFFFFFFF } }
     ((regionChannels s.region).filter fun c => !masked (s.phy.hopmask.set 6 0xFFFFFFFF) c).length < 50) := by
  unfold Reached; decide +kernel

/-! ### Sending -/

/-- A LEAVE of the module, waiting; the same state in the assigned slot 16, with listening asked for or not. -/
def leaving : TxFrame :=
  { flow := none, fc := fcOf typCommand true (bytesLE 2 2#16) (bytesLE 2 0x1234#16), seq := 0, dst := bytesLE 2 2#16, src := bytesLE 2 0x1234#16
    secctl := 1, keyid := 0x82, key := netKey, hdr := [6], payload := [0], nb := some 0, tries := 0, skein := 0, lane := 0, items := 0, gone := false }
def queued : State := { radio with mac := { radio.mac with modq := [leaving] } }
def assigned (ctl : Word32) : State := { queued with
  mac := { queued.mac with sfUs := 16 * 60000, slotmask := 0x10000 }, phy := { queued.phy with ctl := ctl } }
def afterTrim (s : State) : State := refreshFlows (State.each (List.finRange 64) trimHead s)

/-- A flow of slot 1 with one packet of skein 256 to neighbour 0, acknowledged, paid for. -/
def flowing : State := { radio with
  tenants := run1.tenants.set 1 { owned with level := 2048 }
  skn := (skeined fun c => { c with tail := 1, pkts := 1 }).skn
  mram := { run1.mram with words := [(4096, encodeData (mkItem true 0 7))] }
  mac := { radio.mac with flows := radio.mac.flows.set 8 { Flow.reset with flow := 0x20100, flowb := 0x80009000 } } }
def packet : TxFrame := flowing.flowFrame 8 0 0 [mkItem true 0 7]

theorem hyp_send_module : MaySend queued = true ∧ (afterTrim queued).moduleFrame = some (leaving, .contention) ∧ (afterTrim queued).lbtOn = false := by
  decide +kernel
theorem hyp_send_assigned : ∀ x ∈ [((0 : Nat), false), (2, true)], let s := assigned (BitVec.ofNat 32 x.1)
    MaySend s = true ∧ (afterTrim s).moduleFrame = some (leaving, .assigned) ∧ (afterTrim s).lbtOn = x.2 := by decide +kernel
theorem hyp_send_flow : MaySend flowing = true ∧ (let s1 := afterTrim flowing
    s1.moduleFrame = none ∧ s1.bestFlow = some (8, packet) ∧ s1.fitGate packet = some .contention ∧ packet.tries = 0 ∧ packet.hdr.length = 3 ∧
      s1.mac.flows[(8 : Fin 64)].skein = 256 ∧ (loadSkein 256 s1).2 = true ∧
      (let u := (loadSkein 256 s1).1; ((u.candidate 8).map (·.2)) = some packet ∧ u.fitGate packet = some .contention)) := by
  decide +kernel
theorem hyp_send_nothing : MaySend radio = true ∧ (afterTrim radio).moduleFrame = none ∧ (afterTrim radio).bestFlow = none ∧
    MaySend { radio with mac := { radio.mac with state := .unsync } } = false := by decide +kernel
/-- Every candidate's finish time is V or later. -/
def inTime (s : State) : Bool := (List.finRange 64).all fun j => match s.candidate j with
  | none => true
  | some (t, _) => decide (0 ≤ (t - s.mac.v).toInt)
theorem hyp_best_flow : (afterTrim flowing).bestFlow = some (8, packet) ∧ inTime (afterTrim flowing) = true := by decide +kernel

/-- The frame in service waits in this phase; `ctl` 2 asks for listening. -/
def inService (f : TxFrame) (ph : TxPhase) (ctl : Word32) (nb : Nat) : State := { flowing with
  phy := { flowing.phy with tx := some f, txPhase := ph, ctl := ctl }, mac := { flowing.mac with backoff := some (nb, 3, 5) } }

theorem hyp_backoff : ∀ x ∈ [(0, 0, false), (2, 0, true), (0, 4, false)], let s := inService packet .idle x.1 x.2.1
    s.phy.tx = some packet ∧ s.mac.ackDue = none ∧ s.phy.txPhase = .idle ∧ s.mac.backoff = some (x.2.1, 3, 5) ∧ s.lbtOn = x.2.2 ∧
      s.rxRefused = false ∧ s.frameOk packet = true ∧ (s.fitGate packet).isSome ∧ s.powerBusy (-85) = true ∧ s.powerBusy (-86) = false := by
  decide +kernel
theorem hyp_max_nb : (4 : Nat) ≤ field radio.mac.csma 11 8 ∧ field radio.mac.csma 11 8 < 4 + 1 := by decide
/-- A listen of one power window, quiet and not, and one after no backoff. -/
theorem hyp_listening : let s : State := let s := inService leaving .listening 2 4; { s with phy := { s.phy with lbtUs := 288 } }
    s.listenBusy [-86] false = false ∧ s.listenBusy [-85] false = true ∧ s.listenBusy [-86] true = true ∧
      { s with mac := { s.mac with backoff := none } }.mac.backoff = none ∧ s.phy.txPhase = .listening ∧ s.mac.backoff = some (4, 3, 5) ∧ s.rxRefused = false ∧ s.frameOk leaving = true ∧ (s.fitGate leaving).isSome ∧
      s.mac.ackDue = none := by decide +kernel

def transmitting (f : TxFrame) : State :=
  let s := inService f .ready 0 0
  { s with power := { s.power with admitted := [{ u := .eng, charge := 24 }, { u := .rftx, charge := 50 }] } }
theorem hyp_start : ∀ f ∈ [leaving, packet], let s := transmitting f
    s.phy.tx = some f ∧ s.phy.txPhase = .ready ∧ s.mac.ackDue = none ∧ s.power.isAdmitted .rftx = true ∧ s.lbtOn = false ∧ s.sourced f = f ∧
      (s.fitGate f).isSome ∧ s.frameOk f = true ∧ s.firstPaid f = true ∧ s.mac.fc[f.key] ≠ 0xFFFFFFFF ∧ s.phy.active = false := by decide +kernel

def air : AirFrame :=
  { rate := 3, tmap := 0, psdu := [], sym := 100, us := 28800, power := 40, shape := 0, slot := 1, ack := false, startUs := 120000, symbols := [], legacy := [] }
def unacked : TxFrame := { packet with fc := packet.fc &&& 0xFF7F }
theorem hyp_end : ∀ x ∈ [(packet, true), (unacked, false)], let s := onAirOf air (transmitting x.1)
    s.phy.txPhase = .onAir ∧ s.phy.air = some air ∧ air.ack = false ∧ s.phy.tx = some x.1 ∧ x.1.ar = x.2 ∧ x.1.gone = false := by decide +kernel

/-- Acknowledgements awaited: of a frame that may be tried again, and of one whose retries are used up. -/
def awaiting (tries : Nat) : State := inService { packet with tries := tries } .awaitAck 0 0
theorem hyp_timeout : let f : TxFrame := { packet with tries := 3 }
    (awaiting 3).phy.tx = some f ∧ (awaiting 3).phy.txPhase = .awaitAck ∧ f.gone = false ∧ f.tries ≤ field (awaiting 3).mac.csma 15 12 ∧
      f.flow = some (1, 0) ∧ (awaiting 3).retryPaid 1 ((awaiting 3).frameCost f) = true ∧ (awaiting 3).frameOk f = true ∧
      (awaiting 3).fitGate ((awaiting 3).sourced f) = some .contention ∧ field (awaiting 3).mac.csma 15 12 < 4 ∧
      (awaiting 4).mac.flows[flowNo 1 0].requeue = false := by decide +kernel

/-- The same on the legacy PHY, whose frames are bytes (R273). -/
def legacyOf (s : State) : State := { s with phy := { s.phy with w2 := true, active := true } }
def legacy : State := legacyOf radio
/-- A received legacy frame of these bytes. -/
def rxOf (m : List Byte) : RxFrame := { noFrame with legacy := m, afterTxUs := 600 }
def noHdr : Hdr :=
  { typ := 0, ar := false, pend := false, retry := false, seq := 0, site := 0, dst := [], src := [], secctl := 0, keyid := 0, ctr := 0, disp := []
    aad := [], body := [], mic := [], fcsOk := false }
def hdrOf (f : RxFrame) : Hdr := (legacy.parsed (legacy.heard f)).getD noHdr
/-- An acknowledgement of SEQ 0 to 0x1234. -/
def ackRx : RxFrame := rxOf [8, 2, 0, 0, 5, 18, 52, 0, 0, 114, 214]
theorem hyp_ack : let s := legacyOf (awaiting 1)
    let r := s.heard ackRx
    s.rxReady = true ∧ s.headerOk r = true ∧ s.tentOk r = true ∧ s.parsed r = some (hdrOf ackRx) ∧ (hdrOf ackRx).typ = typAck ∧
      s.phy.tx = some { packet with tries := 1 } ∧ s.phy.txPhase = .awaitAck ∧
      s.ackMatches (hdrOf ackRx) r { packet with tries := 1 } = true := by decide +kernel

/-- An acknowledgement due, RFTX admitted or not. -/
def acking (adm : Bool) : State := { radio with
  power := if adm then { onPower with admitted := [{ u := .eng, charge := 24 }, { u := .rftx, charge := 50 }] } else onPower
  mac := { radio.mac with ackDue := some { seq := 7, dst := [2, 0], fb := 12, nb := some 0, slot := 1 } } }
theorem hyp_ack_due : ∀ adm ∈ [true, false], let s := acking adm
    s.mac.ackDue = some { seq := 7, dst := [2, 0], fb := 12, nb := some 0, slot := 1 } ∧ s.radioOn = true ∧ s.mac.state ≠ .unsync ∧
      s.faulted 8 = false ∧ s.power.isAdmitted .rftx = adm ∧ s.timeAllows (s.ackUs { seq := 7, dst := [2, 0], fb := 12, nb := some 0, slot := 1 }) = true ∧
      s.hopping = false := by decide +kernel

/-! ### Superframes and sniffs -/

/-- A rendezvous that ends in the slot under way. -/
theorem hyp_rdv_end : let s := { radio with mac := { radio.mac with rxHold := [.rendezvous 130000] } }
    s.running = true ∧ s.rdvEnd = some 130000 ∧ radio.rdvEnd = none ∧ radio.rxReady = true := by decide +kernel
/-- Tracked, awake and asleep; every other superframe of a SKIP of 1. -/
theorem hyp_beacon_due : let s (a : Bool) (n : Word32) (k : Byte) := { radio with
      power := { radio.power with asleep := a }, mac := { radio.mac with trackEn := true, sfn := n, skip := k } }
    (∀ a ∈ [true, false], (s a 0 0).beaconDue = true ∧ (s a 0 0).running = true) ∧ (s false 0 1).beaconDue = true ∧ (s false 1 1).beaconDue = false ∧
      radio.beaconDue = false := by decide +kernel
theorem hyp_superframe : radio.running = true ∧ State.reset.running = false ∧
    (let s := { radio with mac := { radio.mac with chsw := some (40, 1) } }
     s.mac.chsw = some (40, 1) ∧ (s.mac.sfn + 1).setWidth 8 = (1 : Byte) ∧ s.channelOk 40 = true) := by decide
theorem hyp_beacon_window : let s (st : MacState) := { radio with mac := { radio.mac with trackEn := true, window := true, state := st, miss := 3, searched := 15 } }
    (s .track).mac.trackEn = true ∧ (s .track).running = true ∧ (s .track).mac.window = true ∧ (s .track).mac.lostMax.toNat ≤ (s .track).mac.miss + 1 ∧
      (s .search).mac.state = .search ∧ 4 * (s .search).mac.search.toNat ≤ (s .search).mac.searched + 1 ∧ (s .unsync).mac.state = .unsync := by decide
/-- THR_DBM of the threshold loop is −95 dBm at reset: met, and missed by 1. -/
theorem hyp_sniff : let s := { radio with mac := { radio.mac with sniffEn := true, listen := true } }
    s.mac.sniffEn = true ∧ s.mac.rdv = none ∧ s.radioOn = true ∧ s.sniffThr ≤ -95 ∧ -96 < s.sniffThr ∧ s.rxRefused = false ∧
      s.loopOn loopThreshold = true ∧ s.thrMin ≤ s.thrMax ∧ s.mac.listen = true := by decide +kernel
theorem hyp_holds : let s := { radio with mac := { radio.mac with rdv := some 60, rxHold := [.pendFrom 0 true] } }
    s.mac.rdv ≠ none ∧ (s.mac.rxHold.any RxHold.isPend) = true ∧ ∀ h ∈ radio.mac.rxHold, h.isPend = false := by decide

theorem hyp_mac_registers : Reached .a (0x1840 + 16 * 7) 0 run0 ∧ Reached .a (0x1604 + 16 * 7) 1 run1 ∧ Reached .b 0x1404 0 run0 ∧
    Reached .b 0x1480 0 run0 := by unfold Reached; decide
theorem hyp_assoc : radio.mac.assoc = false ∧ radio.mac.state = .track ∧ radio.mac.assocOpen = true ∧ (radio.nbOf fun n => n.coord) = some 0 ∧
    (run0.nbOf fun n => n.coord) = none ∧ (let s := { radio with portA := run0.portA }; Reached .a 0x1404 0 s) := by unfold Reached; decide +kernel
theorem hyp_nb_write : let s (w : Word128) := { radio with portA := run0.portA, mac := { radio.mac with nbWord := w } }
    Reached .a 0x1480 0 (s 0) ∧
      ((s 0x00146E000B2791C5).mac.nbs[(0 : Fin 64)].valid && decide ((s 0x00146E000B2791C5).mac.nbs[(0 : Fin 64)].long =
        (s 0x00146E000B2791C5).mac.nbWord.setWidth 64)) = true ∧
      ((s 0).mac.nbs[(0 : Fin 64)].valid && decide ((s 0).mac.nbs[(0 : Fin 64)].long = (s 0).mac.nbWord.setWidth 64)) = false := by
  unfold Reached; decide +kernel
theorem hyp_prev_expire : let s := { radio with mac := { radio.mac with sfn := 16, nbs := radio.mac.nbs.set 0 { coordinator with prevSlot := some 3 } } }
    s.loopOn loopLoading = true ∧ 16 ≤ s.mac.sfn.toNat - s.mac.nbs[(0 : Fin 64)].prevSfn ∧ s.mac.nbs[(0 : Fin 64)].prevSlot = some 3 ∧
      { s with mac := { s.mac with loopCtl := 0 } }.loopOn loopLoading = false := by decide +kernel

/-! ### Receiving.  The frames' bytes, encryption and MICs come from a program of the test's author, written from RFC 3610 and FIPS 197. -/

/-- What the receiver finds of a frame that is no wake frame. -/
def got (f : RxFrame) (s : State) : State := (missedAck (arrive (s.heard f) s)).sourceRead (hdrOf f)
def fromNb : Passed := { fr := .nb 0, key := netKey, dup := false }
/-- The frame arrives, passes the filter and reads as `b`. -/
def Opens (f : RxFrame) (typ : Nat) (p : Passed) (b : List Byte) (s : State) : Prop :=
  s.rxReady = true ∧ s.headerOk (s.heard f) = true ∧ s.tentOk (s.heard f) = true ∧ s.parsed (s.heard f) = some (hdrOf f) ∧
    (hdrOf f).typ = typ ∧ typ ≠ typWake ∧ ((got f s).headSteps (hdrOf f)).toOption = some p ∧ p.dup = false ∧ ((got f s).endSteps (hdrOf f) p).toOption = some b
theorem ok_of_toOption {ε α : Type} {x : Except ε α} {a : α} (h : x.toOption = some a) : x = .ok a := by
  cases x <;> simp [Except.toOption] at h; exact congrArg _ h
theorem opens_arrives {f : RxFrame} {typ : Nat} {p : Passed} {b : List Byte} {s : State} (h : Opens f typ p b s) :
    Arrives f typ (hdrOf f) s (got f s) ∧ Clear (hdrOf f) p b (got f s) :=
  ⟨⟨h.1, h.2.1, h.2.2.1, h.2.2.2.1, h.2.2.2.2.1, (if_neg h.2.2.2.2.2.1).symm⟩, ok_of_toOption h.2.2.2.2.2.2.1, h.2.2.2.2.2.2.2.1,
    ok_of_toOption h.2.2.2.2.2.2.2.2⟩

def beaconRx : RxFrame := rxOf [28, 32, 9, 0, 5, 255, 255, 0, 2, 1, 130, 1, 0, 0, 0, 123, 65, 9, 0, 0, 0, 0, 0, 0, 0, 219, 30, 231, 2, 198, 249]
def dataRx : RxFrame := rxOf [37, 37, 9, 0, 5, 18, 52, 0, 2, 5, 16, 1, 0, 0, 0, 8, 0, 0, 200, 202, 241, 190, 24, 249, 33, 245, 186, 77, 146, 197, 81, 47, 174, 192, 204, 62, 113, 108, 25, 68]
def cmdRx2 : RxFrame := rxOf [26, 39, 9, 0, 5, 18, 52, 0, 2, 1, 130, 1, 0, 0, 0, 2, 0, 119, 86, 0, 0, 255, 0, 106, 99, 199, 90, 74, 12]
def cmdRx3 : RxFrame := rxOf [23, 39, 9, 0, 5, 18, 52, 0, 2, 1, 130, 1, 0, 0, 0, 3, 0, 0, 255, 0, 87, 116, 179, 90, 57, 99]
def cmdRx4 : RxFrame := rxOf [30, 39, 9, 0, 5, 18, 52, 0, 2, 1, 130, 1, 0, 0, 0, 4, 3, 2, 1, 0, 0, 0, 0, 0, 0, 0, 0, 74, 30, 68, 244, 55, 114]
def cmdRx5 : RxFrame := rxOf [19, 39, 9, 0, 5, 18, 52, 0, 2, 1, 130, 1, 0, 0, 0, 5, 138, 64, 172, 17, 203, 169]
def cmdRx6 : RxFrame := rxOf [20, 39, 9, 0, 5, 18, 52, 0, 2, 1, 130, 1, 0, 0, 0, 6, 0, 197, 24, 182, 122, 122, 79]
def cmdRx7 : RxFrame := rxOf [29, 39, 9, 0, 5, 18, 52, 0, 2, 1, 130, 1, 0, 0, 0, 7, 0, 1, 2, 3, 4, 5, 6, 7, 9, 0, 1, 122, 59, 23, 41, 118]
def cmdRx8 : RxFrame := rxOf [21, 39, 9, 0, 5, 18, 52, 0, 2, 1, 130, 1, 0, 0, 0, 8, 2, 0, 162, 237, 61, 239, 251, 253]
def refusedRx : RxFrame := rxOf [26, 39, 9, 0, 5, 18, 52, 0, 2, 1, 130, 1, 0, 0, 0, 2, 1, 0, 0, 0, 0, 0, 0, 157, 251, 132, 74, 6, 120]

theorem hyp_marks : ({ key := 0, h := 5, win := 1, stored := 21 } : Mark).passes 3 = true ∧
    ({ key := 0, h := 5, win := 1, stored := 21 } : Mark).passes 5 = false ∧ ({ key := 0, h := 5, win := 1, stored := 21 } : Mark).passes 4 = false ∧
    ({ key := 0, h := 30, win := 0, stored := 46 } : Mark).passes 6 = true ∧ ({ key := 0, h := 30, win := 0, stored := 46 } : Mark).passes 5 = false := by
  decide
/-- No header symbol received; a robust header and no data symbol; a legacy frame cut short. -/
theorem hyp_rx_off : State.reset.rxReady = false ∧ radio.rxReady = true ∧ radio.headerOk (radio.heard noFrame) = false ∧
    (let f := { noFrame with header := (List.range 24).map fun d => if headerBit 3 d then 3 else -3 }
     radio.headerOk (radio.heard f) = true ∧ radio.tentOk (radio.heard f) = false) ∧
    (let r := legacy.heard (rxOf (ackRx.legacy.take 9))
     legacy.rxReady = true ∧ legacy.headerOk r = true ∧ legacy.tentOk r = true ∧ legacy.parsed r = none) := by decide +kernel

theorem hyp_beacon : Opens beaconRx typBeacon fromNb (beaconRx.legacy.drop 15 |>.take 10) legacy ∧
    beaconBodyOk (beaconRx.legacy.drop 15 |>.take 10) = true := by unfold Opens; decide +kernel

/-- Endpoint 0 of slot 1 is a window of 16 words at window word 0, with records in ring 65. -/
def receiving : State := { legacy with
  eng := { legacy.eng with rings := rings id }
  mac := { legacy.mac with eps := radio.mac.eps.set 8 { Endpoint.reset with ep := 0x01500000, cpl := 1 } } }
def fromNbData : Passed := { fromNb with key := 4 }
def dataBody : List Byte := (List.range 16).map fun i => BitVec.ofNat 8 (i + 1)
theorem hyp_data : Opens dataRx typData fromNbData dataBody receiving := by unfold Opens; decide +kernel
theorem hyp_data_window : let s' := got dataRx receiving
    let h := hdrOf dataRx
    let e := s'.mac.eps[h.epNo]
    let c := (s'.ring (ringNo h.epSlot e.cpl)).ctx
    s'.safetySlot = none ∧ e.kind = 1 ∧ s'.windowOk h dataBody = true ∧ s'.toGroup h = false ∧ s'.mram.waitq = [] ∧ s'.mram.fhb = [] ∧
      s'.windowKey 1 (c.word c.prod) = some 6144 ∧ s'.windowKey 1 (e.base + h.xfer) = some 4096 := by decide +kernel
/-- The same with the ring disabled: there is no room for a record. -/
theorem hyp_data_refused : let s' := { got dataRx receiving with eng := legacy.eng }
    s'.mram.fhb.length + 1 + 3 ≤ 256 ∧
      deliverData (hdrOf dataRx) fromNbData (commitMark (hdrOf dataRx) fromNbData s').2 dataBody (commitMark (hdrOf dataRx) fromNbData s').1 = none := by
  decide +kernel
def stepOf {α : Type} (x : Except Nat α) : Nat := match x with
  | .error k => k
  | .ok _ => 0
theorem hyp_data_off : stepOf ((got dataRx legacy).headSteps (hdrOf dataRx)) = 5 ∧
    stepOf ((got cmdRx5 legacy).endSteps { hdrOf cmdRx5 with fcsOk := false } fromNb) = 9 := by decide +kernel

/-- An association asked for. -/
def associating : State := { legacy with mac := { legacy.mac with assoc := true } }
theorem hyp_assoc_rsp : Opens cmdRx2 typCommand fromNb [0, 0x77, 0x56, 0, 0, 0xFF, 0] associating ∧ (hdrOf cmdRx2).cmd = 2 ∧
    (got cmdRx2 associating).mac.assoc = true ∧ (got cmdRx2 associating).fromBeaconSrc (hdrOf cmdRx2) fromNb = true ∧
    leNat (([0, 0x77, 0x56, 0, 0, 0xFF, 0] : List Byte).drop 1 |>.take 2) < 0xFFFE := by unfold Opens; decide +kernel
theorem hyp_assoc_refused : Opens refusedRx typCommand fromNb [1, 0, 0, 0, 0, 0, 0] associating := by unfold Opens; decide +kernel
theorem hyp_slot_assign : Opens cmdRx3 typCommand fromNb [0, 0, 0xFF, 0] legacy ∧ (hdrOf cmdRx3).cmd = 3 ∧ (got cmdRx3 legacy).fromCoord fromNb = true := by
  unfold Opens; decide +kernel
theorem hyp_tonemap : Opens cmdRx4 typCommand fromNb [3, 2, 1, 0, 0, 0, 0, 0, 0, 0, 0] legacy ∧ (hdrOf cmdRx4).cmd = 4 ∧ fromNb.nb? = some 0 ∧
    (got cmdRx4 legacy).txSlotFor 0 = some 0 := by unfold Opens; decide +kernel
/-- The loading loop is off; its current slot for the neighbour is 3. -/
def mapping : State := { legacy with mac := { legacy.mac with loopCtl := 0, nbs := legacy.mac.nbs.set 0 { coordinator with curSlot := some 3 } } }
theorem hyp_tonemap_req : Opens cmdRx5 typCommand fromNb [] mapping ∧ (hdrOf cmdRx5).cmd = 5 ∧ (got cmdRx5 mapping).loopOn loopLoading = false ∧
    (got cmdRx5 mapping).mac.nbs[(0 : Fin 64)].curSlot = some 3 := by unfold Opens; decide +kernel
theorem hyp_leave : Opens cmdRx6 typCommand fromNb [0] legacy ∧ (hdrOf cmdRx6).cmd = 6 := by unfold Opens; decide +kernel
theorem hyp_nb_add : Opens cmdRx7 typCommand fromNb [0, 1, 2, 3, 4, 5, 6, 7, 9, 0] legacy ∧ (hdrOf cmdRx7).cmd = 7 ∧
    (got cmdRx7 legacy).nbByLong (ofBytesLE 64 [0, 1, 2, 3, 4, 5, 6, 7]) = none ∧ (got cmdRx7 legacy).mac.nbs[(63 : Fin 64)].valid = false := by
  unfold Opens; decide +kernel
theorem hyp_nb_del : Opens cmdRx8 typCommand fromNb [2, 0] legacy ∧ (hdrOf cmdRx8).cmd = 8 ∧ (got cmdRx8 legacy).nbByShort 2 = some 0 := by
  unfold Opens; decide +kernel
/-- The sender is no coordinator. -/
theorem hyp_not_coordinator : let s := { legacy with mac := { legacy.mac with nbs := legacy.mac.nbs.set 0 { coordinator with coord := false } } }
    Opens cmdRx3 typCommand fromNb [0, 0, 0xFF, 0] s ∧ (got cmdRx3 s).fromCoord fromNb = false := by unfold Opens; decide +kernel

/-- A robust frame of these bytes after the length word, as it is received: each header and data symbol at its full soft value. -/
def softOf (pts : List Point) : List (List (BitVec 3)) :=
  (List.range 24).map fun d => match pts.getD (let u := usedOfData d; if u < 14 then u + 2 else u + 3) .null with
    | .data bs => bs.map fun b => if b then 3 else -3
    | _ => []
def multitone (m : List Byte) : RxFrame :=
  let psdu := bytesLE 2 (lengthWord (m.length + 6)) ++ m ++ bytesLE 4 (crc32 m)
  { noFrame with
    header := (List.range 24).map fun d => if headerBit 3 d then 3 else -3
    soft := (robustSymbols 0 (dataSymbols 3 0 psdu.length / 4) 1 (codedBits 0 psdu)).map softOf }
/-- A wake frame of site 5 to 0x1234 with a rendezvous in 60 ms, its length word and its FCS from a program of the test's author. -/
def wakeRx : RxFrame := multitone [0x14, 0x04, 0, 5, 0, 0x34, 0x12, 60, 0]
def wakeFin : List Byte := [0x0f, 0xe0, 0x14, 0x04, 0, 5, 0, 0x34, 0x12, 60, 0, 0x8d, 0xf9, 0xba, 0xd0]
/-- In sniff mode, in site 5 or in site 6. -/
def sniffing (site : Word128) : State := { radio with
  lc := { radio.lc with site := { radio.lc.site with value := site } }, mac := { radio.mac with sniffEn := true } }
/-- The trellis decides the length word and the bytes that were sent (R260, R263). -/
theorem test_wake_length : (radio.heard wakeRx).len = 0xe00f := by decide +kernel
theorem test_wake_bytes : (radio.heard wakeRx).fin = wakeFin := by decide +kernel
theorem sniffing_heard (site : Word128) : (sniffing site).heard wakeRx = radio.heard wakeRx := by
  unfold State.heard
  rw [show (sniffing site).phy = radio.phy from rfl]
def wakeHdr : Hdr := (parsePsdu wakeFin).getD noHdr
theorem wake_reads (site : Word128) : let s := sniffing site
    let r := s.heard wakeRx
    s.tentOk r = true ∧ s.parsed r = some wakeHdr := by
  have l : lengthOk 0xe00f = true := by decide +kernel
  have h : parsePsdu wakeFin = some wakeHdr := by decide +kernel
  have o : (sniffing site).phy.active = false := rfl
  simp only [sniffing_heard, State.tentOk, State.parsed, o, test_wake_length, test_wake_bytes, l, h, Bool.or_true, Bool.false_eq_true, if_false,
    and_self]
theorem wake_arrives (site : Word128) (r : Heard) : let s := sniffing site
    let a := missedAck (arrive r s)
    a.siteId = s.siteId ∧ a.dstOk wakeHdr = s.dstOk wakeHdr ∧ a.mac = s.mac ∧ a.wakeCapped = s.wakeCapped := ⟨rfl, rfl, rfl, rfl⟩
theorem wake_header : radio.headerOk (radio.heard wakeRx) = true := by decide +kernel
theorem hyp_wake : wakeHdr.typ = typWake ∧ wakeHdr.site = 5 ∧ leNat wakeHdr.dst ≠ 0xFFFF ∧ ∀ site ∈ [5, 6], let s := sniffing (BitVec.ofNat 128 site)
    s.rxReady = true ∧ s.siteId.toNat = site ∧ s.dstOk wakeHdr = true ∧ s.mac.sniffEn = true ∧ s.wakeCapped = false := by decide +kernel

/-! ## Rule programs -/

/-- Slot 1's evaluation from window word 0, WR i = i, at this index after this many steps; the words of its window still wait for their array. -/
def e0 : Eval :=
  { op := 0, ring := 64, index := 0, prog := 0, wr := Vector.ofFn fun i => BitVec.ofNat 64 i.val, pc := 0, steps := 0, list := []
    snap := Vector.replicate 3 0, keySel := 0, tag := 7, irq := false, ll := none, hinted := false, staged := false, seq := 0, verdict := 0
    trap := 0, phase := .running, waitMs := 0 }
def program (l : List (Nat × Word128)) (e : Eval) : State := { run1 with
  eva := { Eva.reset with cur := some e }, mram := { run1.mram with fhb := l.map fun x => mkWrite (4096 + x.1) x.2 1 (.port .a) } }

/-- All of Fetches but for its existential, with the key given. -/
def fetchOk (op : Nat) (e : Eval) (w : Word128) (s : State) : Bool :=
  decide (s.eva.cur = some e ∧ e.phase = .running ∧ e.steps < 2048 ∧ e.pc ≤ 4095 ∧ field w 7 0 = op ∧ insOk w = true ∧
    s.heldBack e.slot e.ll ((e.prog + e.pc) % 262144) = false ∧ s.insnWaits w e = false ∧
    s.windowKey e.slot ((e.prog + e.pc) % 262144) = some 4096 ∧ s.deliver 4096 = .ok w false)
theorem fetches {op : Nat} {e : Eval} {w : Word128} {s : State} (h : fetchOk op e w s = true) : Fetches op e w s := by
  have h := of_decide_eq_true h
  exact ⟨h.1, h.2.1, h.2.2.1, h.2.2.2.1, h.2.2.2.2.1, h.2.2.2.2.2.1, h.2.2.2.2.2.2.1, h.2.2.2.2.2.2.2.1, 4096, false, h.2.2.2.2.2.2.2.2⟩

def ins (op : Nat) (l : List Word128) : Word128 := orAll (at_ 0 op :: l)
/-- One word of each instruction that stops nowhere: LDI to WR15, shifts by 63, branches to 4095, SENSE of item 7, SNAP of slots 6 and 7. -/
def words : List (Nat × Word128) :=
  [(0x01, ins 0x01 [at_ 8 15, at_ 64 (2 ^ 64 - 1)]), (0x02, ins 0x02 [at_ 8 1, at_ 12 15]), (0x03, ins 0x03 [at_ 8 1, at_ 20 3, at_ 32 4080, at_ 12 15]),
   (0x04, ins 0x04 [at_ 8 1, at_ 16 2, at_ 22 3, at_ 32 4095]), (0x05, ins 0x05 [at_ 8 1, at_ 22 1, at_ 32 4095, at_ 64 7, at_ 96 1]),
   (0x10, ins 0x10 [at_ 8 1, at_ 12 2, at_ 16 3]), (0x11, ins 0x11 [at_ 12 2, at_ 16 3]), (0x12, ins 0x12 [at_ 8 15]), (0x13, ins 0x13 [at_ 8 15]),
   (0x14, ins 0x14 [at_ 8 15]), (0x15, ins 0x15 [at_ 12 1, at_ 32 63]), (0x16, ins 0x16 [at_ 12 1, at_ 32 63]),
   (0x17, ins 0x17 [at_ 12 1, at_ 64 (2 ^ 64 - 1)]), (0x20, ins 0x20 [at_ 12 1, at_ 16 1, at_ 32 4095]), (0x21, ins 0x21 [at_ 12 1, at_ 32 4095]),
   (0x22, ins 0x22 [at_ 16 1, at_ 32 4095]), (0x23, ins 0x23 [at_ 32 4095]), (0x24, ins 0x24 [at_ 12 15, at_ 32 4095, at_ 64 63]),
   (0x25, ins 0x25 [at_ 32 4095]), (0x31, ins 0x31 [at_ 32 7]), (0x32, ins 0x32 [bitAt 20 true, at_ 32 6]), (0x33, ins 0x33 [at_ 32 65535]),
   (0x3F, ins 0x3F [at_ 20 1]), (0x3F, ins 0x3F [at_ 20 2]), (0x3F, ins 0x3F [at_ 20 3])]

theorem hyp_instructions : ∀ x ∈ words, e0.phase = .running ∧ e0.steps < 2048 ∧ e0.pc ≤ 4095 ∧ field x.2 7 0 = x.1 ∧ insOk x.2 = true := by
  decide +kernel
theorem hyp_instructions_free : ∀ x ∈ words, (program [(0, x.2)] e0).insnWaits x.2 e0 = false := by decide +kernel
theorem hyp_instructions_read : ∀ x ∈ words, (program [(0, x.2)] e0).deliver 4096 = .ok x.2 false := by decide +kernel
theorem hyp_instructions_window (x : Nat × Word128) : (program [(0, x.2)] e0).windowKey e0.slot ((e0.prog + e0.pc) % 262144) = some 4096 := by
  have h : run1.windowKey 1 0 = some 4096 := by decide +kernel
  exact h
theorem instructions_fetched : ∀ x ∈ words, Fetches x.1 e0 x.2 (program [(0, x.2)] e0) := fun x h =>
  have a := hyp_instructions x h
  ⟨rfl, a.1, a.2.1, a.2.2.1, a.2.2.2.1, a.2.2.2.2, rfl, hyp_instructions_free x h, 4096, false, hyp_instructions_window x, hyp_instructions_read x h⟩
/-- Window word 4095 has not been written: it reads as 0. -/
theorem hyp_reads : let s := program [] e0
    effAddr (ins 0x03 [at_ 8 1, at_ 20 3, at_ 32 4080, at_ 12 15]) e0 = 4095 ∧ effAddr (ins 0x05 [at_ 32 4095]) e0 = 4095 ∧
      s.windowKey 1 4095 = some 8191 ∧ s.deliver 8191 = .ok 0 false ∧ e0.list.length < 8 ∧ (s.senseItem 1 7).isSome = true ∧
      8 ≤ ({ e0 with list := List.replicate 8 { addr := 0, data := 0, cond := 3 } } : Eval).list.length := by decide +kernel

/-- The instruction's own word is held under a lifeline that is not the evaluation's. -/
theorem hyp_held_back : let s := program [] e0
    let s := { s with eng := { s.eng with hold := [{ op := 0, what := .write 0 5 }], ops := [{ opOf [0x02] with behind := [0] }] } }
    s.eva.cur = some e0 ∧ s.heldBack e0.slot e0.ll ((e0.prog + e0.pc) % 262144) = true := by decide +kernel

/-- FIND of WR5 = 5 among 4, 5, 9, and among 4, 6, 9; WR3 = 3 words, from word 10. -/
def findWord : Word128 := ins 0x30 [at_ 8 1, at_ 12 5, at_ 16 3, at_ 32 10]
def finding (b : Word128) : State := program [(0, findWord), (10, 4), (11, b), (12, 9)] { e0 with steps := 2035 }
theorem hyp_find : fetchOk 0x30 { e0 with steps := 2035 } findWord (finding 5) = true ∧ (finding 5).deliver 4106 = .ok 4 false ∧
    (finding 5).deliver 4107 = .ok 5 false ∧ (finding 5).deliver 4108 = .ok 9 false := by decide +kernel
theorem hyp_find_none : fetchOk 0x30 { e0 with steps := 2035 } findWord (finding 6) = true ∧ (finding 6).deliver 4107 = .ok 6 false := by
  decide +kernel

/-- HINT with a granule for slot 1's channel; with the queue full of other channels' stitches; with the channel full. -/
def hintWord : Word128 := ins 0x33 [at_ 32 9]
def hinting (l : List Stitch) (full : Bool) : State :=
  let s := program [(0, hintWord)] e0
  { s with log := { s.log with queue := l, chans := s.log.chans.set 1 { Chan.reset with grans := [5], full := full } } }
def someStitch (n : Fin 8) : Stitch :=
  { code := 0x800, ch := n, supp := 0, slots := [], flags := 0, clsM := false, cls0 := false, post := none, forOp := none, lc := none }
theorem hyp_hint_fetches : fetchOk 0x33 e0 hintWord (hinting [] false) = true := by decide +kernel
theorem hyp_hint : (∀ x ∈ [([], false), (List.replicate 8 (someStitch 0), false), ([], true)], let s := hinting x.1 x.2
      (e0.hinted || !flag s.eva.ctl 0 || !flag s.eng.ctl 0 || s.eva.fault) = false ∧ s.freeLine = some 0 ∧
        s.log.chans[e0.slot].full = x.2 ∧ s.log.chans[e0.slot].reuse = none ∧ 1 < s.freePos e0.slot ∧ s.log.seqEnd = false ∧ s.queueRoom = x.1.isEmpty) ∧
    (hinting [] false).log.chans[e0.slot].staged = none ∧ (hinting [] false).log.chans[e0.slot].tagging = none ∧
    (hinting [] false).mram.waitq = [] ∧ (hinting [] false).mram.fhb.length + 4 ≤ 256 := by decide +kernel

/-- Out of steps, of instructions, of the partition; unreadable, invalid and reserved words. -/
theorem hyp_traps : (2048 ≤ ({ e0 with steps := 2048 } : Eval).steps) ∧ (4095 < ({ e0 with pc := 4096 } : Eval).pc) ∧
    (program [] e0).windowKey 1 ((4095 + 1) % 262144) = none ∧
    ({ (program [] e0) with mram := { run1.mram with words := [(4096, encodeData 5 ^^^ 7)] } } : State).deliver 4096 = .bad .check ∧
    insOk (ins 0x3F []) = false ∧ field (ins 0x3F []) 7 0 = 0x3F ∧ knownOp 0 = false := by decide +kernel

/-! ## Evaluations -/

/-- The program at word 0, a credential of 22 bytes (one byte of plaintext, 0x01) at word 1, key 0. -/
def evalDesc : List Word128 := [orAll [at_ 0 0x20, at_ 8 3, at_ 32 0, at_ 64 1, at_ 96 22], 1, 2, 3]
/-- That byte sealed under the zero key and nonce, from an AES-CCM written apart from the model. -/
def credential : List Word128 := [ofBytesLE 128 (zeros 13 ++ [0xd4, 0xa2, 0xd1]), ofBytesLE 128 [0x29, 0x3a, 0x41, 0xc6, 0x02, 0x1c]]
def evaluating (l : List Key) (cred : List Word128) : State := { keyed evalDesc l with
  mram := { run1.mram with words := cred.mapIdx fun i w => (4097 + i, encodeData w) } }
def credKey : Key := { Key.reset with st := .active, use := 2 }
def verifies (cred : List Word128) : Bool :=
  let bytes := (cred.flatMap bytesOf).take 22
  decide (ccmTag 0 (bytes.take 13) [] (ccmCrypt 0 (bytes.take 13) ((bytes.drop 13).take 1)) 8 = (bytes.drop 14).take 8)

theorem hyp_evaluate : (∀ x ∈ [([], credential), ([credKey], credential), ([credKey], [0, 0])], let s := evaluating x.1 x.2
      let o := opOf evalDesc
      s.anyHeldBack o.slot none o.cred (wordsFor o.credLen) = false ∧ s.runnable 0 0x20 = some o ∧ s.eva.cur = none ∧ (s.earlier o fun q => q.opcode = 0x20 && !q.ran) = false ∧ o.dep = false ∧
        s.inPartition o.slot o.prog 1 = true ∧ s.inPartition o.slot o.cred (wordsFor o.credLen) = true ∧ o.credLen = 22 ∧
        s.useKey o.slot o.evaKey 2 false = (if x.1 = [] then none else some 0) ∧ (s.deliver 4097, s.deliver 4098) = (.ok (x.2.getD 0 0) false, .ok (x.2.getD 1 0) false)) ∧
    verifies credential = true ∧ verifies [0, 0] = false := by decide +kernel
theorem hyp_evaluate_outside : let d : List Word128 := [orAll [at_ 0 0x20, at_ 8 3, at_ 32 4096, at_ 64 1, at_ 96 22], 1, 2, 3]
    (flying d).runnable 0 0x20 = some (opOf d) ∧ ((flying d).inPartition 1 4096 1) = false ∧ (flying d).eva.cur = none := by decide +kernel

/-- A GRANT waits, its stitch staged at position 0 of the channel. -/
def granting : State :=
  let s := hinting [] false
  let p := s.placed (grantStitch e0 9 s) 0x3C
  { s with
    eva := { s.eva with cur := some { e0 with staged := true, phase := .grantWait 9 } }
    log := { s.log with chans := s.log.chans.set 1 { s.log.chans[1] with staged := some p } } }
theorem hyp_grant : granting.eva.fault = false ∧ (granting.log.chans[e0.slot].staged).isSome = true ∧
    ((granting.log.chans[e0.slot].staged).bind fun p => acceptAll (granting.listWrites e0.slot [] ++ (granting.markWrite p).2) granting).isSome = true ∧
    { granting with eva := { granting.eva with fault := true } }.eva.fault = true := by decide +kernel
/-- With every field hold buffer entry taken, while writes are deferred, the group is not accepted. -/
theorem hyp_grant_full : let s := { granting with mram := { granting.mram with fhb := List.replicate 256 entry } }
    ((s.log.chans[e0.slot].staged).map fun p => (acceptAll (s.listWrites e0.slot [] ++ (s.markWrite p).2) s).isNone) = some true := by decide +kernel

/-! ## The pair and the emergency orders -/

def driving (last : Option Nat) (ms : Nat) : State := { run1 with
  life := { run1.life with ms := ms }, eva := { Eva.reset with cur := some { e0 with phase := .driveWait }, armed := true, lastPulse := last } }
theorem hyp_drive : (driving none 0).power.vioOk = true ∧ (driving none 0).eva.fault = false ∧ (driving none 0).gapOver = true ∧
    (driving (some 0) 50).gapOver = true ∧ (driving (some 0) 49).gapOver = false ∧ (driving none 0).eva.armed = true ∧
    { driving none 0 with power := { onPower with vioOk := false } }.power.vioOk = false := by decide +kernel
theorem hyp_pair : (1 : Fin 8) ∈ ({ Eva.reset with pulses := [⟨2, 40⟩, ⟨1, 20⟩, ⟨1, 600⟩] } : Eva).pulseSlots ∧ run1.eva.fault = false ∧ (3 : BitVec 2) ≠ 0 ∧ run1.running = true ∧
    run1.power.vioOk = true ∧ Reached .a 0x1C20 0 run0 ∧ { run0.eva with fault := true, hold := true }.fault = true := by unfold Reached; decide

/-- Slot 1 is the SAFETY slot, its key 0 a SIGN key of zeros; the emergency endpoint is enabled. -/
def safety : State := { run1 with
  tenants := run1.tenants.set 1 { owned with role := .safety }, keys := run1.keys.set 4 { Key.reset with st := .active, use := useSign }
  eva := { Eva.reset with emerg := 0x07080A01 }, log := { run1.log with chans := run1.log.chans.set 1 { Chan.reset with grans := [5] } } }
/-- UNLOCK (1) or CANCEL (2), number 1, for every group, held for 65535 s. -/
def order (kind : Nat) : Word128 := orAll [at_ 0 kind, at_ 16 65535, at_ 32 1, at_ 96 0xFFFF]
def code (kind : Nat) : Word128 := (cmac64 0 (bytesOf (order kind))).setWidth 128
theorem hyp_orders : ∀ k ∈ [1, 2], ordKind (order k) = k ∧ safety.orderReady (order k) = true ∧ safety.orderResult 1 (order k) (code k) = 1 := by
  decide +kernel
theorem hyp_order_state : safety.running = true ∧ safety.tenants[(1 : Fin 8)].st ≠ .suspended ∧ safety.power.vioOk = true ∧ safety.eva.fault = false ∧
    safety.eva.emergQ = none ∧ safety.log.chans[(1 : Fin 8)].full = false ∧ 1 < safety.freePos 1 ∧ safety.log.seqEnd = false ∧
    safety.queueRoom = true ∧ run1.orderResult 1 (order 1) 0 = 2 ∧ run1.orderReady (order 1) = true ∧ ordKind (order 1) ≠ 2 := by decide +kernel

/-- An order's mark waits, staged. -/
def marking : State :=
  let st := { mkStitch safety Ev.emergUnlock.code 1 0 [] with cls0 := true }
  { safety with
    eva := { safety.eva with emergQ := some { slot := 1, w0 := order 1, hold := 1000, staged := true } }
    log := { safety.log with chans := safety.log.chans.set 1 { safety.log.chans[1] with staged := some (safety.placed st 0x3C) } } }
theorem hyp_mark : marking.eva.emergQ.isSome = true ∧ (marking.log.chans[(1 : Fin 8)].staged).isSome = true ∧ marking.mram.fhb.length < 256 ∧
    marking.eva.hold = false ∧ marking.eva.emergHeld = none ∧ ({ safety with log := { safety.log with queue := List.replicate 8 (someStitch 0) } }).orderReady (order 2) = false ∧ { safety.eva with hold := true }.emergQ = none := by decide +kernel
theorem hyp_held : let s := { run1 with eva := { Eva.reset with emergHeld := some (1, order 1, 0) } }
    s.eva.emergQ = none ∧ s.orderReady (order 1) = true ∧ s.orderResult 1 (order 1) 0 ≠ 1 ∧ s.running = true := by decide +kernel

/-! ## Sensing -/

theorem hyp_battery : let m := run0.batLowMv
    0 < m ∧ (BitVec.ofNat 16 (m - 1)).toNat < m ∧ m ≤ (BitVec.ofNat 16 m).toNat ∧ (BitVec.ofNat 16 (m + 99)).toNat < m + 100 ∧
      m + 100 ≤ (BitVec.ofNat 16 (m + 100)).toNat ∧ (onAirOf air run0).phy.txPhase = .onAir := by decide +kernel
theorem hyp_pins : (true != flag run0.sns.ctl 16) ≠ (false != flag run0.sns.ctl 16) ∧ Reached .a 0x2024 0 run0 ∧ Reached .b 0x204C 0 run0 := by
  unfold Reached; decide
/-- Site time 1000; STEP_MIN of the reset value: a source one below it, and at it. -/
theorem hyp_site_time : let m := field run0.sns.stCtl 7 0
    let s := { run0 with sns := { run0.sns with time := 1000 } }
    0 < m ∧ s.sns.time ≤ 1000 + (m - 1) ∧ 1000 + (m - 1) - s.sns.time < m ∧ 1000 - (m - 1) < s.sns.time + 1 ∧ s.sns.time - (1000 - (m - 1)) < m ∧
      m ≤ s.sns.time - (1000 - m) + ((1000 - m) - s.sns.time) := by decide
theorem hyp_boundary : let s := { run0 with sns := { run0.sns with pw := { run0.sns.pw with hwm := 100, next := 100 }, lenPend := none, originPend := none } }
    s.boundaryDue = true ∧ s.running = true ∧ 1 ≤ s.sns.len ∧ s.mram.waitq = [] ∧ s.tenants[(2 : Fin 8)].owned = true ∧
      s.tenants[(7 : Fin 8)].owned = false ∧ ({ s with sns := { s.sns with pw := { s.sns.pw with next := 101 } } }).boundaryDue = false := by decide +kernel
theorem hyp_ledger : run0.sns.wb ≠ 0 ∧ run0.mram.fhb.length + 16 ≤ 256 ∧ run0.mram.waitq = [] ∧ run0.tenants[(1 : Fin 8)].st ≠ .free ∧
    { run0 with sns := { run0.sns with wb := 0 } }.sns.wb = 0 := by decide

/-! ## The recorder -/

def offering : State := { safety with log := { safety.log with queue := [someStitch 1] } }
theorem hyp_offer : offering.recorderUp = true ∧ offering.nextStitch offering.log.queue [] = some (someStitch 1) ∧ offering.eva.cur = none ∧
    offering.eva.emergHeld = none ∧ offering.log.clrWait = none ∧ offering.lc.run = none ∧ offering.mram.waitq = [] ∧ offering.mram.fhb = [] ∧
    offering.log.chans[(1 : Fin 8)].reuse = none ∧ feedEn offering.tenants[(1 : Fin 8)].feed = false ∧
    ((List.range 4).map (offering.posKey 1 0)).Nodup ∧ (∀ i < 4, (offering.posKey 1 0 i).isSome) ∧
    run1.nextStitch run1.log.queue [] = none := by decide +kernel
theorem hyp_tagging : let p := run1.placed (someStitch 0) 0xA5
    let s := { run1 with log := { run1.log with chans := run1.log.chans.set 0 { Chan.reset with tagging := some p } } }
    s.log.clrWait = none ∧ (s.log.chans[(0 : Fin 8)].tagging).isSome = true := by decide +kernel
/-- Channel 1 is of class M, and goes back to class C with bit 1, not with bit 0. -/
theorem hyp_class_m : let s := { run0 with lc := { run0.lc with audit := run0.lc.audit.set 1 { LcRecord.reset with value := 1 } } }
    Reached .b 0x220C 0 s ∧ (2 : Byte).getLsbD 1 = true ∧ s.lc.audit[(1 : Fin 8)].value.getLsbD 0 = true ∧
      ∀ n : Fin 8, ((1 : Byte).getLsbD n.val && s.lc.audit[n].value.getLsbD 0) = false := by unfold Reached; decide
theorem hyp_classes : Reached .a 0x220C 0 run0 ∧ Reached .b 0x22E0 0 run0 ∧ (reservedCode 0x061 || fixedCode 0x061) = true ∧
    (reservedCode 0xFFF || fixedCode 0xFFF) = false := by unfold Reached; decide +kernel

/-- Site slot 0 holds an ACTIVE key of zeros; the code of a clear of channel 1, or another, has been written. -/
def clearing (good : Bool) : State :=
  let s := { run0 with keys := run0.keys.set 32 { Key.reset with st := .active } }
  { s with log := { s.log with clrCode := if good then cmac64 0 (clearMessage s 1) else 0, chans := s.log.chans.set 1 { Chan.reset with grans := [5] } } }
theorem hyp_clear : ∀ good ∈ [true, false], let s := clearing good
    Reached .a 0x22E8 0 s ∧ s.log.clrWait = none ∧ s.clearBusy 1 = false ∧ s.clearWaits 1 = false ∧ s.clearCodeOk 1 = good ∧ 0 < s.capacity 1 := by
  unfold Reached; decide +kernel
theorem hyp_clear_waits : let s := { clearing true with log := { (clearing true).log with queue := List.replicate 8 (someStitch 0) } }
    s.clearBusy 1 = false ∧ s.clearWaits 1 = true ∧ { s with log := marking.log }.clearBusy 1 = true := by decide +kernel
theorem hyp_rec_post : Reached .a 0x2300 1 run1 ∧ run1.posting 1 = false ∧ (0x7FF : BitVec 12).msb = false ∧ (0x800 : BitVec 12).msb = true ∧
    ({ run1 with log := { run1.log with queue := [{ someStitch 1 with post := some 1 }] } }).posting 1 = true := by unfold Reached; decide +kernel

/-- Position 0 of channel 1 holds four words of zeros; the cursor is there. -/
def reading (res : BitVec 4) : State :=
  let s := { safety with log := { safety.log with chans := safety.log.chans.set 1 { Chan.reset with grans := [5], head := { HeadWord.reset with pos := 1 } } } }
  let keys := (List.range 4).filterMap (s.posKey 1 0)
  { s with
    mram := { s.mram with words := keys.map fun k => (k, encodeData 0) }
    portA := { s.portA with cursor := some (1, 0), rdResult := res } }
theorem hyp_read : Reached .a 0x2344 1 (reading 2) ∧ ((reading 2).port .a).cursor = some (1, 0) ∧ ((reading 2).port .a).rdResult = 2 ∧
    (reading 2).log.chans[(1 : Fin 8)].head.pos = 1 ∧ (reading 2).log.chans[(1 : Fin 8)].staged = none ∧ (reading 2).log.chans[(1 : Fin 8)].reuse = none ∧
    ((List.range 4).map fun i => ((reading 2).posKey 1 0 i).map (reading 2).deliver) = List.replicate 4 (some (.ok 0 false)) ∧
    (reading 2).tenants[(1 : Fin 8)].recOwn ≤ ((reading 2).port .a).rdStart ∧ (reading 0).running = true ∧ (run1.port .a).cursor = none := by
  unfold Reached; decide +kernel

def auditing (good : Bool) : State :=
  let s : State := { clearing true with log := { (clearing true).log with audNonce := 1 } }
  { s with log := { s.log with audCode := if good then cmac64 0 (auditMessage s .a) else 0 } }
theorem hyp_audit : ∀ good ∈ [true, false], let s := auditing good
    Reached .a 0x2358 0 s ∧ s.siteAuth = some 0 ∧ decide (cmac64 0 (auditMessage s .a) = s.log.audCode) = good := by
  unfold Reached; decide +kernel

/-! ## The whole machine -/

theorem hyp_rev : State.reset.revOk = true ∧ mayBurn .pairDrive = false ∧ mayHold .holdEnd = false := by decide

/-- The commands of a step come from the queue; from a state in form, an ordinary one goes on. -/
theorem hyp_forms : MemForm State.reset ∧ SkeinForm State.reset.skn ∧ step { State.reset with pending := [.pairDrive] } = .next State.reset := by
  refine ⟨?_, ?_, rfl⟩
  · refine ⟨by decide +kernel, fun e he => ?_⟩
    have h : State.reset.mram.waitq ++ State.reset.mram.fhb ++ State.reset.mram.arrA.queue ++ State.reset.mram.arrB.queue = [] := rfl
    rw [h] at he
    cases he
  · unfold SkeinForm; decide +kernel

/-! ## The manual's own numbers -/

theorem test_crc32_check : crc32 ("123456789".toList.map fun c => BitVec.ofNat 8 c.toNat) = 0xCBF43926 := by decide +kernel
theorem test_aes_fips197 : aes 0 (zeros 16) = bytesOf (ofBytesLE 128 [0x66, 0xe9, 0x4b, 0xd4, 0xef, 0x8a, 0x2c, 0x3b, 0x88, 0x4c, 0xfa, 0x59, 0xca, 0x34, 0x2b, 0x2e]) := by
  decide +kernel

end Sys2Proof.Tests
end

/-! PROOFS. A doorbell's POST (R93, R133).  The sweep that follows it accepts context words alone, for nothing else waits, and such a word completes
no operation: so the sweep leaves every ring as it was but for which context words are still to be written. -/

namespace Sys2Proof.Machine

/-! ### Rings after an update -/

@[simp] theorem ring_modRing_same (s : State) (r : Fin 512) (f : Ring → Ring) : (s.modRing r f).ring r = f (s.ring r) :=
  upd_same s.eng.rings r f

theorem ring_modRing_ne (s : State) {r x : Fin 512} (f : Ring → Ring) (h : x ≠ r) : (s.modRing r f).ring x = s.ring x :=
  upd_ne s.eng.rings r x f h

theorem ring_eq_of_eng_eq {s t : State} (h : t.eng = s.eng) (x : Fin 512) : t.ring x = s.ring x := by
  unfold State.ring
  rw [h]

@[simp] theorem ring_modCtx_same (s : State) (r : Fin 512) (f : RingCtx → RingCtx) :
    (modCtx r f s).ring r = { s.ring r with ctx := f (s.ring r).ctx, dirty := true } := ring_modRing_same s r _

theorem ring_modCtx_ne (s : State) {r x : Fin 512} (f : RingCtx → RingCtx) (h : x ≠ r) : (modCtx r f s).ring x = s.ring x :=
  ring_modRing_ne s _ h

/-! ### Acceptance of words of the system area -/

/-- Every write that waits is a word of the system area. -/
def OnlySysWaits (s : State) : Prop := ∀ e ∈ s.mram.waitq, ∃ i, e.tgt = .sys i

theorem onlySysWaits_of_nil {s : State} (h : s.mram.waitq = []) : OnlySysWaits s := by simp [OnlySysWaits, h]

theorem afterAccept_sys {e : WEntry} {i : SysItem} (he : e.tgt = .sys i) (s : State) : afterAccept e s = s := by
  unfold afterAccept
  rw [he]
  cases e.opDone <;> rfl

/-- Acceptance of a word of the system area completes no operation and queues no write. -/
theorem place_sys {e : WEntry} {i : SysItem} (he : e.tgt = .sys i) (s : State) :
    (place e s).eng = s.eng ∧ (place e s).mram.waitq = s.mram.waitq := by
  unfold place
  rw [afterAccept_sys he, he]
  dsimp only
  split
  · cases e.arr <;> exact ⟨rfl, rfl⟩
  · exact ⟨rfl, rfl⟩

theorem foldl_place_sys {es : List WEntry} (h : ∀ e ∈ es, ∃ i, e.tgt = .sys i) (s : State) :
    (es.foldl (fun s e => place e s) s).eng = s.eng ∧ (es.foldl (fun s e => place e s) s).mram.waitq = s.mram.waitq := by
  induction es generalizing s with
  | nil => exact ⟨rfl, rfl⟩
  | cons e es ih =>
    obtain ⟨i, hi⟩ := h e (by simp)
    obtain ⟨heng, hwait⟩ := place_sys hi s
    obtain ⟨heng', hwait'⟩ := ih (fun e he => h e (by simp [he])) (place e s)
    exact ⟨heng'.trans heng, hwait'.trans hwait⟩

theorem acceptAll_sys {es : List WEntry} {s t : State} (h : ∀ e ∈ es, ∃ i, e.tgt = .sys i) (ht : acceptAll es s = some t) :
    t.eng = s.eng ∧ t.mram.waitq = s.mram.waitq := by
  unfold acceptAll at ht
  dsimp only at ht
  split at ht
  · injection ht with ht
    exact ht ▸ foldl_place_sys h s
  · cases ht

/-- The entries that do not fit are some of those that waited. -/
theorem drainList_rest_subset (l : List WEntry) (s : State) : (drainList l s).2 ⊆ l := by
  induction l, s using drainList.induct with
  | case1 s => simp [drainList]
  | case2 e s t h => simp [drainList, h]
  | case3 e s h => simp [drainList, h]
  | case4 e e' rest s hc t h ih =>
    rw [drainList, if_pos hc, h]
    exact fun x hx => List.mem_cons_of_mem _ (List.mem_cons_of_mem _ (ih hx))
  | case5 e e' rest s hc h => rw [drainList, if_pos hc, h]; exact List.Subset.refl _
  | case6 e e' rest s hc t h ih =>
    rw [drainList, if_neg hc, h]
    exact fun x hx => List.mem_cons_of_mem _ (ih hx)
  | case7 e e' rest s hc h => rw [drainList, if_neg hc, h]; exact List.Subset.refl _

theorem drainList_sys {l : List WEntry} (s : State) (hl : ∀ e ∈ l, ∃ i, e.tgt = .sys i) :
    (drainList l s).1.eng = s.eng ∧ (drainList l s).1.mram.waitq = s.mram.waitq := by
  induction l, s using drainList.induct with
  | case1 s => exact ⟨rfl, rfl⟩
  | case2 e s t h => simpa [drainList, h] using acceptAll_sys hl h
  | case3 e s h => simp [drainList, h]
  | case4 e e' rest s hc t h ih =>
    rw [drainList, if_pos hc, h]
    obtain ⟨heng, hwait⟩ := acceptAll_sys (fun x hx => hl x (List.mem_of_mem_take (i := 2) hx)) h
    obtain ⟨heng', hwait'⟩ := ih fun x hx => hl x (by simp [hx])
    exact ⟨heng'.trans heng, hwait'.trans hwait⟩
  | case5 e e' rest s hc h => rw [drainList, if_pos hc, h]; exact ⟨rfl, rfl⟩
  | case6 e e' rest s hc t h ih =>
    rw [drainList, if_neg hc, h]
    obtain ⟨heng, hwait⟩ := acceptAll_sys (fun x hx => hl x (List.mem_of_mem_take (i := 1) hx)) h
    obtain ⟨heng', hwait'⟩ := ih fun x hx => hl x (List.mem_cons_of_mem _ hx)
    exact ⟨heng'.trans heng, hwait'.trans hwait⟩
  | case7 e e' rest s hc h => rw [drainList, if_neg hc, h]; exact ⟨rfl, rfl⟩

theorem drainOnce_sys {s : State} (h : OnlySysWaits s) : (drainOnce s).eng = s.eng ∧ OnlySysWaits (drainOnce s) := by
  have hl : ∀ e ∈ withoutStale s.mram.waitq, ∃ i, e.tgt = .sys i := fun e he => h e (List.mem_filter.mp he).1
  obtain ⟨heng, hwait⟩ := drainList_sys (s.modMram fun m => { m with waitq := [] }) hl
  refine ⟨heng, fun e he => ?_⟩
  have he' : e ∈ (drainList (withoutStale s.mram.waitq) (s.modMram fun m => { m with waitq := [] })).2 := by
    simpa [drainOnce, hwait] using he
  exact hl e (drainList_rest_subset _ _ he')

/-- Where only words of the system area wait, acceptance leaves the engine as it is, and only such words wait after it. -/
theorem drainWait_sys {s : State} (h : OnlySysWaits s) : (drainWait s).eng = s.eng ∧ OnlySysWaits (drainWait s) := by
  obtain ⟨heng, hsys⟩ := drainOnce_sys h
  obtain ⟨heng', hsys'⟩ := drainOnce_sys hsys
  exact ⟨heng'.trans heng, hsys'⟩

theorem queueCtx_sys {s : State} (r : Fin 512) (h : OnlySysWaits s) : OnlySysWaits (queueCtx r s) := by
  unfold queueCtx
  split
  · intro e he
    rcases List.mem_append.mp (show e ∈ s.mram.waitq ++ [ctxWrite s r] from he) with he | he
    · exact h e he
    · exact ⟨_, congrArg WEntry.tgt (List.mem_singleton.mp he)⟩
  · exact h

/-! ### What the sweep leaves of the rings -/

/-- t differs from s in what acceptance reaches, and there has the rings of s, but for which context words are still to be written, and the
operation numbers of s. -/
def KeepsRings (s t : State) : Prop := Accepts s t ∧ (∀ x, SameButDirty x s t) ∧ t.eng.nextOp = s.eng.nextOp

theorem KeepsRings.of_rings {s t : State} (ha : Accepts s t) (hr : t.eng.rings = s.eng.rings) (hn : t.eng.nextOp = s.eng.nextOp) :
    KeepsRings s t := by
  refine ⟨ha, fun x => ?_, hn⟩
  have hx : t.ring x = s.ring x := by simp only [State.ring, hr]
  rw [SameButDirty, hx]

theorem KeepsRings.refl (s : State) : KeepsRings s s := .of_rings (.refl s) rfl rfl

theorem KeepsRings.trans {s t u : State} (h : KeepsRings s t) (g : KeepsRings t u) : KeepsRings s u := by
  obtain ⟨ha, hr, hn⟩ := h
  obtain ⟨ha', hr', hn'⟩ := g
  refine ⟨ha.trans ha', fun x => ?_, hn'.trans hn⟩
  have hx : t.ring x = { s.ring x with dirty := (t.ring x).dirty } := hr x
  have hx' : u.ring x = { t.ring x with dirty := (u.ring x).dirty } := hr' x
  rw [hx] at hx'
  exact hx'

theorem queueCtx_keepsRings (r : Fin 512) (s : State) : KeepsRings s (queueCtx r s) := by
  refine ⟨queueCtx_accepts r s, fun x => ?_, ?_⟩
  · unfold queueCtx
    split
    · by_cases hx : x = r
      · subst hx
        rw [SameButDirty, ring_modRing_same]
        rfl
      · rw [SameButDirty, ring_modRing_ne _ _ hx]
        rfl
    · rfl
  · unfold queueCtx
    split <;> rfl

theorem drainWait_keepsRings {s : State} (h : OnlySysWaits s) : KeepsRings s (drainWait s) := by
  obtain ⟨heng, -⟩ := drainWait_sys h
  exact .of_rings (drainWait_accepts s) (congrArg Engine.rings heng) (congrArg Engine.nextOp heng)

/-- One round of the trimming: nothing, or the first dirty context word is queued and accepted.  The list of the rings is made opaque first:
the equation that Lean would derive by itself evaluates it. -/
theorem trimHold_succ (f : Nat) (s : State) : trimHold (f + 1) s =
    if s.holdUsed < 64 then s
    else ((List.finRange 512).find? fun r => (s.ring r).dirty).elim s fun r => trimHold f (drainWait (queueCtx r s)) := by
  delta trimHold trimHold._f
  generalize List.finRange 512 = l
  refine ite_congr rfl (fun _ => rfl) fun _ => ?_
  cases l.find? fun r => (s.ring r).dirty <;> rfl

theorem trimHold_keepsRings (f : Nat) {s : State} (h : OnlySysWaits s) : KeepsRings s (trimHold f s) := by
  induction f generalizing s with
  | zero => exact .refl s
  | succ f ih =>
    rw [trimHold_succ]
    split
    · exact .refl s
    · cases (List.finRange 512).find? fun r => (s.ring r).dirty with
      | none => exact .refl s
      | some r =>
        have hq := queueCtx_sys r h
        obtain ⟨-, hd⟩ := drainWait_sys hq
        exact ((queueCtx_keepsRings r s).trans (drainWait_keepsRings hq)).trans (ih hd)

theorem startLine_keepsRings (o : Op) (s : State) : KeepsRings s (startLine o s) := by
  unfold startLine
  split
  · split
    · exact .refl s
    · exact .of_rings ((accepts_eng s _).trans (accepts_eng _ _)) rfl rfl
  · exact .refl s

theorem startLines_keepsRings (s : State) : KeepsRings s (startLines s) :=
  foldl_induction .refl .trans _ _ (fun s o => by
    split
    · exact startLine_keepsRings _ s
    · exact .refl s) s

theorem goOnDiscarding_nil {s : State} (h : s.eng.discards = []) : goOnDiscarding s = s := by simp [goOnDiscarding, h]

/-- With no discarding under way and no write of a user word waiting, the sweep keeps the rings. -/
theorem engSweep_keepsRings {s : State} (hw : OnlySysWaits s) (hd : s.eng.discards = []) : KeepsRings s (engSweep s) := by
  obtain ⟨heng, hsys⟩ := drainWait_sys hw
  rw [engSweep, goOnDiscarding_nil (heng ▸ hd)]
  exact ((drainWait_keepsRings hw).trans (trimHold_keepsRings 512 hsys)).trans (startLines_keepsRings _)

theorem Accepts.tenants {s t : State} (h : Accepts s t) : t.tenants = s.tenants := by
  obtain ⟨m, i, e, q, a, b, rfl⟩ := h
  rfl

theorem Accepts.keys {s t : State} (h : Accepts s t) : t.keys = s.keys := by
  obtain ⟨m, i, e, q, a, b, rfl⟩ := h
  rfl

/-! ### A ring's index moves -/

/-- t has the context of ring r changed by f, every other ring as in s but for which context words are still to be written, and the operation
numbers, the slots and the keys of s. -/
def MovesCtx (r : Fin 512) (f : RingCtx → RingCtx) (s t : State) : Prop :=
  (t.ring r).ctx = f (s.ring r).ctx ∧ (t.ring r).halted = (s.ring r).halted ∧ (t.ring r).fetch = (s.ring r).fetch ∧
    t.eng.nextOp = s.eng.nextOp ∧ (∀ x, x ≠ r → SameButDirty x s t) ∧ t.tenants = s.tenants ∧ t.keys = s.keys

theorem movesCtx_of_keepsRings {r : Fin 512} {f : RingCtx → RingCtx} {s t : State} (h : KeepsRings (modCtx r f s) t) : MovesCtx r f s t := by
  obtain ⟨ha, hr, hn⟩ := h
  have hself : t.ring r = { (modCtx r f s).ring r with dirty := (t.ring r).dirty } := hr r
  rw [ring_modCtx_same] at hself
  refine ⟨by rw [hself], by rw [hself], by rw [hself], hn, fun x hx => ?_, ha.tenants, ha.keys⟩
  have hother : t.ring x = { (modCtx r f s).ring x with dirty := (t.ring x).dirty } := hr x
  rwa [ring_modCtx_ne _ _ hx] at hother

/-- A POST within reach of CONS and of PROD: an index that PROD has already changes nothing. -/
theorem post_in_reach {r : Fin 512} {i : BitVec 16} {s : State} (hk : (s.ring r).ctx.cpl? = false)
    (hc : (i - (s.ring r).ctx.cons).toNat ≤ (s.ring r).ctx.slots) (hp : (i - (s.ring r).ctx.prod).toNat ≤ (s.ring r).ctx.slots) :
    post r i s = if i = (s.ring r).ctx.prod then s else engSweep (modCtx r (fun c => { c with prod := i }) s) := by
  simp only [post, hk, Bool.false_eq_true, if_false, Bool.and_eq_true, decide_eq_true_eq, if_pos (And.intro hc hp)]

/-- An accepted POST to a submit ring. -/
theorem post_submit {r : Fin 512} {i : BitVec 16} {s : State} (hw : s.mram.waitq = []) (hd : s.eng.discards = [])
    (hk : (s.ring r).ctx.cpl? = false) (hc : (i - (s.ring r).ctx.cons).toNat ≤ (s.ring r).ctx.slots)
    (hp : (i - (s.ring r).ctx.prod).toNat ≤ (s.ring r).ctx.slots) :
    MovesCtx r (fun c => { c with prod := i }) s (post r i s) ∧ (i = (s.ring r).ctx.prod → post r i s = s) := by
  by_cases hi : i = (s.ring r).ctx.prod
  · have hs : post r i s = s := (post_in_reach hk hc hp).trans (if_pos hi)
    refine ⟨?_, fun _ => hs⟩
    rw [hs, hi]
    exact ⟨rfl, rfl, rfl, rfl, fun _ _ => rfl, rfl, rfl⟩
  · have hs : post r i s = engSweep (modCtx r (fun c => { c with prod := i }) s) := (post_in_reach hk hc hp).trans (if_neg hi)
    refine ⟨?_, fun h => absurd h hi⟩
    rw [hs]
    exact movesCtx_of_keepsRings (engSweep_keepsRings (onlySysWaits_of_nil hw) hd)

/-- A POST to a completion ring; the context word of one that it empties is written. -/
theorem post_completion {r : Fin 512} (i : BitVec 16) {s : State} (hw : s.mram.waitq = []) (hd : s.eng.discards = [])
    (hk : (s.ring r).ctx.cpl? = true) : MovesCtx r (fun c => { c with cons := i }) s (post r i s) := by
  apply movesCtx_of_keepsRings
  have hm : OnlySysWaits (modCtx r (fun c => { c with cons := i }) s) := onlySysWaits_of_nil hw
  have hq : (queueCtx r (modCtx r (fun c => { c with cons := i }) s)).eng.discards = [] := by
    unfold queueCtx
    split <;> exact hd
  simp only [post, hk, if_true]
  split
  · exact (queueCtx_keepsRings r _).trans (engSweep_keepsRings (queueCtx_sys r hm) hq)
  · exact engSweep_keepsRings hm hd

/-! ### A ring halts -/

theorem ring_queueCtx_ne (s : State) {r x : Fin 512} (h : x ≠ r) : (queueCtx r s).ring x = s.ring x := by
  unfold queueCtx
  split
  · exact ring_modRing_ne _ _ h
  · rfl

/-- Writing the context word of ring r leaves every other ring as it is, its dirty mark included. -/
theorem drainWait_queueCtx_rings (r : Fin 512) {s : State} (h : OnlySysWaits s) :
    SameButDirty r s (drainWait (queueCtx r s)) ∧ ∀ x, x ≠ r → (drainWait (queueCtx r s)).ring x = s.ring x := by
  have hq := queueCtx_sys r h
  obtain ⟨-, hrings, -⟩ := (queueCtx_keepsRings r s).trans (drainWait_keepsRings hq)
  exact ⟨hrings r, fun x hx => (ring_eq_of_eng_eq (drainWait_sys hq).1 x).trans (ring_queueCtx_ne s hx)⟩

/-- A halt without a descriptor's index leaves the context, and every other ring, as they are; a disabled ring stays DISABLED. -/
theorem haltRing_none {s : State} (r : Fin 512) (cause : Nat) (hw : s.mram.waitq = []) :
    ((haltRing r cause none s).ring r).ctx = (s.ring r).ctx ∧ ((haltRing r cause none s).ring r).halted = (s.ring r).ctx.en ∧
      ((haltRing r cause none s).ring r).cause = BitVec.ofNat 4 cause ∧ ∀ x, x ≠ r → (haltRing r cause none s).ring x = s.ring x := by
  have hsys : OnlySysWaits ((modCtx r (fun c => { c with haltAt := c.haltAt }) s).modRing r fun q =>
      { q with halted := q.ctx.en, cause := BitVec.ofNat 4 cause }) := onlySysWaits_of_nil hw
  obtain ⟨hself, hothers⟩ := drainWait_queueCtx_rings r hsys
  rw [SameButDirty, ring_modRing_same, ring_modCtx_same] at hself
  have hring : (haltRing r cause none s).ring r = _ := hself
  refine ⟨by rw [hring], by rw [hring], by rw [hring], fun x hx => (hothers x hx).trans ?_⟩
  rw [ring_modRing_ne _ _ hx, ring_modCtx_ne _ _ hx]

/-- A POST out of reach of CONS or of PROD is a halt with the cause of a bad doorbell. -/
theorem post_out_of_reach {r : Fin 512} {i : BitVec 16} {s : State} (hk : (s.ring r).ctx.cpl? = false)
    (h : (s.ring r).ctx.slots < (i - (s.ring r).ctx.cons).toNat ∨ (s.ring r).ctx.slots < (i - (s.ring r).ctx.prod).toNat) :
    post r i s = haltRing r causeDoorbell none s := by
  have hn : ¬ ((i - (s.ring r).ctx.cons).toNat ≤ (s.ring r).ctx.slots ∧ (i - (s.ring r).ctx.prod).toNat ≤ (s.ring r).ctx.slots) := by omega
  simp only [post, hk, Bool.and_eq_true, decide_eq_true_eq, if_neg hn, Bool.false_eq_true, if_false]

/-! ### The gate of a doorbell -/

theorem atRing_own {p : Port} {r : Fin 512} {s : State} (act : State → State) (h : OwnRing p r s) : atRing p r act s = act s := by
  obtain ⟨hw, hr⟩ := h
  simp [atRing, hw, hr]

theorem atRing_other {p : Port} {r : Fin 512} {n : Fin 8} {s : State} (act : State → State) (h : Reached p 0x400 n s) (hn : slotOfRing r ≠ n) :
    atRing p r act s = violate n 1 r.val s := by
  obtain ⟨hw, hr⟩ := h
  simp [atRing, hw, hr, hn]

theorem News.lc {s t : State} (h : News s t) : t.lc = s.lc := by
  obtain ⟨l, a, b, rfl⟩ := h
  rfl

/-- A violation leaves the engine as it is and counts for its slot alone. -/
theorem violate_eng_tenants (n : Fin 8) (path : BitVec 4) (idx : Nat) (s : State) :
    (violate n path idx s).eng = s.eng ∧ (violate n path idx s).tenants = upd s.tenants n fun t => { t with iso := satInc t.iso } := by
  obtain ⟨l, l', a, b, h⟩ := violate_changes n path idx s
  rw [h]
  exact ⟨rfl, rfl⟩

/-- The first violation is captured with its slot, path and index. -/
theorem violate_captures_first (n : Fin 8) (path : BitVec 4) (idx : Nat) {s : State} (h : s.lc.isoV = false) :
    (violate n path idx s).lc = { s.lc with isoSlot := n, isoPath := path, isoIdx := BitVec.ofNat 16 idx, isoV := true } := by
  unfold violate
  simp only [State.modTen_lc, h, Bool.false_eq_true, if_false]
  exact ((raise_news _ _ _ _).trans (irqSlot_news _ _ _)).lc

/-- Settles O24: an accepted index is one context change and a sweep that keeps the rings; one out of reach is a halt; another slot's ring is stopped
by the gate that the four doorbells share. -/
theorem postMovesTheIndex : Obligations.PostMovesTheIndex := by
  intro p r i n s hw hd c
  refine ⟨fun hown hk hcons hprod => ?_, fun hown hk hfar => ?_, fun hown hk => ?_, fun hreach hn d hdoor => ?_⟩
  · obtain ⟨⟨hctx, hhalt, hfetch, hnext, hothers, hten, hkeys⟩, hidle⟩ := post_submit hw hd hk hcons hprod
    exact ⟨post r i s, congrArg _ (atRing_own _ hown), hctx, hhalt, hfetch, hnext, hidle, hothers, hten, hkeys⟩
  · obtain ⟨hctx, hhalt, hcause, hothers⟩ := haltRing_none r causeDoorbell hw
    have ha := haltRing_accepts r causeDoorbell none s
    exact ⟨haltRing r causeDoorbell none s, congrArg _ ((atRing_own _ hown).trans (post_out_of_reach hk hfar)), hctx, hhalt, hcause, hothers,
      ha.tenants, ha.keys⟩
  · exact ⟨post r i s, congrArg _ (atRing_own _ hown), post_completion i hw hd hk⟩
  · obtain ⟨heng, hten⟩ := violate_eng_tenants n 1 r.val s
    refine ⟨violate n 1 r.val s, ?_, heng, ?_, violate_captures_first n 1 r.val⟩
    · simp only [List.mem_cons, List.not_mem_nil, or_false] at hdoor
      obtain rfl | rfl | rfl | rfl := hdoor <;> exact congrArg _ (atRing_other _ hreach hn)
    · rw [hten]
      exact upd_same _ n _

end Sys2Proof.Machine

/-! PROOFS. The grants of slot 0 and a reserved skein operation (R164 to R167).  The word of the system area that records a grant changes the write
path alone: it waits, or is accepted into the queue of its array or into the field hold buffer, and no read finds anything else for it. -/

namespace Sys2Proof.Machine

/-! ### Issuing one word of the system area -/

/-- t is s with one more entry on the write path: waiting, in the queue of the entry's array, or in the field hold buffer. -/
def QueuesOne (e : WEntry) (s t : State) : Prop :=
  t = (s.modMram fun m => { m with waitq := m.waitq ++ [e] }) ∨
  t = (s.modArr e.arr fun a => { a with queue := a.queue ++ [e] }) ∨
  t = s.modMram fun m => { m with fhb := m.fhb ++ [e], fwords := satInc m.fwords }

theorem place_sys_queuesOne {e : WEntry} {i : SysItem} (he : e.tgt = .sys i) (s : State) : QueuesOne e s (place e s) := by
  unfold place
  rw [afterAccept_sys he, he]
  dsimp only
  split
  · exact .inr (.inl rfl)
  · exact .inr (.inr rfl)

theorem sysIssue_queuesOne {e : WEntry} {i : SysItem} (he : e.tgt = .sys i) (s : State) : QueuesOne e s (sysIssue [e] s) := by
  unfold sysIssue acceptAll
  dsimp only
  split
  · split
    · exact place_sys_queuesOne he s
    · exact .inl rfl
  · exact .inl rfl

/-- An entry of the system area gives no key a value, so a list of entries reads with it as without it. -/
theorem findSome_reverse_append_sys {e : WEntry} {i : SysItem} (he : e.tgt = .sys i) (l : List WEntry) (k : Nat) :
    ((l ++ [e]).reverse.findSome? fun e => targetAt k e.tgt) = l.reverse.findSome? fun e => targetAt k e.tgt := by
  simp [he, targetAt]

theorem QueuesOne.readKey {e : WEntry} {i : SysItem} {s t : State} (h : QueuesOne e s t) (he : e.tgt = .sys i) (k : Nat) :
    t.readKey k = s.readKey k := by
  have hlist := findSome_reverse_append_sys he
  unfold State.readKey State.pendingAt
  obtain rfl | rfl | rfl := h
  · rfl
  · rw [modArr_fhb, modArr_stored]
    by_cases hk : keyArr k = e.arr
    · rw [hk, modArr_arr, hlist]
    · rw [modArr_other _ _ hk]
  · rw [State.modMram_mram, hlist]
    rfl

theorem QueuesOne.onlyIssues {e : WEntry} {i : SysItem} {s t : State} (h : QueuesOne e s t) (he : e.tgt = .sys i) : OnlyIssues s t := by
  refine ⟨?_, h.readKey he⟩
  obtain rfl | rfl | rfl := h
  · rfl
  · cases e.arr <;> rfl
  · rfl

theorem QueuesOne.waitsFor {e : WEntry} {i : SysItem} {s t : State} (h : QueuesOne e s t) (he : e.tgt = .sys i) : WaitsFor e.arr i t := by
  refine ⟨e, ?_, he, rfl⟩
  obtain rfl | rfl | rfl := h <;> simp

theorem QueuesOne.frame {e : WEntry} {s t : State} (h : QueuesOne e s t) : t = { s with mram := t.mram } := by
  obtain rfl | rfl | rfl := h <;> rfl

/-- Issuing an unpaired word of the system area changes the write path alone; its write waits for array A, and no read sees it.  The word's
index, its way through the write path and the slot it is charged to are the model's choice: log entries 11, 91 and 92. -/
theorem sysPlain_issues (idx : Nat) (slot : Fin 8) (s : State) :
    sysPlain idx slot s = { s with mram := (sysPlain idx slot s).mram } ∧ OnlyIssues s (sysPlain idx slot s) ∧
      WaitsFor .A (.plain idx) (sysPlain idx slot s) := by
  have h : QueuesOne (sysHalf (.plain idx) .A slot 0) s (sysPlain idx slot s) := sysIssue_queuesOne rfl s
  exact ⟨h.frame, h.onlyIssues rfl, h.waitsFor rfl⟩

/-! ### Blocks -/

/-- An entry that is set is read back, whatever the table's order. -/
theorem lookup_store_some {α : Type} (k : Nat) (a : α) (l : List (Nat × α)) : lookup k (store k (some a) l) = some a := by
  induction l with
  | nil => simp [store, lookup]
  | cons x t ih =>
    obtain ⟨j, b⟩ := x
    unfold store
    split
    · rw [lookup, if_neg (by omega), ih]
    · split <;> simp [lookup]

/-- A block that the checks pass is the slot's, and its word is issued. -/
theorem sknAlloc_granted {b : Byte} {m : Fin 8} {s : State} (hb : b ≠ 0) (hfree : lookup b.toNat s.skn.blocks = none)
    (hm : s.tenants[m].owned = true) :
    ∃ mr, sknAlloc b m s =
        { s with skn := { s.skn with blocks := store b.toNat (some m) s.skn.blocks, alBlock := b, alSlot := m, alRes := 0 }, mram := mr } ∧
      OnlyIssues s { s with mram := mr } ∧ WaitsFor .A (.plain (blockIdx b.toNat)) { s with mram := mr } := by
  obtain ⟨hframe, hissues, hwaits⟩ := sysPlain_issues (blockIdx b.toNat) 0
    (s.modSkn fun k => { k with alBlock := b, alSlot := m, blocks := store b.toNat (some m) k.blocks })
  refine ⟨_, ?_, hissues, hwaits⟩
  simp only [sknAlloc, hb, if_false, State.modSkn_skn, State.modSkn_tenants, hfree, hm, Option.isSome_none, Bool.not_true, Bool.false_eq_true]
  exact congrArg (State.modSkn · fun k => { k with alRes := 0 }) hframe

theorem exec_sknAlloc {p : Port} {s : State} (h : Reached p 0x800 0 s) (b : Byte) (m : Fin 8) :
    exec (.sknAlloc p b m) s = .next (sknAlloc b m s) := by
  obtain ⟨hw, hr⟩ := h
  exact congrArg Host.Outcome.next (atSlot0_zero _ hw hr)

/-- The RESULT of a request for a block. -/
def allocResult (b : Byte) (m : Fin 8) (s : State) : BitVec 3 :=
  if b = 0 then 2 else if (lookup b.toNat s.skn.blocks).isSome then 1 else if s.tenants[m].owned then 0 else 3

/-- A request that fails a check holds its fields and says why. -/
theorem sknAlloc_refused {b : Byte} {m : Fin 8} {s : State} (h : allocResult b m s ≠ 0) :
    sknAlloc b m s = { s with skn := { s.skn with alBlock := b, alSlot := m, alRes := allocResult b m s } } := by
  unfold allocResult at h ⊢
  by_cases hb : b = 0
  · simp only [sknAlloc, if_pos hb]
    rfl
  by_cases howned : (lookup b.toNat s.skn.blocks).isSome = true
  · simp only [sknAlloc, if_neg hb, State.modSkn_skn, if_pos howned]
    rfl
  by_cases hm : s.tenants[m].owned = true
  · exact absurd (by rw [if_neg hb, if_neg howned, if_pos hm]) h
  · simp only [sknAlloc, if_neg hb, State.modSkn_skn, State.modSkn_tenants, if_neg howned, hm, Bool.not_false, if_true]
    rfl

/-! ### Quotas -/

/-- A quota that fits is the slot's, and its word is issued. -/
theorem sknQuota_granted {m : Fin 8} {q : Nat} {s : State} (hsum : s.quotaSum - s.tenants[m].quota + q ≤ 3840) (hused : s.tenants[m].used ≤ q) :
    ∃ mr, sknQuota_ m q s = { s with tenants := upd s.tenants m fun t => { t with quota := q }, mram := mr } ∧
      OnlyIssues s { s with mram := mr } ∧ WaitsFor .A (.plain (quotaIdx m.val)) { s with mram := mr } := by
  obtain ⟨hframe, hissues, hwaits⟩ := sysPlain_issues (quotaIdx m.val) 0 (s.modTen m fun t => { t with quota := q })
  refine ⟨_, ?_, hissues, hwaits⟩
  simp only [sknQuota_, Bool.or_eq_true, decide_eq_true_eq, if_neg (not_or.mpr ⟨Nat.not_lt.mpr hsum, Nat.not_lt.mpr hused⟩)]
  exact hframe

theorem sknQuota_refused {m : Fin 8} {q : Nat} {s : State} (h : 3840 < s.quotaSum - s.tenants[m].quota + q ∨ q < s.tenants[m].used) :
    sknQuota_ m q s = s := by
  simp only [sknQuota_, Bool.or_eq_true, decide_eq_true_eq, if_pos h]

theorem exec_sknQuotaWrite {p : Port} {m : Fin 8} {s : State} (h : Reached p (0x810 + 4 * m.val) 0 s) (q : BitVec 12) :
    exec (.sknQuotaWrite p m q) s = .next (sknQuota_ m q.toNat s) := by
  obtain ⟨hw, hr⟩ := h
  exact congrArg Host.Outcome.next (atSlot0_zero _ hw hr)

/-! ### A reserved operation -/

theorem sknBadOpGo_reserved {op : BitVec 4} (n : Fin 8) (sk : BitVec 16) (s : State) (h : op = 0 ∨ 7 ≤ op.toNat) :
    sknBadOpGo n sk op s = s.modTen n fun t => { t with sknSel := sk, sknOp := op, sknRes := 0xC } := by
  have hreserved : ¬ (1 ≤ op.toNat ∧ op.toNat ≤ 6) := by
    rcases h with rfl | h
    · decide
    · omega
  simp only [sknBadOpGo, Bool.and_eq_true, decide_eq_true_eq, if_neg hreserved]
  simp [setSknRes, State.modTen, upd, sknBadOp]

theorem exec_sknSelBadOp {p : Port} {n : Fin 8} {s : State} (h : Reached p 0x840 n s) (sk : BitVec 16) (op : BitVec 4) :
    exec (.sknSelBadOp p sk op) s = .next (sknBadOpGo n sk op s) := by
  obtain ⟨hw, hr⟩ := h
  exact congrArg Host.Outcome.next (atWindow_slot _ hw hr)

/-- Settles O36: each request, past its gate, is refused by a check or makes its one change and issues one word of the system area. -/
theorem blocksAndQuotasAreGranted : Obligations.BlocksAndQuotasAreGranted := by
  intro p b m q n sk op s
  refine ⟨fun h => ⟨fun hb hfree hm => ?_, fun r hres hr0 => ?_⟩, fun h => ⟨fun hsum hused => ?_, fun hbad => ?_⟩, fun h hop => ?_⟩
  · obtain ⟨mr, hgrant, hissues, hwaits⟩ := sknAlloc_granted hb hfree hm
    rw [exec_sknAlloc h, hgrant]
    exact ⟨_, rfl, rfl, lookup_store_some _ _ _, fun _ hx => lookup_store_other _ _ hx, rfl, hissues, hwaits⟩
  · subst hres
    rw [exec_sknAlloc h, sknAlloc_refused hr0]
    rfl
  · obtain ⟨mr, hgrant, hissues, hwaits⟩ := sknQuota_granted hsum hused
    rw [exec_sknQuotaWrite h, hgrant]
    exact ⟨_, rfl, upd_same _ m _, fun i hi => upd_ne _ m i _ hi, rfl, hissues, hwaits⟩
  · rw [exec_sknQuotaWrite h, sknQuota_refused hbad]
  · rw [exec_sknSelBadOp h, sknBadOpGo_reserved n sk s hop]
    exact ⟨_, rfl, upd_same _ n _, fun i hi => upd_ne _ n i _ hi, rfl⟩

end Sys2Proof.Machine

/-! PROOFS. The radio's channels and symbols (R244, R246, R247, R254, R255, R261, R262, R267, R271, R272).  The three register writes are one
change of the radio's registers and at most one word of the system area; the rest is about lists and numbers: the hopping list is reached by swaps, the symbols
of a frame are counted by the recursion that makes them, and the CRC-5 register keeps apart what one changed bit has set apart. -/

namespace Sys2Proof.Machine

/-! ### The words of the radio's settings -/

theorem settingWord_w2 : settingWord 0 0x1000 = some (147125, 0) := by decide

theorem settingWord_hopmask (i : Fin 7) : settingWord 0 (0x1080 + 4 * i.val) = some (147145 + i.val, 0) := by
  revert i
  decide

/-- A setting register with a word of its own issues that word. -/
theorem sysSetting_of_word {n m : Fin 8} {off idx : Nat} (h : settingWord n off = some (idx, m)) (s : State) :
    sysSetting n off s = sysPlain idx m s := by
  simp only [sysSetting, h]

/-! ### The channel, the mask and the legacy PHY -/

theorem exec_phyChanWrite {p : Port} {s : State} (h : Reached p 0x1014 0 s) (ch : Byte) :
    exec (.phyChanWrite p ch) s = .next (chanWrite ch s) := by
  obtain ⟨hw, hr⟩ := h
  exact congrArg Host.Outcome.next (atSlot0_zero _ hw hr)

theorem exec_phyHopmaskWrite {p : Port} {i : Fin 7} {s : State} (h : Reached p (0x1080 + 4 * i.val) 0 s) (v : Word32) :
    exec (.phyHopmaskWrite p i v) s = .next (hopmaskWrite i v s) := by
  obtain ⟨hw, hr⟩ := h
  exact congrArg Host.Outcome.next (atSlot0_zero _ hw hr)

theorem exec_compatW2PhyWrite {p : Port} {s : State} (h : Reached p 0x1000 0 s) (b : Bool) :
    exec (.compatW2PhyWrite p b) s = .next (w2Write b s) := by
  obtain ⟨hw, hr⟩ := h
  exact congrArg Host.Outcome.next (atSlot0_zero _ hw hr)

/-- t has the radio's state ph, and the word idx of the system area issued besides; every other part is that of s. -/
def SetsPhy (ph : Phy) (idx : Nat) (s t : State) : Prop :=
  t = { s with phy := ph, mram := t.mram } ∧ OnlyIssues s t ∧ WaitsFor .A (.plain idx) t

theorem sysPlain_setsPhy (idx : Nat) (f : Phy → Phy) (s : State) : SetsPhy (f s.phy) idx s (sysPlain idx 0 (s.modPhy f)) := by
  obtain ⟨hframe, hissues, hwaits⟩ := sysPlain_issues idx 0 (s.modPhy f)
  exact ⟨hframe, hissues, hwaits⟩

theorem chanWrite_taken {ch : Byte} {s : State} (h : s.channelOk ch.toNat = true) :
    SetsPhy { s.phy with fixed := ch } channelIdx s (chanWrite ch s) := by
  rw [chanWrite, if_pos h]
  exact sysPlain_setsPhy channelIdx (fun p => { p with fixed := ch }) s

theorem chanWrite_refused {ch : Byte} {s : State} (h : s.channelOk ch.toNat = false) : chanWrite ch s = s := by
  simp [chanWrite, h]

/-- The channels that a write of mask register i is judged by: those it leaves of the region, or of every channel where none hops (R247). -/
def State.maskLeaves (s : State) (i : Fin 7) (v : Word32) : List Nat :=
  (if s.hopping then regionChannels s.region else List.range 208).filter fun c => !masked (s.phy.hopmask.set i v) c

theorem hopmaskWrite_taken {i : Fin 7} {v : Word32} {s : State} (h : 50 ≤ (s.maskLeaves i v).length) :
    SetsPhy { s.phy with hopmask := s.phy.hopmask.set i v, rebuild := true } (147145 + i.val) s (hopmaskWrite i v s) := by
  have heq : hopmaskWrite i v s = sysSetting 0 (0x1080 + 4 * i.val)
      (s.modPhy fun p => { p with hopmask := s.phy.hopmask.set i v, rebuild := true }) := if_neg (Nat.not_lt.mpr h)
  rw [heq, sysSetting_of_word (settingWord_hopmask i)]
  exact sysPlain_setsPhy _ (fun p => { p with hopmask := s.phy.hopmask.set i v, rebuild := true }) s

theorem hopmaskWrite_refused {i : Fin 7} {v : Word32} {s : State} (h : ¬ 50 ≤ (s.maskLeaves i v).length) :
    hopmaskWrite i v s = { s with phy := { s.phy with maskRef := true } } := if_pos (Nat.lt_of_not_le h)

/-- Where the word of W2_PHY has been issued, settling takes the PHY that the state before would take. -/
theorem settleCompat_setsPhy (ph : Phy) {idx : Nat} {s t : State} (htx : ph.txPhase = s.phy.txPhase) (h : SetsPhy ph idx s t) :
    SetsPhy { ph with active := if s.radioIdle then (ph.strap || ph.w2) && !s.compatDisabled else ph.active } idx s (settleCompat t) := by
  obtain ⟨hframe, hissues, hwaits⟩ := h
  have hphy : t.phy = ph := congrArg State.phy hframe
  have hidle : t.radioIdle = s.radioIdle := by simp only [State.radioIdle, hphy, htx]
  have hdis : t.compatDisabled = s.compatDisabled := by rw [hframe]; rfl
  have hsettled : settleCompat t =
      { t with phy := { ph with active := if s.radioIdle then (ph.strap || ph.w2) && !s.compatDisabled else ph.active } } := by
    rw [settleCompat, hidle]
    split
    · simp only [State.modPhy, hphy, hdis]
    · rw [← hphy]
  rw [hsettled]
  refine ⟨?_, hissues, hwaits⟩
  rw [hframe]

theorem w2Write_setsPhy (b : Bool) (s : State) :
    SetsPhy { s.phy with w2 := b, active := if s.radioIdle then (s.phy.strap || b) && !s.compatDisabled else s.phy.active } 147125 s
      (w2Write b s) := by
  rw [w2Write, sysSetting_of_word settingWord_w2]
  exact settleCompat_setsPhy { s.phy with w2 := b } rfl (sysPlain_setsPhy 147125 (fun p => { p with w2 := b }) s)

/-! ### A minute rolls over -/

theorem dutyRoll_duty (j : Fin 5) (s : State) :
    (dutyRoll s).phy.duty[j] = if s.hopping then [] else 0 :: s.phy.duty[j].take 59 := by
  cases h : s.hopping <;> simp [dutyRoll, h]

theorem dutyRoll_length_le (j : Fin 5) (s : State) : (dutyRoll s).phy.duty[j].length ≤ 60 := by
  rw [dutyRoll_duty]
  split
  · simp
  · rw [List.length_cons]
    exact Nat.succ_le_succ (List.length_take_le 59 _)

theorem dutyUsed_dutyRoll (j : Fin 5) (s : State) :
    (dutyRoll s).dutyUsed j = if s.hopping then 0 else (s.phy.duty[j].take 59).sum := by
  rw [State.dutyUsed, dutyRoll_duty]
  split <;> simp

/-- A rolled minute forgets the time sent in the oldest one, and no other. -/
theorem dutyUsed_dutyRoll_le (j : Fin 5) (s : State) : (dutyRoll s).dutyUsed j ≤ s.dutyUsed j := by
  rw [dutyUsed_dutyRoll, State.dutyUsed]
  split
  · exact Nat.zero_le _
  · have hsum := congrArg List.sum (List.take_append_drop 59 s.phy.duty[j])
    rw [List.sum_append_nat] at hsum
    exact hsum ▸ Nat.le_add_right _ _

theorem dutyUsed_dutyRoll_of_length {j : Fin 5} {s : State} (hh : s.hopping = false) (hl : s.phy.duty[j].length < 60) :
    (dutyRoll s).dutyUsed j = s.dutyUsed j := by
  rw [dutyUsed_dutyRoll, hh, List.take_of_length_le (Nat.le_of_lt_succ hl)]
  rfl

/-! ### The hopping list -/

/-- Two elements of a list change places. -/
theorem swap_perm {l : List Nat} {i j : Nat} (hi : i < l.length) (hj : j < l.length) :
    ((l.set i (l.getD j 0)).set j (l.getD i 0)).Perm l := by
  have hget {k : Nat} (hk : k < l.length) : l.getD k 0 = l[k] := by rw [List.getD_eq_getElem?_getD, List.getElem?_eq_getElem hk, Option.getD_some]
  rw [hget hi, hget hj]
  exact List.set_set_perm hi hj

/-- The shuffle swaps elements of the list, whatever the generator gives. -/
theorem shuffle_perm (n : Nat) (x : BitVec 16) {l : List Nat} (h : n ≤ l.length - 1) : (shuffle n x l).Perm l := by
  induction n generalizing x l with
  | zero => exact .refl l
  | succ n ih =>
    rw [shuffle]
    have hj : (iter hopStep 16 x).toNat % (n + 2) < n + 2 := Nat.mod_lt _ (by omega)
    exact (ih _ (by simp only [List.length_set]; omega)).trans (swap_perm (by omega) (by omega))

theorem buildHop_perm (s : State) : s.buildHop.Perm ((regionChannels s.region).filter fun c => !masked s.phy.hopmask c) :=
  shuffle_perm _ _ (Nat.le_refl _)

/-! ### The symbols of a frame -/

@[simp] theorem symbolOf_length (shape : Word128) (f : Nat → Point) : (symbolOf shape f).length = 32 := by simp [symbolOf]

theorem loadedSymbols_length (shape : Word128) (map : BitVec 72) (m n : Nat) (bits : List Bool) :
    (loadedSymbols shape map m n bits).length = m := by
  induction m generalizing n bits with
  | zero => rfl
  | succ m ih => rw [loadedSymbols, List.length_cons, ih]

theorem robustSymbols_length (shape : Word128) (g n : Nat) (bits : List Bool) : (robustSymbols shape g n bits).length = 4 * g := by
  induction g generalizing n bits with
  | zero => rfl
  | succ g ih =>
    rw [robustSymbols, List.length_append, ih, List.length_map, List.length_range]
    omega

theorem length_of_mem_loadedSymbols {shape : Word128} {map : BitVec 72} {m n : Nat} {bits : List Bool} {x : List Point}
    (h : x ∈ loadedSymbols shape map m n bits) : x.length = 32 := by
  induction m generalizing n bits with
  | zero => cases h
  | succ m ih =>
    rcases List.mem_cons.mp h with rfl | h
    · exact symbolOf_length _ _
    · exact ih h

theorem length_of_mem_robustSymbols {shape : Word128} {g n : Nat} {bits : List Bool} {x : List Point}
    (h : x ∈ robustSymbols shape g n bits) : x.length = 32 := by
  induction g generalizing n bits with
  | zero => cases h
  | succ g ih =>
    rcases List.mem_append.mp h with h | h
    · obtain ⟨c, -, rfl⟩ := List.mem_map.mp h
      exact symbolOf_length _ _
    · exact ih h

/-- Robust data symbols come in groups of four (R262). -/
theorem four_dvd_dataSymbols_robust (ncbps n : Nat) : 4 ∣ dataSymbols 3 ncbps n := Nat.dvd_mul_right 4 _

theorem frameSymbols_length (shape : Word128) (rate : BitVec 2) (tmap : BitVec 4) (map : BitVec 72) (psdu : List Byte) :
    (frameSymbols shape rate tmap map psdu).length = 5 + dataSymbols rate (cbps map) psdu.length := by
  have hdvd (h : rate = 3) := h ▸ four_dvd_dataSymbols_robust (cbps map) psdu.length
  simp only [frameSymbols, List.length_append, List.length_replicate, List.length_singleton, apply_ite List.length,
    robustSymbols_length, loadedSymbols_length]
  split
  next hrate => rw [Nat.mul_div_cancel' (hdvd hrate)]
  next => rfl

theorem length_of_mem_frameSymbols {shape : Word128} {rate : BitVec 2} {tmap : BitVec 4} {map : BitVec 72} {psdu : List Byte} {x : List Point}
    (h : x ∈ frameSymbols shape rate tmap map psdu) : x.length = 32 := by
  rcases List.mem_append.mp h with h | h
  · rcases List.mem_append.mp h with h | h
    · rw [List.eq_of_mem_replicate h]
      exact symbolOf_length _ _
    · rw [List.mem_singleton.mp h]
      exact symbolOf_length _ _
  · split at h
    · exact length_of_mem_robustSymbols h
    · exact length_of_mem_loadedSymbols h

/-! ### The number of data symbols -/

/-- A quotient rounded up: one more than the quotient where there is a remainder. -/
def quotUp (a b : Nat) : Nat := a / b + if a % b = 0 then 0 else 1

theorem add_sub_one_div (a : Nat) {b : Nat} (hb : 0 < b) : (a + b - 1) / b = quotUp a b := by
  have hmod := Nat.mod_lt a hb
  have hsplit : a + b - 1 = b * (a / b) + (a % b + b - 1) := by
    have := Nat.div_add_mod a b
    omega
  rw [hsplit, Nat.mul_add_div hb, quotUp]
  congr 1
  split
  · exact Nat.div_eq_of_lt (by omega)
  · exact Nat.div_eq_of_lt_le (by omega) (by omega)

/-- The number of coded bits, then of symbols, each rounded up (R255). -/
theorem add_sub_one_div_twice (a : Nat) {b c : Nat} (hb : 0 < b) (hc : 0 < c) : ((a + b - 1) / b + c - 1) / c = quotUp (quotUp a b) c := by
  rw [add_sub_one_div _ hc, add_sub_one_div _ hb]

theorem frameUs_multitone {s : State} (h : s.phy.active = false) (f : TxFrame) :
    s.frameUs f = (5 + dataSymbols (s.txForm f.nb).rate (cbps (s.txForm f.nb).map) f.bytes) * 288 := by
  simp only [State.frameUs, h, Bool.false_eq_true, if_false, TxForm.us, symUs, Nat.mul_comm]

/-! ### The length word (R254) -/

theorem getLsbD_bitAt {w : Nat} (i j : Nat) (b : Bool) : (bitAt i b : BitVec w).getLsbD j = (decide (j < w) && decide (j = i) && b) := by
  cases b
  · simp [bitAt]
  · simp only [bitAt, if_true, BitVec.ofNat_eq_ofNat, BitVec.getLsbD_shiftLeft, BitVec.getLsbD_one]
    grind

/-- The CRC-5 register from r, after the bits at the places of a list. -/
def crcOver (r : BitVec 5) (bit : Nat → Bool) (l : List Nat) : BitVec 5 := l.foldl (fun r i => crc5Step r (bit i)) r

/-- Registers that differ still differ after one bit, and so do those of one register after two bits that differ. -/
theorem crc5Step_ne {q r : BitVec 5} {a b : Bool} (h : q ≠ r ∧ a = b ∨ q = r ∧ a ≠ b) : crc5Step q a ≠ crc5Step r b := by
  revert q r a b
  decide

theorem crcOver_cons (r : BitVec 5) (f : Nat → Bool) (i : Nat) (l : List Nat) : crcOver r f (i :: l) = crcOver (crc5Step r (f i)) f l := rfl

theorem crcOver_congr {f g : Nat → Bool} {l : List Nat} (r : BitVec 5) (h : ∀ i ∈ l, f i = g i) : crcOver r f l = crcOver r g l := by
  induction l generalizing r with
  | nil => rfl
  | cons i l ih =>
    obtain ⟨hi, hl⟩ := List.forall_mem_cons.mp h
    rw [crcOver_cons, crcOver_cons, hi, ih _ hl]

/-- Equal bits keep registers apart that differ. -/
theorem crcOver_ne_of_register {f g : Nat → Bool} {l : List Nat} {q r : BitVec 5} (hqr : q ≠ r) (h : ∀ i ∈ l, f i = g i) :
    crcOver q f l ≠ crcOver r g l := by
  induction l generalizing q r with
  | nil => exact hqr
  | cons i l ih =>
    obtain ⟨hi, hl⟩ := List.forall_mem_cons.mp h
    exact ih (crc5Step_ne (.inl ⟨hqr, hi⟩)) hl

/-- Bits that differ at one place alone leave registers that differ. -/
theorem crcOver_ne_of_bit {f g : Nat → Bool} {j : Nat} {l : List Nat} (r : BitVec 5) (hl : l.Nodup) (hj : j ∈ l) (hbit : f j ≠ g j)
    (h : ∀ i ∈ l, i ≠ j → f i = g i) : crcOver r f l ≠ crcOver r g l := by
  induction l generalizing r with
  | nil => cases hj
  | cons i l ih =>
    obtain ⟨hil, hl⟩ := List.nodup_cons.mp hl
    obtain ⟨hi, hrest⟩ := List.forall_mem_cons.mp h
    rw [crcOver_cons, crcOver_cons]
    by_cases hij : i = j
    · subst hij
      exact crcOver_ne_of_register (crc5Step_ne (.inr ⟨rfl, hbit⟩)) fun k hk => hrest k hk fun hki => hil (hki ▸ hk)
    · rw [hi hij]
      exact ih _ hl ((List.mem_cons.mp hj).resolve_left (Ne.symm hij)) hrest

/-- The CRC-5 of a length word. -/
def lengthCrc (n : Nat) : BitVec 5 := crcOver (BitVec.allOnes 5) n.testBit (List.range 11)

/-- The bits of a length word: those of N, and the register from its top bit down (R254). -/
theorem lengthWord_getLsbD (n : Nat) {i : Nat} (hi : i < 16) :
    (lengthWord n).getLsbD i = if i < 11 then n.testBit i else (lengthCrc n).getLsbD (15 - i) := by
  have hlow (k : Nat) : (BitVec.ofNat 16 (n % 2048)).getLsbD k = (decide (k < 11) && n.testBit k) := by
    rw [BitVec.getLsbD_ofNat, show 2048 = 2 ^ 11 from rfl, Nat.testBit_mod_two_pow]
    grind
  have hcrc : (List.range 11).foldl (fun r k => crc5Step r ((BitVec.ofNat 16 (n % 2048)).getLsbD k)) (BitVec.allOnes 5) = lengthCrc n :=
    crcOver_congr _ fun k hk => by rw [hlow, decide_eq_true (List.mem_range.mp hk), Bool.true_and]
  rw [lengthWord, hcrc]
  simp only [show List.range 5 = [0, 1, 2, 3, 4] from rfl, List.foldl_cons, List.foldl_nil, BitVec.getLsbD_or, getLsbD_bitAt, hlow]
  have hcases : i < 11 ∨ i = 11 ∨ i = 12 ∨ i = 13 ∨ i = 14 ∨ i = 15 := by omega
  rcases hcases with hlt | rfl | rfl | rfl | rfl | rfl
  · have hne (k : Nat) : i ≠ 11 + k := by omega
    simp only [hlt, hne, decide_true, decide_false, if_true, Bool.true_and, Bool.and_false, Bool.false_and, Bool.or_false]
  all_goals simp

/-- The length word is made of the low 11 bits of N. -/
theorem lengthWord_congr {n m : Nat} (h : ∀ i < 11, n.testBit i = m.testBit i) : lengthWord n = lengthWord m := by
  have hcrc : lengthCrc n = lengthCrc m := crcOver_congr _ fun i hi => h i (List.mem_range.mp hi)
  refine BitVec.eq_of_getLsbD_eq fun i hi => ?_
  rw [lengthWord_getLsbD n hi, lengthWord_getLsbD m hi, hcrc]
  split
  next hlow => exact h i hlow
  next => rfl

/-- A length word passes its check where it is the length word of its own low bits. -/
theorem lengthOk_iff (w : BitVec 16) : lengthOk w = true ↔ w = lengthWord w.toNat := by
  have hlow : lengthWord (field w 10 0) = lengthWord w.toNat :=
    lengthWord_congr fun i hi => by rw [field, Nat.testBit_mod_two_pow]; simp [hi]
  rw [lengthOk, decide_eq_true_eq, hlow]

theorem lengthOk_lengthWord (n : Nat) : lengthOk (lengthWord n) = true :=
  (lengthOk_iff _).mpr (lengthWord_congr fun i hi => by
    rw [← BitVec.getLsbD, lengthWord_getLsbD n (by omega), if_pos hi])

/-- Two length words never differ in one bit alone: one of N changes the CRC-5 with it. -/
theorem lengthWord_xor_ne_bitAt (n m : Nat) {j : Nat} (hj : j < 16) : lengthWord m ≠ lengthWord n ^^^ bitAt j true := by
  intro h
  have hbit (i : Nat) (hi : i < 16) : (lengthWord m).getLsbD i = ((lengthWord n).getLsbD i ^^ decide (i = j)) := by
    rw [h, BitVec.getLsbD_xor, getLsbD_bitAt, decide_eq_true hi, Bool.true_and, Bool.and_true]
  have hlow (i : Nat) (hi : i < 11) : m.testBit i = (n.testBit i ^^ decide (i = j)) := by
    have := hbit i (by omega)
    rwa [lengthWord_getLsbD m (by omega), lengthWord_getLsbD n (by omega), if_pos hi, if_pos hi] at this
  by_cases hj11 : j < 11
  · refine crcOver_ne_of_bit (f := m.testBit) (g := n.testBit) (BitVec.allOnes 5) List.nodup_range (List.mem_range.mpr hj11) (by simp [hlow j hj11])
      (fun i hi hij => by simp [hlow i (List.mem_range.mp hi), hij]) ?_
    refine BitVec.eq_of_getLsbD_eq fun k hk => ?_
    have hhigh := hbit (15 - k) (by omega)
    rw [lengthWord_getLsbD m (by omega), lengthWord_getLsbD n (by omega), if_neg (by omega), if_neg (by omega),
      decide_eq_false (by omega), Bool.xor_false, show 15 - (15 - k) = k by omega] at hhigh
    exact hhigh
  · have hsame : lengthWord m = lengthWord n := lengthWord_congr fun i hi => by
      rw [hlow i hi, decide_eq_false (by omega), Bool.xor_false]
    have := hbit j hj
    simp [hsame] at this

theorem lengthOk_changed_bit (n : Nat) {j : Nat} (hj : j < 16) : lengthOk (lengthWord n ^^^ bitAt j true) = false := by
  rw [Bool.eq_false_iff, Ne, lengthOk_iff]
  exact fun h => lengthWord_xor_ne_bitAt n _ hj h.symm

/-! ### Power (R267) -/

theorem regCap_le (s : State) : s.regCap ≤ 52 ∧ 50 * (s.regCap : Int) ≤ max 0 (s.eirp - s.antGain + 1000) := by
  unfold State.regCap
  omega

theorem appliedPower_le (req : Nat) (s : State) : s.appliedPower req ≤ req ∧ s.appliedPower req ≤ s.regCap :=
  ⟨Nat.min_le_left _ _, Nat.le_trans (Nat.min_le_right _ _) (Nat.min_le_left _ _)⟩

/-! ### The statement -/

/-- Settles O48: each write, past its gate, is one change of the radio's registers with its word issued, or the refusal's; the list, the symbols, the
length word and the power follow from their own lemmas.  The words' indices and their way through array A are the model's choice: log entries 11,
91 and 92. -/
theorem channelsAndSymbolsFollowTheRegion : Obligations.ChannelsAndSymbolsFollowTheRegion := by
  refine ⟨fun p ch i v b s => ⟨fun h => ⟨fun hok => ?_, fun hno => ?_⟩, fun h => ?_, fun h => ?_, ?_⟩,
    fun n j s shape rate tmap map psdu req => ⟨buildHop_perm s, frameSymbols_length shape rate tmap map psdu,
      fun x hx => length_of_mem_frameSymbols hx, fun hc => ?_, fun f ha => frameUs_multitone ha f, lengthOk_lengthWord n,
      lengthOk_changed_bit n, ?_⟩⟩
  · exact ⟨_, exec_phyChanWrite h ch, chanWrite_taken hok⟩
  · rw [exec_phyChanWrite h ch, chanWrite_refused hno]
  · refine ⟨_, exec_phyHopmaskWrite h v, ?_⟩
    have hleft (hh : s.hopping = true) :
        s.maskLeaves i v = (regionChannels s.region).filter fun c => !masked (s.phy.hopmask.set i v) c := by
      rw [State.maskLeaves, if_pos hh]
    by_cases h50 : 50 ≤ (s.maskLeaves i v).length
    · refine ⟨fun hh => ?_, .inl (hopmaskWrite_taken h50)⟩
      rw [if_pos (hleft hh ▸ h50)]
      exact hopmaskWrite_taken h50
    · refine ⟨fun hh => ?_, .inr (hopmaskWrite_refused h50)⟩
      rw [if_neg (hleft hh ▸ h50)]
      exact hopmaskWrite_refused h50
  · exact ⟨_, exec_compatW2PhyWrite h b, w2Write_setsPhy b s⟩
  · refine ⟨dutyRoll s, rfl, rfl, fun k => ⟨dutyRoll_length_le k s, fun hh => ?_, dutyUsed_dutyRoll_le k s, dutyUsed_dutyRoll_of_length⟩⟩
    rw [dutyUsed_dutyRoll, if_pos hh]
  · exact ⟨add_sub_one_div _ hc, add_sub_one_div_twice _ Nat.two_pos hc, add_sub_one_div_twice _ (Nat.succ_pos 2) hc,
      congrArg (4 * ·) (add_sub_one_div _ (Nat.succ_pos 23))⟩
  · obtain ⟨hcap, hregion⟩ := regCap_le s
    obtain ⟨hreq, hle⟩ := appliedPower_le req s
    exact ⟨hreq, by omega, Nat.le_trans hle hcap⟩

end Sys2Proof.Machine
